-- ==== Sys2Proof/Word.lean ====
section
/-! DEFINITION. The word types and their plainest arithmetic. -/

namespace Sys2Proof

/-- A 64-bit scalar, address or counter (01 R11). -/
abbrev Word := BitVec 64

/-- One byte of memory. -/
abbrev Byte := BitVec 8

/-- A 32-bit word of the instruction stream (02 R46). -/
abbrev Word32 := BitVec 32

end Sys2Proof
end

