-- ==== Sys2Proof/Config.lean ====
section
/-! DEFINITION. What the package fixes, and the free values: constants without a body, so that no proof can see a number the
manual does not give. -/

namespace Sys2Proof.Config

/-- Physical memory ends here: 384 GiB (01 R34). -/
def physBytes : Nat := 0x6000000000

/-- Contexts, cores and clusters of the package (01 R9). -/
def contexts : Nat := 16384
def cores : Nat := 1024
def clusters : Nat := 128

/-- Bytes of one cluster's scratchpad (01 R23). -/
def spmBytes : Nat := 0x200000

/-- Entries of a core's inbox and of its overflow heap (12 R253, R255). -/
def inboxEntries : Nat := 64
def heapEntries : Nat := 1024

/-- Entries of a cluster's record store, and those reserved for the cluster's own unit contexts (12 R248). -/
def recordEntries : Nat := 2048
def reservedEntries : Nat := 112

/-- Commands an engine context's store holds (10 R218). -/
def engineStore : Nat := 32

/-- FREE VALUE (log 3). Nanoseconds of REFTIME that pass in the step numbered by the argument; 00 R3 fixes none. -/
opaque elapsed : Nat → Nat

/-- FREE VALUE (log 7). What a load from an MMIO page returns; 15 R295 gives a store's effect only. -/
opaque mmioRead : Nat → Word

/-- FREE VALUE (log 8). The CHECK of a handle, a keyed function, not architectural (15 R287), of the owner and of KIND, GEN and INDEX. -/
opaque handleCheck : Nat → Nat → BitVec 32

/-- FREE VALUE (log 9). The details of an error-log entry whose kind the manual gives none for (15 R296). -/
opaque errDetail : Nat → List (BitVec 64)

/-- FREE VALUE (log 9). Measurement digests 1, 2 and 4 (15 R299). -/
opaque romDigest : List Byte
opaque deviceDigest : Nat → List Byte
opaque vfDigest : Nat → Nat → List Byte

/-- FREE VALUE (log 11). Whether an ML-DSA-87 signature, and an ECDSA P-384 signature of a digest, verify under a public key: of key,
message or digest, and signature (15 R289). -/
opaque mldsaVerify : List Byte → List Byte → List Byte → Bool
opaque ecdsaVerify : List Byte → List Byte → List Byte → Bool

/-- FREE VALUE (log 9). The signed report of some measurements after a nonce, at a moment (15 R299). -/
opaque report : List Byte → List (Nat × List Byte) → Nat → List Byte

/-- FREE VALUE (log 11). The sealed blob that an `EVICT` writes: of the virtual device, its generation, the pod's eviction count and the
moment (15 R294). -/
opaque evictBlob : Nat → Nat → Nat → Nat → List Byte

/-- FREE VALUE (log 37). What an answer over SPDM holds beside what 15 R297 and R299 give: certificates, nonces, signatures. -/
opaque spdmBytes : Nat → List Byte

/-- FREE VALUE (log 22). The fixed hash that selects the port of a pair of source context and target core (18 R349). -/
opaque linkHash : Nat → Nat → Nat

/-- FREE VALUE (log 93). One less than the width in bits, modulo 64, of the counters of the link ports (18 R348). -/
opaque counterBits : Nat

/-- FREE VALUE (log 2). The contexts whose open chunks the signature of a package-level commit at this moment matches without need
(09 R180). -/
opaque falseHits : Nat → List Nat

/-- FREE VALUE (log 2). Whether a commit at this moment meets a parity error in the chunk's own lines (17 R341). -/
opaque parityAt : Nat → Bool

/-- FREE VALUE (log 12). The L1 set of a line; 09 R179 gives neither the geometry nor the hash. -/
opaque l1Set : Nat → Nat

/-- FREE VALUE (log 2). Which of the events and issues that are possible happens next. -/
opaque pick : Nat → Nat

/-- FREE VALUE (log 30). What becomes of a prefetch at this moment: 0 dropped because the line is present, 1 a first access after the
fill, 2 one during it, 3 evicted before any, 4 none of these (10 R210). -/
opaque prefetchFate : Nat → Nat

/-- FREE VALUE (log 35). The row of its stack in which a physical address lies; 16 R338 counts rows and no rule places them. -/
opaque rowOf : Nat → Nat

/-- FREE VALUE (log 110). The stack, modulo 8, and the row under which the error history counts a corrected error outside of HBM. -/
opaque errRow : Nat → Nat

/-- FREE VALUE (log 84). The row at which a switch stops a tile load or store of a context, by moment. -/
opaque cutRow : Nat → Nat → Nat

/-- FREE VALUE (log 34). Lines of its save units that a pod writes at a save, modulo the lines they have. -/
opaque saveLines : Nat → Nat

end Sys2Proof.Config
end

