-- ==== Sys2Proof/Syntax.lean ====
section
/-! DEFINITION. The part's operations and events as syntax: one constructor of `Instr` per row of the opcode table (02 R63 and
95), with the operands that the spec gives each. Rows without an encoding are events: their operands say where the event
happens and what comes from outside the package. -/

namespace Sys2Proof

/-- A scalar operand field: bank in bit 5, index below it (02 R50). -/
inductive SReg where
  | s (n : Fin 32)
  | g (n : Fin 32)
  deriving DecidableEq, Repr

/-- A tile operand field: private `tN` or shared `hN` (02 R50). -/
inductive TReg where
  | t (n : Fin 8)
  | h (n : Fin 8)
  deriving DecidableEq, Repr

/-- A mask operand field (02 R50). -/
abbrev KReg := Fin 8

/-- A field whose operand kind bit says tile or scalar (02 R52). -/
inductive TS where
  | tile (r : TReg)
  | scalar (r : SReg)
  deriving DecidableEq, Repr

/-- Element formats (05 R109). -/
inductive Fmt where
  | i8 | u8 | i16 | i32 | i64 | fp32 | bf16 | fp16 | e4m3 | e5m2 | e2m3 | e3m2 | e2m1 | cb4
  deriving DecidableEq, Repr

/-- Rounding modes (05 R118). -/
inductive Rm where
  | rne | rtz | rup | rdn | rna | sr | rod
  deriving DecidableEq, Repr

/-- The fields of an element prefix as they stand in the word: any values, since a bad prefix is a word that executes and
traps (02 R56, R58). -/
structure Pfx where
  rsv : BitVec 6
  sat : Bool
  xv : Bool
  x : BitVec 6
  mz : Bool
  mask : BitVec 4
  rm : BitVec 3
  fmt : BitVec 5
  deriving DecidableEq, Repr

/-- Replies of a service target (04 R105). -/
inductive Reply where
  | resume | skip | redirect | kill
  deriving DecidableEq, Repr

/-- The two forms of `tcfg` (06 R134): the fields of a shape as they stand, or a launch preset. -/
inductive TCfg where
  | imm (cbsel : BitVec 2) (scaled : Bool) (fmt : BitVec 5) (rows : BitVec 7) (cols : BitVec 9)
  | preset (n : BitVec 3)
  deriving DecidableEq, Repr

/-- Reduction axes (06 R145). -/
inductive Axis where
  | row | col | all
  deriving DecidableEq, Repr

/-- The formats an `mma` names (07 R157). -/
structure MmaFmt where
  af : Fmt
  bf : Fmt
  mx : Bool
  deriving DecidableEq, Repr

/-- Codebook and tile index of a scratchpad operand of an `mma` (07 R157). -/
structure SpSel where
  cb : BitVec 2
  ti : BitVec 4
  deriving DecidableEq, Repr

/-- Formats of a reduction (10 R212). -/
inductive RedFmt where
  | fp32 | bf16 | i32
  deriving DecidableEq, Repr

/-- Relations of `wait.mem` (10 R215). -/
inductive Cc where
  | eq | ne | geu | ltu | ge | lt
  deriving DecidableEq, Repr

/-- Fields of a copy command (10 R222). -/
structure CpyF where
  cbk : Bool
  cbv : Bool
  cbn : BitVec 5
  ndm : BitVec 3
  esz : BitVec 2
  dsp : Bool
  ssp : Bool
  e : BitVec 4
  deriving DecidableEq, Repr

/-- Collective kinds (10 R229). -/
inductive CollKind where
  | allreduce | redscatter | allgather
  deriving DecidableEq, Repr

/-! ## What events carry -/

/-- What decides one grant beside the state: the contexts whose open chunks a Bloom signature squashes without need (09 R180),
whether a parity error is met in the chunk's own lines (17 R341), and whether the grant is held back for another (09 R185). -/
structure CommitObs where
  falseHits : List Nat
  parity : Bool
  deriving DecidableEq, Repr

/-- The power arbiter's estimate for one die: the power in W that it expects at each clock step, the fastest first, and the ring
tokens it sets (18 R355). -/
structure Estimate where
  watts : List Nat
  ringtok : Nat
  deriving DecidableEq, Repr

/-- What the arbiter finds in one period: each die's estimates, and the module power measured (18 R353, R355). -/
structure PowerPeriod where
  est : List Estimate
  power : BitVec 16
  deriving DecidableEq, Repr

/-- Header of a received flit and the port it came in on (18 R349). -/
structure LinkHdr where
  port : Fin 12
  src : BitVec 8
  dst : BitVec 8
  lseq : BitVec 12
  ack : BitVec 12
  credits : BitVec 8
  deriving DecidableEq, Repr

/-- The operation header (18 R350). -/
structure OpHdr where
  srcCtx : BitVec 14
  tgtCore : BitVec 10
  rid : BitVec 32
  tenant : BitVec 128
  interval : BitVec 32
  seq : BitVec 32
  addr : Word
  deriving DecidableEq, Repr

/-- Full/empty operations carried between chips (18 R350). -/
inductive FeOp where
  | put | take | peekWord | peekState
  deriving DecidableEq, Repr

/-- Payload of a COLL flit (18 R350). -/
structure CollMsg where
  engine : BitVec 16
  interval : BitVec 32
  seq : BitVec 32
  cid : BitVec 32
  ck : CollKind
  bf16 : Bool
  grp : BitVec 8
  step : BitVec 16
  first : Word
  elems : List Nat
  deriving DecidableEq, Repr

/-- What a host access names: a function (0 the physical one), a BAR and an offset in it (18 R345). -/
structure HostReg where
  fn : Nat
  bar : Nat
  off : Nat
  deriving DecidableEq, Repr

/-- What decides a command of the host beside its entry in queue `q` and host memory: whether the function may reach the bus addresses
that it names (15 R295, R311), and the free units of memory that the Husk chooses for an image (15 R304). -/
structure HostIn where
  q : Nat
  busOk : Bool
  frames : List Nat
  deriving DecidableEq, Repr

/-- Types of the objects that a DOE mailbox takes (15 R298); `discovery` carries the index it asks for. -/
inductive DoeObj where
  | discovery (index : Nat) | cmaSpdm | securedSpdm
  deriving DecidableEq, Repr

/-- What a NEGOTIATE_ALGORITHMS offers of the algorithms of 15 R297. -/
structure SpdmAlgs where
  ecdsaP384 : Bool
  sha384 : Bool
  secp384r1 : Bool
  aes256gcm : Bool
  deriving DecidableEq, Repr

/-- An SPDM request on the DOE mailbox of a function (0 for the physical one): the type and the length in bytes of the object that
carries it, the verdict of the session's AEAD and of the request's signatures, the message body, the certificate slot and the algorithms
that it names, and whether it asks for mutual authentication (15 R297, R298). -/
structure SpdmIn where
  fn : Nat
  obj : DoeObj
  len : Nat
  ok : Bool
  body : List Byte
  slot : Nat
  algs : SpdmAlgs
  mutual_ : Bool
  deriving DecidableEq, Repr

/-- Where an error in stored state is found (16 R331). -/
inductive ErrLoc where
  /-- A line of HBM. -/
  | line (pa : Nat)
  /-- On-chip state of a core that belongs to its resident pod. -/
  | core (n : Nat)
  /-- A scratchpad line of a cluster. -/
  | spm (cluster off : Nat)
  /-- A saved image of a context. -/
  | saved (c : Nat)
  /-- An uncommitted L1 line that the open chunk of a context holds. -/
  | l1 (c : Nat)
  /-- A checkpoint slot, an undo entry or a replay record. -/
  | reserve
  deriving DecidableEq, Repr

/-- Why fetch or decode fails, with the address reported, in the order of 02 R61. -/
inductive FetchFault where
  | runoff | xlate | perm | align | illegal
  deriving DecidableEq, Repr

/-- The operations and events of the part (02 R63, 95). -/
inductive Instr where
  /-- 02 R55. -/
  | stop
  | pad
  /-- 02 R56. -/
  | elementPrefix (p : Pfx)
  /-- 04 R82, R83. -/
  | add (d a b : SReg)
  | sub (d a b : SReg)
  | mul (d a b : SReg)
  | mulh (d a b : SReg)
  | mulhu (d a b : SReg)
  | div (d a b : SReg)
  | divu (d a b : SReg)
  | rem (d a b : SReg)
  | remu (d a b : SReg)
  | and (d a b : SReg)
  | or (d a b : SReg)
  | xor (d a b : SReg)
  | andn (d a b : SReg)
  | shl (d a b : SReg)
  | shr (d a b : SReg)
  | sar (d a b : SReg)
  | rotl (d a b : SReg)
  | min (d a b : SReg)
  | max (d a b : SReg)
  | minu (d a b : SReg)
  | maxu (d a b : SReg)
  /-- 04 R85. -/
  | clz (d a : SReg)
  | ctz (d a : SReg)
  | popc (d a : SReg)
  | mov (d a : SReg)
  /-- 04 R86. -/
  | addi (d a : SReg) (imm : BitVec 30)
  | andi (d a : SReg) (imm : BitVec 30)
  | ori (d a : SReg) (imm : BitVec 30)
  | xori (d a : SReg) (imm : BitVec 30)
  | shli (d a : SReg) (sh : BitVec 6)
  /-- 04 R87. -/
  | ext (d a : SReg) (pos wm1 : BitVec 6) (sx : Bool)
  | ins (d a : SReg) (pos wm1 : BitVec 6)
  /-- 04 R88. -/
  | cmpEq (d a b : SReg)
  | cmpNe (d a b : SReg)
  | cmpLt (d a b : SReg)
  | cmpLtu (d a b : SReg)
  | cmpLe (d a b : SReg)
  | cmpLeu (d a b : SReg)
  /-- 04 R89. -/
  | li (d : SReg) (imm : BitVec 62)
  /-- 04 R90. -/
  | addr (d a b : SReg) (sh : BitVec 3) (off : BitVec 27)
  /-- 04 R91. -/
  | sel (d a b x : SReg)
  /-- 04 R93. -/
  | bEq (a b : SReg) (off : BitVec 30)
  | bNe (a b : SReg) (off : BitVec 30)
  | bLt (a b : SReg) (off : BitVec 30)
  | bGe (a b : SReg) (off : BitVec 30)
  | bLtu (a b : SReg) (off : BitVec 30)
  | bGeu (a b : SReg) (off : BitVec 30)
  | bz (a : SReg) (off : BitVec 30)
  | bnz (a : SReg) (off : BitVec 30)
  /-- 04 R94. -/
  | br (off : BitVec 30)
  /-- 04 R96. -/
  | call (off : BitVec 30)
  /-- 04 R94. -/
  | jmp (a : SReg)
  /-- 04 R96. -/
  | calli (a : SReg)
  /-- 04 R97. -/
  | ret
  /-- 04 R94. -/
  | nop
  /-- 04 R95. -/
  | loop (a : SReg) (off : BitVec 30)
  /-- 04 R99. -/
  | mfs (d : SReg) (sr : BitVec 10)
  | mts (a : SReg) (sr : BitVec 10)
  /-- 04 R100. -/
  | trap (imm : BitVec 30)
  /-- 04 R102. -/
  | svcRecv (d : SReg)
  /-- 04 R105. -/
  | svcReply (a b : SReg) (reply : Reply)
  /-- 04 R103. -/
  | svcRd (d a : SReg) (space : BitVec 2) (n : BitVec 10)
  /-- 04 R104. -/
  | svcWr (a b : SReg) (space : BitVec 2) (n : BitVec 10)
  /-- 06 R134. -/
  | tcfg (d : TReg) (c : TCfg)
  /-- 06 R135. -/
  | tzero (d : TReg)
  /-- 06 R136. -/
  | tfill (d : TReg) (a : SReg)
  /-- 06 R137. -/
  | tmov (d a : TReg)
  | trowGet (d a : TReg) (b : SReg) (idx : BitVec 9)
  | trowPut (d a : TReg) (b : SReg) (idx : BitVec 9)
  | tcolGet (d a : TReg) (b : SReg) (idx : BitVec 9)
  | tcolPut (d a : TReg) (b : SReg) (idx : BitVec 9)
  | ttrans (d a : TReg)
  | tbcast (d a : TReg)
  /-- 06 R139. -/
  | tcvt (d a : TS) (sc : Bool)
  /-- 06 R138. -/
  | tsclGet (d a : TReg)
  | tsclPut (d a : TReg)
  /-- 06 R146. -/
  | kedge (d : KReg) (a b : SReg)
  | kand (d a b : KReg)
  | kor (d a b : KReg)
  | knot (d a : KReg)
  | kxor (d a b : KReg)
  | kcnt (d : SReg) (a : KReg)
  /-- 06 R148. -/
  | tld (d : TReg) (a b x : SReg) (off : BitVec 30) (nt : Bool)
  | tst (d : TReg) (a b x : SReg) (off : BitVec 30) (nt : Bool)
  | tldm (d : TReg) (a b x : SReg) (off : BitVec 30)
  | tstm (d : TReg) (a b x : SReg) (off : BitVec 30)
  /-- 06 R153. -/
  | tcbLd (n : Fin 4) (a : SReg) (off : BitVec 30)
  /-- 06 R140, R141. -/
  | tadd (d : TReg) (a b : TS)
  | tsub (d : TReg) (a b : TS)
  | tmul (d : TReg) (a b : TS)
  | tdiv (d : TReg) (a b : TS)
  | tmax (d : TReg) (a b : TS)
  | tmin (d : TReg) (a b : TS)
  /-- 06 R142. -/
  | tfma (d : TReg) (a b x : TS)
  | tsel (d : TReg) (a b : TS) (k : KReg)
  /-- 06 R143. -/
  | tsqrt (d : TReg) (a : TS)
  | trsqrt (d : TReg) (a : TS)
  | trcp (d : TReg) (a : TS)
  | texp2 (d : TReg) (a : TS)
  | tlog2 (d : TReg) (a : TS)
  | tabs (d : TReg) (a : TS)
  | tneg (d : TReg) (a : TS)
  /-- 06 R144. -/
  | tcmpEq (d : KReg) (a b : TS)
  | tcmpNe (d : KReg) (a b : TS)
  | tcmpLt (d : KReg) (a b : TS)
  | tcmpLe (d : KReg) (a b : TS)
  | tcmpGt (d : KReg) (a b : TS)
  | tcmpGe (d : KReg) (a b : TS)
  /-- 06 R145. -/
  | tredSum (d : TS) (a : TReg) (axis : Axis)
  | tredMax (d : TS) (a : TReg) (axis : Axis)
  | tredMin (d : TS) (a : TReg) (axis : Axis)
  /-- 07 R156. -/
  | mma (d a b : TReg) (f : MmaFmt)
  | mmaSa (d : TReg) (a : SReg) (b : TReg) (f : MmaFmt) (km1 : BitVec 7) (pa : SpSel)
  | mmaSb (d a : TReg) (b : SReg) (f : MmaFmt) (km1 : BitVec 7) (pb : SpSel)
  | mmaSs (d : TReg) (a b : SReg) (f : MmaFmt) (km1 : BitVec 7) (pa pb : SpSel)
  | mmaZ (d a b : TReg) (f : MmaFmt)
  /-- 10 R202. -/
  | ldB (d a : SReg) (off : BitVec 30)
  | ldBu (d a : SReg) (off : BitVec 30)
  | ldH (d a : SReg) (off : BitVec 30)
  | ldHu (d a : SReg) (off : BitVec 30)
  | ldW (d a : SReg) (off : BitVec 30)
  | ldWu (d a : SReg) (off : BitVec 30)
  | ldD (d a : SReg) (off : BitVec 30)
  | stB (a b : SReg) (off : BitVec 30)
  | stH (a b : SReg) (off : BitVec 30)
  | stW (a b : SReg) (off : BitVec 30)
  | stD (a b : SReg) (off : BitVec 30)
  /-- 10 R203. -/
  | sld (d a : SReg) (sz : BitVec 2) (sx : Bool) (off : BitVec 27)
  | sst (a b : SReg) (sz : BitVec 2) (off : BitVec 27)
  /-- 10 R204. -/
  | ldbit (d a : SReg) (wm1 : BitVec 6) (sx : Bool) (boff : BitVec 23)
  | stbit (a b : SReg) (wm1 : BitVec 6) (boff : BitVec 23)
  /-- 10 R205. -/
  | rld (d a : SReg) (off : BitVec 30)
  | rst (a b : SReg) (off : BitVec 30)
  /-- 10 R206. -/
  | amSend (a b x y : SReg) (hid : BitVec 10)
  /-- 10 R210. -/
  | pfL1 (a : SReg) (off : BitVec 30)
  | pfL2 (a : SReg) (off : BitVec 30)
  /-- 10 R217. -/
  | cbufTake (d a : SReg) (m : BitVec 5)
  | cbufGive (a : SReg) (m : BitVec 5)
  /-- 10 R211. -/
  | amoAdd (d a b : SReg) (off : BitVec 30)
  | amoAnd (d a b : SReg) (off : BitVec 30)
  | amoOr (d a b : SReg) (off : BitVec 30)
  | amoXor (d a b : SReg) (off : BitVec 30)
  | amoMin (d a b : SReg) (off : BitVec 30)
  | amoMax (d a b : SReg) (off : BitVec 30)
  | amoSwap (d a b : SReg) (off : BitVec 30)
  | amoCas (d a b x : SReg) (off : BitVec 30)
  /-- 10 R212. -/
  | redAdd (a b : SReg) (rf : RedFmt) (off : BitVec 28)
  | redMax (a b : SReg) (rf : RedFmt) (off : BitVec 28)
  | redMin (a b : SReg) (rf : RedFmt) (off : BitVec 28)
  /-- 10 R214. -/
  | fePut (a b : SReg) (g : Bool) (woff : BitVec 27)
  | feTake (d a : SReg) (g : Bool) (woff : BitVec 27)
  /-- 10 R213. -/
  | fePeek (d a : SReg) (g ps : Bool) (woff : BitVec 27)
  /-- 10 R209. -/
  | fenceCore
  | fenceCluster
  | fencePod
  | fencePackage
  | fenceSystem
  /-- 10 R215. -/
  | waitMem (a b : SReg) (cc : Cc) (woff : BitVec 27)
  /-- 10 R223. -/
  | cpyQ (d a b : SReg) (f : CpyF) (shp : BitVec 32)
  /-- 10 R225. -/
  | cpyQCfg (d a b : SReg) (cbn : BitVec 5) (e : BitVec 4)
  /-- 10 R220. -/
  | cpyQClear (d : SReg) (e : BitVec 4)
  /-- 10 R226. -/
  | cpyFm (d a b : SReg) (f : CpyF) (shp fo : BitVec 32)
  /-- 10 R228. -/
  | routeQ (d a b : SReg) (e : BitVec 4) (km1 : BitVec 3) (t : BitVec 16) (em1 : BitVec 12) (c : BitVec 16)
  /-- 10 R229. -/
  | collQ (d a b : SReg) (e : BitVec 4) (ck : CollKind) (bf16 : Bool) (g : BitVec 6) (n cid : BitVec 32)
  /-- 10 R221. -/
  | tlWait (a : SReg) (e : BitVec 4)
  | tlRead (d : SReg) (e : BitVec 4) (sl : BitVec 2)
  /-- 13 R260. -/
  | launch (d a : SReg)
  /-- 13 R262. -/
  | yield
  /-- 13 R263. -/
  | park (a : SReg) (z : Bool) (woff : BitVec 27)
  /-- 13 R264. -/
  | hop (a : SReg) (dir : Bool)
  /-- 13 R265. -/
  | exit
  /-- 13 R266. -/
  | commit
  /-- 13 R269. -/
  | ctxStartRecord (d a b : SReg)
  | ctxStartNext (d a : SReg)
  /-- 12 R251. -/
  | ctxStartMode (d b : SReg)
  /-- 13 R269. -/
  | ctxStartResume (d a : SReg)
  /-- 13 R270. -/
  | ctxStop (d a : SReg)
  /-- 13 R271. -/
  | ctxReap (d a b : SReg) (rq : Bool)
  /-- 13 R272. -/
  | send (a b : SReg) (tag : BitVec 10)
  /-- 13 R274. -/
  | recv (d a : SReg) (off : BitVec 30)
  /-- 13 R275. -/
  | gangForm (a : SReg) (tag : BitVec 16)
  | gangJoin (tag : BitVec 16)
  | gangLeave
  /-- 13 R276. -/
  | cancelLaunch (a : SReg) (c : BitVec 8)
  | cancelGraph (a : SReg) (c : BitVec 8)
  | cancelPhase (a : SReg) (c : BitVec 8)
  | cancelJob (a : SReg) (c : BitVec 8)
  /-- 13 R277. -/
  | cntRead (d a : SReg)
  /-- 13 R267. -/
  | hmq (d a : SReg)
  /-- 09 R185. -/
  | chunkCommit (c : Nat) (o : CommitObs)
  /-- 09 R183. -/
  | commitTicket (cluster : Nat)
  /-- 12 R237. -/
  | operationCompletion (c : Nat)
  /-- 01 R21. -/
  | waitLimit (c : Nat)
  /-- 01 R29. -/
  | pickup (core : Nat)
  /-- 12 R247. -/
  | aging (cluster : Nat)
  /-- 12 R250. -/
  | workStealing (cluster victim : Nat)
  /-- 12 R253. -/
  | messageArrival (core : Nat)
  /-- 12 R255. -/
  | inboxDrain (core : Nat)
  | heapReplay (core : Nat)
  /-- 12 R254. -/
  | courierHandlerStart (core : Nat)
  /-- 09 R199. -/
  | remoteAgentPerform (core : Nat)
  /-- 12 R257. -/
  | portProbe (c : Nat)
  | probeRound (vf pod : Nat)
  /-- 07 R173. -/
  | tokenArrival (cluster : Nat)
  | burstEnd (cluster : Nat)
  /-- 01 R42. -/
  | relockEnd (die : Nat)
  /-- 10 R220. -/
  | engineCommandStart (cluster e : Nat)
  /-- 10 R224. -/
  | cbufSlotClaim (cluster e : Nat)
  /-- 09 R192. -/
  | engineLineEvent (cluster e : Nat)
  /-- 10 R220. -/
  | engineCommandComplete (cluster e : Nat)
  /-- 10 R226. -/
  | followOnStart (cluster e : Nat)
  | followOnInstall (cluster e : Nat)
  /-- 18 R349. -/
  | linkTimeout (rid : Nat)
  /-- 15 R305. -/
  | stage2Fault (c : Nat) (frame : Nat)
  /-- 15 R302. -/
  | clearerRewrite (frame : Nat)
  /-- 16 R318. -/
  | coreRestore (core : Nat)
  /-- 16 R320. -/
  | sliceTick (group : Nat)
  | dieSaved (group die : Nat)
  /-- 16 R321. -/
  | switchDeadline (group : Nat)
  /-- 16 R326. -/
  | intervalClose
  | checkpointComplete
  /-- 16 R333. -/
  | replayComplete (vf pod : Nat)
  /-- 16 R337. -/
  | scrubPass (stack : Nat)
  /-- 02 R61. -/
  | fetchFault (f : FetchFault)
  /-- 18 R355. -/
  | powerArbiterPeriod (p : PowerPeriod)
  /-- 18 R350. -/
  | flitIdle (l : LinkHdr)
  /-- 10 R205. -/
  | flitRld (l : LinkHdr) (o : OpHdr)
  /-- 09 R199. -/
  | flitRst (l : LinkHdr) (o : OpHdr) (v : Word)
  /-- 10 R206. -/
  | flitAm (l : LinkHdr) (o : OpHdr) (body : List Word)
  /-- 10 R213. -/
  | flitFe (l : LinkHdr) (o : OpHdr) (op : FeOp) (v : Word)
  /-- 18 R350. -/
  | flitReply (l : LinkHdr) (o : OpHdr) (v : Word)
  /-- 10 R207. -/
  | flitRefuse (l : LinkHdr) (o : OpHdr) (cause : Nat)
  /-- 18 R350. -/
  | flitProbe (l : LinkHdr) (o : OpHdr) (posted : BitVec 32)
  /-- 10 R209. -/
  | flitEcho (l : LinkHdr) (o : OpHdr) (posted : BitVec 32)
  /-- 10 R229. -/
  | flitColl (l : LinkHdr) (m : CollMsg)
  /-- 15 R310. -/
  | flitAbort (l : LinkHdr) (cid : BitVec 32) (grp : Nat)
  /-- 16 R334. -/
  | flitNotice (l : LinkHdr) (interval : BitVec 32)
  /-- 18 R349. -/
  | linkPortFailure (port : Nat)
  /-- 18 R346. -/
  | doorbell (q : Nat) (tail : BitVec 32)
  | queueEnable (q : Nat) (en : Bool) (logn : BitVec 5)
  /-- 18 R347. -/
  | registerWrite (r : HostReg) (v : Word)
  /-- 15 R293. -/
  | allocPod (h : HostIn)
  /-- 15 R291. -/
  | freePod (h : HostIn)
  /-- 15 R289. -/
  | bindVf (h : HostIn)
  /-- 15 R291. -/
  | unbindVf (h : HostIn)
  /-- 03 R79. -/
  | loadImage (h : HostIn)
  /-- 12 R243. -/
  | launchCommand (h : HostIn)
  /-- 15 R291. -/
  | pause (h : HostIn)
  /-- 15 R294. -/
  | resume (h : HostIn)
  | evict (h : HostIn)
  /-- 15 R291. -/
  | restore (h : HostIn)
  /-- 15 R295. -/
  | mapWindow (h : HostIn)
  | unmapWindow (h : HostIn)
  /-- 15 R308. -/
  | setQuota (h : HostIn)
  /-- 15 R291. -/
  | setSlice (h : HostIn)
  | setRecovery (h : HostIn)
  /-- 15 R299. -/
  | attest (h : HostIn)
  /-- 15 R296. -/
  | readErrlog (h : HostIn)
  /-- 15 R310. -/
  | resetVf (h : HostIn)
  /-- 15 R297, R299. -/
  | getVersion (m : SpdmIn)
  | getCapabilities (m : SpdmIn)
  | negotiateAlgorithms (m : SpdmIn)
  | getDigests (m : SpdmIn)
  | getCertificate (m : SpdmIn)
  | challenge (m : SpdmIn)
  | getMeasurements (m : SpdmIn)
  | keyExchange (m : SpdmIn)
  | finish (m : SpdmIn)
  | keyUpdate (m : SpdmIn)
  | heartbeat (m : SpdmIn)
  | endSession (m : SpdmIn)
  | setCmdkey (m : SpdmIn)
  /-- 15 R298. -/
  | ideKm (m : SpdmIn)
  | lockInterface (vf : Nat)
  | getDeviceInterfaceReport (vf : Nat)
  | getDeviceInterfaceState (vf : Nat)
  | startInterface (vf : Nat)
  | stopInterface (vf : Nat)
  /-- 15 R311. -/
  | atsResponse (vf tag : Nat) (gen : BitVec 8) (ok : Bool)
  | priResponse (vf tag : Nat) (gen : BitVec 8) (ok : Bool)
  /-- 16 R316. -/
  | preemptCore (core : Nat) (rows : List (Nat × Nat))
  /-- 16 R324. -/
  | hbmRetrain (stack : Nat) (on : Bool)
  /-- 16 R331. -/
  | correctableError (e : ErrLoc)
  | uncorrectableError (e : ErrLoc)
  /-- 18 R352. -/
  | powerGood (ok : Bool) (failAt : Nat)
  /-- 18 R354. -/
  | i3cEntdaa (addr : BitVec 7)
  | i3cPrivateWrite (bytes : List Byte)
  | i3cPrivateRead (n : Nat)
  /-- 18 R351. -/
  | chipnumWrite (n : BitVec 8)
  /-- 18 R355. -/
  | thermalShutdown (die : Nat) (temp : BitVec 16)
  | coolantFault (inlet flow : BitVec 16)
  /-- 15 R291. -/
  | unassignedOpc (h : HostIn)
  /-- 18 R350. -/
  | reservedTypeFlit (l : LinkHdr) (ty : BitVec 8)
  /-- 18 R349. -/
  | flitCrcFailure (l : LinkHdr) (fixed : Bool)
  /-- 15 R298. -/
  | tdiError (vf : Nat)
  deriving DecidableEq, Repr

end Sys2Proof
end

