-- ==== Sys2Proof/Machine/Formats.lean ====
section
/-! DEFINITION. Element formats: their codes and widths (05 R109) and the groups an `mma` takes (07 R159). -/

namespace Sys2Proof

/-- Format code (05 R109). -/
def Fmt.code : Fmt → Nat
  | .i8 => 0x01 | .u8 => 0x02 | .i16 => 0x03 | .i32 => 0x04 | .i64 => 0x05
  | .fp32 => 0x08 | .bf16 => 0x09 | .fp16 => 0x0A | .e4m3 => 0x0B | .e5m2 => 0x0C
  | .e2m3 => 0x0D | .e3m2 => 0x0E | .e2m1 => 0x0F | .cb4 => 0x10

/-- The format of a code; codes 0x00, 0x06, 0x07 and 0x11–0x1F are none (05 R109). -/
def Fmt.ofCode : Nat → Option Fmt
  | 0x01 => some .i8 | 0x02 => some .u8 | 0x03 => some .i16 | 0x04 => some .i32 | 0x05 => some .i64
  | 0x08 => some .fp32 | 0x09 => some .bf16 | 0x0A => some .fp16 | 0x0B => some .e4m3 | 0x0C => some .e5m2
  | 0x0D => some .e2m3 | 0x0E => some .e3m2 | 0x0F => some .e2m1 | 0x10 => some .cb4
  | _ => none

/-- Element width in bits (05 R109). -/
def Fmt.width : Fmt → Nat
  | .i8 | .u8 => 8 | .i16 => 16 | .i32 => 32 | .i64 => 64
  | .fp32 => 32 | .bf16 | .fp16 => 16 | .e4m3 | .e5m2 => 8 | .e2m3 | .e3m2 => 6 | .e2m1 | .cb4 => 4

def Fmt.isInt : Fmt → Bool
  | .i8 | .u8 | .i16 | .i32 | .i64 => true
  | _ => false

/-- Formats that may be microscaled (01 R26). -/
def Fmt.scalable : Fmt → Bool
  | .e4m3 | .e5m2 | .e2m3 | .e3m2 | .e2m1 | .i8 => true
  | _ => false

/-- The group of `mma` inputs a format belongs to (07 R159). -/
inductive MmaGroup where
  | narrow | integer | wide | single
  deriving DecidableEq, Repr

def Fmt.group : Fmt → Option MmaGroup
  | .e4m3 | .e5m2 | .e2m3 | .e3m2 | .e2m1 => some .narrow
  | .i8 => some .integer
  | .bf16 | .fp16 | .cb4 => some .wide
  | .fp32 => some .single
  | _ => none

/-- The K rule of a pair of input formats (07 R159). -/
def kRule (af bf : Fmt) (k : Nat) : Bool :=
  match af.group with
  | some .narrow => k ≠ 0 && k % 32 = 0 && k ≤ (if af = .e2m1 ∧ bf = .e2m1 then 128 else 64)
  | some .integer => k ≠ 0 && k % 32 = 0 && k ≤ 64
  | some .wide => k ≠ 0 && k % 32 = 0 && k ≤ (if af = .cb4 ∧ bf = .cb4 then 64 else 32)
  | some .single => 1 ≤ k && k ≤ 16
  | none => false

/-- The formats named by an `mma` are input formats of one group, and MX only of a group that allows it (07 R158, R159). -/
def MmaFmt.ok (f : MmaFmt) : Bool :=
  f.af.group.isSome && f.af.group = f.bf.group &&
  (!f.mx || f.af.group = some .narrow || f.af.group = some .integer)

/-- A register pair names s1–s30 (02 R51). -/
def SReg.pairOk : SReg → Bool
  | .s n => 1 ≤ n.val && n.val ≤ 30
  | .g _ => false

/-- A codebook is selected only for a CB4 scratchpad operand (07 R158). -/
def SpSel.ok (p : SpSel) (f : Fmt) : Bool := p.cb = 0 || f = .cb4

/-- Rounding-mode codes (05 R118). -/
def Rm.code : Rm → Nat
  | .rne => 0 | .rtz => 1 | .rup => 2 | .rdn => 3 | .rna => 4 | .sr => 5 | .rod => 6

def Rm.ofCode : Nat → Option Rm
  | 0 => some .rne | 1 => some .rtz | 2 => some .rup | 3 => some .rdn | 4 => some .rna | 5 => some .sr | 6 => some .rod
  | _ => none

end Sys2Proof
end

