-- ==== Sys2Proof/WellFormed.lean ====
section
/-! DEFINITION. Which terms of the syntax an encoding of the spec can give: the rules that tie fields together. -/

namespace Sys2Proof

def TS.isTile : TS → Bool
  | .tile _ => true
  | .scalar _ => false

/-- Fields of a copy command that go together (10 R222). -/
def CpyF.ok (f : CpyF) : Bool :=
  if f.cbv then f.dsp else !f.cbk && f.cbn = 0

/-- Well-formed: an instruction is one that its encoding can hold without raising ILLEGAL at decode (02 R61 step 6); an event
names places that exist (01 R9). -/
def Instr.wf : Instr → Bool
  | .stop => true
  | .pad => true
  | .elementPrefix _ => true
  | .add _ _ _ => true
  | .sub _ _ _ => true
  | .mul _ _ _ => true
  | .mulh _ _ _ => true
  | .mulhu _ _ _ => true
  | .div _ _ _ => true
  | .divu _ _ _ => true
  | .rem _ _ _ => true
  | .remu _ _ _ => true
  | .and _ _ _ => true
  | .or _ _ _ => true
  | .xor _ _ _ => true
  | .andn _ _ _ => true
  | .shl _ _ _ => true
  | .shr _ _ _ => true
  | .sar _ _ _ => true
  | .rotl _ _ _ => true
  | .min _ _ _ => true
  | .max _ _ _ => true
  | .minu _ _ _ => true
  | .maxu _ _ _ => true
  | .clz _ _ => true
  | .ctz _ _ => true
  | .popc _ _ => true
  | .mov _ _ => true
  | .addi _ _ _ => true
  | .andi _ _ _ => true
  | .ori _ _ _ => true
  | .xori _ _ _ => true
  | .shli _ _ _ => true
  | .ext _ _ _ _ _ => true
  | .ins _ _ _ _ => true
  | .cmpEq _ _ _ => true
  | .cmpNe _ _ _ => true
  | .cmpLt _ _ _ => true
  | .cmpLtu _ _ _ => true
  | .cmpLe _ _ _ => true
  | .cmpLeu _ _ _ => true
  | .li _ _ => true
  | .addr _ _ _ _ _ => true
  | .sel _ _ _ _ => true
  | .bEq _ _ _ => true
  | .bNe _ _ _ => true
  | .bLt _ _ _ => true
  | .bGe _ _ _ => true
  | .bLtu _ _ _ => true
  | .bGeu _ _ _ => true
  | .bz _ _ => true
  | .bnz _ _ => true
  | .br _ => true
  | .call _ => true
  | .jmp _ => true
  | .calli _ => true
  | .ret => true
  | .nop => true
  | .loop _ _ => true
  | .mfs _ _ => true
  | .mts _ _ => true
  | .trap _ => true
  | .svcRecv _ => true
  | .svcReply _ _ _ => true
  | .svcRd _ _ _ _ => true
  | .svcWr _ _ _ _ => true
  | .tcfg _ _ => true
  | .tzero _ => true
  | .tfill _ _ => true
  | .tmov _ _ => true
  | .trowGet _ _ _ _ => true
  | .trowPut _ _ _ _ => true
  | .tcolGet _ _ _ _ => true
  | .tcolPut _ _ _ _ => true
  | .ttrans _ _ => true
  | .tbcast _ _ => true
  | .tcvt d _a sc => !sc || d.isTile
  | .tsclGet _ _ => true
  | .tsclPut _ _ => true
  | .kedge _ _ _ => true
  | .kand _ _ _ => true
  | .kor _ _ _ => true
  | .knot _ _ => true
  | .kxor _ _ _ => true
  | .kcnt _ _ => true
  | .tld _ _ _ _ _ _ => true
  | .tst _ _ _ _ _ _ => true
  | .tldm _ _ _ _ _ => true
  | .tstm _ _ _ _ _ => true
  | .tcbLd _ _ _ => true
  | .tadd _ _ _ => true
  | .tsub _ _ _ => true
  | .tmul _ _ _ => true
  | .tdiv _ _ _ => true
  | .tmax _ _ _ => true
  | .tmin _ _ _ => true
  | .tfma _ _ _ _ => true
  | .tsel _ _ _ _ => true
  | .tsqrt _ _ => true
  | .trsqrt _ _ => true
  | .trcp _ _ => true
  | .texp2 _ _ => true
  | .tlog2 _ _ => true
  | .tabs _ _ => true
  | .tneg _ _ => true
  | .tcmpEq _ _ _ => true
  | .tcmpNe _ _ _ => true
  | .tcmpLt _ _ _ => true
  | .tcmpLe _ _ _ => true
  | .tcmpGt _ _ _ => true
  | .tcmpGe _ _ _ => true
  | .tredSum d _a x => d.isTile || x = .all
  | .tredMax d _a x => d.isTile || x = .all
  | .tredMin d _a x => d.isTile || x = .all
  | .mma _d _a _b f => f.ok
  | .mmaSa _d a _b f km1 pa => f.ok && kRule f.af f.bf (km1.toNat + 1) && a.pairOk && pa.ok f.af
  | .mmaSb _d _a b f km1 pb => f.ok && kRule f.af f.bf (km1.toNat + 1) && b.pairOk && pb.ok f.bf
  | .mmaSs _d a b f km1 pa pb => f.ok && kRule f.af f.bf (km1.toNat + 1) && a.pairOk && b.pairOk && pa.ok f.af && pb.ok f.bf
  | .mmaZ _d _a _b f => f.ok
  | .ldB _ _ _ => true
  | .ldBu _ _ _ => true
  | .ldH _ _ _ => true
  | .ldHu _ _ _ => true
  | .ldW _ _ _ => true
  | .ldWu _ _ _ => true
  | .ldD _ _ _ => true
  | .stB _ _ _ => true
  | .stH _ _ _ => true
  | .stW _ _ _ => true
  | .stD _ _ _ => true
  | .sld _ _ _ _ _ => true
  | .sst _ _ _ _ => true
  | .ldbit _ _ _ _ _ => true
  | .stbit _ _ _ _ => true
  | .rld _ _ _ => true
  | .rst _ _ _ => true
  | .amSend _ _ _ _ _ => true
  | .pfL1 _ _ => true
  | .pfL2 _ _ => true
  | .cbufTake _ _ _ => true
  | .cbufGive _ _ => true
  | .amoAdd _ _ _ _ => true
  | .amoAnd _ _ _ _ => true
  | .amoOr _ _ _ _ => true
  | .amoXor _ _ _ _ => true
  | .amoMin _ _ _ _ => true
  | .amoMax _ _ _ _ => true
  | .amoSwap _ _ _ _ => true
  | .amoCas _ _ _ _ _ => true
  | .redAdd _ _ _ _ => true
  | .redMax _ _ _ _ => true
  | .redMin _ _ _ _ => true
  | .fePut _ _ _ _ => true
  | .feTake _ _ _ _ => true
  | .fePeek _ _ _ _ _ => true
  | .fenceCore => true
  | .fenceCluster => true
  | .fencePod => true
  | .fencePackage => true
  | .fenceSystem => true
  | .waitMem _ _ _ _ => true
  | .cpyQ _d _a _b f _shp => f.ok
  | .cpyQCfg _ _ _ _ _ => true
  | .cpyQClear _ _ => true
  | .cpyFm _d _a _b f _shp _fo => f.ok
  | .routeQ _ _ _ _ _ _ _ _ => true
  | .collQ _ _ _ _ _ _ _ _ _ => true
  | .tlWait _ _ => true
  | .tlRead _ _ _ => true
  | .launch _ _ => true
  | .yield => true
  | .park _ _ _ => true
  | .hop _ _ => true
  | .exit => true
  | .commit => true
  | .ctxStartRecord _ _ _ => true
  | .ctxStartNext _ _ => true
  | .ctxStartMode _ _ => true
  | .ctxStartResume _ _ => true
  | .ctxStop _ _ => true
  | .ctxReap _ _ b rq => !rq || b = .s 0
  | .send _ _ _ => true
  | .recv _ _ _ => true
  | .gangForm _ _ => true
  | .gangJoin _ => true
  | .gangLeave => true
  | .cancelLaunch _ _ => true
  | .cancelGraph _ _ => true
  | .cancelPhase _ _ => true
  | .cancelJob _ _ => true
  | .cntRead _ _ => true
  | .hmq _ _ => true
  | .chunkCommit c _o => c < Config.contexts
  | .commitTicket k => k < Config.clusters
  | .operationCompletion c => c < Config.contexts
  | .waitLimit c => c < Config.contexts
  | .pickup k => k < Config.cores
  | .aging k => k < Config.clusters
  | .workStealing k v => k < Config.clusters && v < Config.clusters
  | .messageArrival k => k < Config.cores
  | .inboxDrain k => k < Config.cores
  | .heapReplay k => k < Config.cores
  | .courierHandlerStart k => k < Config.cores
  | .remoteAgentPerform k => k < Config.cores
  | .portProbe c => c < Config.contexts
  | .probeRound _ _ => true
  | .tokenArrival k => k < Config.clusters
  | .burstEnd k => k < Config.clusters
  | .powerArbiterPeriod p => p.est.length = 4 && p.est.all (fun x => x.watts.length = 5)
  | .relockEnd d => d < 4
  | .engineCommandStart k e => k < Config.clusters && e < 16
  | .cbufSlotClaim k e => k < Config.clusters && e < 16
  | .engineLineEvent k e => k < Config.clusters && e < 16
  | .engineCommandComplete k e => k < Config.clusters && e < 16
  | .followOnStart k e => k < Config.clusters && e < 16
  | .followOnInstall k e => k < Config.clusters && e < 16
  | .flitIdle _ => true
  | .flitRld _ _ => true
  | .flitRst _ _ _ => true
  | .flitAm _ _ _ => true
  | .flitFe _ _ _ _ => true
  | .flitReply _ _ _ => true
  | .flitRefuse _ _ _ => true
  | .flitProbe _ _ _ => true
  | .flitEcho _ _ _ => true
  | .flitColl _ _ => true
  | .flitAbort _ _ _ => true
  | .flitNotice _ _ => true
  | .linkTimeout _ => true
  | .linkPortFailure _ => true
  | .doorbell _ _ => true
  | .queueEnable _ _ _ => true
  | .registerWrite _ _ => true
  | .allocPod _ => true
  | .freePod _ => true
  | .bindVf _ => true
  | .unbindVf _ => true
  | .loadImage _ => true
  | .launchCommand _ => true
  | .pause _ => true
  | .resume _ => true
  | .evict _ => true
  | .restore _ => true
  | .mapWindow _ => true
  | .unmapWindow _ => true
  | .setQuota _ => true
  | .setSlice _ => true
  | .setRecovery _ => true
  | .attest _ => true
  | .readErrlog _ => true
  | .resetVf _ => true
  | .getVersion _ => true
  | .getCapabilities _ => true
  | .negotiateAlgorithms _ => true
  | .getDigests _ => true
  | .getCertificate _ => true
  | .challenge _ => true
  | .getMeasurements _ => true
  | .keyExchange _ => true
  | .finish _ => true
  | .keyUpdate _ => true
  | .heartbeat _ => true
  | .endSession _ => true
  | .setCmdkey _ => true
  | .ideKm _ => true
  | .lockInterface _ => true
  | .getDeviceInterfaceReport _ => true
  | .getDeviceInterfaceState _ => true
  | .startInterface _ => true
  | .stopInterface _ => true
  | .atsResponse _ _ _ _ => true
  | .priResponse _ _ _ _ => true
  | .stage2Fault _ _ => true
  | .clearerRewrite _ => true
  | .preemptCore k _rows => k < Config.cores
  | .coreRestore k => k < Config.cores
  | .sliceTick _ => true
  | .dieSaved _g d => d < 4
  | .switchDeadline _ => true
  | .hbmRetrain k _on => k < 8
  | .intervalClose => true
  | .checkpointComplete => true
  | .correctableError _ => true
  | .uncorrectableError _ => true
  | .replayComplete _ _ => true
  | .scrubPass k => k < 8
  | .powerGood _ _ => true
  | .i3cEntdaa _ => true
  | .i3cPrivateWrite _ => true
  | .i3cPrivateRead _ => true
  | .chipnumWrite _ => true
  | .thermalShutdown d _t => d < 4
  | .coolantFault _ _ => true
  | .fetchFault _ => true
  | .unassignedOpc _ => true
  | .reservedTypeFlit _ _ => true
  | .flitCrcFailure _ _ => true
  | .tdiError _ => true

end Sys2Proof
end

