-- ==== Sys2Proof/Decode.lean ====
section
/-! DEFINITION. Decoding of the instruction stream (02 R44–R63) and, after it, the encoder: both from the same tables. -/

namespace Sys2Proof

/-- Bits `[lo + w − 1 : lo]` of a number. -/
def bits (n lo w : Nat) : Nat := n / 2 ^ lo % 2 ^ w

/-- Why a sequence of words is not an instruction (02 R64). -/
inductive Reject where
  /-- Fewer words than LEN asks for. -/
  | truncated
  /-- LEN 0 with a reserved PK, or a stop or pad with a set bit above PK. -/
  | reservedWord
  /-- Major opcode or function not assigned. -/
  | unassigned
  /-- LEN is not the length of the opcode. -/
  | lenMismatch
  /-- A field, operand or kind bit that the form does not allow. -/
  | fields
  /-- Fields that do not go together (`Instr.wf`). -/
  | illFormed
  deriving DecidableEq, Repr

/-! ## Fields -/

/-- The fields of an instruction of 64 bits or more (02 R46, R48, R49); `len` counts 32-bit words above the first. -/
structure Raw where
  len : Nat
  op : Nat
  fn : Nat
  d : Nat
  a : Nat
  b : Nat
  imm : Nat
  w2 : Nat
  w3 : Nat
  deriving DecidableEq, Repr

/-- The common header and the further words (02 R46). -/
def Raw.ofWords (w0 w1 w2 w3 : Nat) : Raw :=
  ⟨bits w0 0 2, bits w0 2 8, bits w0 10 6, bits w0 16 6, bits w0 22 6, bits w0 28 4 + bits w1 0 2 * 16, bits w1 2 30, w2, w3⟩

/-- The inverse of `Raw.ofWords`. -/
def Raw.words (r : Raw) : List Nat :=
  [r.len + r.op * 2 ^ 2 + r.fn * 2 ^ 10 + r.d * 2 ^ 16 + r.a * 2 ^ 22 + r.b % 16 * 2 ^ 28, r.b / 16 + r.imm * 4] ++
    (if 2 ≤ r.len then [r.w2] else []) ++ (if 3 ≤ r.len then [r.w3] else [])

/-- A scalar field (02 R50). -/
def sreg (f : Nat) : SReg := if f < 32 then .s (.ofNat 32 f) else .g (.ofNat 32 (f - 32))

def SReg.field : SReg → Nat
  | .s n => n.val
  | .g n => n.val + 32

/-- A tile field; 8–31 and 40–63 name none (02 R50). -/
def treg (f : Nat) : Option TReg :=
  if f < 8 then some (.t (.ofNat 8 f)) else if 32 ≤ f ∧ f < 40 then some (.h (.ofNat 8 (f - 32))) else none

def TReg.field : TReg → Nat
  | .t n => n.val
  | .h n => n.val + 32

/-- A mask field; 8–63 name none (02 R50). -/
def kreg (f : Nat) : Option KReg := if f < 8 then some (.ofNat 8 f) else none

/-- The codebook named by field D of `tcb.ld` (06 R147). -/
def cbreg (f : Nat) : Option (Fin 4) := if f < 4 then some (.ofNat 4 f) else none

/-- A field with its operand kind bit (02 R52). -/
def tsreg (kind f : Nat) : Option TS :=
  if kind = 1 then some (.scalar (sreg f)) else (treg f).map .tile

def TS.field : TS → Nat
  | .tile r => r.field
  | .scalar r => r.field

def TS.kind : TS → Nat
  | .tile _ => 0
  | .scalar _ => 1

def Reply.ofCode : Nat → Option Reply
  | 0 => some .resume | 1 => some .skip | 2 => some .redirect | 3 => some .kill
  | _ => none

def Reply.code : Reply → Nat
  | .resume => 0 | .skip => 1 | .redirect => 2 | .kill => 3

def Axis.ofCode : Nat → Option Axis
  | 0 => some .row | 1 => some .col | 2 => some .all
  | _ => none

def Axis.code : Axis → Nat
  | .row => 0 | .col => 1 | .all => 2

def RedFmt.ofCode : Nat → Option RedFmt
  | 0 => some .fp32 | 1 => some .bf16 | 2 => some .i32
  | _ => none

def RedFmt.code : RedFmt → Nat
  | .fp32 => 0 | .bf16 => 1 | .i32 => 2

def Cc.ofCode : Nat → Option Cc
  | 0 => some .eq | 1 => some .ne | 2 => some .geu | 3 => some .ltu | 4 => some .ge | 5 => some .lt
  | _ => none

def Cc.code : Cc → Nat
  | .eq => 0 | .ne => 1 | .geu => 2 | .ltu => 3 | .ge => 4 | .lt => 5

def CollKind.ofCode : Nat → Option CollKind
  | 0 => some .allreduce | 1 => some .redscatter | 2 => some .allgather
  | _ => none

def CollKind.code : CollKind → Nat
  | .allreduce => 0 | .redscatter => 1 | .allgather => 2

/-- AF, BF and MX (07 R157). -/
def mmaFmt (imm : Nat) : Option MmaFmt := do
  let af ← Fmt.ofCode (bits imm 0 5)
  let bf ← Fmt.ofCode (bits imm 5 5)
  some ⟨af, bf, bits imm 10 1 = 1⟩

def MmaFmt.imm (f : MmaFmt) : Nat := f.af.code + f.bf.code * 32 + f.mx.toNat * 1024

/-- The two forms of `tcfg` (06 R134). -/
def tcfgArg (imm : Nat) : Option TCfg :=
  if bits imm 29 1 = 1 then
    if bits imm 3 26 = 0 then some (.preset (.ofNat 3 (bits imm 0 3))) else none
  else if bits imm 16 5 = 0 then
    some (.imm (.ofNat 2 (bits imm 27 2)) (bits imm 26 1 = 1) (.ofNat 5 (bits imm 21 5)) (.ofNat 7 (bits imm 9 7))
      (.ofNat 9 (bits imm 0 9)))
  else none

def TCfg.enc : TCfg → Nat
  | .imm cbsel scaled fmt rows cols =>
    cols.toNat + rows.toNat * 2 ^ 9 + fmt.toNat * 2 ^ 21 + scaled.toNat * 2 ^ 26 + cbsel.toNat * 2 ^ 27
  | .preset n => n.toNat + 2 ^ 29

/-- Fields of a copy command (10 R222). -/
def cpyF (imm : Nat) : CpyF where
  cbk := bits imm 19 1 = 1
  cbv := bits imm 18 1 = 1
  cbn := .ofNat 5 (bits imm 13 5)
  ndm := .ofNat 3 (bits imm 10 3)
  esz := .ofNat 2 (bits imm 8 2)
  dsp := bits imm 7 1 = 1
  ssp := bits imm 6 1 = 1
  e := .ofNat 4 (bits imm 0 4)

def CpyF.imm (f : CpyF) : Nat :=
  f.e.toNat + f.ssp.toNat * 2 ^ 6 + f.dsp.toNat * 2 ^ 7 + f.esz.toNat * 2 ^ 8 + f.ndm.toNat * 2 ^ 10 + f.cbn.toNat * 2 ^ 13 +
    f.cbv.toNat * 2 ^ 18 + f.cbk.toNat * 2 ^ 19

/-! ## The opcode map -/

/-- One form of the opcode map: its opcode, function and length, and the instruction its fields give; `none` where a field is
not allowed (02 R47, R50–R53, R63). -/
structure Row where
  op : Nat
  fn : Nat
  len : Nat
  build : Raw → Option Instr

/-- `cpy.q` by KIND (10 R222). -/
def buildCpyQ (r : Raw) : Option Instr :=
  if r.w3 = 0 ∧ bits r.imm 20 10 = 0 then
    match bits r.imm 4 2 with
    | 0 => some (.cpyQ (sreg r.d) (sreg r.a) (sreg r.b) (cpyF r.imm) (.ofNat 32 r.w2))
    | 1 =>
      if bits r.imm 6 7 = 0 ∧ bits r.imm 18 2 = 0 ∧ r.w2 = 0 then
        some (.cpyQCfg (sreg r.d) (sreg r.a) (sreg r.b) (.ofNat 5 (bits r.imm 13 5)) (.ofNat 4 (bits r.imm 0 4)))
      else none
    | 2 =>
      if bits r.imm 6 14 = 0 ∧ r.w2 = 0 ∧ r.a = 0 ∧ r.b = 0 then some (.cpyQClear (sreg r.d) (.ofNat 4 (bits r.imm 0 4)))
      else none
    | _ => none
  else none

/-- `ctx.start` by SM (13 R269). -/
def buildCtxStart (r : Raw) : Option Instr :=
  match r.imm with
  | 0 => some (.ctxStartRecord (sreg r.d) (sreg r.a) (sreg r.b))
  | 1 => if r.b = 0 then some (.ctxStartNext (sreg r.d) (sreg r.a)) else none
  | 2 => if r.a = 0 then some (.ctxStartMode (sreg r.d) (sreg r.b)) else none
  | 3 => if r.b = 0 then some (.ctxStartResume (sreg r.d) (sreg r.a)) else none
  | _ => none

/-- Major opcodes 0x00–0x3F (02 R63). -/
def rowsScalar : List Row := [
  ⟨0x00, 0, 1, fun r => if r.imm = 0 then some (.add (sreg r.d) (sreg r.a) (sreg r.b)) else none⟩,
  ⟨0x00, 1, 1, fun r => if r.imm = 0 then some (.sub (sreg r.d) (sreg r.a) (sreg r.b)) else none⟩,
  ⟨0x00, 2, 1, fun r => if r.imm = 0 then some (.mul (sreg r.d) (sreg r.a) (sreg r.b)) else none⟩,
  ⟨0x00, 3, 1, fun r => if r.imm = 0 then some (.mulh (sreg r.d) (sreg r.a) (sreg r.b)) else none⟩,
  ⟨0x00, 4, 1, fun r => if r.imm = 0 then some (.mulhu (sreg r.d) (sreg r.a) (sreg r.b)) else none⟩,
  ⟨0x00, 5, 1, fun r => if r.imm = 0 then some (.div (sreg r.d) (sreg r.a) (sreg r.b)) else none⟩,
  ⟨0x00, 6, 1, fun r => if r.imm = 0 then some (.divu (sreg r.d) (sreg r.a) (sreg r.b)) else none⟩,
  ⟨0x00, 7, 1, fun r => if r.imm = 0 then some (.rem (sreg r.d) (sreg r.a) (sreg r.b)) else none⟩,
  ⟨0x00, 8, 1, fun r => if r.imm = 0 then some (.remu (sreg r.d) (sreg r.a) (sreg r.b)) else none⟩,
  ⟨0x00, 9, 1, fun r => if r.imm = 0 then some (.and (sreg r.d) (sreg r.a) (sreg r.b)) else none⟩,
  ⟨0x00, 10, 1, fun r => if r.imm = 0 then some (.or (sreg r.d) (sreg r.a) (sreg r.b)) else none⟩,
  ⟨0x00, 11, 1, fun r => if r.imm = 0 then some (.xor (sreg r.d) (sreg r.a) (sreg r.b)) else none⟩,
  ⟨0x00, 12, 1, fun r => if r.imm = 0 then some (.andn (sreg r.d) (sreg r.a) (sreg r.b)) else none⟩,
  ⟨0x00, 13, 1, fun r => if r.imm = 0 then some (.shl (sreg r.d) (sreg r.a) (sreg r.b)) else none⟩,
  ⟨0x00, 14, 1, fun r => if r.imm = 0 then some (.shr (sreg r.d) (sreg r.a) (sreg r.b)) else none⟩,
  ⟨0x00, 15, 1, fun r => if r.imm = 0 then some (.sar (sreg r.d) (sreg r.a) (sreg r.b)) else none⟩,
  ⟨0x00, 16, 1, fun r => if r.imm = 0 then some (.rotl (sreg r.d) (sreg r.a) (sreg r.b)) else none⟩,
  ⟨0x00, 17, 1, fun r => if r.imm = 0 then some (.min (sreg r.d) (sreg r.a) (sreg r.b)) else none⟩,
  ⟨0x00, 18, 1, fun r => if r.imm = 0 then some (.max (sreg r.d) (sreg r.a) (sreg r.b)) else none⟩,
  ⟨0x00, 19, 1, fun r => if r.imm = 0 then some (.minu (sreg r.d) (sreg r.a) (sreg r.b)) else none⟩,
  ⟨0x00, 20, 1, fun r => if r.imm = 0 then some (.maxu (sreg r.d) (sreg r.a) (sreg r.b)) else none⟩,
  ⟨0x01, 0, 1, fun r => if r.b = 0 ∧ r.imm = 0 then some (.clz (sreg r.d) (sreg r.a)) else none⟩,
  ⟨0x01, 1, 1, fun r => if r.b = 0 ∧ r.imm = 0 then some (.ctz (sreg r.d) (sreg r.a)) else none⟩,
  ⟨0x01, 2, 1, fun r => if r.b = 0 ∧ r.imm = 0 then some (.popc (sreg r.d) (sreg r.a)) else none⟩,
  ⟨0x01, 3, 1, fun r => if r.b = 0 ∧ r.imm = 0 then some (.mov (sreg r.d) (sreg r.a)) else none⟩,
  ⟨0x02, 0, 1, fun r => if r.b = 0 then some (.addi (sreg r.d) (sreg r.a) (.ofNat 30 (bits r.imm 0 30))) else none⟩,
  ⟨0x02, 1, 1, fun r => if r.b = 0 then some (.andi (sreg r.d) (sreg r.a) (.ofNat 30 (bits r.imm 0 30))) else none⟩,
  ⟨0x02, 2, 1, fun r => if r.b = 0 then some (.ori (sreg r.d) (sreg r.a) (.ofNat 30 (bits r.imm 0 30))) else none⟩,
  ⟨0x02, 3, 1, fun r => if r.b = 0 then some (.xori (sreg r.d) (sreg r.a) (.ofNat 30 (bits r.imm 0 30))) else none⟩,
  ⟨0x02, 4, 1, fun r => if r.b = 0 ∧ bits r.imm 6 24 = 0 then some (.shli (sreg r.d) (sreg r.a) (.ofNat 6 (bits r.imm 0 6))) else none⟩,
  ⟨0x03, 0, 1, fun r => if r.b = 0 ∧ bits r.imm 13 17 = 0 then some (.ext (sreg r.d) (sreg r.a) (.ofNat 6 (bits r.imm 0 6)) (.ofNat 6 (bits r.imm 6 6)) ((bits r.imm 12 1) = 1)) else none⟩,
  ⟨0x03, 1, 1, fun r => if r.b = 0 ∧ bits r.imm 12 18 = 0 then some (.ins (sreg r.d) (sreg r.a) (.ofNat 6 (bits r.imm 0 6)) (.ofNat 6 (bits r.imm 6 6))) else none⟩,
  ⟨0x04, 0, 1, fun r => if r.imm = 0 then some (.cmpEq (sreg r.d) (sreg r.a) (sreg r.b)) else none⟩,
  ⟨0x04, 1, 1, fun r => if r.imm = 0 then some (.cmpNe (sreg r.d) (sreg r.a) (sreg r.b)) else none⟩,
  ⟨0x04, 2, 1, fun r => if r.imm = 0 then some (.cmpLt (sreg r.d) (sreg r.a) (sreg r.b)) else none⟩,
  ⟨0x04, 3, 1, fun r => if r.imm = 0 then some (.cmpLtu (sreg r.d) (sreg r.a) (sreg r.b)) else none⟩,
  ⟨0x04, 4, 1, fun r => if r.imm = 0 then some (.cmpLe (sreg r.d) (sreg r.a) (sreg r.b)) else none⟩,
  ⟨0x04, 5, 1, fun r => if r.imm = 0 then some (.cmpLeu (sreg r.d) (sreg r.a) (sreg r.b)) else none⟩,
  ⟨0x05, 0, 2, fun r => if r.a = 0 ∧ r.b = 0 then some (.li (sreg r.d) (.ofNat 62 (r.w2 * 2 ^ 30 + r.imm))) else none⟩,
  ⟨0x06, 0, 1, fun r => some (.addr (sreg r.d) (sreg r.a) (sreg r.b) (.ofNat 3 (bits r.imm 0 3)) (.ofNat 27 (bits r.imm 3 27)))⟩,
  ⟨0x07, 0, 2, fun r => if r.imm = 0 ∧ bits r.w2 6 26 = 0 then some (.sel (sreg r.d) (sreg r.a) (sreg r.b) (sreg (r.w2 % 64))) else none⟩,
  ⟨0x20, 0, 1, fun r => if r.d = 0 then some (.bEq (sreg r.a) (sreg r.b) (.ofNat 30 (bits r.imm 0 30))) else none⟩,
  ⟨0x20, 1, 1, fun r => if r.d = 0 then some (.bNe (sreg r.a) (sreg r.b) (.ofNat 30 (bits r.imm 0 30))) else none⟩,
  ⟨0x20, 2, 1, fun r => if r.d = 0 then some (.bLt (sreg r.a) (sreg r.b) (.ofNat 30 (bits r.imm 0 30))) else none⟩,
  ⟨0x20, 3, 1, fun r => if r.d = 0 then some (.bGe (sreg r.a) (sreg r.b) (.ofNat 30 (bits r.imm 0 30))) else none⟩,
  ⟨0x20, 4, 1, fun r => if r.d = 0 then some (.bLtu (sreg r.a) (sreg r.b) (.ofNat 30 (bits r.imm 0 30))) else none⟩,
  ⟨0x20, 5, 1, fun r => if r.d = 0 then some (.bGeu (sreg r.a) (sreg r.b) (.ofNat 30 (bits r.imm 0 30))) else none⟩,
  ⟨0x21, 0, 1, fun r => if r.d = 0 ∧ r.b = 0 then some (.bz (sreg r.a) (.ofNat 30 (bits r.imm 0 30))) else none⟩,
  ⟨0x21, 1, 1, fun r => if r.d = 0 ∧ r.b = 0 then some (.bnz (sreg r.a) (.ofNat 30 (bits r.imm 0 30))) else none⟩,
  ⟨0x22, 0, 1, fun r => if r.d = 0 ∧ r.a = 0 ∧ r.b = 0 then some (.br (.ofNat 30 (bits r.imm 0 30))) else none⟩,
  ⟨0x22, 1, 1, fun r => if r.d = 0 ∧ r.a = 0 ∧ r.b = 0 then some (.call (.ofNat 30 (bits r.imm 0 30))) else none⟩,
  ⟨0x22, 2, 1, fun r => if r.d = 0 ∧ r.b = 0 ∧ r.imm = 0 then some (.jmp (sreg r.a)) else none⟩,
  ⟨0x22, 3, 1, fun r => if r.d = 0 ∧ r.b = 0 ∧ r.imm = 0 then some (.calli (sreg r.a)) else none⟩,
  ⟨0x22, 4, 1, fun r => if r.d = 0 ∧ r.a = 0 ∧ r.b = 0 ∧ r.imm = 0 then some (.ret) else none⟩,
  ⟨0x22, 5, 1, fun r => if r.d = 0 ∧ r.a = 0 ∧ r.b = 0 ∧ r.imm = 0 then some (.nop) else none⟩,
  ⟨0x23, 0, 1, fun r => if r.d = 0 ∧ r.b = 0 then some (.loop (sreg r.a) (.ofNat 30 (bits r.imm 0 30))) else none⟩,
  ⟨0x24, 0, 1, fun r => if r.a = 0 ∧ r.b = 0 ∧ bits r.imm 10 20 = 0 then some (.mfs (sreg r.d) (.ofNat 10 (bits r.imm 0 10))) else none⟩,
  ⟨0x24, 1, 1, fun r => if r.d = 0 ∧ r.b = 0 ∧ bits r.imm 10 20 = 0 then some (.mts (sreg r.a) (.ofNat 10 (bits r.imm 0 10))) else none⟩,
  ⟨0x25, 0, 1, fun r => if r.d = 0 ∧ r.a = 0 ∧ r.b = 0 then some (.trap (.ofNat 30 (bits r.imm 0 30))) else none⟩,
  ⟨0x26, 0, 1, fun r => if r.a = 0 ∧ r.b = 0 ∧ r.imm = 0 then some (.svcRecv (sreg r.d)) else none⟩,
  ⟨0x26, 1, 1, fun r => if r.d = 0 ∧ bits r.imm 2 28 = 0 then do let reply ← Reply.ofCode (bits r.imm 0 2); some (.svcReply (sreg r.a) (sreg r.b) reply) else none⟩,
  ⟨0x26, 2, 1, fun r => if r.b = 0 ∧ bits r.imm 10 2 = 0 ∧ bits r.imm 14 16 = 0 then some (.svcRd (sreg r.d) (sreg r.a) (.ofNat 2 (bits r.imm 12 2)) (.ofNat 10 (bits r.imm 0 10))) else none⟩,
  ⟨0x26, 3, 1, fun r => if r.d = 0 ∧ bits r.imm 10 2 = 0 ∧ bits r.imm 14 16 = 0 then some (.svcWr (sreg r.a) (sreg r.b) (.ofNat 2 (bits r.imm 12 2)) (.ofNat 10 (bits r.imm 0 10))) else none⟩]

/-- Major opcodes 0x40–0x9F (02 R63). -/
def rowsTile : List Row := [
  ⟨0x40, 0, 1, fun r => if r.a = 0 ∧ r.b = 0 then do let d ← treg r.d; let c ← tcfgArg r.imm; some (.tcfg d c) else none⟩,
  ⟨0x40, 1, 1, fun r => if r.a = 0 ∧ r.b = 0 ∧ r.imm = 0 then do let d ← treg r.d; some (.tzero d) else none⟩,
  ⟨0x40, 2, 1, fun r => if r.b = 0 ∧ bits r.imm 0 1 = 0 ∧ bits r.imm 2 28 = 0 ∧ bits r.imm 1 1 = 1 then do let d ← treg r.d; some (.tfill d (sreg r.a)) else none⟩,
  ⟨0x41, 0, 1, fun r => if r.b = 0 ∧ r.imm = 0 then do let d ← treg r.d; let a ← treg r.a; some (.tmov d a) else none⟩,
  ⟨0x41, 1, 1, fun r => if bits r.imm 0 2 = 0 ∧ bits r.imm 3 1 = 0 ∧ bits r.imm 13 17 = 0 ∧ bits r.imm 2 1 = 1 then do let d ← treg r.d; let a ← treg r.a; some (.trowGet d a (sreg r.b) (.ofNat 9 (bits r.imm 4 9))) else none⟩,
  ⟨0x41, 2, 1, fun r => if bits r.imm 0 2 = 0 ∧ bits r.imm 3 1 = 0 ∧ bits r.imm 13 17 = 0 ∧ bits r.imm 2 1 = 1 then do let d ← treg r.d; let a ← treg r.a; some (.trowPut d a (sreg r.b) (.ofNat 9 (bits r.imm 4 9))) else none⟩,
  ⟨0x41, 3, 1, fun r => if bits r.imm 0 2 = 0 ∧ bits r.imm 3 1 = 0 ∧ bits r.imm 13 17 = 0 ∧ bits r.imm 2 1 = 1 then do let d ← treg r.d; let a ← treg r.a; some (.tcolGet d a (sreg r.b) (.ofNat 9 (bits r.imm 4 9))) else none⟩,
  ⟨0x41, 4, 1, fun r => if bits r.imm 0 2 = 0 ∧ bits r.imm 3 1 = 0 ∧ bits r.imm 13 17 = 0 ∧ bits r.imm 2 1 = 1 then do let d ← treg r.d; let a ← treg r.a; some (.tcolPut d a (sreg r.b) (.ofNat 9 (bits r.imm 4 9))) else none⟩,
  ⟨0x41, 5, 1, fun r => if r.b = 0 ∧ r.imm = 0 then do let d ← treg r.d; let a ← treg r.a; some (.ttrans d a) else none⟩,
  ⟨0x41, 6, 1, fun r => if r.b = 0 ∧ r.imm = 0 then do let d ← treg r.d; let a ← treg r.a; some (.tbcast d a) else none⟩,
  ⟨0x42, 0, 1, fun r => if r.b = 0 ∧ bits r.imm 2 2 = 0 ∧ bits r.imm 5 25 = 0 then do let d ← tsreg (bits r.imm 0 1) r.d; let a ← tsreg (bits r.imm 1 1) r.a; some (.tcvt d a ((bits r.imm 4 1) = 1)) else none⟩,
  ⟨0x43, 0, 1, fun r => if r.b = 0 ∧ r.imm = 0 then do let d ← treg r.d; let a ← treg r.a; some (.tsclGet d a) else none⟩,
  ⟨0x43, 1, 1, fun r => if r.b = 0 ∧ r.imm = 0 then do let d ← treg r.d; let a ← treg r.a; some (.tsclPut d a) else none⟩,
  ⟨0x44, 0, 1, fun r => if bits r.imm 0 1 = 0 ∧ bits r.imm 3 27 = 0 ∧ bits r.imm 1 1 = 1 ∧ bits r.imm 2 1 = 1 then do let d ← kreg r.d; some (.kedge d (sreg r.a) (sreg r.b)) else none⟩,
  ⟨0x44, 1, 1, fun r => if r.imm = 0 then do let d ← kreg r.d; let a ← kreg r.a; let b ← kreg r.b; some (.kand d a b) else none⟩,
  ⟨0x44, 2, 1, fun r => if r.imm = 0 then do let d ← kreg r.d; let a ← kreg r.a; let b ← kreg r.b; some (.kor d a b) else none⟩,
  ⟨0x44, 3, 1, fun r => if r.b = 0 ∧ r.imm = 0 then do let d ← kreg r.d; let a ← kreg r.a; some (.knot d a) else none⟩,
  ⟨0x44, 4, 1, fun r => if r.imm = 0 then do let d ← kreg r.d; let a ← kreg r.a; let b ← kreg r.b; some (.kxor d a b) else none⟩,
  ⟨0x44, 5, 1, fun r => if r.b = 0 ∧ bits r.imm 1 29 = 0 ∧ bits r.imm 0 1 = 1 then do let a ← kreg r.a; some (.kcnt (sreg r.d) a) else none⟩,
  ⟨0x48, 0, 2, fun r => if bits r.w2 6 6 = 0 ∧ bits r.w2 13 19 = 0 then do let d ← treg r.d; some (.tld d (sreg r.a) (sreg r.b) (sreg (r.w2 % 64)) (.ofNat 30 (bits r.imm 0 30)) ((bits r.w2 12 1) = 1)) else none⟩,
  ⟨0x48, 1, 2, fun r => if bits r.w2 6 6 = 0 ∧ bits r.w2 13 19 = 0 then do let d ← treg r.d; some (.tst d (sreg r.a) (sreg r.b) (sreg (r.w2 % 64)) (.ofNat 30 (bits r.imm 0 30)) ((bits r.w2 12 1) = 1)) else none⟩,
  ⟨0x48, 2, 2, fun r => if bits r.w2 6 26 = 0 then do let d ← treg r.d; some (.tldm d (sreg r.a) (sreg r.b) (sreg (r.w2 % 64)) (.ofNat 30 (bits r.imm 0 30))) else none⟩,
  ⟨0x48, 3, 2, fun r => if bits r.w2 6 26 = 0 then do let d ← treg r.d; some (.tstm d (sreg r.a) (sreg r.b) (sreg (r.w2 % 64)) (.ofNat 30 (bits r.imm 0 30))) else none⟩,
  ⟨0x48, 4, 2, fun r => if r.b = 0 ∧ r.w2 = 0 then do let n ← cbreg r.d; some (.tcbLd n (sreg r.a) (.ofNat 30 (bits r.imm 0 30))) else none⟩,
  ⟨0x60, 0, 1, fun r => if bits r.imm 0 1 = 0 ∧ bits r.imm 3 27 = 0 then do let d ← treg r.d; let a ← tsreg (bits r.imm 1 1) r.a; let b ← tsreg (bits r.imm 2 1) r.b; some (.tadd d a b) else none⟩,
  ⟨0x60, 1, 1, fun r => if bits r.imm 0 1 = 0 ∧ bits r.imm 3 27 = 0 then do let d ← treg r.d; let a ← tsreg (bits r.imm 1 1) r.a; let b ← tsreg (bits r.imm 2 1) r.b; some (.tsub d a b) else none⟩,
  ⟨0x60, 2, 1, fun r => if bits r.imm 0 1 = 0 ∧ bits r.imm 3 27 = 0 then do let d ← treg r.d; let a ← tsreg (bits r.imm 1 1) r.a; let b ← tsreg (bits r.imm 2 1) r.b; some (.tmul d a b) else none⟩,
  ⟨0x60, 3, 1, fun r => if bits r.imm 0 1 = 0 ∧ bits r.imm 3 27 = 0 then do let d ← treg r.d; let a ← tsreg (bits r.imm 1 1) r.a; let b ← tsreg (bits r.imm 2 1) r.b; some (.tdiv d a b) else none⟩,
  ⟨0x60, 4, 1, fun r => if bits r.imm 0 1 = 0 ∧ bits r.imm 3 27 = 0 then do let d ← treg r.d; let a ← tsreg (bits r.imm 1 1) r.a; let b ← tsreg (bits r.imm 2 1) r.b; some (.tmax d a b) else none⟩,
  ⟨0x60, 5, 1, fun r => if bits r.imm 0 1 = 0 ∧ bits r.imm 3 27 = 0 then do let d ← treg r.d; let a ← tsreg (bits r.imm 1 1) r.a; let b ← tsreg (bits r.imm 2 1) r.b; some (.tmin d a b) else none⟩,
  ⟨0x61, 0, 2, fun r => if bits r.imm 0 1 = 0 ∧ bits r.imm 4 26 = 0 ∧ bits r.w2 6 26 = 0 then do let d ← treg r.d; let a ← tsreg (bits r.imm 1 1) r.a; let b ← tsreg (bits r.imm 2 1) r.b; let x ← tsreg (bits r.imm 3 1) (r.w2 % 64); some (.tfma d a b x) else none⟩,
  ⟨0x61, 1, 2, fun r => if bits r.imm 0 1 = 0 ∧ bits r.imm 3 27 = 0 ∧ bits r.w2 6 26 = 0 then do let d ← treg r.d; let a ← tsreg (bits r.imm 1 1) r.a; let b ← tsreg (bits r.imm 2 1) r.b; let k ← kreg (r.w2 % 64); some (.tsel d a b k) else none⟩,
  ⟨0x62, 0, 1, fun r => if r.b = 0 ∧ bits r.imm 0 1 = 0 ∧ bits r.imm 2 28 = 0 then do let d ← treg r.d; let a ← tsreg (bits r.imm 1 1) r.a; some (.tsqrt d a) else none⟩,
  ⟨0x62, 1, 1, fun r => if r.b = 0 ∧ bits r.imm 0 1 = 0 ∧ bits r.imm 2 28 = 0 then do let d ← treg r.d; let a ← tsreg (bits r.imm 1 1) r.a; some (.trsqrt d a) else none⟩,
  ⟨0x62, 2, 1, fun r => if r.b = 0 ∧ bits r.imm 0 1 = 0 ∧ bits r.imm 2 28 = 0 then do let d ← treg r.d; let a ← tsreg (bits r.imm 1 1) r.a; some (.trcp d a) else none⟩,
  ⟨0x62, 3, 1, fun r => if r.b = 0 ∧ bits r.imm 0 1 = 0 ∧ bits r.imm 2 28 = 0 then do let d ← treg r.d; let a ← tsreg (bits r.imm 1 1) r.a; some (.texp2 d a) else none⟩,
  ⟨0x62, 4, 1, fun r => if r.b = 0 ∧ bits r.imm 0 1 = 0 ∧ bits r.imm 2 28 = 0 then do let d ← treg r.d; let a ← tsreg (bits r.imm 1 1) r.a; some (.tlog2 d a) else none⟩,
  ⟨0x62, 5, 1, fun r => if r.b = 0 ∧ bits r.imm 0 1 = 0 ∧ bits r.imm 2 28 = 0 then do let d ← treg r.d; let a ← tsreg (bits r.imm 1 1) r.a; some (.tabs d a) else none⟩,
  ⟨0x62, 6, 1, fun r => if r.b = 0 ∧ bits r.imm 0 1 = 0 ∧ bits r.imm 2 28 = 0 then do let d ← treg r.d; let a ← tsreg (bits r.imm 1 1) r.a; some (.tneg d a) else none⟩,
  ⟨0x63, 0, 1, fun r => if bits r.imm 0 1 = 0 ∧ bits r.imm 3 27 = 0 then do let d ← kreg r.d; let a ← tsreg (bits r.imm 1 1) r.a; let b ← tsreg (bits r.imm 2 1) r.b; some (.tcmpEq d a b) else none⟩,
  ⟨0x63, 1, 1, fun r => if bits r.imm 0 1 = 0 ∧ bits r.imm 3 27 = 0 then do let d ← kreg r.d; let a ← tsreg (bits r.imm 1 1) r.a; let b ← tsreg (bits r.imm 2 1) r.b; some (.tcmpNe d a b) else none⟩,
  ⟨0x63, 2, 1, fun r => if bits r.imm 0 1 = 0 ∧ bits r.imm 3 27 = 0 then do let d ← kreg r.d; let a ← tsreg (bits r.imm 1 1) r.a; let b ← tsreg (bits r.imm 2 1) r.b; some (.tcmpLt d a b) else none⟩,
  ⟨0x63, 3, 1, fun r => if bits r.imm 0 1 = 0 ∧ bits r.imm 3 27 = 0 then do let d ← kreg r.d; let a ← tsreg (bits r.imm 1 1) r.a; let b ← tsreg (bits r.imm 2 1) r.b; some (.tcmpLe d a b) else none⟩,
  ⟨0x63, 4, 1, fun r => if bits r.imm 0 1 = 0 ∧ bits r.imm 3 27 = 0 then do let d ← kreg r.d; let a ← tsreg (bits r.imm 1 1) r.a; let b ← tsreg (bits r.imm 2 1) r.b; some (.tcmpGt d a b) else none⟩,
  ⟨0x63, 5, 1, fun r => if bits r.imm 0 1 = 0 ∧ bits r.imm 3 27 = 0 then do let d ← kreg r.d; let a ← tsreg (bits r.imm 1 1) r.a; let b ← tsreg (bits r.imm 2 1) r.b; some (.tcmpGe d a b) else none⟩,
  ⟨0x64, 0, 1, fun r => if r.b = 0 ∧ bits r.imm 1 3 = 0 ∧ bits r.imm 6 24 = 0 then do let d ← tsreg (bits r.imm 0 1) r.d; let a ← treg r.a; let axis ← Axis.ofCode (bits r.imm 4 2); some (.tredSum d a axis) else none⟩,
  ⟨0x64, 1, 1, fun r => if r.b = 0 ∧ bits r.imm 1 3 = 0 ∧ bits r.imm 6 24 = 0 then do let d ← tsreg (bits r.imm 0 1) r.d; let a ← treg r.a; let axis ← Axis.ofCode (bits r.imm 4 2); some (.tredMax d a axis) else none⟩,
  ⟨0x64, 2, 1, fun r => if r.b = 0 ∧ bits r.imm 1 3 = 0 ∧ bits r.imm 6 24 = 0 then do let d ← tsreg (bits r.imm 0 1) r.d; let a ← treg r.a; let axis ← Axis.ofCode (bits r.imm 4 2); some (.tredMin d a axis) else none⟩,
  ⟨0x80, 0, 1, fun r => if bits r.imm 11 19 = 0 then do let d ← treg r.d; let a ← treg r.a; let b ← treg r.b; let f ← mmaFmt r.imm; some (.mma d a b f) else none⟩,
  ⟨0x80, 1, 1, fun r => if bits r.imm 20 2 = 0 ∧ bits r.imm 26 4 = 0 then do let d ← treg r.d; let b ← treg r.b; let f ← mmaFmt r.imm; some (.mmaSa d (sreg r.a) b f (.ofNat 7 (bits r.imm 11 7)) ⟨.ofNat 2 (bits r.imm 18 2), .ofNat 4 (bits r.imm 22 4)⟩) else none⟩,
  ⟨0x80, 2, 1, fun r => if bits r.imm 18 2 = 0 ∧ bits r.imm 22 4 = 0 then do let d ← treg r.d; let a ← treg r.a; let f ← mmaFmt r.imm; some (.mmaSb d a (sreg r.b) f (.ofNat 7 (bits r.imm 11 7)) ⟨.ofNat 2 (bits r.imm 20 2), .ofNat 4 (bits r.imm 26 4)⟩) else none⟩,
  ⟨0x80, 3, 1, fun r => do let d ← treg r.d; let f ← mmaFmt r.imm; some (.mmaSs d (sreg r.a) (sreg r.b) f (.ofNat 7 (bits r.imm 11 7)) ⟨.ofNat 2 (bits r.imm 18 2), .ofNat 4 (bits r.imm 22 4)⟩ ⟨.ofNat 2 (bits r.imm 20 2), .ofNat 4 (bits r.imm 26 4)⟩)⟩,
  ⟨0x80, 4, 1, fun r => if bits r.imm 11 19 = 0 then do let d ← treg r.d; let a ← treg r.a; let b ← treg r.b; let f ← mmaFmt r.imm; some (.mmaZ d a b f) else none⟩]

/-- Major opcodes 0xA0–0xDF (02 R63). -/
def rowsMemory : List Row := [
  ⟨0xA0, 0, 1, fun r => if r.b = 0 then some (.ldB (sreg r.d) (sreg r.a) (.ofNat 30 (bits r.imm 0 30))) else none⟩,
  ⟨0xA0, 1, 1, fun r => if r.b = 0 then some (.ldBu (sreg r.d) (sreg r.a) (.ofNat 30 (bits r.imm 0 30))) else none⟩,
  ⟨0xA0, 2, 1, fun r => if r.b = 0 then some (.ldH (sreg r.d) (sreg r.a) (.ofNat 30 (bits r.imm 0 30))) else none⟩,
  ⟨0xA0, 3, 1, fun r => if r.b = 0 then some (.ldHu (sreg r.d) (sreg r.a) (.ofNat 30 (bits r.imm 0 30))) else none⟩,
  ⟨0xA0, 4, 1, fun r => if r.b = 0 then some (.ldW (sreg r.d) (sreg r.a) (.ofNat 30 (bits r.imm 0 30))) else none⟩,
  ⟨0xA0, 5, 1, fun r => if r.b = 0 then some (.ldWu (sreg r.d) (sreg r.a) (.ofNat 30 (bits r.imm 0 30))) else none⟩,
  ⟨0xA0, 6, 1, fun r => if r.b = 0 then some (.ldD (sreg r.d) (sreg r.a) (.ofNat 30 (bits r.imm 0 30))) else none⟩,
  ⟨0xA1, 0, 1, fun r => if r.d = 0 then some (.stB (sreg r.a) (sreg r.b) (.ofNat 30 (bits r.imm 0 30))) else none⟩,
  ⟨0xA1, 1, 1, fun r => if r.d = 0 then some (.stH (sreg r.a) (sreg r.b) (.ofNat 30 (bits r.imm 0 30))) else none⟩,
  ⟨0xA1, 2, 1, fun r => if r.d = 0 then some (.stW (sreg r.a) (sreg r.b) (.ofNat 30 (bits r.imm 0 30))) else none⟩,
  ⟨0xA1, 3, 1, fun r => if r.d = 0 then some (.stD (sreg r.a) (sreg r.b) (.ofNat 30 (bits r.imm 0 30))) else none⟩,
  ⟨0xA2, 0, 1, fun r => if r.b = 0 then some (.sld (sreg r.d) (sreg r.a) (.ofNat 2 (bits r.imm 0 2)) ((bits r.imm 2 1) = 1) (.ofNat 27 (bits r.imm 3 27))) else none⟩,
  ⟨0xA2, 1, 1, fun r => if r.d = 0 ∧ bits r.imm 2 1 = 0 then some (.sst (sreg r.a) (sreg r.b) (.ofNat 2 (bits r.imm 0 2)) (.ofNat 27 (bits r.imm 3 27))) else none⟩,
  ⟨0xA3, 0, 1, fun r => if r.b = 0 then some (.ldbit (sreg r.d) (sreg r.a) (.ofNat 6 (bits r.imm 0 6)) ((bits r.imm 6 1) = 1) (.ofNat 23 (bits r.imm 7 23))) else none⟩,
  ⟨0xA3, 1, 1, fun r => if r.d = 0 ∧ bits r.imm 6 1 = 0 then some (.stbit (sreg r.a) (sreg r.b) (.ofNat 6 (bits r.imm 0 6)) (.ofNat 23 (bits r.imm 7 23))) else none⟩,
  ⟨0xA4, 0, 1, fun r => if r.b = 0 then some (.rld (sreg r.d) (sreg r.a) (.ofNat 30 (bits r.imm 0 30))) else none⟩,
  ⟨0xA4, 1, 1, fun r => if r.d = 0 then some (.rst (sreg r.a) (sreg r.b) (.ofNat 30 (bits r.imm 0 30))) else none⟩,
  ⟨0xA5, 0, 2, fun r => if r.d = 0 ∧ bits r.imm 10 20 = 0 ∧ bits r.w2 12 20 = 0 then some (.amSend (sreg r.a) (sreg r.b) (sreg (r.w2 % 64)) (sreg (bits r.w2 6 6)) (.ofNat 10 (bits r.imm 0 10))) else none⟩,
  ⟨0xA6, 0, 1, fun r => if r.d = 0 ∧ r.b = 0 then some (.pfL1 (sreg r.a) (.ofNat 30 (bits r.imm 0 30))) else none⟩,
  ⟨0xA6, 1, 1, fun r => if r.d = 0 ∧ r.b = 0 then some (.pfL2 (sreg r.a) (.ofNat 30 (bits r.imm 0 30))) else none⟩,
  ⟨0xA7, 0, 1, fun r => if r.b = 0 ∧ bits r.imm 5 25 = 0 then some (.cbufTake (sreg r.d) (sreg r.a) (.ofNat 5 (bits r.imm 0 5))) else none⟩,
  ⟨0xA7, 1, 1, fun r => if r.d = 0 ∧ r.b = 0 ∧ bits r.imm 5 25 = 0 then some (.cbufGive (sreg r.a) (.ofNat 5 (bits r.imm 0 5))) else none⟩,
  ⟨0xC0, 0, 1, fun r => some (.amoAdd (sreg r.d) (sreg r.a) (sreg r.b) (.ofNat 30 (bits r.imm 0 30)))⟩,
  ⟨0xC0, 1, 1, fun r => some (.amoAnd (sreg r.d) (sreg r.a) (sreg r.b) (.ofNat 30 (bits r.imm 0 30)))⟩,
  ⟨0xC0, 2, 1, fun r => some (.amoOr (sreg r.d) (sreg r.a) (sreg r.b) (.ofNat 30 (bits r.imm 0 30)))⟩,
  ⟨0xC0, 3, 1, fun r => some (.amoXor (sreg r.d) (sreg r.a) (sreg r.b) (.ofNat 30 (bits r.imm 0 30)))⟩,
  ⟨0xC0, 4, 1, fun r => some (.amoMin (sreg r.d) (sreg r.a) (sreg r.b) (.ofNat 30 (bits r.imm 0 30)))⟩,
  ⟨0xC0, 5, 1, fun r => some (.amoMax (sreg r.d) (sreg r.a) (sreg r.b) (.ofNat 30 (bits r.imm 0 30)))⟩,
  ⟨0xC0, 6, 1, fun r => some (.amoSwap (sreg r.d) (sreg r.a) (sreg r.b) (.ofNat 30 (bits r.imm 0 30)))⟩,
  ⟨0xC1, 0, 2, fun r => if bits r.w2 6 26 = 0 then some (.amoCas (sreg r.d) (sreg r.a) (sreg r.b) (sreg (r.w2 % 64)) (.ofNat 30 (bits r.imm 0 30))) else none⟩,
  ⟨0xC2, 0, 1, fun r => if r.d = 0 then do let rf ← RedFmt.ofCode (bits r.imm 0 2); some (.redAdd (sreg r.a) (sreg r.b) rf (.ofNat 28 (bits r.imm 2 28))) else none⟩,
  ⟨0xC2, 1, 1, fun r => if r.d = 0 then do let rf ← RedFmt.ofCode (bits r.imm 0 2); some (.redMax (sreg r.a) (sreg r.b) rf (.ofNat 28 (bits r.imm 2 28))) else none⟩,
  ⟨0xC2, 2, 1, fun r => if r.d = 0 then do let rf ← RedFmt.ofCode (bits r.imm 0 2); some (.redMin (sreg r.a) (sreg r.b) rf (.ofNat 28 (bits r.imm 2 28))) else none⟩,
  ⟨0xC3, 0, 1, fun r => if r.d = 0 ∧ bits r.imm 1 2 = 0 then some (.fePut (sreg r.a) (sreg r.b) ((bits r.imm 0 1) = 1) (.ofNat 27 (bits r.imm 3 27))) else none⟩,
  ⟨0xC3, 1, 1, fun r => if r.b = 0 ∧ bits r.imm 1 2 = 0 then some (.feTake (sreg r.d) (sreg r.a) ((bits r.imm 0 1) = 1) (.ofNat 27 (bits r.imm 3 27))) else none⟩,
  ⟨0xC3, 2, 1, fun r => if r.b = 0 ∧ bits r.imm 2 1 = 0 then some (.fePeek (sreg r.d) (sreg r.a) ((bits r.imm 0 1) = 1) ((bits r.imm 1 1) = 1) (.ofNat 27 (bits r.imm 3 27))) else none⟩,
  ⟨0xC4, 0, 1, fun r => if r.d = 0 ∧ r.a = 0 ∧ r.b = 0 ∧ r.imm = 0 then some (.fenceCore) else none⟩,
  ⟨0xC4, 1, 1, fun r => if r.d = 0 ∧ r.a = 0 ∧ r.b = 0 ∧ r.imm = 0 then some (.fenceCluster) else none⟩,
  ⟨0xC4, 2, 1, fun r => if r.d = 0 ∧ r.a = 0 ∧ r.b = 0 ∧ r.imm = 0 then some (.fencePod) else none⟩,
  ⟨0xC4, 3, 1, fun r => if r.d = 0 ∧ r.a = 0 ∧ r.b = 0 ∧ r.imm = 0 then some (.fencePackage) else none⟩,
  ⟨0xC4, 4, 1, fun r => if r.d = 0 ∧ r.a = 0 ∧ r.b = 0 ∧ r.imm = 0 then some (.fenceSystem) else none⟩,
  ⟨0xC5, 0, 1, fun r => if r.d = 0 then do let cc ← Cc.ofCode (bits r.imm 0 3); some (.waitMem (sreg r.a) (sreg r.b) cc (.ofNat 27 (bits r.imm 3 27))) else none⟩]

/-- Major opcodes 0xE0–0xFF (02 R63). -/
def rowsSched : List Row := [
  ⟨0xE0, 0, 3, buildCpyQ⟩,
  ⟨0xE0, 1, 3, fun r => if bits r.imm 4 2 = 0 ∧ bits r.imm 20 10 = 0 then some (.cpyFm (sreg r.d) (sreg r.a) (sreg r.b) (cpyF r.imm) (.ofNat 32 r.w2) (.ofNat 32 r.w3)) else none⟩,
  ⟨0xE1, 0, 3, fun r => if bits r.imm 7 23 = 0 ∧ bits r.w2 28 4 = 0 ∧ bits r.w3 16 16 = 0 then some (.routeQ (sreg r.d) (sreg r.a) (sreg r.b) (.ofNat 4 (bits r.imm 0 4)) (.ofNat 3 (bits r.imm 4 3)) (.ofNat 16 (bits r.w2 0 16)) (.ofNat 12 (bits r.w2 16 12)) (.ofNat 16 (bits r.w3 0 16))) else none⟩,
  ⟨0xE2, 0, 3, fun r => if bits r.imm 13 17 = 0 then do let ck ← CollKind.ofCode (bits r.imm 4 2); some (.collQ (sreg r.d) (sreg r.a) (sreg r.b) (.ofNat 4 (bits r.imm 0 4)) ck ((bits r.imm 6 1) = 1) (.ofNat 6 (bits r.imm 7 6)) (.ofNat 32 (bits r.w2 0 32)) (.ofNat 32 (bits r.w3 0 32))) else none⟩,
  ⟨0xE3, 0, 1, fun r => if r.d = 0 ∧ r.b = 0 ∧ bits r.imm 4 26 = 0 then some (.tlWait (sreg r.a) (.ofNat 4 (bits r.imm 0 4))) else none⟩,
  ⟨0xE3, 1, 1, fun r => if r.a = 0 ∧ r.b = 0 ∧ bits r.imm 6 24 = 0 then some (.tlRead (sreg r.d) (.ofNat 4 (bits r.imm 0 4)) (.ofNat 2 (bits r.imm 4 2))) else none⟩,
  ⟨0xF0, 0, 1, fun r => if r.b = 0 ∧ r.imm = 0 then some (.launch (sreg r.d) (sreg r.a)) else none⟩,
  ⟨0xF1, 0, 1, fun r => if r.d = 0 ∧ r.a = 0 ∧ r.b = 0 ∧ r.imm = 0 then some (.yield) else none⟩,
  ⟨0xF1, 1, 1, fun r => if r.d = 0 ∧ r.b = 0 ∧ bits r.imm 1 2 = 0 then some (.park (sreg r.a) ((bits r.imm 0 1) = 1) (.ofNat 27 (bits r.imm 3 27))) else none⟩,
  ⟨0xF1, 2, 1, fun r => if r.d = 0 ∧ r.b = 0 ∧ bits r.imm 1 29 = 0 then some (.hop (sreg r.a) ((bits r.imm 0 1) = 1)) else none⟩,
  ⟨0xF1, 3, 1, fun r => if r.d = 0 ∧ r.a = 0 ∧ r.b = 0 ∧ r.imm = 0 then some (.exit) else none⟩,
  ⟨0xF1, 4, 1, fun r => if r.d = 0 ∧ r.a = 0 ∧ r.b = 0 ∧ r.imm = 0 then some (.commit) else none⟩,
  ⟨0xF2, 0, 1, buildCtxStart⟩,
  ⟨0xF2, 1, 1, fun r => if r.b = 0 ∧ r.imm = 0 then some (.ctxStop (sreg r.d) (sreg r.a)) else none⟩,
  ⟨0xF2, 2, 1, fun r => if bits r.imm 1 29 = 0 && ((bits r.imm 0 1) = 0 || r.b = 0) then some (.ctxReap (sreg r.d) (sreg r.a) (sreg r.b) ((bits r.imm 0 1) = 1)) else none⟩,
  ⟨0xF3, 0, 1, fun r => if r.d = 0 ∧ bits r.imm 10 20 = 0 then some (.send (sreg r.a) (sreg r.b) (.ofNat 10 (bits r.imm 0 10))) else none⟩,
  ⟨0xF3, 1, 1, fun r => if r.b = 0 then some (.recv (sreg r.d) (sreg r.a) (.ofNat 30 (bits r.imm 0 30))) else none⟩,
  ⟨0xF4, 0, 1, fun r => if r.d = 0 ∧ r.b = 0 ∧ bits r.imm 16 14 = 0 then some (.gangForm (sreg r.a) (.ofNat 16 (bits r.imm 0 16))) else none⟩,
  ⟨0xF4, 1, 1, fun r => if r.d = 0 ∧ r.a = 0 ∧ r.b = 0 ∧ bits r.imm 16 14 = 0 then some (.gangJoin (.ofNat 16 (bits r.imm 0 16))) else none⟩,
  ⟨0xF4, 2, 1, fun r => if r.d = 0 ∧ r.a = 0 ∧ r.b = 0 ∧ r.imm = 0 then some (.gangLeave) else none⟩,
  ⟨0xF5, 0, 1, fun r => if r.d = 0 ∧ r.b = 0 ∧ bits r.imm 8 22 = 0 then some (.cancelLaunch (sreg r.a) (.ofNat 8 (bits r.imm 0 8))) else none⟩,
  ⟨0xF5, 1, 1, fun r => if r.d = 0 ∧ r.b = 0 ∧ bits r.imm 8 22 = 0 then some (.cancelGraph (sreg r.a) (.ofNat 8 (bits r.imm 0 8))) else none⟩,
  ⟨0xF5, 2, 1, fun r => if r.d = 0 ∧ r.b = 0 ∧ bits r.imm 8 22 = 0 then some (.cancelPhase (sreg r.a) (.ofNat 8 (bits r.imm 0 8))) else none⟩,
  ⟨0xF5, 3, 1, fun r => if r.d = 0 ∧ r.b = 0 ∧ bits r.imm 8 22 = 0 then some (.cancelJob (sreg r.a) (.ofNat 8 (bits r.imm 0 8))) else none⟩,
  ⟨0xF5, 4, 1, fun r => if r.b = 0 ∧ r.imm = 0 then some (.cntRead (sreg r.d) (sreg r.a)) else none⟩,
  ⟨0xF6, 0, 1, fun r => if r.b = 0 ∧ r.imm = 0 then some (.hmq (sreg r.d) (sreg r.a)) else none⟩]

/-- The opcode map (02 R63). -/
def opcodeMap : List Row := rowsScalar ++ rowsTile ++ rowsMemory ++ rowsSched

/-- An instruction of 64 bits or more (02 R61 step 6). -/
def decodeRaw (r : Raw) : Except Reject Instr :=
  match opcodeMap.find? (fun w => w.op == r.op && w.fn == r.fn) with
  | none => .error .unassigned
  | some w =>
    if w.len = r.len then
      match w.build r with
      | none => .error .fields
      | some i => if i.wf then .ok i else .error .illFormed
    else .error .lenMismatch

/-- An element prefix (02 R56). -/
def pfxOfWord (w : Nat) : Pfx where
  rsv := .ofNat 6 (bits w 26 6)
  sat := bits w 25 1 = 1
  xv := bits w 24 1 = 1
  x := .ofNat 6 (bits w 18 6)
  mz := bits w 17 1 = 1
  mask := .ofNat 4 (bits w 13 4)
  rm := .ofNat 3 (bits w 10 3)
  fmt := .ofNat 5 (bits w 5 5)

def Pfx.word (p : Pfx) : Nat :=
  4 + p.fmt.toNat * 2 ^ 5 + p.rm.toNat * 2 ^ 10 + p.mask.toNat * 2 ^ 13 + p.mz.toNat * 2 ^ 17 + p.x.toNat * 2 ^ 18 +
    p.xv.toNat * 2 ^ 24 + p.sat.toNat * 2 ^ 25 + p.rsv.toNat * 2 ^ 26

/-- A 32-bit word (02 R54, R55). -/
def decodeShort (w : Nat) : Except Reject Instr :=
  match bits w 2 3 with
  | 0 => if w = 0 then .ok .stop else .error .reservedWord
  | 1 => .ok (.elementPrefix (pfxOfWord w))
  | 7 => if w = 0x1C then .ok .pad else .error .reservedWord
  | _ => .error .reservedWord

/-- Length in words of the instruction that begins with `w0` (02 R45). -/
def lenWords (w0 : Nat) : Nat := bits w0 0 2 + 1

/-- Decoding of the words at an address: the first instruction, whatever follows it. -/
def decode : List Nat → Except Reject Instr
  | [] => .error .truncated
  | w0 :: rest =>
    match bits w0 0 2, rest with
    | 0, _ => decodeShort w0
    | 1, w1 :: _ => decodeRaw (.ofWords w0 w1 0 0)
    | 2, w1 :: w2 :: _ => decodeRaw (.ofWords w0 w1 w2 0)
    | 3, w1 :: w2 :: w3 :: _ => decodeRaw (.ofWords w0 w1 w2 w3)
    | _, _ => .error .truncated

/-- The little-endian 32-bit words of a byte sequence (02 R44); a rest of fewer than four bytes gives no word. -/
def wordsOfBytes : List Byte → List Nat
  | a :: b :: c :: d :: rest =>
    (a.toNat + b.toNat * 2 ^ 8 + c.toNat * 2 ^ 16 + d.toNat * 2 ^ 24) :: wordsOfBytes rest
  | _ => []

/-- Little-endian bytes of a number. -/
def bytesOfNat : Nat → Nat → List Byte
  | 0, _ => []
  | n + 1, v => .ofNat 8 v :: bytesOfNat n (v / 256)

/-- Decoding of the bytes at an address. -/
def decodeBytes (bs : List Byte) : Except Reject Instr := decode (wordsOfBytes bs)

/-- The instruction whose bits, numbered as the opcode table numbers them, are `w`; bits above `nbits` are zero. -/
def decodeTableWord (nbits w : Nat) : Option Instr :=
  match decodeBytes (bytesOfNat 16 (w % 2 ^ nbits)) with
  | .ok i => some i
  | .error _ => none

/-! ## The encoder -/

/-- The fields of an instruction; `none` for the 32-bit words and for events, which have no header. -/
def Instr.raw : Instr → Option Raw
  | .add d a b => some ⟨1, 0x00, 0, d.field, a.field, b.field, 0, 0, 0⟩
  | .sub d a b => some ⟨1, 0x00, 1, d.field, a.field, b.field, 0, 0, 0⟩
  | .mul d a b => some ⟨1, 0x00, 2, d.field, a.field, b.field, 0, 0, 0⟩
  | .mulh d a b => some ⟨1, 0x00, 3, d.field, a.field, b.field, 0, 0, 0⟩
  | .mulhu d a b => some ⟨1, 0x00, 4, d.field, a.field, b.field, 0, 0, 0⟩
  | .div d a b => some ⟨1, 0x00, 5, d.field, a.field, b.field, 0, 0, 0⟩
  | .divu d a b => some ⟨1, 0x00, 6, d.field, a.field, b.field, 0, 0, 0⟩
  | .rem d a b => some ⟨1, 0x00, 7, d.field, a.field, b.field, 0, 0, 0⟩
  | .remu d a b => some ⟨1, 0x00, 8, d.field, a.field, b.field, 0, 0, 0⟩
  | .and d a b => some ⟨1, 0x00, 9, d.field, a.field, b.field, 0, 0, 0⟩
  | .or d a b => some ⟨1, 0x00, 10, d.field, a.field, b.field, 0, 0, 0⟩
  | .xor d a b => some ⟨1, 0x00, 11, d.field, a.field, b.field, 0, 0, 0⟩
  | .andn d a b => some ⟨1, 0x00, 12, d.field, a.field, b.field, 0, 0, 0⟩
  | .shl d a b => some ⟨1, 0x00, 13, d.field, a.field, b.field, 0, 0, 0⟩
  | .shr d a b => some ⟨1, 0x00, 14, d.field, a.field, b.field, 0, 0, 0⟩
  | .sar d a b => some ⟨1, 0x00, 15, d.field, a.field, b.field, 0, 0, 0⟩
  | .rotl d a b => some ⟨1, 0x00, 16, d.field, a.field, b.field, 0, 0, 0⟩
  | .min d a b => some ⟨1, 0x00, 17, d.field, a.field, b.field, 0, 0, 0⟩
  | .max d a b => some ⟨1, 0x00, 18, d.field, a.field, b.field, 0, 0, 0⟩
  | .minu d a b => some ⟨1, 0x00, 19, d.field, a.field, b.field, 0, 0, 0⟩
  | .maxu d a b => some ⟨1, 0x00, 20, d.field, a.field, b.field, 0, 0, 0⟩
  | .clz d a => some ⟨1, 0x01, 0, d.field, a.field, 0, 0, 0, 0⟩
  | .ctz d a => some ⟨1, 0x01, 1, d.field, a.field, 0, 0, 0, 0⟩
  | .popc d a => some ⟨1, 0x01, 2, d.field, a.field, 0, 0, 0, 0⟩
  | .mov d a => some ⟨1, 0x01, 3, d.field, a.field, 0, 0, 0, 0⟩
  | .addi d a imm => some ⟨1, 0x02, 0, d.field, a.field, 0, imm.toNat, 0, 0⟩
  | .andi d a imm => some ⟨1, 0x02, 1, d.field, a.field, 0, imm.toNat, 0, 0⟩
  | .ori d a imm => some ⟨1, 0x02, 2, d.field, a.field, 0, imm.toNat, 0, 0⟩
  | .xori d a imm => some ⟨1, 0x02, 3, d.field, a.field, 0, imm.toNat, 0, 0⟩
  | .shli d a sh => some ⟨1, 0x02, 4, d.field, a.field, 0, sh.toNat, 0, 0⟩
  | .ext d a pos wm1 sx => some ⟨1, 0x03, 0, d.field, a.field, 0, pos.toNat + wm1.toNat * 64 + sx.toNat * 4096, 0, 0⟩
  | .ins d a pos wm1 => some ⟨1, 0x03, 1, d.field, a.field, 0, pos.toNat + wm1.toNat * 64, 0, 0⟩
  | .cmpEq d a b => some ⟨1, 0x04, 0, d.field, a.field, b.field, 0, 0, 0⟩
  | .cmpNe d a b => some ⟨1, 0x04, 1, d.field, a.field, b.field, 0, 0, 0⟩
  | .cmpLt d a b => some ⟨1, 0x04, 2, d.field, a.field, b.field, 0, 0, 0⟩
  | .cmpLtu d a b => some ⟨1, 0x04, 3, d.field, a.field, b.field, 0, 0, 0⟩
  | .cmpLe d a b => some ⟨1, 0x04, 4, d.field, a.field, b.field, 0, 0, 0⟩
  | .cmpLeu d a b => some ⟨1, 0x04, 5, d.field, a.field, b.field, 0, 0, 0⟩
  | .li d imm => some ⟨2, 0x05, 0, d.field, 0, 0, imm.toNat % 2 ^ 30, imm.toNat / 2 ^ 30, 0⟩
  | .addr d a b sh off => some ⟨1, 0x06, 0, d.field, a.field, b.field, sh.toNat + off.toNat * 8, 0, 0⟩
  | .sel d a b x => some ⟨2, 0x07, 0, d.field, a.field, b.field, 0, x.field, 0⟩
  | .bEq a b off => some ⟨1, 0x20, 0, 0, a.field, b.field, off.toNat, 0, 0⟩
  | .bNe a b off => some ⟨1, 0x20, 1, 0, a.field, b.field, off.toNat, 0, 0⟩
  | .bLt a b off => some ⟨1, 0x20, 2, 0, a.field, b.field, off.toNat, 0, 0⟩
  | .bGe a b off => some ⟨1, 0x20, 3, 0, a.field, b.field, off.toNat, 0, 0⟩
  | .bLtu a b off => some ⟨1, 0x20, 4, 0, a.field, b.field, off.toNat, 0, 0⟩
  | .bGeu a b off => some ⟨1, 0x20, 5, 0, a.field, b.field, off.toNat, 0, 0⟩
  | .bz a off => some ⟨1, 0x21, 0, 0, a.field, 0, off.toNat, 0, 0⟩
  | .bnz a off => some ⟨1, 0x21, 1, 0, a.field, 0, off.toNat, 0, 0⟩
  | .br off => some ⟨1, 0x22, 0, 0, 0, 0, off.toNat, 0, 0⟩
  | .call off => some ⟨1, 0x22, 1, 0, 0, 0, off.toNat, 0, 0⟩
  | .jmp a => some ⟨1, 0x22, 2, 0, a.field, 0, 0, 0, 0⟩
  | .calli a => some ⟨1, 0x22, 3, 0, a.field, 0, 0, 0, 0⟩
  | .ret => some ⟨1, 0x22, 4, 0, 0, 0, 0, 0, 0⟩
  | .nop => some ⟨1, 0x22, 5, 0, 0, 0, 0, 0, 0⟩
  | .loop a off => some ⟨1, 0x23, 0, 0, a.field, 0, off.toNat, 0, 0⟩
  | .mfs d sr => some ⟨1, 0x24, 0, d.field, 0, 0, sr.toNat, 0, 0⟩
  | .mts a sr => some ⟨1, 0x24, 1, 0, a.field, 0, sr.toNat, 0, 0⟩
  | .trap imm => some ⟨1, 0x25, 0, 0, 0, 0, imm.toNat, 0, 0⟩
  | .svcRecv d => some ⟨1, 0x26, 0, d.field, 0, 0, 0, 0, 0⟩
  | .svcReply a b reply => some ⟨1, 0x26, 1, 0, a.field, b.field, reply.code, 0, 0⟩
  | .svcRd d a space n => some ⟨1, 0x26, 2, d.field, a.field, 0, space.toNat * 4096 + n.toNat, 0, 0⟩
  | .svcWr a b space n => some ⟨1, 0x26, 3, 0, a.field, b.field, space.toNat * 4096 + n.toNat, 0, 0⟩
  | .tcfg d c => some ⟨1, 0x40, 0, d.field, 0, 0, c.enc, 0, 0⟩
  | .tzero d => some ⟨1, 0x40, 1, d.field, 0, 0, 0, 0, 0⟩
  | .tfill d a => some ⟨1, 0x40, 2, d.field, a.field, 0, 2, 0, 0⟩
  | .tmov d a => some ⟨1, 0x41, 0, d.field, a.field, 0, 0, 0, 0⟩
  | .trowGet d a b idx => some ⟨1, 0x41, 1, d.field, a.field, b.field, 4 + idx.toNat * 16, 0, 0⟩
  | .trowPut d a b idx => some ⟨1, 0x41, 2, d.field, a.field, b.field, 4 + idx.toNat * 16, 0, 0⟩
  | .tcolGet d a b idx => some ⟨1, 0x41, 3, d.field, a.field, b.field, 4 + idx.toNat * 16, 0, 0⟩
  | .tcolPut d a b idx => some ⟨1, 0x41, 4, d.field, a.field, b.field, 4 + idx.toNat * 16, 0, 0⟩
  | .ttrans d a => some ⟨1, 0x41, 5, d.field, a.field, 0, 0, 0, 0⟩
  | .tbcast d a => some ⟨1, 0x41, 6, d.field, a.field, 0, 0, 0, 0⟩
  | .tcvt d a sc => some ⟨1, 0x42, 0, d.field, a.field, 0, d.kind + a.kind * 2 + sc.toNat * 16, 0, 0⟩
  | .tsclGet d a => some ⟨1, 0x43, 0, d.field, a.field, 0, 0, 0, 0⟩
  | .tsclPut d a => some ⟨1, 0x43, 1, d.field, a.field, 0, 0, 0, 0⟩
  | .kedge d a b => some ⟨1, 0x44, 0, d.val, a.field, b.field, 6, 0, 0⟩
  | .kand d a b => some ⟨1, 0x44, 1, d.val, a.val, b.val, 0, 0, 0⟩
  | .kor d a b => some ⟨1, 0x44, 2, d.val, a.val, b.val, 0, 0, 0⟩
  | .knot d a => some ⟨1, 0x44, 3, d.val, a.val, 0, 0, 0, 0⟩
  | .kxor d a b => some ⟨1, 0x44, 4, d.val, a.val, b.val, 0, 0, 0⟩
  | .kcnt d a => some ⟨1, 0x44, 5, d.field, a.val, 0, 1, 0, 0⟩
  | .tld d a b x off nt => some ⟨2, 0x48, 0, d.field, a.field, b.field, off.toNat, x.field + nt.toNat * 4096, 0⟩
  | .tst d a b x off nt => some ⟨2, 0x48, 1, d.field, a.field, b.field, off.toNat, x.field + nt.toNat * 4096, 0⟩
  | .tldm d a b x off => some ⟨2, 0x48, 2, d.field, a.field, b.field, off.toNat, x.field, 0⟩
  | .tstm d a b x off => some ⟨2, 0x48, 3, d.field, a.field, b.field, off.toNat, x.field, 0⟩
  | .tcbLd n a off => some ⟨2, 0x48, 4, n.val, a.field, 0, off.toNat, 0, 0⟩
  | .tadd d a b => some ⟨1, 0x60, 0, d.field, a.field, b.field, a.kind * 2 + b.kind * 4, 0, 0⟩
  | .tsub d a b => some ⟨1, 0x60, 1, d.field, a.field, b.field, a.kind * 2 + b.kind * 4, 0, 0⟩
  | .tmul d a b => some ⟨1, 0x60, 2, d.field, a.field, b.field, a.kind * 2 + b.kind * 4, 0, 0⟩
  | .tdiv d a b => some ⟨1, 0x60, 3, d.field, a.field, b.field, a.kind * 2 + b.kind * 4, 0, 0⟩
  | .tmax d a b => some ⟨1, 0x60, 4, d.field, a.field, b.field, a.kind * 2 + b.kind * 4, 0, 0⟩
  | .tmin d a b => some ⟨1, 0x60, 5, d.field, a.field, b.field, a.kind * 2 + b.kind * 4, 0, 0⟩
  | .tfma d a b x => some ⟨2, 0x61, 0, d.field, a.field, b.field, a.kind * 2 + b.kind * 4 + x.kind * 8, x.field, 0⟩
  | .tsel d a b k => some ⟨2, 0x61, 1, d.field, a.field, b.field, a.kind * 2 + b.kind * 4, k.val, 0⟩
  | .tsqrt d a => some ⟨1, 0x62, 0, d.field, a.field, 0, a.kind * 2, 0, 0⟩
  | .trsqrt d a => some ⟨1, 0x62, 1, d.field, a.field, 0, a.kind * 2, 0, 0⟩
  | .trcp d a => some ⟨1, 0x62, 2, d.field, a.field, 0, a.kind * 2, 0, 0⟩
  | .texp2 d a => some ⟨1, 0x62, 3, d.field, a.field, 0, a.kind * 2, 0, 0⟩
  | .tlog2 d a => some ⟨1, 0x62, 4, d.field, a.field, 0, a.kind * 2, 0, 0⟩
  | .tabs d a => some ⟨1, 0x62, 5, d.field, a.field, 0, a.kind * 2, 0, 0⟩
  | .tneg d a => some ⟨1, 0x62, 6, d.field, a.field, 0, a.kind * 2, 0, 0⟩
  | .tcmpEq d a b => some ⟨1, 0x63, 0, d.val, a.field, b.field, a.kind * 2 + b.kind * 4, 0, 0⟩
  | .tcmpNe d a b => some ⟨1, 0x63, 1, d.val, a.field, b.field, a.kind * 2 + b.kind * 4, 0, 0⟩
  | .tcmpLt d a b => some ⟨1, 0x63, 2, d.val, a.field, b.field, a.kind * 2 + b.kind * 4, 0, 0⟩
  | .tcmpLe d a b => some ⟨1, 0x63, 3, d.val, a.field, b.field, a.kind * 2 + b.kind * 4, 0, 0⟩
  | .tcmpGt d a b => some ⟨1, 0x63, 4, d.val, a.field, b.field, a.kind * 2 + b.kind * 4, 0, 0⟩
  | .tcmpGe d a b => some ⟨1, 0x63, 5, d.val, a.field, b.field, a.kind * 2 + b.kind * 4, 0, 0⟩
  | .tredSum d a axis => some ⟨1, 0x64, 0, d.field, a.field, 0, d.kind + axis.code * 16, 0, 0⟩
  | .tredMax d a axis => some ⟨1, 0x64, 1, d.field, a.field, 0, d.kind + axis.code * 16, 0, 0⟩
  | .tredMin d a axis => some ⟨1, 0x64, 2, d.field, a.field, 0, d.kind + axis.code * 16, 0, 0⟩
  | .mma d a b f => some ⟨1, 0x80, 0, d.field, a.field, b.field, f.imm, 0, 0⟩
  | .mmaSa d a b f km1 pa => some ⟨1, 0x80, 1, d.field, a.field, b.field, f.imm + km1.toNat * 2048 + pa.cb.toNat * 262144 + pa.ti.toNat * 4194304, 0, 0⟩
  | .mmaSb d a b f km1 pb => some ⟨1, 0x80, 2, d.field, a.field, b.field, f.imm + km1.toNat * 2048 + pb.cb.toNat * 1048576 + pb.ti.toNat * 67108864, 0, 0⟩
  | .mmaSs d a b f km1 pa pb => some ⟨1, 0x80, 3, d.field, a.field, b.field, f.imm + km1.toNat * 2048 + pa.cb.toNat * 262144 + pa.ti.toNat * 4194304 + pb.cb.toNat * 1048576 + pb.ti.toNat * 67108864, 0, 0⟩
  | .mmaZ d a b f => some ⟨1, 0x80, 4, d.field, a.field, b.field, f.imm, 0, 0⟩
  | .ldB d a off => some ⟨1, 0xA0, 0, d.field, a.field, 0, off.toNat, 0, 0⟩
  | .ldBu d a off => some ⟨1, 0xA0, 1, d.field, a.field, 0, off.toNat, 0, 0⟩
  | .ldH d a off => some ⟨1, 0xA0, 2, d.field, a.field, 0, off.toNat, 0, 0⟩
  | .ldHu d a off => some ⟨1, 0xA0, 3, d.field, a.field, 0, off.toNat, 0, 0⟩
  | .ldW d a off => some ⟨1, 0xA0, 4, d.field, a.field, 0, off.toNat, 0, 0⟩
  | .ldWu d a off => some ⟨1, 0xA0, 5, d.field, a.field, 0, off.toNat, 0, 0⟩
  | .ldD d a off => some ⟨1, 0xA0, 6, d.field, a.field, 0, off.toNat, 0, 0⟩
  | .stB a b off => some ⟨1, 0xA1, 0, 0, a.field, b.field, off.toNat, 0, 0⟩
  | .stH a b off => some ⟨1, 0xA1, 1, 0, a.field, b.field, off.toNat, 0, 0⟩
  | .stW a b off => some ⟨1, 0xA1, 2, 0, a.field, b.field, off.toNat, 0, 0⟩
  | .stD a b off => some ⟨1, 0xA1, 3, 0, a.field, b.field, off.toNat, 0, 0⟩
  | .sld d a sz sx off => some ⟨1, 0xA2, 0, d.field, a.field, 0, sz.toNat + sx.toNat * 4 + off.toNat * 8, 0, 0⟩
  | .sst a b sz off => some ⟨1, 0xA2, 1, 0, a.field, b.field, sz.toNat + off.toNat * 8, 0, 0⟩
  | .ldbit d a wm1 sx boff => some ⟨1, 0xA3, 0, d.field, a.field, 0, wm1.toNat + sx.toNat * 64 + boff.toNat * 128, 0, 0⟩
  | .stbit a b wm1 boff => some ⟨1, 0xA3, 1, 0, a.field, b.field, wm1.toNat + boff.toNat * 128, 0, 0⟩
  | .rld d a off => some ⟨1, 0xA4, 0, d.field, a.field, 0, off.toNat, 0, 0⟩
  | .rst a b off => some ⟨1, 0xA4, 1, 0, a.field, b.field, off.toNat, 0, 0⟩
  | .amSend a b x y hid => some ⟨2, 0xA5, 0, 0, a.field, b.field, hid.toNat, x.field + y.field * 64, 0⟩
  | .pfL1 a off => some ⟨1, 0xA6, 0, 0, a.field, 0, off.toNat, 0, 0⟩
  | .pfL2 a off => some ⟨1, 0xA6, 1, 0, a.field, 0, off.toNat, 0, 0⟩
  | .cbufTake d a m => some ⟨1, 0xA7, 0, d.field, a.field, 0, m.toNat, 0, 0⟩
  | .cbufGive a m => some ⟨1, 0xA7, 1, 0, a.field, 0, m.toNat, 0, 0⟩
  | .amoAdd d a b off => some ⟨1, 0xC0, 0, d.field, a.field, b.field, off.toNat, 0, 0⟩
  | .amoAnd d a b off => some ⟨1, 0xC0, 1, d.field, a.field, b.field, off.toNat, 0, 0⟩
  | .amoOr d a b off => some ⟨1, 0xC0, 2, d.field, a.field, b.field, off.toNat, 0, 0⟩
  | .amoXor d a b off => some ⟨1, 0xC0, 3, d.field, a.field, b.field, off.toNat, 0, 0⟩
  | .amoMin d a b off => some ⟨1, 0xC0, 4, d.field, a.field, b.field, off.toNat, 0, 0⟩
  | .amoMax d a b off => some ⟨1, 0xC0, 5, d.field, a.field, b.field, off.toNat, 0, 0⟩
  | .amoSwap d a b off => some ⟨1, 0xC0, 6, d.field, a.field, b.field, off.toNat, 0, 0⟩
  | .amoCas d a b x off => some ⟨2, 0xC1, 0, d.field, a.field, b.field, off.toNat, x.field, 0⟩
  | .redAdd a b rf off => some ⟨1, 0xC2, 0, 0, a.field, b.field, rf.code + off.toNat * 4, 0, 0⟩
  | .redMax a b rf off => some ⟨1, 0xC2, 1, 0, a.field, b.field, rf.code + off.toNat * 4, 0, 0⟩
  | .redMin a b rf off => some ⟨1, 0xC2, 2, 0, a.field, b.field, rf.code + off.toNat * 4, 0, 0⟩
  | .fePut a b g woff => some ⟨1, 0xC3, 0, 0, a.field, b.field, g.toNat + woff.toNat * 8, 0, 0⟩
  | .feTake d a g woff => some ⟨1, 0xC3, 1, d.field, a.field, 0, g.toNat + woff.toNat * 8, 0, 0⟩
  | .fePeek d a g ps woff => some ⟨1, 0xC3, 2, d.field, a.field, 0, g.toNat + ps.toNat * 2 + woff.toNat * 8, 0, 0⟩
  | .fenceCore => some ⟨1, 0xC4, 0, 0, 0, 0, 0, 0, 0⟩
  | .fenceCluster => some ⟨1, 0xC4, 1, 0, 0, 0, 0, 0, 0⟩
  | .fencePod => some ⟨1, 0xC4, 2, 0, 0, 0, 0, 0, 0⟩
  | .fencePackage => some ⟨1, 0xC4, 3, 0, 0, 0, 0, 0, 0⟩
  | .fenceSystem => some ⟨1, 0xC4, 4, 0, 0, 0, 0, 0, 0⟩
  | .waitMem a b cc woff => some ⟨1, 0xC5, 0, 0, a.field, b.field, cc.code + woff.toNat * 8, 0, 0⟩
  | .cpyQ d a b f shp => some ⟨3, 0xE0, 0, d.field, a.field, b.field, f.imm, shp.toNat, 0⟩
  | .cpyQCfg d a b cbn e => some ⟨3, 0xE0, 0, d.field, a.field, b.field, e.toNat + 16 + cbn.toNat * 8192, 0, 0⟩
  | .cpyQClear d e => some ⟨3, 0xE0, 0, d.field, 0, 0, e.toNat + 32, 0, 0⟩
  | .cpyFm d a b f shp fo => some ⟨3, 0xE0, 1, d.field, a.field, b.field, f.imm, shp.toNat, fo.toNat⟩
  | .routeQ d a b e km1 t em1 c => some ⟨3, 0xE1, 0, d.field, a.field, b.field, e.toNat + km1.toNat * 16, t.toNat + em1.toNat * 65536, c.toNat⟩
  | .collQ d a b e ck bf16 g n cid => some ⟨3, 0xE2, 0, d.field, a.field, b.field, e.toNat + ck.code * 16 + bf16.toNat * 64 + g.toNat * 128, n.toNat, cid.toNat⟩
  | .tlWait a e => some ⟨1, 0xE3, 0, 0, a.field, 0, e.toNat, 0, 0⟩
  | .tlRead d e sl => some ⟨1, 0xE3, 1, d.field, 0, 0, e.toNat + sl.toNat * 16, 0, 0⟩
  | .launch d a => some ⟨1, 0xF0, 0, d.field, a.field, 0, 0, 0, 0⟩
  | .yield => some ⟨1, 0xF1, 0, 0, 0, 0, 0, 0, 0⟩
  | .park a z woff => some ⟨1, 0xF1, 1, 0, a.field, 0, z.toNat + woff.toNat * 8, 0, 0⟩
  | .hop a dir => some ⟨1, 0xF1, 2, 0, a.field, 0, dir.toNat, 0, 0⟩
  | .exit => some ⟨1, 0xF1, 3, 0, 0, 0, 0, 0, 0⟩
  | .commit => some ⟨1, 0xF1, 4, 0, 0, 0, 0, 0, 0⟩
  | .ctxStartRecord d a b => some ⟨1, 0xF2, 0, d.field, a.field, b.field, 0, 0, 0⟩
  | .ctxStartNext d a => some ⟨1, 0xF2, 0, d.field, a.field, 0, 1, 0, 0⟩
  | .ctxStartMode d b => some ⟨1, 0xF2, 0, d.field, 0, b.field, 2, 0, 0⟩
  | .ctxStartResume d a => some ⟨1, 0xF2, 0, d.field, a.field, 0, 3, 0, 0⟩
  | .ctxStop d a => some ⟨1, 0xF2, 1, d.field, a.field, 0, 0, 0, 0⟩
  | .ctxReap d a b rq => some ⟨1, 0xF2, 2, d.field, a.field, b.field, rq.toNat, 0, 0⟩
  | .send a b tag => some ⟨1, 0xF3, 0, 0, a.field, b.field, tag.toNat, 0, 0⟩
  | .recv d a off => some ⟨1, 0xF3, 1, d.field, a.field, 0, off.toNat, 0, 0⟩
  | .gangForm a tag => some ⟨1, 0xF4, 0, 0, a.field, 0, tag.toNat, 0, 0⟩
  | .gangJoin tag => some ⟨1, 0xF4, 1, 0, 0, 0, tag.toNat, 0, 0⟩
  | .gangLeave => some ⟨1, 0xF4, 2, 0, 0, 0, 0, 0, 0⟩
  | .cancelLaunch a c => some ⟨1, 0xF5, 0, 0, a.field, 0, c.toNat, 0, 0⟩
  | .cancelGraph a c => some ⟨1, 0xF5, 1, 0, a.field, 0, c.toNat, 0, 0⟩
  | .cancelPhase a c => some ⟨1, 0xF5, 2, 0, a.field, 0, c.toNat, 0, 0⟩
  | .cancelJob a c => some ⟨1, 0xF5, 3, 0, a.field, 0, c.toNat, 0, 0⟩
  | .cntRead d a => some ⟨1, 0xF5, 4, d.field, a.field, 0, 0, 0, 0⟩
  | .hmq d a => some ⟨1, 0xF6, 0, d.field, a.field, 0, 0, 0, 0⟩
  | .stop => none
  | .pad => none
  | .elementPrefix _ => none
  | .chunkCommit _ _ => none
  | .commitTicket _ => none
  | .operationCompletion _ => none
  | .waitLimit _ => none
  | .pickup _ => none
  | .aging _ => none
  | .workStealing _ _ => none
  | .messageArrival _ => none
  | .inboxDrain _ => none
  | .heapReplay _ => none
  | .courierHandlerStart _ => none
  | .remoteAgentPerform _ => none
  | .portProbe _ => none
  | .probeRound _ _ => none
  | .tokenArrival _ => none
  | .burstEnd _ => none
  | .powerArbiterPeriod _ => none
  | .relockEnd _ => none
  | .engineCommandStart _ _ => none
  | .cbufSlotClaim _ _ => none
  | .engineLineEvent _ _ => none
  | .engineCommandComplete _ _ => none
  | .followOnStart _ _ => none
  | .followOnInstall _ _ => none
  | .flitIdle _ => none
  | .flitRld _ _ => none
  | .flitRst _ _ _ => none
  | .flitAm _ _ _ => none
  | .flitFe _ _ _ _ => none
  | .flitReply _ _ _ => none
  | .flitRefuse _ _ _ => none
  | .flitProbe _ _ _ => none
  | .flitEcho _ _ _ => none
  | .flitColl _ _ => none
  | .flitAbort _ _ _ => none
  | .flitNotice _ _ => none
  | .linkTimeout _ => none
  | .linkPortFailure _ => none
  | .doorbell _ _ => none
  | .queueEnable _ _ _ => none
  | .registerWrite _ _ => none
  | .allocPod _ => none
  | .freePod _ => none
  | .bindVf _ => none
  | .unbindVf _ => none
  | .loadImage _ => none
  | .launchCommand _ => none
  | .pause _ => none
  | .resume _ => none
  | .evict _ => none
  | .restore _ => none
  | .mapWindow _ => none
  | .unmapWindow _ => none
  | .setQuota _ => none
  | .setSlice _ => none
  | .setRecovery _ => none
  | .attest _ => none
  | .readErrlog _ => none
  | .resetVf _ => none
  | .getVersion _ => none
  | .getCapabilities _ => none
  | .negotiateAlgorithms _ => none
  | .getDigests _ => none
  | .getCertificate _ => none
  | .challenge _ => none
  | .getMeasurements _ => none
  | .keyExchange _ => none
  | .finish _ => none
  | .keyUpdate _ => none
  | .heartbeat _ => none
  | .endSession _ => none
  | .setCmdkey _ => none
  | .ideKm _ => none
  | .lockInterface _ => none
  | .getDeviceInterfaceReport _ => none
  | .getDeviceInterfaceState _ => none
  | .startInterface _ => none
  | .stopInterface _ => none
  | .atsResponse _ _ _ _ => none
  | .priResponse _ _ _ _ => none
  | .stage2Fault _ _ => none
  | .clearerRewrite _ => none
  | .preemptCore _ _ => none
  | .coreRestore _ => none
  | .sliceTick _ => none
  | .dieSaved _ _ => none
  | .switchDeadline _ => none
  | .hbmRetrain _ _ => none
  | .intervalClose => none
  | .checkpointComplete => none
  | .correctableError _ => none
  | .uncorrectableError _ => none
  | .replayComplete _ _ => none
  | .scrubPass _ => none
  | .powerGood _ _ => none
  | .i3cEntdaa _ => none
  | .i3cPrivateWrite _ => none
  | .i3cPrivateRead _ => none
  | .chipnumWrite _ => none
  | .thermalShutdown _ _ => none
  | .coolantFault _ _ => none
  | .fetchFault _ => none
  | .unassignedOpc _ => none
  | .reservedTypeFlit _ _ => none
  | .flitCrcFailure _ _ => none
  | .tdiError _ => none

/-- The words of a well-formed instruction; none for an event. -/
def encode (i : Instr) : List Nat :=
  match i with
  | .stop => [0]
  | .pad => [0x1C]
  | .elementPrefix p => [p.word]
  | i => match i.raw with
    | some r => r.words
    | none => []

/-- A row of the table that is an event: it has no encoding. -/
def Instr.isEvent (i : Instr) : Bool := (encode i).isEmpty

/-! ## What a prefix may set -/

/-- The prefix fields a form accepts (02 R58, 06 R131, 07 R165). -/
structure PfxSet where
  fmt : Bool := false
  rm : Bool := false
  mask : Bool := false
  mz : Bool := false
  sat : Bool := false
  deriving DecidableEq, Repr

/-- The prefix fields that instruction `i` accepts. -/
def Instr.pfxFields : Instr → PfxSet
  | .tcvt d _ _ => { fmt := d.isTile, rm := true, mask := true, mz := true, sat := true }
  | .add _ _ _ | .sub _ _ _ | .mul _ _ _ | .addi _ _ _ => { sat := true }
  | .tfill _ _ | .tmov _ _ | .tbcast _ _ | .tld _ _ _ _ _ _ | .tldm _ _ _ _ _ | .tcmpEq _ _ _ | .tcmpNe _ _ _
  | .tcmpLt _ _ _ | .tcmpLe _ _ _ | .tcmpGt _ _ _ | .tcmpGe _ _ _ => { mask := true, mz := true }
  | .tst _ _ _ _ _ _ | .tstm _ _ _ _ _ => { mask := true }
  | .tadd _ _ _ | .tsub _ _ _ | .tmul _ _ _ | .tdiv _ _ _ | .tmax _ _ _ | .tmin _ _ _ | .tfma _ _ _ _
  | .tsqrt _ _ | .trsqrt _ _ | .trcp _ _ | .texp2 _ _ | .tlog2 _ _ | .tabs _ _ | .tneg _ _ => { rm := true, mask := true, mz := true, sat := true }
  | .tredSum _ _ _ | .tredMax _ _ _ | .tredMin _ _ _ => { rm := true, mask := true }
  | .mma _ _ _ _ | .mmaSa _ _ _ _ _ _ | .mmaSb _ _ _ _ _ _ | .mmaSs _ _ _ _ _ _ _ | .mmaZ _ _ _ _ => { mask := true, sat := true }
  | .stop | .pad | .elementPrefix _ | .mulh _ _ _ | .mulhu _ _ _ | .div _ _ _ | .divu _ _ _ | .rem _ _ _
  | .remu _ _ _ | .and _ _ _ | .or _ _ _ | .xor _ _ _ | .andn _ _ _ | .shl _ _ _ | .shr _ _ _ | .sar _ _ _
  | .rotl _ _ _ | .min _ _ _ | .max _ _ _ | .minu _ _ _ | .maxu _ _ _ | .clz _ _ | .ctz _ _ | .popc _ _ | .mov _ _
  | .andi _ _ _ | .ori _ _ _ | .xori _ _ _ | .shli _ _ _ | .ext _ _ _ _ _ | .ins _ _ _ _ | .cmpEq _ _ _
  | .cmpNe _ _ _ | .cmpLt _ _ _ | .cmpLtu _ _ _ | .cmpLe _ _ _ | .cmpLeu _ _ _ | .li _ _ | .addr _ _ _ _ _
  | .sel _ _ _ _ | .bEq _ _ _ | .bNe _ _ _ | .bLt _ _ _ | .bGe _ _ _ | .bLtu _ _ _ | .bGeu _ _ _ | .bz _ _ | .bnz _ _
  | .br _ | .call _ | .jmp _ | .calli _ | .ret | .nop | .loop _ _ | .mfs _ _ | .mts _ _ | .trap _ | .svcRecv _
  | .svcReply _ _ _ | .svcRd _ _ _ _ | .svcWr _ _ _ _ | .tcfg _ _ | .tzero _ | .trowGet _ _ _ _ | .trowPut _ _ _ _
  | .tcolGet _ _ _ _ | .tcolPut _ _ _ _ | .ttrans _ _ | .tsclGet _ _ | .tsclPut _ _ | .kedge _ _ _ | .kand _ _ _
  | .kor _ _ _ | .knot _ _ | .kxor _ _ _ | .kcnt _ _ | .tcbLd _ _ _ | .tsel _ _ _ _ | .ldB _ _ _ | .ldBu _ _ _
  | .ldH _ _ _ | .ldHu _ _ _ | .ldW _ _ _ | .ldWu _ _ _ | .ldD _ _ _ | .stB _ _ _ | .stH _ _ _ | .stW _ _ _
  | .stD _ _ _ | .sld _ _ _ _ _ | .sst _ _ _ _ | .ldbit _ _ _ _ _ | .stbit _ _ _ _ | .rld _ _ _ | .rst _ _ _
  | .amSend _ _ _ _ _ | .pfL1 _ _ | .pfL2 _ _ | .cbufTake _ _ _ | .cbufGive _ _ | .amoAdd _ _ _ _ | .amoAnd _ _ _ _
  | .amoOr _ _ _ _ | .amoXor _ _ _ _ | .amoMin _ _ _ _ | .amoMax _ _ _ _ | .amoSwap _ _ _ _ | .amoCas _ _ _ _ _
  | .redAdd _ _ _ _ | .redMax _ _ _ _ | .redMin _ _ _ _ | .fePut _ _ _ _ | .feTake _ _ _ _ | .fePeek _ _ _ _ _
  | .fenceCore | .fenceCluster | .fencePod | .fencePackage | .fenceSystem | .waitMem _ _ _ _ | .cpyQ _ _ _ _ _
  | .cpyQCfg _ _ _ _ _ | .cpyQClear _ _ | .cpyFm _ _ _ _ _ _ | .routeQ _ _ _ _ _ _ _ _ | .collQ _ _ _ _ _ _ _ _ _
  | .tlWait _ _ | .tlRead _ _ _ | .launch _ _ | .yield | .park _ _ _ | .hop _ _ | .exit | .commit
  | .ctxStartRecord _ _ _ | .ctxStartNext _ _ | .ctxStartMode _ _ | .ctxStartResume _ _ | .ctxStop _ _
  | .ctxReap _ _ _ _ | .send _ _ _ | .recv _ _ _ | .gangForm _ _ | .gangJoin _ | .gangLeave | .cancelLaunch _ _
  | .cancelGraph _ _ | .cancelPhase _ _ | .cancelJob _ _ | .cntRead _ _ | .hmq _ _ | .chunkCommit _ _
  | .commitTicket _ | .operationCompletion _ | .waitLimit _ | .pickup _ | .aging _ | .workStealing _ _
  | .messageArrival _ | .inboxDrain _ | .heapReplay _ | .courierHandlerStart _ | .remoteAgentPerform _ | .portProbe _
  | .probeRound _ _ | .tokenArrival _ | .burstEnd _ | .powerArbiterPeriod _ | .relockEnd _ | .engineCommandStart _ _
  | .cbufSlotClaim _ _ | .engineLineEvent _ _ | .engineCommandComplete _ _ | .followOnStart _ _
  | .followOnInstall _ _ | .flitIdle _ | .flitRld _ _ | .flitRst _ _ _ | .flitAm _ _ _ | .flitFe _ _ _ _
  | .flitReply _ _ _ | .flitRefuse _ _ _ | .flitProbe _ _ _ | .flitEcho _ _ _ | .flitColl _ _ | .flitAbort _ _ _
  | .flitNotice _ _ | .linkTimeout _ | .linkPortFailure _ | .doorbell _ _ | .queueEnable _ _ _ | .registerWrite _ _
  | .allocPod _ | .freePod _ | .bindVf _ | .unbindVf _ | .loadImage _ | .launchCommand _ | .pause _ | .resume _
  | .evict _ | .restore _ | .mapWindow _ | .unmapWindow _ | .setQuota _ | .setSlice _ | .setRecovery _ | .attest _
  | .readErrlog _ | .resetVf _ | .getVersion _ | .getCapabilities _ | .negotiateAlgorithms _ | .getDigests _
  | .getCertificate _ | .challenge _ | .getMeasurements _ | .keyExchange _ | .finish _ | .keyUpdate _ | .heartbeat _
  | .endSession _ | .setCmdkey _ | .ideKm _ | .lockInterface _ | .getDeviceInterfaceReport _
  | .getDeviceInterfaceState _ | .startInterface _ | .stopInterface _ | .atsResponse _ _ _ _ | .priResponse _ _ _ _
  | .stage2Fault _ _ | .clearerRewrite _ | .preemptCore _ _ | .coreRestore _ | .sliceTick _ | .dieSaved _ _
  | .switchDeadline _ | .hbmRetrain _ _ | .intervalClose | .checkpointComplete | .correctableError _
  | .uncorrectableError _ | .replayComplete _ _ | .scrubPass _ | .powerGood _ _ | .i3cEntdaa _ | .i3cPrivateWrite _
  | .i3cPrivateRead _ | .chipnumWrite _ | .thermalShutdown _ _ | .coolantFault _ _ | .fetchFault _ | .unassignedOpc _
  | .reservedTypeFlit _ _ | .flitCrcFailure _ _ | .tdiError _ => { }
/-- The fields of a prefix word are ones it may hold (02 R58, first point), and no fourth operand is named. -/
def Pfx.ok (p : Pfx) : Bool :=
  p.rsv = 0 && !p.xv && p.x = 0 && (p.mask = 0 || 8 ≤ p.mask.toNat) && (!p.mz || p.mask ≠ 0) &&
  (p.fmt = 0 || (Fmt.ofCode p.fmt.toNat).isSome)

/-- Instruction `i` accepts every field that prefix `p` sets (02 R58), SC of `tcvt` among them (06 R139). -/
def Instr.accepts (i : Instr) (p : Pfx) : Bool :=
  let f := i.pfxFields
  p.ok && (p.fmt = 0 || f.fmt) && (p.rm = 7 || f.rm) && (p.mask = 0 || f.mask) && (!p.mz || f.mz) && (!p.sat || f.sat) &&
  (match i with
   | .tcvt _ _ sc => !sc || p.fmt ≠ 0
   | _ => true)

/-- `tcvt` with SC = 1 needs a prefix FMT (06 R139): legality without any prefix. -/
def Instr.acceptsNone (i : Instr) : Bool :=
  match i with
  | .tcvt _ _ sc => !sc
  | _ => true

/-- Length in bytes of an instruction (02 R45). -/
def Instr.bytes (i : Instr) : Nat := 4 * (encode i).length

end Sys2Proof
end

