-- ==== Sys2Proof/Machine/Bits.lean ====
section
/-! DEFINITION. Bit-field, sign-extension and byte-order helpers, and the counter hash (00 R2, R6, 05 R121). -/

namespace Sys2Proof.Machine

/-- The signed value of the low `w` bits of `n`. -/
def sextNat (n w : Nat) : Int :=
  let m := n % 2 ^ w
  if 2 ^ (w - 1) ≤ m then (m : Int) - 2 ^ w else m

/-- `sext(x, 64)` of a field (00 R6). -/
def sext {w : Nat} (x : BitVec w) : Word := x.signExtend 64

def zext {w : Nat} (x : BitVec w) : Word := x.zeroExtend 64

def word (n : Nat) : Word := BitVec.ofNat 64 n

/-- An integer reduced to `w` bits in two's complement. -/
def wrapInt (i : Int) (w : Nat) : Nat := (i % (2 ^ w : Nat)).toNat

def boolWord (b : Bool) : Word := if b then 1 else 0

/-- Little-endian value of a byte sequence (00 R2). -/
def leNat : List Byte → Nat
  | [] => 0
  | b :: bs => b.toNat + 256 * leNat bs

/-- Little-endian bytes (00 R2). -/
def leBytes (n v : Nat) : List Byte := bytesOfNat n v

/-- The number of leading zeros of a word (04 R85). -/
def clzFrom : Nat → Nat → Nat
  | 0, _ => 0
  | k + 1, n => if n < 2 ^ k then clzFrom k n + 1 else 0

/-- The number of trailing zeros below bit `k` (04 R85). -/
def ctzFrom : Nat → Nat → Nat
  | 0, _ => 0
  | k + 1, n => if n % 2 = 0 then ctzFrom k (n / 2) + 1 else 0

/-- The number of one bits below bit `k` (04 R85). -/
def popFrom : Nat → Nat → Nat
  | 0, _ => 0
  | k + 1, n => n % 2 + popFrom k (n / 2)

/-- One round of `chg` (05 R121). -/
def chgRound (k x : Word) (i : Nat) : Word :=
  let x := x + 0x9E3779B97F4A7C15
  let z := (x ^^^ (x >>> 30)) * 0xBF58476D1CE4E5B9
  let z := (z ^^^ (z >>> 27)) * 0x94D049BB133111EB
  let z := z ^^^ (z >>> 31)
  z ^^^ k.rotateLeft (17 * (i + 1))

/-- The counter hash generator (05 R121). -/
def chg (k c : Word) : Word :=
  chgRound k (chgRound k (chgRound k (c ^^^ k) 0) 1) 2

/-- The channel of a physical address (01 R34). -/
def channel (pa : Nat) : Nat :=
  (bits pa 6 8) ^^^ (bits pa 14 8) ^^^ (bits pa 22 8) ^^^ (bits pa 30 8)

/-- The home cluster of a line (01 R34). -/
def homeCluster (pa : Nat) : Nat := channel pa / 2

/-- The home die of a line (01 R34). -/
def homeDie (pa : Nat) : Nat := channel pa / 64

/-- The stack that holds a line (01 R34). -/
def homeStack (pa : Nat) : Nat := channel pa / 32

/-! ## Numbering (01 R9) -/

def coreOf (c : Nat) : Nat := c / 16
def inCore (c : Nat) : Nat := c % 16
def clusterOf (c : Nat) : Nat := c / 128
def dieOf (c : Nat) : Nat := c / 4096
def clusterOfCore (k : Nat) : Nat := k / 8
def dieOfCluster (k : Nat) : Nat := k / 32

/-- Class of a context (01 R10). -/
inductive CtxClass where
  | supervisor | unit | courier
  deriving DecidableEq, Repr

def classOf (c : Nat) : CtxClass :=
  if c % 16 = 0 then .supervisor else if c % 16 = 15 then .courier else .unit

end Sys2Proof.Machine
end

