-- ==== Sys2Proof/Machine/Flags.lean ====
section
/-! DEFINITION. Numbers: exact values of elements, exact arithmetic on them, rounding into a format, and every flag computation
(05 R109–R129). -/

namespace Sys2Proof.Machine

/-! ## Flags (01 R18, 05 R129) -/

abbrev Flags := BitVec 5

def NV : Flags := 1
def OF : Flags := 2
def UF : Flags := 4
def NX : Flags := 8
def SAT : Flags := 16

/-! ## Exact values -/

/-- The exact value of an operand or of an operation. A finite non-zero magnitude is `n × 2^e`, or, where `sticky`, lies strictly
between `n × 2^e` and `(n + 1) × 2^e`; operations with irrational or unending results give such values with many more bits than
any destination. -/
inductive Val where
  | nan
  | inf (neg : Bool)
  | zero (neg : Bool)
  | fin (neg : Bool) (n : Nat) (e : Int) (sticky : Bool)
  deriving DecidableEq, Repr

namespace Val

def neg? : Val → Bool
  | .nan => false
  | .inf s | .zero s | .fin s _ _ _ => s

def negate : Val → Val
  | .nan => .nan
  | .inf s => .inf !s
  | .zero s => .zero !s
  | .fin s n e k => .fin (!s) n e k

def abs : Val → Val
  | .nan => .nan
  | .inf _ => .inf false
  | .zero _ => .zero false
  | .fin _ n e k => .fin false n e k

/-- An integer as an exact value. -/
def ofInt (i : Int) : Val := if i = 0 then .zero false else .fin (i < 0) i.natAbs 0 false

/-- The value `i × 2^e` (`neg0` is the sign of a zero). -/
def ofScaled (i : Int) (e : Int) (neg0 : Bool) : Val :=
  if i = 0 then .zero neg0 else .fin (i < 0) i.natAbs e false

def isNan : Val → Bool
  | .nan => true
  | _ => false

def isInf : Val → Bool
  | .inf _ => true
  | _ => false

/-- Times a power of two. -/
def scale (v : Val) (k : Int) : Val :=
  match v with
  | .fin s n e t => .fin s n (e + k) t
  | v => v

/-- The signed integer of a finite value at exponent `e`, which must not exceed its own. -/
def atExp (v : Val) (e : Int) : Int :=
  match v with
  | .fin s n e' _ =>
    let m : Int := (n * 2 ^ (e' - e).toNat : Nat)
    if s then -m else m
  | _ => 0

def exp? : Val → Option Int
  | .fin _ _ e _ => some e
  | _ => none

/-- Exact comparison of two values that are no NaN: less (05 R127 orders −0 below +0 only in maximum and minimum). -/
def lt (a b : Val) : Bool :=
  match a, b with
  | .nan, _ | _, .nan => false
  | .inf s, .inf t => s && !t
  | .inf s, _ => s
  | _, .inf t => !t
  | a, b =>
    let e := min (a.exp?.getD 0) (b.exp?.getD 0)
    a.atExp e < b.atExp e

def eq (a b : Val) : Bool :=
  match a, b with
  | .nan, _ | _, .nan => false
  | a, b => !a.lt b && !b.lt a

def le (a b : Val) : Bool := a.lt b || a.eq b

/-- floor(log2 |x|) of a finite non-zero value. -/
def log2 : Val → Int
  | .fin _ n e _ => (Nat.log2 n : Int) + e
  | _ => 0

end Val

/-! ## Formats (05 R111) -/

/-- Layout of a floating-point format: exponent and mantissa bits, bias, and the encoding of its largest finite value. -/
structure FloatFmt where
  e : Nat
  m : Nat
  bias : Int
  maxEnc : Nat
  hasInf : Bool
  hasNan : Bool
  qnan : Nat
  deriving DecidableEq, Repr

def floatFmt : Fmt → Option FloatFmt
  | .fp32 => some ⟨8, 23, 127, 0x7F7FFFFF, true, true, 0x7FC00000⟩
  | .bf16 => some ⟨8, 7, 127, 0x7F7F, true, true, 0x7FC0⟩
  | .fp16 => some ⟨5, 10, 15, 0x7BFF, true, true, 0x7E00⟩
  | .e4m3 => some ⟨4, 3, 7, 0x7E, false, true, 0x7F⟩
  | .e5m2 => some ⟨5, 2, 15, 0x7B, true, true, 0x7E⟩
  | .e2m3 => some ⟨2, 3, 1, 0x1F, false, false, 0⟩
  | .e3m2 => some ⟨3, 2, 3, 0x1F, false, false, 0⟩
  | .e2m1 => some ⟨2, 1, 1, 0x7, false, false, 0⟩
  | _ => none

namespace FloatFmt

def width (f : FloatFmt) : Nat := 1 + f.e + f.m
/-- Exponent of the smallest normal. -/
def emin (f : FloatFmt) : Int := 1 - f.bias
/-- Exponent of the binade of the largest finite value. -/
def emax (f : FloatFmt) : Int := (f.maxEnc / 2 ^ f.m : Nat) - f.bias
def signBit (f : FloatFmt) (neg : Bool) : Nat := if neg then 2 ^ (f.e + f.m) else 0

/-- The exact value of an encoding (05 R111). -/
def value (f : FloatFmt) (enc : Nat) : Val :=
  let neg := bits enc (f.e + f.m) 1 = 1
  let mag := enc % 2 ^ (f.e + f.m)
  let ex := mag / 2 ^ f.m
  let man := mag % 2 ^ f.m
  if f.maxEnc < mag then
    if f.hasInf && man = 0 then .inf neg else .nan
  else if mag = 0 then .zero neg
  else if ex = 0 then .fin neg man (f.emin - f.m) false
  else .fin neg (2 ^ f.m + man) ((ex : Int) - f.bias - f.m) false

end FloatFmt

/-- The range of an integer format (05 R110). -/
def intRange : Fmt → Int × Int
  | .u8 => (0, 255)
  | f => (-2 ^ (f.width - 1), 2 ^ (f.width - 1) - 1)

def isSigned : Fmt → Bool
  | .u8 => false
  | _ => true

/-- The integer an encoding stands for (05 R110). -/
def intValue (f : Fmt) (enc : Nat) : Int :=
  if isSigned f then sextNat enc f.width else ((enc % 256 : Nat) : Int)

/-- The exact value of an unscaled encoding; `cb` gives the BF16 entries of the tile's codebook (05 R111, R115). -/
def elemValue (f : Fmt) (cb : Nat → Nat) (enc : Nat) : Val :=
  match floatFmt f with
  | some l => l.value enc
  | none => match f with
    | .cb4 => match floatFmt .bf16 with
      | some l => l.value (cb (enc % 16))
      | none => .nan
    | f => .ofInt (intValue f enc)

/-- The exact value of an element of a scaled tile with scale byte `s` (05 R117). -/
def mxValue (f : Fmt) (s enc : Nat) : Val :=
  if s = 0xFF then .nan
  else
    let p : Val := match floatFmt f with
      | some l => l.value enc
      | none => (Val.ofInt (sextNat enc 8)).scale (-6)
    p.scale ((s : Int) - 127)

/-! ## Rounding (05 R118, R119, R124) -/

/-- The position of a magnitude on a grid of step `2^q`: the point below it, whether it lies above that point, how the rest compares
with half a step, and floor(f × 2^32). -/
structure OnGrid where
  k : Nat
  inexact : Bool
  half : Ordering
  d : Nat
  deriving DecidableEq, Repr

def onGrid (n : Nat) (e : Int) (sticky : Bool) (q : Int) : OnGrid :=
  if q ≤ e then ⟨n * 2 ^ (e - q).toNat, sticky, .lt, 0⟩
  else
    let sh := (q - e).toNat
    let r := n % 2 ^ sh
    let half := match compare (2 * r) (2 ^ sh) with
      | .eq => if sticky then .gt else .eq
      | o => o
    ⟨n / 2 ^ sh, r ≠ 0 || sticky, half, r * 2 ^ 32 / 2 ^ sh⟩

/-- Whether the point away from zero is taken: `odd` is bit 0 of the encoding of the lower point (05 R118, R124). -/
def roundUp (rm : Rm) (neg odd : Bool) (g : OnGrid) (draw : Nat) : Bool :=
  g.inexact &&
  match rm with
  | .rne => match g.half with
    | .lt => false
    | .gt => true
    | .eq => odd
  | .rtz => false
  | .rup => !neg
  | .rdn => neg
  | .rna => match g.half with
    | .lt => false
    | _ => true
  | .sr => draw < g.d
  | .rod => !odd

/-- Whether an overflow goes to the infinity rather than to the largest finite value (05 R119). -/
def overflowsToInf (rm : Rm) (neg : Bool) : Bool :=
  match rm with
  | .rne | .rna | .sr => true
  | .rtz | .rod => false
  | .rup => !neg
  | .rdn => neg

/-- A value placed into a floating-point format with its flags (05 R119, R127–R129); `mx` where the destination is scaled, so that
every overflow saturates (05 R125). -/
def roundFloat (f : FloatFmt) (rm : Rm) (draw : Nat) (mx : Bool) (v : Val) : Nat × Flags :=
  match v with
  | .nan => if f.hasNan then (f.qnan, 0) else (0, NV)
  | .inf s =>
    if f.hasInf then (f.signBit s + f.maxEnc + 1, 0) else (f.signBit s + f.maxEnc, NV)
  | .zero s => (f.signBit s, 0)
  | .fin s n e t =>
    let l := v.log2
    let q := min (max l f.emin) f.emax - f.m
    let g := onGrid n e t q
    let enc := ((q + f.m - f.emin).toNat) * 2 ^ f.m + g.k
    let enc' := if roundUp rm s (enc % 2 = 1) g draw then enc + 1 else enc
    if f.maxEnc < enc' then
      if f.hasInf && !mx && overflowsToInf rm s then (f.signBit s + f.maxEnc + 1, OF ||| NX)
      else (f.signBit s + f.maxEnc, OF ||| NX)
    else
      (f.signBit s + enc', if g.inexact then NX ||| (if l < f.emin then UF else 0) else 0)

/-- A value rounded onto the integers, with whether it was inexact (05 R119). -/
def roundInt (rm : Rm) (draw : Nat) (v : Val) : Int × Bool :=
  match v with
  | .fin s n e t =>
    let g := onGrid n e t 0
    let k := if roundUp rm s (g.k % 2 = 1) g draw then g.k + 1 else g.k
    (if s then -(k : Int) else k, g.inexact)
  | _ => (0, false)

/-- Conversion of a value into an integer format (05 R128). -/
def toInt (f : Fmt) (rm : Rm) (draw : Nat) (v : Val) : Nat × Flags :=
  let (lo, hi) := intRange f
  match v with
  | .nan => (0, NV)
  | .inf s => (wrapInt (if s then lo else hi) f.width, NV)
  | v =>
    let (i, ix) := roundInt rm draw v
    if i < lo then (wrapInt lo f.width, NV)
    else if hi < i then (wrapInt hi f.width, NV)
    else (wrapInt i f.width, if ix then NX else 0)

/-- An exact integer into an integer format: wrapped, or clamped under SAT (05 R128, 06 R133). -/
def intoInt (f : Fmt) (sat : Bool) (i : Int) : Nat × Flags :=
  let (lo, hi) := intRange f
  if sat then
    if i < lo then (wrapInt lo f.width, SAT) else if hi < i then (wrapInt hi f.width, SAT) else (wrapInt i f.width, 0)
  else (wrapInt i f.width, 0)

/-- MXINT8 from `y × 2^6` (05 R126). -/
def roundMxInt (rm : Rm) (draw : Nat) (v : Val) : Nat × Flags :=
  match v with
  | .zero _ => (0, 0)
  | v =>
    let (i, ix) := roundInt rm draw (v.scale 6)
    if i < -127 then (wrapInt (-127) 8, OF ||| NX)
    else if 127 < i then (127, OF ||| NX)
    else (wrapInt i 8, if ix then NX else 0)

/-! ## Exact operations (05 R127) -/

/-- The sign of an exact zero sum that is not a sum of zeros of one sign (05 R127). -/
def cancelZero (rm : Rm) : Val := .zero (rm = .rdn)

/-- Sum; NV for ∞ − ∞. -/
def addVal (rm : Rm) (a b : Val) : Val × Flags :=
  match a, b with
  | .nan, _ | _, .nan => (.nan, 0)
  | .inf s, .inf t => if s = t then (.inf s, 0) else (.nan, NV)
  | .inf s, _ => (.inf s, 0)
  | _, .inf t => (.inf t, 0)
  | .zero s, .zero t => (if s = t then .zero s else cancelZero rm, 0)
  | .zero _, b => (b, 0)
  | a, .zero _ => (a, 0)
  | a, b =>
    let e := min (a.exp?.getD 0) (b.exp?.getD 0)
    let i := a.atExp e + b.atExp e
    (if i = 0 then cancelZero rm else .ofScaled i e false, 0)

/-- Product; NV for 0 × ∞. -/
def mulVal (a b : Val) : Val × Flags :=
  let s := a.neg? != b.neg?
  match a, b with
  | .nan, _ | _, .nan => (.nan, 0)
  | .inf _, .zero _ | .zero _, .inf _ => (.nan, NV)
  | .inf _, _ | _, .inf _ => (.inf s, 0)
  | .zero _, _ | _, .zero _ => (.zero s, 0)
  | .fin _ n e _, .fin _ m d _ => (.fin s (n * m) (e + d) false, 0)

/-- `a × b + c` with one rounding to come (06 R142): an invalid product sets NV beside a NaN addend as well. The NaN
"present beside both" infinities of 05 R127 is taken among the two terms of the sum (log 122). -/
def fmaVal (rm : Rm) (a b c : Val) : Val × Flags :=
  let (p, f) := mulVal a b
  let (r, g) := addVal rm p c
  (r, f ||| g)

/-- A quotient of magnitudes to 160 bits and more. -/
def divMag (s : Bool) (n : Nat) (e : Int) (m : Nat) (d : Int) : Val :=
  let sh := 160 + Nat.log2 m
  let q := n * 2 ^ sh / m
  .fin s q (e - d - sh) (n * 2 ^ sh % m ≠ 0)

/-- Quotient; NV for 0/0 and ∞/∞; a finite value over zero is a signed ∞ without a flag. -/
def divVal (a b : Val) : Val × Flags :=
  let s := a.neg? != b.neg?
  match a, b with
  | .nan, _ | _, .nan => (.nan, 0)
  | .inf _, .inf _ | .zero _, .zero _ => (.nan, NV)
  | .inf _, _ | .fin .., .zero _ => (.inf s, 0)
  | _, .inf _ | .zero _, _ => (.zero s, 0)
  | .fin _ n e _, .fin _ m d _ => (divMag s n e m d, 0)

/-- maximumNumber, −0 below +0 (05 R127). -/
def maxVal (a b : Val) : Val :=
  match a, b with
  | .nan, b => b
  | a, .nan => a
  | .zero s, .zero t => .zero (s && t)
  | a, b => if a.lt b then b else a

/-- minimumNumber. -/
def minVal (a b : Val) : Val :=
  match a, b with
  | .nan, b => b
  | a, .nan => a
  | .zero s, .zero t => .zero (s || t)
  | a, b => if b.lt a then b else a

/-- The integer square root, one bit at a time from bit `k` down. -/
def isqrtFrom : Nat → Nat → Nat → Nat
  | 0, _, r => r
  | k + 1, n, r => if (r + 2 ^ k) * (r + 2 ^ k) ≤ n then isqrtFrom k n (r + 2 ^ k) else isqrtFrom k n r

def isqrt (n : Nat) : Nat := isqrtFrom (Nat.log2 n / 2 + 1) n 0

/-- Square root (06 R143). -/
def sqrtVal (a : Val) : Val × Flags :=
  match a with
  | .nan => (.nan, 0)
  | .zero s => (.zero s, 0)
  | .inf s => if s then (.nan, NV) else (.inf false, 0)
  | .fin s n e _ =>
    if s then (.nan, NV)
    else
      let odd := (e % 2).toNat
      let m := n * 2 ^ (odd + 320)
      let r := isqrt m
      (.fin false r ((e - odd) / 2 - 160) (r * r ≠ m), 0)

/-- Reciprocal (06 R143). -/
def rcpVal (a : Val) : Val × Flags :=
  match a with
  | .nan => (.nan, 0)
  | .zero s => (.inf s, 0)
  | .inf s => (.zero s, 0)
  | .fin s n e _ => (divMag s 1 0 n e, 0)

/-- Reciprocal square root (06 R143). -/
def rsqrtVal (a : Val) : Val × Flags :=
  match a with
  | .nan => (.nan, 0)
  | .zero s => (.inf s, 0)
  | .inf s => if s then (.nan, NV) else (.zero false, 0)
  | .fin s n e _ =>
    if s then (.nan, NV)
    else
      let odd := (e % 2).toNat
      let m := n * 2 ^ odd
      let sh := 160 + Nat.log2 m
      let r := isqrt (2 ^ (2 * sh) / m)
      (.fin false r (-((e - odd) / 2) - sh) (r * r * m ≠ 2 ^ (2 * sh)), 0)

/-! ### 2^x and log2 x (06 R143), to 400 bits (log 13) -/

/-- Fraction bits carried. -/
def prec : Nat := 400

/-- ln 2 = Σ 1/(k 2^k), in units of 2^−`prec`. -/
def ln2Sum : Nat → Nat → Nat
  | 0, _ => 0
  | f + 1, k => 2 ^ (prec - k) / k + ln2Sum f (k + 1)

def ln2 : Nat := ln2Sum prec 1

/-- Σ y^k / k! from a term on. -/
def expSum : Nat → Nat → Nat → Nat → Nat
  | 0, _, _, _ => 0
  | f + 1, k, t, y => t + expSum f (k + 1) (t * y / 2 ^ prec / (k + 1)) y

/-- Σ z^(2k+1) / (2k+1) from a power on. -/
def atanhSum : Nat → Nat → Nat → Nat → Nat
  | 0, _, _, _ => 0
  | f + 1, k, t, z2 => t / (2 * k + 1) + atanhSum f (k + 1) (t * z2 / 2 ^ prec) z2

/-- 2^a; a magnitude of 2^14 or more already lies beyond every format on either side. -/
def exp2Val (a : Val) : Val × Flags :=
  match a with
  | .nan => (.nan, 0)
  | .zero _ => (.fin false 1 0 false, 0)
  | .inf s => (if s then .zero false else .inf false, 0)
  | .fin s n e _ =>
    if 14 ≤ a.log2 then (.fin false 1 (if s then -20000 else 20000) true, 0)
    else
      let i : Int := if 0 ≤ e then (n * 2 ^ e.toNat : Nat) else (n / 2 ^ (-e).toNat : Nat)
      let r : Nat := if 0 ≤ e then 0 else n % 2 ^ (-e).toNat
      if r = 0 then (.fin false 1 (if s then -i else i) false, 0)
      else
        let w := (-e).toNat
        let ip : Int := if s then -i - 1 else i
        let fr := if s then 2 ^ w - r else r
        let y := if w ≤ prec then fr * 2 ^ (prec - w) * ln2 / 2 ^ prec else fr * ln2 / 2 ^ w
        let x := expSum 160 0 (2 ^ prec) y
        (.fin false (x / 2 ^ 80) (ip - prec + 80) true, 0)

/-- log2 a. -/
def log2Val (a : Val) : Val × Flags :=
  match a with
  | .nan => (.nan, 0)
  | .zero _ => (.inf true, 0)
  | .inf s => if s then (.nan, NV) else (.inf false, 0)
  | .fin s n e _ =>
    if s then (.nan, NV)
    else
      let l := Nat.log2 n
      let k : Int := (l : Int) + e
      if n = 2 ^ l then (.ofInt k, 0)
      else
        let z := (n - 2 ^ l) * 2 ^ prec / (n + 2 ^ l)
        let lg := 2 * atanhSum 160 0 z (z * z / 2 ^ prec) * 2 ^ prec / ln2
        let t : Int := k * 2 ^ prec + lg
        if 0 ≤ t then (.fin false (t.toNat / 2 ^ 80) (-(prec : Int) + 80) true, 0)
        else (.fin true (((-t).toNat - 2 ^ 12) / 2 ^ 80) (-(prec : Int) + 80) true, 0)

/-! ## Sets (06 R145) -/

/-- The exact sum of a list of finite values at a common exponent. -/
def sumAt (e : Int) : List Val → Int
  | [] => 0
  | v :: l => v.atExp e + sumAt e l

/-- The exact sum of a set with its special cases (06 R145). -/
def sumVals (rm : Rm) (l : List Val) : Val × Flags :=
  let pinf := l.contains (.inf false)
  let ninf := l.contains (.inf true)
  let nan := l.any Val.isNan
  let nv : Flags := if pinf && ninf then NV else 0
  if nan || (pinf && ninf) then (.nan, nv)
  else if pinf then (.inf false, 0)
  else if ninf then (.inf true, 0)
  else if l.all (· = .zero false) then (.zero false, 0)
  else if l.all (· = .zero true) then (.zero true, 0)
  else
    let e := l.foldl (fun m v => match v.exp? with | some x => min m x | none => m) 0
    let i := sumAt e l
    (if i = 0 then cancelZero rm else .ofScaled i e false, 0)

end Sys2Proof.Machine
end

