-- ==== Sys2Proof/Machine/State.lean ====
section
/-! DEFINITION. The state of the package as plain data: every piece of state that the spec names (INVENTORY.md, State), and the
few fields of the model's own (agenda, cur, moment; log 2, 3). -/

namespace Sys2Proof.Machine

/-- How a run of the model stops on a fault. -/
inductive Fault where
  /-- A physical address at or above 384 GiB (01 R34) that stage-2 contents chosen from outside would reach: raised by the walk
  of `translate`. Safe: the spec says that no such address exists. -/
  | noSuchAddress (pa : Nat)
  deriving DecidableEq, Repr

/-- Why an instruction has no meaning here. -/
inductive Refusal where
  /-- Its meaning is not written; raised by an arm of `exec` alone. Safe: the machine stops where the hardware goes on. -/
  | notModelled (mnemonic : String)
  deriving DecidableEq, Repr

/-- Bytes by address, addresses strictly rising; no entry equals what an unlisted address reads as, which is 0 (15 R302, log 1). -/
abbrev Memory := List Host.Cell

/-! ## Registers of a context -/

/-- A tile: its shape register (01 R25), its element encodings by row, its scale bytes (01 R27), whether its data still lie in a
saved image (06 R155), and the checkpoint slots that hold its current image (16 R327). -/
structure Tile where
  shape : BitVec 32 := 0
  elems : List Nat := []
  side : List Nat := []
  unfilled : Bool := false
  slots : BitVec 2 := 0
  deriving DecidableEq, Repr

/-- A configured mask: bit i × cols + j is that of position (i, j) (01 R13). -/
structure Mask where
  rows : Nat
  cols : Nat
  bits : Nat
  deriving DecidableEq, Repr

/-- `TSTAT` (01 R17). -/
structure TStat where
  pfx : BitVec 32 := 0
  rv : Bool := false
  rrow : BitVec 7 := 0
  clamp : Bool := false
  pp : Bool := false
  deriving DecidableEq, Repr

/-- One part of a refusal record: the first refused address, its position among all refusals, and their count (10 R207). -/
structure RefPart where
  addr : Word := 0
  pos : Nat := 0
  count : Nat := 0
  deriving DecidableEq, Repr

/-- The private registers of a context: what a squash restores (01 R16, 04 R98, 06 R154). -/
structure Priv where
  regs : Vector Word 32 := Vector.replicate 32 0
  pc : BitVec 48 := 0
  tstat : TStat := {}
  efmt : Fmt := .fp32
  rmode : Rm := .rne
  flags : BitVec 5 := 0
  rngSeed : Word := 0
  rngStream : BitVec 32 := 0
  rngCtr : BitVec 32 := 0
  tiles : Vector Tile 8 := Vector.replicate 8 {}
  masks : Vector (Option Mask) 8 := Vector.replicate 8 none
  cb : Vector Word 16 := Vector.replicate 16 0
  chunklen : BitVec 15 := 2048
  bankmask : Word := 0
  waitlim : Word := 0
  unitid : BitVec 32 := 0
  launchid : BitVec 8 := 0
  rsbase : Word := 0
  rets : List (BitVec 48) := []
  retdepth : Nat := 0
  codelim : BitVec 48 := 0
  spbase : BitVec 21 := 0
  spsize : BitVec 22 := 64
  refusals : Vector RefPart 5 := Vector.replicate 5 {}
  refTotal : Nat := 0
  msg : Vector Word 8 := Vector.replicate 8 0
  deriving DecidableEq, Repr

/-! ## Messages, records, commands -/

/-- A trap message apart from TRUNC, which the truncated chunk decides (01 R36). -/
structure Trap where
  code : Nat
  w1 : Word
  w2 : Word
  row : Option (Nat × Nat) := none
  pfx : Option (BitVec 32) := none
  ops : List Word := []
  atFetch : Bool := false
  deriving DecidableEq, Repr

/-- Kind of an inbox entry (12 R253). -/
inductive MsgKind where
  | ordinary | active | trap
  deriving DecidableEq, Repr

/-- An inbox entry with its hidden kind and consumer; `hdr` is the header `recv` returns (13 R274). -/
structure InMsg where
  kind : MsgKind
  consumer : Nat
  hdr : Word := 0
  words : List Word
  slot : Nat := 0
  deriving DecidableEq, Repr

/-- A continuation record (01 R28). -/
structure Record where
  slot : Nat
  rmode : BitVec 3
  efmt : BitVec 5
  pc : BitVec 48
  rngCtr : BitVec 32
  unit : BitVec 32
  s : List Word
  deriving DecidableEq, Repr

/-- What a parked record waits for: the physical word and the sense of the test (13 R263). -/
structure ParkOn where
  pa : Nat
  z : Bool
  deriving DecidableEq, Repr

/-- A record in a cluster's record store (12 R248): parked or ready, with its placed core, its level, when it became ready in cycles of
its die or was parked in `REFTIME`, its ready key, and whether it occupies a reserved entry. -/
structure Stored where
  cont : Record
  core : Nat
  parked : Option ParkOn := none
  level : Nat
  since : Nat
  clock : Nat
  src : Nat
  reserved : Bool := true
  deriving DecidableEq, Repr

/-- The pending starts of one launch at one dispatcher (12 R246, R247). -/
structure Start where
  slot : Nat
  level : Nat
  since : Nat
  clock : Nat
  src : Nat
  deriving DecidableEq, Repr

/-- What a dispatcher queue holds, in arrival order (12 R247). -/
inductive QItem where
  | start (x : Start)
  | cont (x : Stored)
  deriving DecidableEq, Repr

/-- One dimension of a shape record (10 R223). -/
structure Dim where
  size : Nat
  vld : Nat
  sstr : Int
  dstr : Int
  deriving DecidableEq, Repr

/-- A follow-on record (10 R226), as the 64 bytes read. -/
structure FollowOn where
  pairs : List Word
  mimm : Nat
  core : Nat
  hidx : Nat
  flg : Nat
  erows : Nat
  ecols : Nat
  rsvZero : Bool
  deriving DecidableEq, Repr

/-- What an engine command does (10 R219). -/
inductive CmdKind where
  | copy (f : CpyF) (a b : Word) (dims : List Dim) (highZero : Bool) (fo : Option FollowOn)
  | cfg (cbn : Nat) (base : Nat) (b : Word)
  | clear
  | route (a b : Word) (k t e c : Nat)
  | coll (ck : CollKind) (bf16 : Bool) (g : Nat) (n : Nat) (cid : BitVec 32) (a b : Word)
  deriving DecidableEq, Repr

/-- What a deterministic command reads: memory, the scratchpads by cluster, host memory and the poisoned lines as they stood at its
issuing commit (09 R193). -/
structure Snap where
  mem : Memory
  spms : List (Nat × Memory)
  host : Memory
  poison : List Nat
  deriving DecidableEq, Repr

/-- A queued engine command with what it carries from its issue: the issuing context and its launch slot, its allocation, its
codebooks, the `BANKMASK` at its issue, its mode, and in deterministic mode what it reads (09 R193), and its engine context. An abort flit may reach it while it is queued (15 R310). -/
structure Cmd where
  seq : Nat
  kind : CmdKind
  ctx : Nat
  slot : Nat
  spbase : Nat
  spsize : Nat
  cb : Vector Word 16
  bank : Word
  det : Bool
  snap : Option Snap := none
  aborted : Bool := false
  eng : Nat := 0
  deriving DecidableEq, Repr

/-- A line that a command writes: in memory by local-form address, in scratchpad, or by global-form address. -/
inductive LineAt where
  | mem (va : Word)
  | spm (off : Nat)
  | glob (g : Word)
  deriving DecidableEq, Repr

/-- Source of one destination byte. -/
inductive JobSrc where
  | zero
  | va (a : Word)
  | sp (off : Nat)
  | lit (b : Byte)
  deriving DecidableEq, Repr

/-- The bytes of one line event: offsets in the line with their sources. -/
structure LineJob where
  dest : LineAt
  bytes : List (Nat × JobSrc)
  deriving DecidableEq, Repr

/-- The command an engine context is performing: what it has still to write, the bytes of its next line that it has read (09 R192), the
original bytes of the lines it has written and those of them that were poisoned, the slot it fills, since when it waits for one, its requests to other chips, the elements of its own that a collective has read, what
it holds back in deterministic mode, and a collective's progress. -/
structure Run where
  cmd : Cmd
  jobs : List LineJob := []
  part : List (Nat × Byte) := []
  orig : List (Nat × Byte) := []
  origSpm : List (Nat × Byte) := []
  slot : Option Nat := none
  waitSlot : Bool := false
  since : Nat := 0
  foOn : Bool := false
  foDone : Bool := false
  request : Option (Nat × Word × Nat) := none
  got : List (Nat × Word) := []
  rids : List Nat := []
  poisoned : List Nat := []
  own : List (Nat × Nat) := []
  heldMem : List (Nat × Byte) := []
  heldSpm : List (Nat × Byte) := []
  sent : List (Nat × Nat) := []
  vals : List (Nat × Nat) := []
  deriving DecidableEq, Repr

/-- What a deterministic command has computed and holds until its acquire point (09 R193): its lines, the slot it has written in with
the slot's base, whether that slot goes free there (10 R227), and whether a follow-on is to be performed. -/
structure HeldCmd where
  cmd : Cmd
  writes : List (Nat × Byte) := []
  spm : List (Nat × Byte) := []
  slot : Option (Nat × Nat) := none
  base : Nat := 0
  frees : Bool := false
  fo : Bool := false
  deriving DecidableEq, Repr

/-- An engine context (10 R218), with its open slots; for deterministic mode (09 R193) what it holds, the count acquired by launch slot,
the follow-on flags after each command, every failure with its code and address, and the clears performed; and its replay sequence
numbers by chip (16 R334). -/
structure Engine where
  tail : Nat := 0
  count : Nat := 0
  err : Bool := false
  errcode : Nat := 0
  errseq : Nat := 0
  fault : Word := 0
  fflags : BitVec 5 := 0
  store : List Cmd := []
  run : Option Run := none
  opens : List (Nat × Nat) := []
  held : List HeldCmd := []
  acquired : List (Nat × Nat) := []
  flagsAt : List (Nat × BitVec 5) := []
  errAt : List (Nat × Nat × Word) := []
  clears : List Nat := []
  seqs : List (Nat × Nat) := []
  deriving DecidableEq, Repr

/-- A configured circular buffer (10 R216): the cursor of the next claim, and its slots by state, oldest first; all others are
free. -/
structure CBuf where
  base : Nat
  slot : Nat
  nslot : Nat
  claim : Nat := 0
  fill : List Nat := []
  filled : List Nat := []
  held : List Nat := []
  deriving DecidableEq, Repr

/-! ## Chunks -/

/-- A member of a read set (09 R180, 01 R14, 13 R268, R277). `fetch n` is a page-table line that an instruction fetch's walk has read:
a boundary instruction's own chunk does not hold those of its fetch (13 R266, log 38); `table n` one that the walk of an operand has read. `ready core n` is whether `n` ready items are
placed on a core, `store cl n` whether `n` unreserved entries of a record store are free. `launch pod n` is the launch that holds slot n. `engine cl e` is the tail of engine context e,
`engine cl (16 + e + 32 n)` its timeline as deterministic mode shows it to the launch of slot n (09 R193). -/
inductive Loc where
  | line (n : Nat)
  | fetch (n : Nat)
  | table (n : Nat)
  | spm (cluster n : Nat)
  | g (core n : Nat)
  | hData (core n : Nat)
  | hShape (core n : Nat)
  | hAll (core n : Nat)
  | svctgt (pod : Nat)
  | ctl (c : Nat)
  | cnt (pod n : Nat)
  | engine (cluster e : Nat)
  | ready (core n : Nat)
  | store (cluster n : Nat)
  | launch (pod n : Nat)
  deriving DecidableEq, Repr

/-- An effect that a chunk has at its commit, beside its writes, in program order. -/
inductive Fx where
  | post (g : Word) (words : List Word) (am : Bool)
  | send (target : Nat) (tag : BitVec 10) (body : List Word)
  | fold (pa : Nat) (rf : RedFmt) (opr : Nat) (v : Nat)
  | give (m : Nat)
  | queue (e : Nat) (kind : CmdKind) (cb : Vector Word 16)
  | cancel (level k : Nat)
  | startRec (n : Nat) (r : Record)
  | startNext (n : Nat)
  | mode (auto : Bool)
  | resume (n : Nat)
  | stop (n : Nat)
  | reap (n : Nat) (queue : Bool)
  | svcReg (c n : Nat) (v : Word)
  | svcSr (c : Nat) (n : BitVec 10) (v : Word)
  | reply (c : Nat) (r : Reply) (b : Word)
  | bank (bit : Nat)
  deriving DecidableEq, Repr

/-- The reply to a remote request (10 R205, R207); a read on this chip may meet a poisoned line (10 R201). -/
inductive Answer where
  | value (v : Word)
  | refused (cause : Nat)
  | poisoned (line : Nat)
  deriving DecidableEq, Repr

/-- What a chunk has done that gangs follow, in program order: the gang instructions, and the transfers of a leader or member (12 R252,
13 R275). -/
inductive GangStep where
  | form (first last : Nat) (tag : BitVec 16)
  | join (tag : BitVec 16) (pc : BitVec 48)
  | leave
  | go (pc : BitVec 48)
  deriving DecidableEq, Repr

/-- Why a chunk ended (09 R177). -/
inductive EndWhy where
  | length | budget | boundary | pressure | preempt
  /-- before a `launch` of the descriptor at `a`, which the commit reads (03 R73) -/
  | launch (a : Word)
  | trap (t : Trap)
  deriving DecidableEq, Repr

/-- A chunk: the registers it began with, how many instructions it has retired, its mode, the code it fetches (02 R65), whether the
prefix before the `PC` has been latched in it and its instruction is still to run (02 R59), its read set, what it has read of control
state and counters while its predecessor's commit was pending, its writes by byte, its
pending shared registers, its other effects, the engine tails in its write set (10 R219), the values it took from outside (16 R329), what
it did in a gang, the private tiles it has written (06 R155), and why it ended, if it has. -/
structure Chunk where
  start : Priv
  count : Nat := 0
  det : Bool := false
  excl : Bool := false
  code : Memory := []
  paired : Bool := false
  reads : List Loc := []
  seen : List (Loc × Nat) := []
  writes : List (Nat × Byte) := []
  spm : List (Nat × Byte) := []
  gs : List (Nat × Word) := []
  hs : List (Nat × Tile) := []
  svctgt : Option Nat := none
  fx : List Fx := []
  tails : List Nat := []
  vals : List Answer := []
  gangs : List GangStep := []
  tiles : List Nat := []
  ended : Option EndWhy := none
  deriving DecidableEq, Repr

/-! ## Contexts, cores, clusters, dies -/

/-- What a blocked context waits on (12 R256, R258). -/
inductive Wait where
  | fe (glob : Bool) (cluster off : Nat) (put : Bool)
  | mem (key : Nat) (cc : Cc) (b : Word)
  | cbuf (m : Nat)
  | tl (e a : Nat)
  | recv
  | svcRecv
  | send (core : Nat)
  | hop (core : Nat)
  | fence (scope : Nat)
  deriving DecidableEq, Repr

/-- A wait in progress: its port, word 2 of the trap that ends it, its operands, when and at which clock it began, the limit that
applies (01 R21, 09 R190), and the mode and the code of its single-operation chunk, which it keeps while it waits (02 R65, 09 R357). -/
structure Waiting where
  on : Wait
  w2 : Word
  ops : List Word
  start : Nat
  clock : Nat
  limit : Word
  probed : Bool := false
  det : Bool := false
  code : Memory := []
  deriving DecidableEq, Repr

/-- Why a context is out of rotation (12 R235). -/
inductive OutWhy where
  | operation | token | commit | refill | reply | stage2 (ipa : Nat) | ats (page : Nat) | ticket
  deriving DecidableEq, Repr

/-- Why a context is stopped (12 R235). -/
inductive StopWhy where
  | unplaced | killed | byStop | exited | error
  deriving DecidableEq, Repr

/-- Context states (12 R235). -/
inductive Status where
  | idle | runnable | out (why : OutWhy) | blocked | trapped | stopped (why : StopWhy)
  deriving DecidableEq, Repr

/-- A remote request in flight, by request identifier. -/
structure Request where
  rid : Nat
  chip : Nat
  sent : Nat
  fence : Bool := false
  deriving DecidableEq, Repr

/-- What the commit before a `launch` has read (03 R73): the descriptor, or the poisoned line met in it, and its extension block where
that was read, none in it where it cannot be. -/
structure LaunchRead where
  block : List Byte := []
  poison : Option Nat := none
  ext : Option (Option (List Byte)) := none
  deriving DecidableEq, Repr

/-- Membership of a gang (12 R252, 13 R275), as the context's committed chunks have left it: a number of its forming, whether the member
has still to meet its leader, the transfers retired since the member's last attachment or the leader's forming, where in the leader's transfers the member attached when it
met its leader, the `gang.join` it has retired last, and in the leader every `gang.join` with its place among the transfers. Whether a member
is attached follows from these (log 96). -/
structure Gang where
  first : Nat
  last : Nat
  tag : BitVec 16
  id : Nat := 0
  fresh : Bool := false
  path : List (BitVec 48) := []
  base : Option Nat := none
  joined : Option (BitVec 16 × BitVec 48) := none
  joins : List ((BitVec 16 × BitVec 48) × Nat) := []
  deriving DecidableEq, Repr

/-- How a context stands to messages of its own that wait at a port (13 R273): none to wait for, to be waited for before its next
instruction, or trapped in that wait. -/
inductive Sending where
  | no | wait | trapped
  deriving DecidableEq, Repr

/-- A hardware context. `mma` says that the operation it is out of rotation for is an `mma` (07 R173); `begun` is when its next single-operation chunk begins to count a wait (01 R21); `hcount` and `hlines` are the
instructions and the lines of the committed chunks of its handler (12 R254); `recs` tells, of the answers from outside recorded since its
last commit, oldest first, whether a squash has made each void (16 R329); `kept` are the answers that its uncommitted chunks had at an
interval's boundary, which a re-run takes first. -/
structure Ctx where
  p : Priv := {}
  status : Status := .idle
  chunk : Option Chunk := none
  pending : Option Chunk := none
  chunkid : Word := 0
  clock : Nat := 0
  waitcnt : BitVec 32 := 0
  squashes : Nat := 0
  sqAt : BitVec 48 × Word := (0, 0)
  parityRuns : Nat := 0
  wait : Option Waiting := none
  answer : Option Answer := none
  request : Option Request := none
  acks : List Nat := []
  unacked : List (Nat × Word) := []
  heldRec : Option (Nat × Stored) := none
  trap : Option Trap := none
  holder : Option Nat := none
  handler : Bool := false
  last : Int := -8
  gang : Option Gang := none
  posted : List (Nat × Nat) := []
  sent : List (Nat × Nat) := []
  idleAt : Nat := 0
  tokenWait : Bool := false
  mma : Bool := false
  ceased : Nat := 0
  begun : Nat := 0
  hcount : Nat := 0
  hlines : List Loc := []
  launching : Option LaunchRead := none
  sending : Sending := .no
  recs : List Bool := []
  kept : List Answer := []
  deriving DecidableEq, Repr

/-- A role as placed on a context (03 R77, R78). -/
structure Place where
  codebase : Nat
  codelim : Nat
  entry : Nat
  deriving DecidableEq, Repr

/-- An operation delivered to a remote agent: who sent it, its request identifier, its replay tag, its address, and what it asks
for (09 R199, 18 R350); of this chip's own, the virtual device and pod it comes from. -/
inductive RemoteKind where
  | rld | rst (v : Word) | am (words : List Word) | fe (op : FeOp) (v : Word)
  deriving DecidableEq, Repr

structure RemoteOp where
  srcChip : Nat
  srcCtx : Nat
  rid : Nat := 0
  vf : Nat := 0
  pod : Nat := 0
  tenant : BitVec 128 := 0
  addr : Word
  kind : RemoteKind
  interval : Nat := 0
  seq : Nat := 0
  deriving DecidableEq, Repr

/-- A core's shared state. `handling` is the inbox entry of the message that its courier's handler runs on, until a commit (16 R316);
`draining` counts the inbox entries that a drain has still to move to the heap, `drained` those it has moved (12 R255). -/
structure Core where
  g : Vector Word 32 := Vector.replicate 32 0
  h : Vector Tile 8 := Vector.replicate 8 {}
  ptr : Nat := 15
  auto : Bool := true
  inbox : List InMsg := []
  handling : Option InMsg := none
  heap : List InMsg := []
  heapHead : Nat := 0
  heapTail : Nat := 0
  heapWritten : List Nat := []
  draining : Nat := 0
  drained : Nat := 0
  port : List InMsg := []
  agent : List RemoteOp := []
  pf : Vector Nat 4 := Vector.replicate 4 0
  sq : Vector Nat 5 := Vector.replicate 5 0
  sup : Option Place := none
  courier : Option Place := none
  stopped : Bool := false
  activity : Nat := 0
  cycle : Nat := 0
  deriving DecidableEq, Repr

/-- A cluster's shared state; `rotor` is the engine context that was served last (10 R220), `activity` counts the events of its engine
contexts (12 R257), `openedAt` is when its pod last became resident, in cycles of its die (12 R250). -/
structure Cluster where
  spm : Memory := []
  full : List Nat := []
  cbufs : List (Nat × CBuf) := []
  engines : List (Nat × Engine) := []
  rotor : Nat := 15
  queue : List QItem := []
  parked : List Stored := []
  allocs : List (Nat × Nat × Nat) := []
  token : Bool := false
  burst : Option Nat := none
  tokenq : List Nat := []
  spmSlots : List (Nat × Nat) := []
  spmDirty : List Nat := []
  activity : Nat := 0
  openedAt : Nat := 0
  deriving DecidableEq, Repr

/-- A die: its clock step (0 is 3.6 GHz, 4 is 1.2 GHz; 01 R41), its cycles so far, its 64.16 accumulator, the cycles of the current group of five at
3.0 GHz, the clock remainder in units of 0.2 cycle, its relock and its ring tokens (07 R173). -/
structure Die where
  step : Nat := 0
  cycles : Nat := 0
  acc : Nat := 0
  five : Nat := 0
  part : Nat := 0
  relock : Option Nat := none
  ringtok : Nat := 0
  tokens : List Nat := []
  hot : Bool := false
  deriving DecidableEq, Repr

/-! ## Pods, virtual devices, share groups -/

/-- A launch-table entry (12 R243) with the progress of its launch: the completions counted, and the unit indices of which some run
has completed and of which every run has been removed (12 R239); `accepted` tells the acceptances of one slot apart. -/
structure Launch where
  entry : BitVec 48
  efmt : Fmt
  rmode : Rm
  seed : Word
  s : List Word
  presets : List Nat
  cb : Vector Word 16
  prio : Nat
  det : Bool
  fuse : Bool
  units : Nat
  clusters : List Nat
  lcnt : Nat
  gcnt : Nat
  pcnt : Nat
  jcnt : Nat
  codelim : BitVec 48
  splog : Nat
  deps : List (Nat × Nat)
  eligible : Bool := false
  clock : Nat := 0
  done : Nat := 0
  exited : List Nat := []
  gone : List Nat := []
  cancelled : Bool := false
  killed : Bool := false
  cursors : List (Nat × Nat) := []
  stolen : List (Nat × Nat) := []
  accepted : Nat := 0
  deriving DecidableEq, Repr

/-- A counter (12 R238); LIVE is computed. -/
structure Counter where
  canc : Bool := false
  count : Nat := 0
  deriving DecidableEq, Repr

/-- A reduction range, its size in bytes (09 R194). -/
structure RedRange where
  base : Nat
  size : Nat
  opr : Nat
  rf : RedFmt
  deriving DecidableEq, Repr

/-- A core's partial of one line of a reduction range (09 R195). -/
structure Partial where
  line : Nat
  core : Nat
  rf : RedFmt
  opr : Nat
  elems : List Nat
  deriving DecidableEq, Repr

/-- A role of an image (03 R77) and its section. -/
structure Role where
  cls : Nat
  codebase : Nat
  codelim : Nat
  entry : Nat
  deriving DecidableEq, Repr

/-- A placement (03 R78). -/
structure Placement where
  cluster : Nat
  cores : Nat
  cls : Nat
  role : Nat
  svc : Bool
  deriving DecidableEq, Repr

/-- The payload of an image that the reserve keeps for `RESTORE` (15 R291), with its boot tree and its DIGEST. -/
structure Image where
  roles : List Role
  places : List Placement
  tree : List Nat
  digest : List Byte
  deriving DecidableEq, Repr

/-- Pod states (15 R290). -/
inductive PodState where
  | empty | active | paused | evicted
  deriving DecidableEq, Repr

/-- The saved on-chip state of a pod, by pod-relative numbers (16 R317, R319). -/
structure PodImage where
  ctxs : List (Nat × Ctx) := []
  cores : List (Nat × Core) := []
  clusters : List (Nat × Cluster) := []
  deriving DecidableEq, Repr

/-- A window (15 R295). -/
structure Window where
  va : Nat
  size : Nat
  tgt : Nat
  read : Bool
  write : Bool
  kind : Nat
  handle : Word
  deriving DecidableEq, Repr

/-- A record for replay (16 R329, R330): a commit log entry of 09 R186, the end of a chunk with
the row at which it stopped a tile load or store or 0, an inbound operation, a value read or its
refusal (by context, or 32768 + 16 × cluster + engine context), a posted operation refused (the same), a line of host memory read, a translation (of an intermediate unit to a
frame unit, or of a host page), an interval boundary, a switch-out, or a Husk command performed: an image with the 64 KiB pages that it
wrote, a window mapped. -/
inductive Logged where
  | commit (seq lvl src : Nat)
  | end_ (c seq count row : Nat)
  | inbound (core : Nat) (op : RemoteOp)
  | value (c : Nat) (v : Word)
  | refused (c cause : Nat) (g : Word)
  | refusal (c : Nat) (g : Word)
  | coll (m : CollMsg)
  | host (c line : Nat) (bytes : List Byte)
  | translation (host : Bool) (at_ frame : Nat)
  | cut (n : Nat)
  | leave
  | launch (l : Launch)
  | loaded (i : Image) (pages : List (Nat × List Byte))
  | mapped (n : Nat) (w : Window)
  | restored (group : Nat) (clusters : List Nat)
  | command (opc : Nat) (a : Word)
  deriving DecidableEq, Repr

/-- A pod (15 R282); `blob` is what its latest `EVICT` wrote, which alone the Husk takes back (15 R294); `owed` are the recorded answers
that a replay has left to chunks which commit after it, `asked` the requests that were on their way at a rollback, with their sources
(16 R334). -/
structure Pod where
  vf : Nat := 0
  idx : Nat := 0
  clusters : List Nat := []
  handle : Word := 0
  state : PodState := .empty
  group : Nat := 0
  resident : Bool := false
  svctgt : Nat := 0
  cnts : List (Nat × Counter) := []
  launches : List (Nat × Launch) := []
  ranges : List RedRange := []
  heapBase : Nat := 0
  partials : List Partial := []
  image : Option Image := none
  full : Bool := false
  fullNext : Option Bool := none
  quota : Nat := 0
  slice : Nat := 0
  power : Nat := 0
  nextSlice : Option Nat := none
  nextPower : Option Nat := none
  evictions : Nat := 0
  blob : List Byte := []
  pausing : Option (Nat × Nat) := none
  saved : Option PodImage := none
  log : List Logged := []
  replay : Option (List Logged) := none
  owed : List Logged := []
  asked : List (Nat × Nat) := []
  interval : Option Nat := none
  inflight : Nat := 0
  probe : Option (Nat × List Nat) := none
  errored : Bool := false
  deriving DecidableEq, Repr

/-- A signed policy in force (15 R289). -/
structure Policy where
  tenant : BitVec 128
  podMax : Nat
  clMax : Nat
  fence : Bool
  reportOk : Bool
  fullOk : Bool
  detReq : Bool
  powShare : Nat
  groups : List Nat
  sliceMin : Nat
  sliceMax : Nat
  quotaMin : Nat
  quotaMax : Nat
  memGib : Nat
  peers : Nat
  digest : List Byte
  deriving DecidableEq, Repr

/-- TDI states (15 R298). -/
inductive Tdi where
  | configUnlocked | configLocked | run | error
  deriving DecidableEq, Repr

/-- A virtual device (15 R285). `vectors` are the MSI-X vectors raised; `msix` holds the 32-bit words of its MSI-X table that have been
written, by place, and `pba` the vectors that a mask holds back (18 R345; log 116). -/
structure Vf where
  policy : Option Policy := none
  gen : BitVec 8 := 0
  handle : Word := 0
  grant : Nat := 0
  cmdKey : Option (List Byte) := none
  seq : Nat := 0
  tdi : Tdi := .configUnlocked
  windows : List (Nat × Window) := []
  root1 : Option Nat := none
  stage2 : List (Nat × Nat) := []
  vectors : List Nat := []
  pri : List Nat := []
  atc : List Nat := []
  reported : Option Tdi := none
  msix : List (Nat × Nat) := []
  pba : List Nat := []
  deriving DecidableEq, Repr

/-- A share group (15 R282, 16 R320–R323). -/
structure Group where
  clusters : List Nat := []
  resident : Option Nat := none
  lastTick : Nat := 0
  ticking : Option Nat := none
  deadline : Nat := 50
  saved : List Nat := []
  incoming : Option Nat := none
  misses : Nat := 0
  swmiss : BitVec 32 := 0
  swforce : BitVec 32 := 0
  hold : Nat := 0
  forced : Bool := false
  deriving DecidableEq, Repr

/-! ## Package -/

/-- A host queue (18 R346). -/
structure HQueue where
  cbase : Word := 0
  cpbase : Word := 0
  en : Bool := false
  logn : Nat := 4
  head : Nat := 0
  tail : Nat := 0
  cpi : Nat := 0
  phase : Bool := true
  deriving DecidableEq, Repr

/-- An error-log entry (15 R296). -/
structure ErrEntry where
  time : Nat
  kind : Nat
  vf : Nat := 0
  group : Nat := 0
  idx : Nat := 0x1F
  words : List Word := []
  deriving DecidableEq, Repr

/-- A row of an error history (16 R338). -/
structure HistRow where
  row : Nat
  count : Nat
  first : Nat
  last : Nat
  deriving DecidableEq, Repr

/-- A flit this chip has to send (18 R350). -/
inductive Flit where
  | rld (o : OpHdr)
  | rst (o : OpHdr) (v : Word)
  | am (o : OpHdr) (words : List Word)
  | fe (o : OpHdr) (op : FeOp) (v : Word)
  | reply (o : OpHdr) (v : Word)
  | refuse (o : OpHdr) (cause : Nat)
  | probe (o : OpHdr) (posted : BitVec 32)
  | echo (o : OpHdr) (posted : BitVec 32)
  | coll (m : CollMsg)
  | abort (cid : BitVec 32) (grp : Nat)
  | notice (interval : BitVec 32)
  deriving DecidableEq, Repr

/-- A fence probe whose echo is still to go out: its chip, context, request identifier, TENANT and POSTED (18 R350). -/
structure Echo where
  chip : Nat
  ctx : Nat
  rid : Nat
  tenant : BitVec 128
  posted : Nat
  deriving DecidableEq, Repr

/-- A link port (18 R349): flits in the retry buffer with their link sequence, the next sequence numbers, credits and counters. -/
structure Port where
  retry : List (Nat × Nat × Flit) := []
  txSeq : Nat := 0
  rxSeq : Nat := 0
  credits : Nat := 0
  failed : Bool := false
  replays : Nat := 0
  fec : Nat := 0
  dups : Nat := 0
  deriving DecidableEq, Repr

/-- An answer of a DOE mailbox (15 R297–R299): an object type of discovery with the next index, a message, measurements with what
proves them, or an error. -/
inductive DoeOut where
  | object (ty next : Nat)
  | message (bytes : List Byte)
  | measurements (l : List (Nat × List Byte)) (proof : List Byte)
  | error
  deriving DecidableEq, Repr

/-- An SPDM connection of a function (15 R297): how far its handshake has come, and the answers given. -/
structure Spdm where
  version : Bool := false
  caps : Bool := false
  algs : Bool := false
  session : Bool := false
  finished : Bool := false
  keyGen : Nat := 0
  outbox : List DoeOut := []
  deriving DecidableEq, Repr

/-- A checkpoint (16 R327): the interval it opens, the pods with their images, the share groups with their residency, the windows
of the virtual devices at the cut (16 R330), and the collective flits received and not yet used. -/
structure Checkpoint where
  interval : Nat
  pods : List (Nat × Pod)
  images : List (Nat × PodImage)
  groups : List (Nat × Group)
  windows : List (Nat × List (Nat × Window)) := []
  colls : List CollMsg := []
  deriving DecidableEq, Repr

/-- An undo entry: line, interval, the line's bytes and whether it was poisoned (16 R328). -/
structure Undo where
  line : Nat
  interval : Nat
  bytes : List Byte
  poisoned : Bool
  deriving DecidableEq, Repr

/-- The interval machinery (16 R325–R328): number, opening time, undo log, the lines of their save units that FULL pods have written, by
interval and pod, the two checkpoint slots with the one last completed, the checkpoint being written, and the rollbacks to one boundary
(16 R335). -/
structure Intervals where
  num : Nat := 0
  opened : Nat := 0
  undo : List Undo := []
  saves : List ((Nat × Nat) × Nat) := []
  slotA : Option Checkpoint := none
  slotB : Option Checkpoint := none
  useB : Bool := false
  filling : Option Checkpoint := none
  rollbacks : Nat := 0
  deriving DecidableEq, Repr

/-- The I3C target (18 R353, R354). -/
structure I3c where
  addr : Option (BitVec 7) := none
  ptr : Nat := 0
  ibis : List Nat := []
  lastRead : List Byte := []
  deriving DecidableEq, Repr

/-- Sensor registers (18 R354; log 6). -/
structure Sensors where
  modpwr : BitVec 16 := 0
  hot : Vector (BitVec 16) 4 := Vector.replicate 4 0
  inlet : BitVec 16 := 0
  flow : BitVec 16 := 0
  deriving DecidableEq, Repr

/-- What the model does next (log 2): an event, or a cycle of a core, which issues under 12 R236. -/
inductive Due where
  | event (i : Instr)
  | issueCore (core : Nat)
  deriving DecidableEq, Repr

/-- The state of the package. -/
structure State where
  ctxs : List (Nat × Ctx)
  cores : List (Nat × Core)
  clusters : List (Nat × Cluster)
  dies : Vector Die 4
  pods : List (Nat × Pod)
  vfs : List (Nat × Vf)
  groups : List (Nat × Group)
  mem : Memory
  clean : List Nat
  poison : List Nat
  refTime : Nat
  bring : Nat
  ready : Bool
  failStep : Nat
  powered : Bool
  faultCode : Nat
  chip : Option (BitVec 8)
  pwrcap : Nat
  scrubh : Nat
  arbiterAt : Nat
  i3c : I3c
  sensors : Sensors
  queues : List (Nat × HQueue)
  rrQueue : Nat
  errlog : List ErrEntry
  history : List (Nat × List HistRow)
  ivals : Intervals
  ports : List (Nat × Port)
  dropped : Nat
  marks : List ((Nat × Nat × Nat × Nat) × Nat)
  rid : Nat
  echoes : List Echo
  performed : List ((Nat × Nat × Nat) × Nat)
  colls : List CollMsg
  ticket : Option Nat
  ticketQueue : List Nat
  spdm : List (Nat × Spdm)
  ide : List Nat
  retraining : List Nat
  scrubs : List (Nat × Nat)
  hostMem : Memory
  agenda : List Due
  cur : Nat
  moment : Nat
  reserveAt : Nat
  deriving DecidableEq, Repr

/-- The package before power-good (18 R352): nothing runs, every register at the value INVENTORY.md gives. -/
def State.reset : State where
  ctxs := []
  cores := []
  clusters := []
  dies := Vector.replicate 4 {}
  pods := []
  vfs := []
  groups := []
  mem := []
  clean := []
  poison := []
  refTime := 0
  bring := 0
  ready := false
  failStep := 0
  powered := true
  faultCode := 0
  chip := none
  pwrcap := 3200
  scrubh := 24
  arbiterAt := 0
  i3c := {}
  sensors := {}
  queues := []
  rrQueue := 0
  errlog := []
  history := []
  ivals := {}
  ports := []
  dropped := 0
  marks := []
  rid := 0
  echoes := []
  performed := []
  colls := []
  ticket := none
  ticketQueue := []
  spdm := []
  ide := []
  retraining := []
  scrubs := []
  hostMem := []
  agenda := []
  cur := 0
  moment := 0
  reserveAt := 190464

end Sys2Proof.Machine
end

