-- ==== Sys2Proof/Machine/Assoc.lean ====
section
/-! DEFINITION. Keyed lists and memories: reading, writing, and the canonical form of memory. -/

namespace Sys2Proof.Machine

/-- The value at a key, or `d` where the key is not listed. -/
def aget {α : Type} (d : α) : List (Nat × α) → Nat → α
  | [], _ => d
  | (k, v) :: l, n => if k = n then v else aget d l n

/-- Sets the value at a key, keeping the keys in rising order. -/
def aput {α : Type} : List (Nat × α) → Nat → α → List (Nat × α)
  | [], n, v => [(n, v)]
  | (k, w) :: l, n, v =>
    if n < k then (n, v) :: (k, w) :: l else if n = k then (n, v) :: l else (k, w) :: aput l n v

/-- Removes a key. -/
def adel {α : Type} (l : List (Nat × α)) (n : Nat) : List (Nat × α) := l.filter (·.1 ≠ n)

def afind? {α : Type} : List (Nat × α) → Nat → Option α
  | [], _ => none
  | (k, v) :: l, n => if k = n then some v else afind? l n

/-- Adds a number to a sorted list without repeats. -/
def nput : List Nat → Nat → List Nat
  | [], n => [n]
  | k :: l, n => if n < k then n :: k :: l else if n = k then k :: l else k :: nput l n

namespace Memory

/-- The byte at an address; 0 where none is listed (15 R302: a cleared frame reads as zero; log 1). -/
def read (m : Memory) (a : Nat) : Byte := aget 0 m a

/-- Writes one byte, keeping the canonical form: 0 removes the entry. -/
def write (m : Memory) (a : Nat) (b : Byte) : Memory := if b = 0 then adel m a else aput m a b

/-- Every address is above `n`, addresses rise, and no entry is 0. -/
def wfFrom : Nat → Memory → Bool
  | _, [] => true
  | n, (k, v) :: l => n ≤ k && v ≠ 0 && wfFrom (k + 1) l

/-- The canonical form: addresses strictly rising, no entry equal to what an unlisted address reads as. -/
def wf (m : Memory) : Bool := wfFrom 0 m

/-- `n` bytes from an address up. -/
def readBytes (m : Memory) (a : Nat) : Nat → List Byte
  | 0 => []
  | n + 1 => m.read a :: readBytes m (a + 1) n

/-- Writes bytes from an address up. -/
def writeBytes (m : Memory) (a : Nat) : List Byte → Memory
  | [] => m
  | b :: bs => writeBytes (m.write a b) (a + 1) bs

/-- Writes scattered bytes. -/
def writeAll (m : Memory) (l : List (Nat × Byte)) : Memory := l.foldl (fun m x => m.write x.1 x.2) m

/-- Removes every byte of `[lo, hi)`: the range reads as zero. -/
def clear (m : Memory) (lo hi : Nat) : Memory := m.filter (fun x => x.1 < lo || hi ≤ x.1)

end Memory

end Sys2Proof.Machine
end

