-- ==== Sys2Proof/Machine/Ops.lean ====
section
/-! DEFINITION. The named operations over the state: contexts, cores, clusters and pods, registers, read and write sets, messages,
taking a trap, squash, and how one instruction ends. -/

namespace Sys2Proof.Machine

/-! ## Places -/

/-- Registers of a supervisor or courier where 01 R15 gives them values of its own. -/
def Priv.placed : Priv :=
  { unitid := 0xFFFFFFFF, launchid := 0xFF, rngStream := 0xFFFFFFFF, spbase := 0, spsize := 0x200000 }

/-- A context that nothing has used: a unit context is IDLE, a supervisor or courier without placement STOPPED (03 R78). -/
def Ctx.fresh (c : Nat) : Ctx :=
  match classOf c with
  | .unit => {}
  | _ => { p := Priv.placed, status := .stopped .unplaced }

def State.ctx (s : State) (c : Nat) : Ctx := aget (Ctx.fresh c) s.ctxs c
def State.setCtx (s : State) (c : Nat) (x : Ctx) : State := { s with ctxs := aput s.ctxs c x }
def State.core (s : State) (k : Nat) : Core := aget {} s.cores k
def State.setCore (s : State) (k : Nat) (x : Core) : State := { s with cores := aput s.cores k x }
def State.cluster (s : State) (k : Nat) : Cluster := aget {} s.clusters k
def State.setCluster (s : State) (k : Nat) (x : Cluster) : State := { s with clusters := aput s.clusters k x }
def State.pod (s : State) (p : Nat) : Pod := aget {} s.pods p
def State.setPod (s : State) (p : Nat) (x : Pod) : State := { s with pods := aput s.pods p x }
def State.vf (s : State) (v : Nat) : Vf := aget {} s.vfs v
def State.setVf (s : State) (v : Nat) (x : Vf) : State := { s with vfs := aput s.vfs v x }
def State.group (s : State) (g : Nat) : Group := aget {} s.groups g
def State.setGroup (s : State) (g : Nat) (x : Group) : State := { s with groups := aput s.groups g x }
def State.queue (s : State) (q : Nat) : HQueue := aget {} s.queues q
def State.setQueue (s : State) (q : Nat) (x : HQueue) : State := { s with queues := aput s.queues q x }
def State.port (s : State) (p : Nat) : Port := aget {} s.ports p
def State.setPort (s : State) (p : Nat) (x : Port) : State := { s with ports := aput s.ports p x }
def State.die (s : State) (d : Nat) : Die := s.dies.getD d {}
def State.setDie (s : State) (d : Nat) (x : Die) : State := { s with dies := s.dies.setIfInBounds d x }
def Cluster.engine (k : Cluster) (e : Nat) : Engine := aget {} k.engines e
def Cluster.setEngine (k : Cluster) (e : Nat) (x : Engine) : Cluster := { k with engines := aput k.engines e x }
def Cluster.cbuf? (k : Cluster) (m : Nat) : Option CBuf := afind? k.cbufs m

/-- The context that executes, and its change. -/
def State.me (s : State) : Ctx := s.ctx s.cur
def State.setMe (s : State) (x : Ctx) : State := s.setCtx s.cur x
def State.setP (s : State) (p : Priv) : State := s.setMe { s.me with p := p }
def State.myCore (s : State) : Nat := coreOf s.cur
def State.myCluster (s : State) : Nat := clusterOf s.cur

/-- The chip number, 0 until it is written (18 R351). -/
def State.chipNum (s : State) : Nat := (s.chip.getD 0).toNat

/-- The key of a pod: its virtual device and INDEX (15 R287). -/
def podKey (vf idx : Nat) : Nat := vf * 32 + idx

/-- The pod resident on a cluster (15 R282). -/
def State.podAt (s : State) (cluster : Nat) : Option Nat :=
  (s.pods.find? (fun x => x.2.resident && x.2.clusters.contains cluster)).map (·.1)

/-- The pod of a context. -/
def State.podOf (s : State) (c : Nat) : Option Nat := s.podAt (clusterOf c)

/-- The pod of the executing context, an unallocated one where there is none. -/
def State.myPodId (s : State) : Nat := (s.podOf s.cur).getD 0
def State.myPod (s : State) : Pod := s.pod s.myPodId
def State.myVf (s : State) : Vf := s.vf s.myPod.vf

/-- A cluster's number in its pod (03 R71). -/
def Pod.relCluster? (p : Pod) (cluster : Nat) : Option Nat := p.clusters.findIdx? (· = cluster)

/-- Contexts of a pod's clusters that have state of their own. -/
def State.podCtxs (s : State) (p : Pod) : List Nat :=
  (s.ctxs.filter (fun x => p.clusters.contains (clusterOf x.1))).map (·.1)

/-- The launch a unit context runs. -/
def State.launchOf (s : State) (c : Nat) : Option Launch :=
  match s.podOf c with
  | some p => afind? (s.pod p).launches (s.ctx c).p.launchid.toNat
  | none => none

/-- A unit context that holds a unit. -/
def State.holdsUnit (s : State) (c : Nat) : Bool := classOf c = .unit && (s.ctx c).status ≠ .idle

/-- Deterministic mode: of a unit, its launch's; of a supervisor or courier, whether any unit of a deterministic launch of the pod
is resident (09 R357). -/
def State.detMode (s : State) (c : Nat) : Bool :=
  let det (u : Nat) : Bool := s.holdsUnit u && (match s.launchOf u with | some l => l.det | none => false)
  match classOf c with
  | .unit => det c
  | _ => match s.podOf c with
    | some p => (s.podCtxs (s.pod p)).any det
    | none => false

/-! ## Chunks -/

/-- The chunk that would begin now in context `c`. A wait that runs again runs in the chunk it began with: the mode and the code are
those of its beginning (02 R65, 09 R357). -/
def State.newChunk (s : State) (c : Nat) : Chunk :=
  let w := (s.ctx c).wait
  { start := (s.ctx c).p, det := (w.map (·.det)).getD (s.detMode c), excl := s.ticket = some c, code := (w.map (·.code)).getD s.mem }

/-- The open chunk of a context. -/
def State.chunkOf (s : State) (c : Nat) : Chunk := ((s.ctx c).chunk).getD (s.newChunk c)

/-- The open chunk of the executing context. -/
def State.chunk (s : State) : Chunk := s.chunkOf s.cur
def State.setChunk (s : State) (k : Chunk) : State := s.setMe { s.me with chunk := some k }

/-- Opens a chunk where none is open. -/
def State.openChunk (s : State) : State :=
  match s.me.chunk with
  | some _ => s
  | none => s.setChunk (s.newChunk s.cur)

def locPut (l : List Loc) (x : Loc) : List Loc := if l.contains x then l else x :: l

/-- Whether a member of a read set is line `n` of memory. -/
def Loc.isLine (x : Loc) (n : Nat) : Bool := x = .line n || x = .fetch n || x = .table n

/-- Enters places into the read set (09 R180). -/
def State.note (s : State) (ls : List Loc) : State :=
  s.setChunk { s.chunk with reads := ls.foldl locPut s.chunk.reads }

/-- Defers an effect to the chunk's commit. -/
def State.defer (s : State) (f : Fx) : State := s.setChunk { s.chunk with fx := s.chunk.fx ++ [f] }

/-- Effects of the executing context that have not committed, in program order. -/
def State.laterFx (s : State) : List Fx := (match s.me.pending with | some k => k.fx | none => []) ++ s.chunk.fx

/-- The pending value of a shared scalar that context `c` itself wrote (01 R14, 09 R182). -/
def State.ownG? (s : State) (c n : Nat) : Option Word :=
  match afind? (s.chunkOf c).gs n with
  | some v => some v
  | none => match (s.ctx c).pending with
    | some k => afind? k.gs n
    | none => none

/-- The value of a scalar as context `c` reads it (01 R11, R14). -/
def State.scalarOf (s : State) (c : Nat) : SReg → Word
  | .s n => if n = 0 then 0 else (s.ctx c).p.regs[n]
  | .g n => (s.ownG? c n.val).getD (s.core (coreOf c)).g[n]

/-- The value of a scalar operand. -/
def State.val (s : State) (r : SReg) : Word := s.scalarOf s.cur r

/-- The place a scalar read enters into the read set. -/
def sLocs (core : Nat) : SReg → List Loc
  | .s _ => []
  | .g n => [.g core n.val]

/-- Enters the shared scalars among `rs` into the read set. -/
def State.noteS (s : State) (rs : List SReg) : State :=
  s.note (rs.foldr (fun r l => sLocs s.myCore r ++ l) [])

/-- Writes a scalar: `s0` discards, `g` is held pending (01 R11, R14). -/
def State.putS (s : State) (r : SReg) (v : Word) : State :=
  match r with
  | .s n => if n = 0 then s else s.setP { s.me.p with regs := s.me.p.regs.set n v }
  | .g n => s.setChunk { s.chunk with gs := aput s.chunk.gs n.val v }

/-! ## Tiles and masks -/

/-- The pending shared tile that context `c` itself wrote. -/
def State.ownH? (s : State) (c n : Nat) : Option Tile :=
  match afind? (s.chunkOf c).hs n with
  | some v => some v
  | none => match (s.ctx c).pending with
    | some k => afind? k.hs n
    | none => none

/-- A tile as context `c` reads it. -/
def State.tileOf (s : State) (c : Nat) : TReg → Tile
  | .t n => (s.ctx c).p.tiles[n]
  | .h n => (s.ownH? c n.val).getD (s.core (coreOf c)).h[n]

def State.tile (s : State) (r : TReg) : Tile := s.tileOf s.cur r

/-- Writes a tile with its shape, private at once and shared at commit (01 R14). -/
def State.setTile (s : State) (r : TReg) (t : Tile) : State :=
  match r with
  | .t n => (s.setP { s.me.p with tiles := s.me.p.tiles.set n t }).setChunk { s.chunk with tiles := nput s.chunk.tiles n.val }
  | .h n => s.setChunk { s.chunk with hs := aput s.chunk.hs n.val t }

/-- Places that a read of a tile's data enters (01 R14). -/
def tDataLocs (core : Nat) : TReg → List Loc
  | .t _ => []
  | .h n => [.hData core n.val, .hShape core n.val]

/-- Places that a use of a tile's shape alone enters (01 R14). -/
def tShapeLocs (core : Nat) : TReg → List Loc
  | .t _ => []
  | .h n => [.hShape core n.val]

def State.mask (s : State) (k : KReg) : Option Mask := s.me.p.masks[k]
def State.setMask (s : State) (k : KReg) (m : Mask) : State :=
  s.setP { s.me.p with masks := s.me.p.masks.set k (some m) }

/-! ## Operand words of a trap message (01 R36) -/

inductive Opnd where
  | none
  | s (r : SReg)
  | t (r : TReg)
  | k (r : KReg)
  | raw (n : Nat)
  deriving DecidableEq, Repr

def tsOpnd : TS → Opnd
  | .tile r => .t r
  | .scalar r => .s r

/-- A mask's shape with rows in [15:9] and columns in [8:0] (01 R36). -/
def maskShape : Option Mask → Word
  | .none => 0
  | .some m => word (m.rows * 512 + m.cols)

def State.opWord (s : State) : Opnd → Word
  | .none => 0
  | .s r => s.val r
  | .t r => (s.tile r).shape.zeroExtend 64
  | .k r => maskShape (s.mask r)
  | .raw n => word n

/-! ## Messages -/

/-- Inbox entries in use: the message of a handler keeps its own until the handler commits (12 R253, 16 R316; log 65). -/
def Core.entries (k : Core) : Nat := k.inbox.length + k.handling.toList.length

/-- An arrival goes into the inbox: the heap holds no message and no drain is on its way to it (12 R255; log 103). -/
def Core.direct (k : Core) : Bool := k.heap.isEmpty && k.draining = 0 && k.entries < Config.inboxEntries

/-- Room in a core for one more arrival, in the inbox or else in the heap beside what a drain has still to move (12 R255). -/
def Core.accepts (k : Core) : Bool := k.direct || k.heap.length + k.draining < Config.heapEntries

/-- A message as the heap keeps it: in the next heap line, or the lowest free one where that still holds a message. -/
def Core.heaped (k : Core) (m : InMsg) : InMsg :=
  let used (i : Nat) : Bool := k.heap.any (·.slot = i)
  let i := k.heapTail % Config.heapEntries
  { m with slot := if used i then ((List.range Config.heapEntries).find? (fun j => !used j)).getD i else i }

/-- A message that the heap takes before its entry `i`. -/
def Core.toHeap (k : Core) (i : Nat) (m : InMsg) : Core :=
  { k with heap := k.heap.take i ++ k.heaped m :: k.heap.drop i, heapTail := k.heapTail + 1 }

/-- A message at the tail of the inbox; with 64 entries the drain of the newest 48 starts (12 R255). -/
def Core.toInbox (k : Core) (m : InMsg) : Core :=
  { k with inbox := k.inbox ++ [m],
           draining := if k.entries + 1 = Config.inboxEntries then min 48 (Config.heapEntries - k.heap.length) else k.draining,
           drained := if k.entries + 1 = Config.inboxEntries then 0 else k.drained }

/-- An arrival at a core: into the inbox, or to the tail of the heap (12 R255). -/
def Core.accept (k : Core) (m : InMsg) : Core :=
  { (if k.direct then k.toInbox m else k.toHeap k.heap.length m) with activity := k.activity + 1 }

/-- The oldest entry that a drain has still to move goes to the heap, behind those it has moved and before what has reached the heap
otherwise, which is younger (12 R253, R255; log 103). -/
def Core.drain (k : Core) : Core :=
  let i := k.inbox.length - k.draining
  match k.inbox[i]? with
  | some m => { k.toHeap k.drained m with inbox := k.inbox.eraseIdx i, draining := k.draining - 1, drained := k.drained + 1,
                                          activity := k.activity + 1 }
  | none => { k with draining := 0 }

/-- The inbox without a message that its consumer takes. -/
def Core.takeMsg (k : Core) (m : InMsg) : Core :=
  { k with inbox := k.inbox.erase m,
           draining := if k.inbox.length - k.draining ≤ k.inbox.idxOf m then k.draining - 1 else k.draining }

/-- The die of a core relocks: what crosses to it and from it stands still (01 R42). -/
def State.dieStill (s : State) (core : Nat) : Bool := (s.die (dieOfCluster (clusterOfCore core))).relock.isSome

/-- A message for a core: accepted, or waiting at its port behind those already there (12 R255, 13 R273), or while its die relocks (01
R42; log 104). -/
def State.deliver (s : State) (core : Nat) (m : InMsg) : State :=
  let k := s.core core
  if k.port.isEmpty && k.accepts && !s.dieStill core then s.setCore core (k.accept m)
  else s.setCore core { k with port := k.port ++ [m] }

/-- A chunk that holds no effect. -/
def Chunk.isEmpty (k : Chunk) : Bool :=
  k.count = 0 && k.writes.isEmpty && k.spm.isEmpty && k.gs.isEmpty && k.hs.isEmpty && k.fx.isEmpty && k.svctgt.isNone

/-! ## Gangs (12 R252) -/

/-- The leader of a gang of contexts like `c`. -/
def leaderOf (c : Nat) (g : Gang) : Nat := (clusterOf c * 8 + g.first) * 16 + inCore c

/-- The gang that the leader of `g` holds, if it is `g`. -/
def State.ledBy (s : State) (c : Nat) (g : Gang) : Option Gang :=
  match (s.ctx (leaderOf c g)).gang with
  | some l => if l.first = g.first && l.last = g.last && l.tag = g.tag && l.id = g.id then some l else none
  | none => none

/-- Two runs of transfers that one `PC` can follow: one continues the other. -/
def follows (a b : List (BitVec 48)) : Bool := a.isPrefixOf b || b.isPrefixOf a

/-- A member is attached while its transfers are those of its leader, from its forming or from a `gang.join` that both have retired at
one `PC` with one tag (12 R252; log 96). -/
def State.attached (s : State) (c : Nat) : Bool :=
  match (s.ctx c).gang with
  | none => false
  | some g => match s.ledBy c g with
    | none => false
    | some l => leaderOf c g = c ||
      (match g.base with | some n => follows g.path (l.path.drop n) | none => false) ||
      (match g.joined with | some j => l.joins.any (fun y => y.1 = j && follows g.path (l.path.drop y.2)) | none => false)

/-- The gang of a context that traps or blocks: a member detaches unless its leader is out of rotation for as much (12 R252). -/
def State.detached (s : State) (c : Nat) : Option Gang :=
  (s.ctx c).gang.map (fun g =>
    if leaderOf c g = c || (match (s.ctx (leaderOf c g)).status with | .blocked | .trapped => true | _ => false) then g
    else { g with base := none, joined := none })

/-- Whether the executing context's transfers count in a gang. -/
def State.ganged (s : State) : Bool :=
  s.me.gang.isSome || !s.chunk.gangs.isEmpty || (match s.me.pending with | some k => !k.gangs.isEmpty | none => false)

/-- Records what a gang follows in the open chunk. -/
def State.gangStep (s : State) (g : GangStep) : State := s.setChunk { s.chunk with gangs := s.chunk.gangs ++ [g] }

/-! ## Waiting for a power token (07 R173) -/

/-- The first waiter of a cluster that holds a token may try again. -/
def State.wakeToken (s : State) (cl : Nat) : State :=
  match (s.cluster cl).token, (s.cluster cl).tokenq with
  | true, c :: _ => if (s.ctx c).status = .out .token then s.setCtx c { s.ctx c with status := .runnable } else s
  | _, _ => s

/-- A context no longer waits for a power token; the one behind it may try. -/
def State.leaveTokenq (s : State) (c : Nat) : State :=
  let k := s.cluster (clusterOf c)
  if k.tokenq.contains c then
    (s.setCluster (clusterOf c) { k with tokenq := k.tokenq.filter (· ≠ c) }).wakeToken (clusterOf c)
  else s

/-! ## Taking a trap (01 R35–R39) -/

/-- A trap that an instruction raises: its code, word 2, word 1 where it is not the `PC`, words 4–7 where the code defines its own
(01 R38), the restart row (06 R150), and whether it came from steps 1–5 of 02 R61. -/
structure TrapReq where
  code : Nat
  w2 : Word := 0
  w1 : Option Word := none
  own : Option (List Word) := none
  row : Option (Nat × Nat) := none
  atFetch : Bool := false
  deriving DecidableEq, Repr

namespace Code
def illegal : Nat := 0x01
def fetchAlign : Nat := 0x02
def runoff : Nat := 0x03
def tileUnconf : Nat := 0x04
def tileShape : Nat := 0x05
def xlate : Nat := 0x06
def perm : Nat := 0x07
def misalign : Nat := 0x08
def waitLimit : Nat := 0x09
def blockCycle : Nat := 0x0A
def callDepth : Nat := 0x0B
def retEmpty : Nat := 0x0C
def remote : Nat := 0x0D
def engine : Nat := 0x0E
def poison : Nat := 0x0F
def soft : Nat := 0x10
def courierBlock : Nat := 0x11
end Code

/-- The message a context's trap carries (01 R36), its operand words read now. -/
def State.trapOf (s : State) (ops : List Opnd) (t : TrapReq) : Trap :=
  let p := s.me.p
  { code := t.code, w1 := t.w1.getD (zext p.pc), w2 := t.w2, row := t.row,
    pfx := if p.tstat.pp then some p.tstat.pfx else none,
    ops := t.own.getD (ops.map s.opWord), atFetch := t.atFetch }

/-- Words 0–7 of a trap message (01 R36). -/
def Trap.words (t : Trap) (c : Nat) (trunc : Bool) : List Word :=
  let w0 := word (t.code + c * 2 ^ 8 + trunc.toNat * 2 ^ 22 + t.row.isSome.toNat * 2 ^ 23)
  let (field, row) := t.row.getD (0, 0)
  let w3 := word (row + t.pfx.isSome.toNat * 2 ^ 7 + field * 2 ^ 8 + ((t.pfx.getD 0).toNat) * 2 ^ 32)
  [w0, t.w1, t.w2, w3, t.ops.getD 0 0, t.ops.getD 1 0, t.ops.getD 2 0, t.ops.getD 3 0]

/-- An entry of the error log, with the pod it concerns (15 R296). -/
def State.logError (s : State) (kind : Nat) (pod : Option Nat) (vf : Nat) (ws : List Word) : State :=
  let e : ErrEntry := match pod with
    | some p => ⟨s.refTime, kind, (s.pod p).vf, (s.pod p).group, (s.pod p).idx, ws⟩
    | none => ⟨s.refTime, kind, vf, 0, 0x1F, ws⟩
  { s with errlog := s.errlog ++ [e] }

/-- A 32-bit word of a virtual device's MSI-X table: each vector has four, of which the last holds its mask, set until it is written
(18 R345; log 116). -/
def Vf.msixWord (v : Vf) (i : Nat) : Nat := aget (if i % 4 = 3 then 1 else 0) v.msix i

/-- The mask of an MSI-X vector. -/
def Vf.masked (v : Vf) (n : Nat) : Bool := v.msixWord (4 * n + 3) % 2 = 1

/-- Raises an MSI-X vector of a virtual device (15 R285); one that its table masks stays pending. -/
def State.raiseVector (s : State) (vf n : Nat) : State :=
  if vf = 0 then s
  else s.setVf vf { s.vf vf with vectors := (s.vf vf).vectors ++ [n], pba := if (s.vf vf).masked n then nput (s.vf vf).pba n else (s.vf vf).pba }

/-- Marks the recorded answers after the first `n` that stand as void. -/
def voidFrom : Nat → List Bool → List Bool
  | _, [] => []
  | n, true :: l => true :: voidFrom n l
  | 0, false :: l => true :: voidFrom 0 l
  | n + 1, false :: l => false :: voidFrom n l

/-- The recorded answers of a context that loses the one it has not taken. -/
def Ctx.recsLost (x : Ctx) : List Bool := if x.answer.isSome then voidFrom (x.recs.count false - 1) x.recs else x.recs

/-- The last steps of taking a trap: the context is TRAPPED, and the message goes to the service target's core, or, from the service
target itself, to the Husk, which logs it and raises the error interrupt (01 R35 steps 3 and 4, R39). -/
def State.trapEntry (s : State) (c : Nat) (t : Trap) (trunc : Bool) : State :=
  let s := s.leaveTokenq c
  let x := s.ctx c
  let p := match t.row with
    | some (_, r) => { x.p with tstat := { x.p.tstat with rv := true, rrow := .ofNat 7 r } }
    | none => x.p
  let s := s.setCtx c { x with p := p, status := .trapped, trap := some t, tokenWait := false, holder := none, wait := none, answer := none, recs := x.recsLost, heldRec := none, launching := none, ceased := if x.status = .blocked then x.ceased else s.refTime, gang := s.detached c }
  match s.podOf c with
  | none => s
  | some pid =>
    if (s.pod pid).svctgt = c then
      (s.logError 1 (some pid) (s.pod pid).vf ((t.words c trunc).take 6)).raiseVector (s.pod pid).vf 0
    else
      s.deliver (coreOf (s.pod pid).svctgt) { kind := .trap, consumer := (s.pod pid).svctgt, words := t.words c trunc }

/-- A record for replay, kept for a FULL pod outside of replay (16 R329). -/
def State.logFor (s : State) (pid : Option Nat) (x : Logged) : State :=
  match pid with
  | some p => if (s.pod p).full && (s.pod p).replay.isNone then s.setPod p { s.pod p with log := (s.pod p).log ++ [x] } else s
  | none => s

/-- An answer from outside, recorded for a FULL pod at its arrival, in replay too (16 R329). -/
def State.logAnswer (s : State) (pid : Option Nat) (x : Logged) : State :=
  match pid with
  | some p => if (s.pod p).full then s.setPod p { s.pod p with log := (s.pod p).log ++ [x] } else s
  | none => s

/-- Host memory lies above every physical address in the keys of a write set. -/
def hostBase : Nat := 2 ^ 64

/-- A line of host memory. -/
def hostLine (n : Nat) : Bool := hostBase / 64 ≤ n

/-- Whether a record gives the line of host memory that another gives. -/
def Logged.sameUse : Logged → Logged → Bool
  | .host c n _, .host d m _ => c = d && n = m
  | _, _ => false

/-- The cause under which the records keep that a read on this chip has met a poisoned line. -/
def poisonCause : Nat := 16

/-- The record of an answer to a source, a context or an engine context (16 R329). -/
def Answer.record (src : Nat) : Answer → Logged
  | .value v => .value src v
  | .refused n => .refused src n 0
  | .poisoned l => .refused src poisonCause (word l)

/-- Whether a record answers a source. -/
def Logged.answers (src : Nat) : Logged → Bool
  | .value d _ | .refused d _ _ => d = src
  | _ => false

/-- The records that a pod's re-run takes answers from: those of its replay, then those that the replay has left (16 R333). -/
def Pod.records (p : Pod) : List Logged := p.replay.getD p.owed

/-- Changes those records. -/
def Pod.mapRecords (p : Pod) (f : List Logged → List Logged) : Pod :=
  match p.replay with
  | some l => { p with replay := some (f l) }
  | none => { p with owed := f p.owed }

/-- The records without the first `n` that answer a source. -/
def useAnswers (src : Nat) : Nat → List Logged → List Logged
  | 0, l => l
  | n + 1, l => useAnswers src n (l.eraseP (·.answers src))

/-- The records without the answers of a source that are void; `recs` tells of the last ones, the newest first. -/
def dropVoid (src : Nat) : List Bool → List Logged → List Logged
  | _, [] => []
  | [], l => l
  | b :: bs, x :: l => if x.answers src then (if b then dropVoid src bs l else x :: dropVoid src bs l) else x :: dropVoid src (b :: bs) l

/-- The log without the void answers of a context. -/
def Ctx.cleanLog (x : Ctx) (c : Nat) (l : List Logged) : List Logged :=
  if x.recs.contains true then (dropVoid c x.recs.reverse l.reverse).reverse else l

/-- How many of `n` answers that context `c` has taken a re-run gives: those kept from the interval's boundary, then the records. -/
def State.reused (s : State) (pid : Option Nat) (c n : Nat) : Nat :=
  match pid with
  | some p => min n ((s.ctx c).kept.length + (s.pod p).records.countP (·.answers c))
  | none => 0

/-- The recorded answers of context `c` once chunk `k` has committed: those of later chunks. -/
def State.recsAfter (s : State) (c : Nat) (k : Chunk) : List Bool :=
  let live := k.vals.length - s.reused (s.podOf c) c k.vals.length
  List.replicate ((s.ctx c).recs.count false - live) false

/-- The commit of a chunk of context `c` of pod `pid` settles what it has taken from outside: answers that records gave are used up, those
recorded at their arrival that squashes have made void go, and what no arrival has recorded, a value of an MMIO page or a line of host
memory, is recorded, the line in replay used up (16 R329, R333). -/
def State.logVals (s : State) (pid : Option Nat) (c : Nat) (k : Chunk) : State :=
  let host := (k.reads.filterMap (fun x => match x with | .line n => if hostLine n then some n else none | _ => none)).map (fun n =>
    Logged.host c n (s.hostMem.readBytes ((n * 64) - hostBase) 64))
  match pid with
  | none => s
  | some pid =>
    let p := s.pod pid
    let used := s.reused (some pid) c k.vals.length
    let new := (k.vals.drop (used + (s.ctx c).recs.count false)).map (Answer.record c)
    let p' := p.mapRecords (useAnswers c (used - (s.ctx c).kept.length))
    let log := (s.ctx c).cleanLog c p.log ++ new
    match p.full, p.replay with
    | true, none => s.setPod pid { p' with log := log ++ host }
    | true, some _ => s.setPod pid { p'.mapRecords (fun l => host.foldl (fun l x => l.eraseP x.sameUse) l) with log := log }
    | false, _ => s

/-- Taking a trap (01 R35): an open chunk that holds anything ends before the trapping instruction and the message waits for its
commit; otherwise the context is trapped at once. In deterministic mode the trap takes its place in the key order (09 R190), so it
always waits for its grant. -/
def State.takeTrap (s : State) (ops : List Opnd) (t : TrapReq) : State :=
  let m := s.trapOf ops t
  let k := s.chunk
  if k.isEmpty && !k.det && s.me.pending.isNone then
    (({ s with ticket := if s.ticket = some s.cur then none else s.ticket }.logVals (s.podOf s.cur) s.cur k).setMe
      { s.me with chunk := none, squashes := 0, recs := s.recsAfter s.cur k, kept := s.me.kept.drop k.vals.length }).trapEntry s.cur m false
  else
    let p := match t.row with
      | some (_, r) => { s.me.p with tstat := { s.me.p.tstat with rv := true, rrow := .ofNat 7 r } }
      | none => s.me.p
    -- a trap ends an exclusive attempt (09 R183 step 4)
    -- and gives up its place among the waiters for a power token
    ({ s with ticket := if s.ticket = some s.cur then none else s.ticket }.leaveTokenq s.cur).setMe
      { s.me with p := p, tokenWait := false, chunk := some { k with ended := some (.trap m), excl := false }, status := .out .commit,
                  squashes := if k.excl then 0 else s.me.squashes }

/-! ## Returning from a trap (04 R105, R106) -/

/-- A context re-enters rotation after a reply. -/
def Ctx.released (x : Ctx) (p : Priv) : Ctx :=
  { x with p := p, status := .runnable, trap := none, holder := none, chunk := none, wait := none }

/-- The prefix and restart state cleared by SKIP and REDIRECT (04 R105) and by retirement (01 R17). -/
def Priv.clearRestart (p : Priv) : Priv :=
  { p with tstat := { p.tstat with pp := false, pfx := 0, rv := false, rrow := 0 } }

/-! ## How an instruction ends -/

/-- Why an instruction does not retire now. -/
inductive Stop where
  /-- It raises a trap. -/
  | trap (t : TrapReq)
  /-- The chunk before it ends first (09 R177, R178). -/
  | endFirst (why : EndWhy)
  /-- It blocks (12 R235). -/
  | block (on : Wait) (w2 : Word)
  /-- Its context leaves rotation with the instruction still to run. -/
  | out (why : OutWhy)
  /-- A tile it uses is still in its saved image (06 R155). -/
  | refill (r : TReg)
  /-- It goes to a physical address that does not exist. -/
  | bad (pa : Nat)
  deriving DecidableEq, Repr

abbrev Res := Except Stop State

def trapWith (code : Nat) (w2 : Word := 0) : Stop := .trap { code := code, w2 := w2 }

/-- Gives back a prefix latched in this chunk whose instruction has not retired: the pair runs in the next chunk, since no chunk ends
between the two (02 R59, R65). -/
def State.unpair (s : State) : State :=
  if s.chunk.paired then
    (s.setP { s.me.p with pc := s.me.p.pc - 4, tstat := { s.me.p.tstat with pp := false, pfx := 0 } }).setChunk
      { s.chunk with paired := false }
  else s

/-- Ends the open chunk of the executing context. With no commit pending, one that ended by its length or budget becomes pending and
the context runs on (09 R182); every other waits for its grant out of rotation. -/
def State.endChunk (s : State) (why : EndWhy) : State :=
  let s := s.unpair
  let k := { s.chunk with ended := some why }
  let overlap := match why with | .length | .budget | .pressure => true | _ => false
  if overlap && s.me.pending.isNone && !k.excl then
    s.setMe { s.me with pending := some k, chunk := none }
  else s.setMe { s.me with chunk := some k, status := .out .commit }

/-- The instruction limit of a chunk: `CHUNKLEN` as the context held it when the chunk began (01 R21). -/
def Chunk.limit (k : Chunk) : Nat := max 64 (min 16384 k.start.chunklen.toNat)

/-- During replay, the end that the end trace records at the present count of the chunk, with its row (16 R333). -/
def State.traceEnd? (s : State) : Option Nat :=
  let seq := s.me.chunkid.toNat + s.me.pending.toList.length
  (s.myPod.replay.getD []).findSome? (fun x => match x with
    | .end_ c q n r => if c = s.cur && q = seq && n = s.chunk.count then some r else none
    | _ => none)

/-- Retirement with the next `PC`: the count, PP and RV (01 R17), and the end of the chunk at its limit (09 R177); a handler's chunk
does not end there (12 R254). -/
def State.retireTo (s : State) (pc : BitVec 48) : State :=
  let s := s.setP { s.me.p.clearRestart with pc := pc }
  let s := s.setChunk { s.chunk with count := s.chunk.count + 1, paired := false }
  if s.chunk.limit ≤ s.chunk.count && !s.me.handler then s.endChunk .length
  else if s.traceEnd? = some 0 then s.endChunk .pressure
  else s

/-- Retirement of an instruction of `len` bytes that transfers nowhere. -/
def State.retire (s : State) (len : Nat) : State := s.retireTo (s.me.p.pc + BitVec.ofNat 48 len)

/-- A chunk that holds no effect yet. -/
def State.emptyChunk (s : State) : Bool := s.chunk.isEmpty

/-- A wait of the executing context that begins: it counts from the tick at which its single-operation chunk began (01 R21). -/
def State.newWait (s : State) (on : Wait) (w2 : Word) (ops : List Opnd) : Waiting :=
  { on := on, w2 := w2, ops := ops.map s.opWord, start := s.me.begun, clock := s.me.clock, limit := s.me.p.waitlim,
    det := s.chunk.det, code := s.chunk.code }

/-- Blocks the executing context, keeping the start and limit of a wait that was already in progress (01 R21, 09 R190). -/
def State.blockOn (s : State) (on : Wait) (w2 : Word) (ops : List Opnd) : State :=
  let w : Waiting := match s.me.wait with
    | some w => { w with on := on, w2 := w2, ops := ops.map s.opWord }
    | none => s.newWait on w2 ops
  s.setMe { s.me with wait := some w, status := .blocked, chunk := none, ceased := s.refTime, gang := s.detached s.cur }

/-- The stall of a lazy refill: the tile is read from its saved image while the context is out of rotation (06 R155). -/
def State.refillTile (s : State) (r : TReg) : State :=
  let s := match r with
    | .t n => s.setP { s.me.p with tiles := s.me.p.tiles.set n { s.me.p.tiles[n] with unfilled := false } }
    | .h n => s.setCore s.myCore
        { s.core s.myCore with h := (s.core s.myCore).h.set n { (s.core s.myCore).h[n] with unfilled := false } }
  s.setMe { s.me with status := .out .refill }

/-- Adds to a squash counter of a core (17 R341). -/
def Core.countSq (k : Core) (i : Nat) : Core := { k with sq := k.sq.setIfInBounds i ((k.sq.getD i 0 + 1) % 2 ^ 48) }

/-- Squashes the open chunk of a context, and with it a pending one where `both` (09 R181, R182): the private registers return to
the chunk's start. Four squashes in a row from one start ask for the commit ticket, once no commit is pending (09 R183). `cause` is
the squash counter of 17 R341; the chunk that falls with a pending one counts under SQ_OTHER, and the attempt that the ticket's holder
begins after a conflict under EXCL. -/
def State.squash (s : State) (c : Nat) (both : Bool) (cause : Nat) : State :=
  let x := s.ctx c
  let both : Bool := both && x.pending.isSome
  let start := match (if both then x.pending else none), x.chunk with
    | some k, _ => k.start
    | none, some k => k.start
    | none, none => x.p
  let at_ := (start.pc, x.chunkid + (if !both && x.pending.isSome then 1 else 0))
  let n := if x.sqAt = at_ then x.squashes + 1 else 1
  let excl : Bool := 4 ≤ n && s.ticket ≠ some c
  let st : Status := match x.status with
    | .out _ | .runnable => if excl then .out .ticket else .runnable
    | t => t
  let pend := if both then none else x.pending
  let kept := match pend with | some k => k.vals.length | none => 0
  let core := s.core (coreOf c)
  let core := if both && x.chunk.isSome then core.countSq 3 else core
  let core := if s.ticket = some c && (cause = 1 || cause = 2) then core.countSq 4 else core
  let s := (s.leaveTokenq c).setCtx c { x with p := start, chunk := none, tokenWait := false, mma := false, gang := none, squashes := n, sqAt := at_, status := st, answer := none, recs := voidFrom (kept - s.reused (s.podOf c) c kept) x.recs, request := none, launching := none, pending := pend }
  let s := s.setCore (coreOf c) (core.countSq cause)
  if st = .out .ticket && pend.isNone && !s.ticketQueue.contains c then { s with ticketQueue := s.ticketQueue ++ [c] } else s

/-- Ends any attempt of a context that holds or awaits the commit ticket (09 R183 step 4). -/
def State.dropTicket (s : State) (c : Nat) : State :=
  { s with ticket := if s.ticket = some c then none else s.ticket, ticketQueue := s.ticketQueue.filter (· ≠ c) }

end Sys2Proof.Machine
end

