-- ==== Sys2Proof/Machine/Mem.lean ====
section
/-! DEFINITION. Translation, and the reads and writes of a chunk to memory and scratchpad (01 R31–R33, 09 R179–R191, 10 R201,
15 R303–R305). -/

namespace Sys2Proof.Machine

/-! ## Translation -/

/-- What an access needs of a page; `query` checks no right (13 R264, R267). -/
inductive Access where
  | read | write | exec | query
  deriving DecidableEq, Repr

/-- Where an access goes: physical memory, host memory through a host window, or an MMIO page (15 R295). -/
inductive Target where
  | mem (pa : Nat)
  | host (a : Nat)
  | mmio (va : Nat)
  deriving DecidableEq, Repr

/-- Why a translation gives no target. -/
inductive XErr where
  | xlate
  | perm
  | stage2 (ipa : Nat)
  | ats (page : Nat)
  | bad (pa : Nat)
  | poison (line : Nat)
  deriving DecidableEq, Repr

/-- What a translation waits for: a frame of stage 2 (15 R305), or a page of host memory through ATS (15 R311). -/
inductive Need where
  | frame (ipa : Nat)
  | page (p : Nat)
  deriving DecidableEq, Repr

def Target.key : Target → Nat
  | .mem pa => pa
  | .host a => hostBase + a
  | .mmio va => 2 * hostBase + va

/-- Bytes of one unit in which stage 2 maps memory (15 R304). -/
def unitBytes : Nat := 0x200000

/-- Stage 2 of a virtual device: the physical address of an intermediate one (15 R304). -/
def Vf.stage2? (v : Vf) (ipa : Nat) : Except XErr Nat :=
  match afind? v.stage2 (ipa / unitBytes) with
  | none => .error (.stage2 ipa)
  | some f =>
    let pa := f * unitBytes + ipa % unitBytes
    if pa < Config.physBytes then .ok pa else .error (.bad pa)

/-- A local-form address is well formed: bit 63 and bits [62:48] are zero (01 R31). -/
def localOk (va : Word) : Bool := va.toNat < 2 ^ 48

/-- A leaf of stage 1: the intermediate address and the rights. -/
structure Leaf where
  ipa : Nat
  r : Bool
  w : Bool
  x : Bool
  deriving DecidableEq, Repr

/-- The levels of a stage-1 walk: low bit of the index, bits of the index, alignment of the table a T entry points to; the last
level has no table below it (15 R303). -/
def walkLevels : List (Nat × Nat × Nat) := [(39, 9, 4096), (30, 9, 4096), (21, 9, 256), (16, 5, 0)]

/-- A stage-1 walk from the table at intermediate address `table`: the leaf, and the physical lines read, which enter the read set
(09 R180). It reads committed memory (log 14), and consumes no poisoned line (16 R336; log 115). -/
def walk (s : State) (v : Vf) (va : Nat) : List (Nat × Nat × Nat) → Nat → List Loc → Except XErr (Leaf × List Loc)
  | [], _, _ => .error .xlate
  | (lo, w, below) :: rest, table, ls =>
    match v.stage2? (table + 8 * bits va lo w) with
    | .error e => .error e
    | .ok pa =>
      if s.poison.contains (pa / 64) then .error (.poison (pa / 64)) else
      let e := leNat (s.mem.readBytes pa 8)
      let ls := locPut ls (.line (pa / 64))
      let addr := bits e 8 40 * 256
      if bits e 0 1 = 0 || bits e 5 3 ≠ 0 || bits e 48 16 ≠ 0 then .error .xlate
      else if bits e 1 1 = 1 then
        if below = 0 || addr % below ≠ 0 then .error .xlate else walk s v va rest addr ls
      else if lo = 39 || addr % 2 ^ lo ≠ 0 then .error .xlate
      else .ok (⟨addr + va % 2 ^ lo, bits e 2 1 = 1, bits e 3 1 = 1, bits e 4 1 = 1⟩, ls)

/-- The host or interrupt window that covers a local-form address (15 R295). -/
def Vf.windowAt (v : Vf) (va : Nat) : Option Window :=
  (v.windows.find? (fun x => x.2.kind ≠ 0 && x.2.va ≤ va && va < x.2.va + x.2.size)).map (·.2)

/-- Both stages for one address (01 R31, 15 R303–R305): form, stage 1, the page's rights, then stage 2, where a host or interrupt
window makes the page host-visible or MMIO (log 15); a host page needs its ATS translation (15 R295, R311). -/
def translate (s : State) (v : Vf) (va : Word) (acc : Access) : Except XErr (Target × List Loc) :=
  if !localOk va then .error .xlate
  else match v.root1 with
    | none => .error .xlate
    | some root =>
      match walk s v va.toNat walkLevels root [] with
      | .error e => .error e
      | .ok (leaf, ls) =>
        let right := match acc with | .read => leaf.r | .write => leaf.w | .exec => leaf.x | .query => true
        if !right then .error .perm
        else match v.windowAt va.toNat with
          | some w =>
            if w.kind = 1 then
              let a := w.tgt + (va.toNat - w.va)
              if v.atc.contains (a / 65536) then .ok (.host a, ls) else .error (.ats (a / 65536))
            else .ok (.mmio va.toNat, ls)
          | none =>
            match v.stage2? leaf.ipa with
            | .error e => .error e
            | .ok pa => .ok (.mem pa, ls)

/-- How a failed translation stops an instruction: the trap with the address in word 2, or the wait for the Husk (15 R305). -/
def XErr.stop (va : Word) : XErr → Stop
  | .xlate => trapWith Code.xlate va
  | .perm => trapWith Code.perm va
  | .stage2 ipa => .out (.stage2 ipa)
  | .ats p => .out (.ats p)
  | .bad pa => .bad pa
  | .poison n => trapWith Code.poison (word (n * 64))

/-! ## Reduction ranges: what a line holds (09 R195) -/

def redBytes : RedFmt → Nat
  | .fp32 | .i32 => 4
  | .bf16 => 2

def redFmt : RedFmt → Fmt
  | .fp32 => .fp32
  | .bf16 => .bf16
  | .i32 => .i32

/-- One element operation of a reduction: add, max or min, rounded RNE (09 R195, 10 R212). -/
def redOp (rf : RedFmt) (opr : Nat) (a b : Nat) : Nat :=
  match floatFmt (redFmt rf) with
  | some f =>
    let x := f.value a
    let y := f.value b
    let z := if opr = 0 then (addVal .rne x y).1 else if opr = 1 then maxVal x y else minVal x y
    (roundFloat f .rne 0 false z).1
  | none =>
    let x := sextNat a 32
    let y := sextNat b 32
    wrapInt (if opr = 0 then x + y else if opr = 1 then max x y else min x y) 32

/-- What a partial starts at (09 R195). -/
def redIdentity (rf : RedFmt) (opr : Nat) : Nat :=
  match rf, opr with
  | _, 0 => 0
  | .fp32, 1 => 0xFF800000
  | .fp32, _ => 0x7F800000
  | .bf16, 1 => 0xFF80
  | .bf16, _ => 0x7F80
  | .i32, 1 => 0x80000000
  | .i32, _ => 0x7FFFFFFF

/-- The partials of a line, by rising core number. -/
def State.partialsOf (s : State) (line : Nat) : List Partial :=
  (s.pods.flatMap (fun x => x.2.partials.filter (·.line = line))).mergeSort (fun a b => a.core ≤ b.core)

/-- Element `i` of the combination of a line: V with each core's partial in turn (09 R195). -/
def State.combined (s : State) (line : Nat) (ps : List Partial) (i : Nat) : Nat :=
  match ps with
  | [] => 0
  | p :: _ =>
    let n := redBytes p.rf
    ps.foldl (fun c q => redOp q.rf q.opr c (q.elems.getD i 0)) (leNat (s.mem.readBytes (line * 64 + i * n) n))

/-- The committed value of a byte of memory: the line's combination where a range holds partials, host memory above it. -/
def State.committed (s : State) (a : Nat) : Byte :=
  if hostBase ≤ a then s.hostMem.read (a - hostBase)
  else match s.partialsOf (a / 64) with
    | [] => s.mem.read a
    | p :: ps =>
      let n := redBytes p.rf
      let i := a % 64 / n
      .ofNat 8 (s.combined (a / 64) (p :: ps) i / 2 ^ (8 * (a % n)))

/-- Lines of a list of byte writes, rising. -/
def writeLines (l : List (Nat × Byte)) : List Nat := l.foldl (fun acc x => nput acc (x.1 / 64)) []

/-- V := C, and the partials of a line go (09 R195). -/
def State.absorb (s : State) (line : Nat) : State :=
  match s.partialsOf line with
  | [] => s
  | p :: ps =>
    let n := redBytes p.rf
    let bs := (List.range (64 / n)).flatMap (fun i => leBytes n (s.combined line (p :: ps) i))
    { s with mem := s.mem.writeBytes (line * 64) bs,
             pods := s.pods.map (fun x => (x.1, { x.2 with partials := x.2.partials.filter (·.line ≠ line) })) }

/-- A fold of core `core` into the element at `pa`. -/
def State.fold (s : State) (pid core pa : Nat) (rf : RedFmt) (opr v : Nat) : State :=
  let p := s.pod pid
  let n := redBytes rf
  let line := pa / 64
  let i := pa % 64 / n
  let mine (q : Partial) : Bool := q.line = line && q.core = core
  let old := match p.partials.find? mine with
    | some q => q.elems
    | none => List.replicate (64 / n) (redIdentity rf opr)
  let new : Partial := ⟨line, core, rf, opr, old.set i (redOp rf opr (old.getD i 0) v)⟩
  s.setPod pid { p with partials := (p.partials.filter (fun q => !mine q)) ++ [new] }

/-- Byte writes that cover a line. -/
def wholeLine (l : List (Nat × Byte)) (line : Nat) : Bool := (List.range 64).all (fun i => l.any (fun x => x.1 = line * 64 + i))

/-! ## What the running chunk sees of a pending one (09 R182) -/

/-- Memory as the executing context's running chunk sees it: with the writes and the folds of its chunk whose commit is pending. -/
def State.seen (s : State) : State :=
  match s.me.pending with
  | none => s
  | some k =>
    let here := k.writes.filter (·.1 < hostBase)
    let there := k.writes.filter (fun x => hostBase ≤ x.1 && x.1 < 2 * hostBase)
    let u := (writeLines here).foldl State.absorb s
    let u := { u with mem := u.mem.writeAll here, hostMem := u.hostMem.writeAll (there.map (fun x => (x.1 - hostBase, x.2))),
                      poison := u.poison.filter (fun n => !wholeLine here n) }
    k.fx.foldl (fun u f => match f with
      | .fold pa rf opr v => u.fold s.myPodId s.myCore pa rf opr v
      | _ => u) u

/-- A line as an operand's walk enters it. -/
def Loc.asTable : Loc → Loc
  | .line n => .table n
  | x => x

/-- A line as a fetch's walk enters it (log 38). -/
def Loc.asFetch : Loc → Loc
  | .line n => .fetch n
  | x => x

/-- Translation of an operand of the executing context, which sees the tables as its pending chunk leaves them; the walk's lines enter
its read set. -/
def State.xlate (s : State) (va : Word) (acc : Access) : Except Stop (Target × State) :=
  match translate s.seen s.myVf va acc with
  | .error e => .error (e.stop va)
  | .ok (t, ls) => .ok (t, s.note (ls.map Loc.asTable))

/-- Translation for a fetch: its walk's lines enter the read set as such (log 38). -/
def State.xlateFetch (s : State) (va : Word) : Except Stop (Target × State) :=
  match translate s.seen s.myVf va .exec with
  | .error e => .error (e.stop va)
  | .ok (t, ls) => .ok (t, s.note (ls.map Loc.asFetch))

/-! ## Reads of a chunk (09 R191) -/

/-- A byte that the chunk, or its pending predecessor, has itself written. -/
def State.own? (s : State) (a : Nat) : Option Byte :=
  match afind? s.chunk.writes a with
  | some b => some b
  | none => match s.me.pending with
    | some k => afind? k.writes a
    | none => none

/-- A byte of host memory as the replay records give it (16 R333). -/
def State.hostReplay? (s : State) (a : Nat) : Option Byte :=
  match s.myPod.replay with
  | some l => l.findSome? (fun x => match x with
    | .host c line bs => if c = s.cur && line = a / 64 then some (bs.getD (a % 64) 0) else none
    | _ => none)
  | none => none

/-- The value of a byte at its place in the reading chunk: as the chunk has written it, else as its pending predecessor leaves it
(09 R182, R191, R195). -/
def State.byte (s : State) (a : Nat) : Byte :=
  match afind? s.chunk.writes a with
  | some b => b
  | none => if hostBase ≤ a then (s.own? a).getD ((s.hostReplay? a).getD (s.committed a)) else s.seen.committed a

def State.bytesAt (s : State) (a : Nat) : Nat → List Byte
  | 0 => []
  | n + 1 => s.byte a :: s.bytesAt (a + 1) n

/-- The lines of a range of keys. -/
def linesOf (a n : Nat) : List Nat := (List.range ((a + n + 63) / 64 - a / 64)).map (· + a / 64)

/-- A poisoned line that the range consumes: one with some byte not of the chunk's own writing (10 R201). -/
def State.poisonIn (s : State) (a n : Nat) : Option Nat :=
  (linesOf a n).find? (fun l => s.poison.contains l &&
    ((List.range n).any (fun i => (a + i) / 64 = l && (s.own? (a + i)).isNone)))

/-- Pieces of a range of local-form addresses that lie within one 64 KiB page each. -/
def pieces : Nat → Word → Nat → List (Word × Nat)
  | 0, _, _ => []
  | f + 1, va, n =>
    if n = 0 then []
    else
      let k := min n (65536 - va.toNat % 65536)
      (va, k) :: pieces f (va + word k) (n - k)

/-- Translation of each piece of a range: its key and length. -/
def State.xlateAll (s : State) (acc : Access) : List (Word × Nat) → Except Stop (List (Nat × Nat) × State)
  | [] => .ok ([], s)
  | (va, n) :: rest =>
    match s.xlate va acc with
    | .error e => .error e
    | .ok (.mmio _, _) => .error (trapWith Code.perm va)
    | .ok (t, s) =>
      match s.xlateAll acc rest with
      | .error e => .error e
      | .ok (l, s) => .ok ((t.key, n) :: l, s)

/-- The keys of a range of `n` bytes at a local-form address. -/
def State.range (s : State) (acc : Access) (va : Word) (n : Nat) : Except Stop (List (Nat × Nat) × State) :=
  s.xlateAll acc (pieces (n / 65536 + 2) va n)

/-- Reads translated ranges: POISON, then the bytes; the lines enter the read set. -/
def State.readRanges (s : State) : List (Nat × Nat) → Except Stop (List Byte × State)
  | [] => .ok ([], s)
  | (a, n) :: rest =>
    match s.poisonIn a n with
    | some l => .error (trapWith Code.poison (word (l * 64)))
    | none =>
      match (s.note ((linesOf a n).map .line)).readRanges rest with
      | .error e => .error e
      | .ok (bs, t) => .ok (s.bytesAt a n ++ bs, t)

/-- A load of `n` bytes from a local-form address as a chunk's ordinary access (10 R201, R202). -/
def State.load (s : State) (va : Word) (n : Nat) : Except Stop (List Byte × State) :=
  match s.range .read va n with
  | .error e => .error e
  | .ok (l, s) => s.readRanges l

/-- The first page of a range whose stage-2 translation fails above the grant: the Husk logs it, and the access has no data (15 R305). -/
def State.beyondGrant (s : State) (v : Vf) (va : Word) (n : Nat) : Bool :=
  match (pieces (n / 65536 + 2) va n).findSome? (fun p => match translate s v p.1 .read with
    | .ok _ => none
    | .error e => some e) with
  | some (.stage2 ipa) => v.grant * 2 ^ 30 ≤ ipa
  | _ => false

/-! ## Writes of a chunk and its budget (09 R179) -/

/-- Distinct lines in a sorted list of keys. -/
def distinctLines (l : List (Nat × Byte)) : Nat := (l.foldl (fun acc x => nput acc (x.1 / 64)) []).length

/-- The lines a chunk has written, in memory and scratchpad. -/
def Chunk.lines (k : Chunk) : Nat := distinctLines k.writes + distinctLines k.spm

/-- The places of those lines, in the scratchpad of cluster `cl`. -/
def Chunk.places (k : Chunk) (cl : Nat) : List Loc := (writeLines k.writes).map .line ++ (writeLines k.spm).map (.spm cl)

/-- Lines that a handler has written once its chunk stands as `k`, with those of its chunks before (12 R254). -/
def State.handlerLines (s : State) (k : Chunk) : Nat := ((k.places s.myCluster).foldl locPut s.me.hlines).length

/-- The memory lines that the L1 of a core holds speculatively: those that uncommitted chunks of its contexts have written (09 R180). -/
def State.l1Lines (s : State) (core : Nat) : List Nat :=
  (s.ctxs.filter (fun x => coreOf x.1 = core)).foldl (fun l x =>
    ((x.2.chunk.toList ++ x.2.pending.toList).flatMap (fun k => writeLines (k.writes.filter (·.1 < hostBase)))).foldl nput l) []

/-- Whether a line that chunk `k'` would write anew finds its L1 set holding 6 speculative lines of the core (09 R179); the set of a
line is free (log 12). -/
def State.pressure (s : State) (k' : Chunk) : Bool :=
  let held := s.l1Lines s.myCore
  let all := (writeLines (k'.writes.filter (·.1 < hostBase))).foldl nput held
  6 < all.length && all.any (fun n => !held.contains n && 6 < (all.filter (fun m => Config.l1Set m = Config.l1Set n)).length)

/-- The test of 09 R179 and 12 R254 made for the chunk as it would stand after an instruction's writes. During replay the end trace
alone says where pressure ended a chunk (16 R333). -/
def State.budget (s : State) (k' : Chunk) : Except Stop Unit :=
  let n := k'.lines
  if s.me.handler then
    if 64 < s.handlerLines k' && s.handlerLines s.chunk < s.handlerLines k' then .error (trapWith Code.illegal) else .ok ()
  else if s.chunk.count = 0 then .ok ()
  else if k'.det then if 64 < n then .error (.endFirst .budget) else .ok ()
  else if 512 < n then .error (.endFirst .budget)
  else if s.myPod.replay.isNone && s.pressure k' then .error (.endFirst .pressure)
  else .ok ()

/-- Puts bytes into a write set. -/
def putBytes (w : List (Nat × Byte)) (a : Nat) : List Byte → List (Nat × Byte)
  | [] => w
  | b :: bs => putBytes (aput w a b) (a + 1) bs

/-- Writes into the chunk, if its budget allows. -/
def State.putChunk (s : State) (k : Chunk) : Res :=
  match s.budget k with
  | .error e => .error e
  | .ok () => .ok (s.setChunk k)

/-- The bank bits of a store to host-visible pages: one of the home die of every line (10 R208). -/
def hostBits (l : List (Nat × Nat)) : List Fx :=
  ((l.filter (fun x => hostBase ≤ x.1)).flatMap (fun x => (linesOf x.1 x.2).map (fun n => Fx.bank (56 + homeDie (n * 64 - hostBase))))).eraseDups

/-- Splits bytes over translated ranges. -/
def putRanges (w : List (Nat × Byte)) : List (Nat × Nat) → List Byte → List (Nat × Byte)
  | [], _ => w
  | (a, n) :: rest, bs => putRanges (putBytes w a (bs.take n)) rest (bs.drop n)

/-- Folds that a later store of the chunk overwrites: those whose element it writes whole (09 R191, R195; log 31). -/
def dropFolds (l : List (Nat × Nat)) (fx : List Fx) : List Fx :=
  fx.filter (fun f => match f with
    | .fold pa rf _ _ => !l.any (fun r => r.1 ≤ pa && pa + redBytes rf ≤ r.1 + r.2)
    | _ => true)

/-- A chunk with bytes written at translated ranges. -/
def Chunk.putMem (k : Chunk) (l : List (Nat × Nat)) (bs : List Byte) : Chunk :=
  { k with writes := putRanges k.writes l bs, fx := dropFolds l k.fx ++ hostBits l }

/-- A store of bytes at a local-form address as a chunk's ordinary access (10 R201, R202). -/
def State.store (s : State) (va : Word) (bs : List Byte) : Res :=
  match s.range .write va bs.length with
  | .error e => .error e
  | .ok (l, s) => s.putChunk (s.chunk.putMem l bs)

/-! ## Scratchpad (01 R33) -/

/-- The byte of the cluster's scratchpad that a scratchpad operand names. -/
def Priv.spAddr (p : Priv) (y : Word) : Nat := p.spbase.toNat + y.toNat % p.spsize.toNat

/-- A byte of the own scratchpad at its place in the chunk. -/
def State.spByteAt (s : State) (o : Nat) : Byte :=
  match afind? s.chunk.spm o with
  | some b => b
  | none => match s.me.pending with
    | some k => (afind? k.spm o).getD ((s.cluster s.myCluster).spm.read o)
    | none => (s.cluster s.myCluster).spm.read o

def State.spAddrs (s : State) (y : Word) (n : Nat) : List Nat :=
  (List.range n).map (fun i => s.me.p.spAddr (y + word i))

/-- Enters the lines of scratchpad bytes into the read set. -/
def State.noteSp (s : State) (os : List Nat) : State :=
  s.note ((os.foldl (fun l o => nput l (o / 64)) []).map (.spm s.myCluster))

/-- `spm(y, n)` read (10 R201). -/
def State.spLoad (s : State) (y : Word) (n : Nat) : List Byte × State :=
  let os := s.spAddrs y n
  (os.map s.spByteAt, s.noteSp os)

/-- Scratchpad bytes written by absolute offset. -/
def State.spPut (s : State) (l : List (Nat × Byte)) : Res :=
  s.putChunk { s.chunk with spm := l.foldl (fun w x => aput w x.1 x.2) s.chunk.spm }

/-- `spm(y, n)` written. -/
def State.spStore (s : State) (y : Word) (bs : List Byte) : Res :=
  s.spPut ((s.spAddrs y bs.length).zip bs)

/-! ## Global form (01 R32) -/

/-- The parts of a global-form address. -/
structure Glob where
  chip : Nat
  spm : Bool
  core : Nat
  off : Nat
  deriving DecidableEq, Repr

def globOf (g : Word) : Glob := ⟨bits g.toNat 55 8, bits g.toNat 54 1 = 1, bits g.toNat 44 10, bits g.toNat 0 44⟩

def isGlob (g : Word) : Bool := 2 ^ 63 ≤ g.toNat

/-- Whether a pod's chip map allows a chip: its own package, and the policy's peers (15 R284). -/
def State.chipAllowed (s : State) (v : Vf) (chip : Nat) : Bool :=
  chip = s.chipNum || (match v.policy with | some p => bits p.peers chip 1 = 1 | none => false)

/-- The permission check of 01 R32. -/
def State.globPerm (s : State) (pod : Pod) (g : Glob) : Bool :=
  s.chipAllowed (s.vf pod.vf) g.chip && (g.chip ≠ s.chipNum || pod.clusters.contains (clusterOfCore g.core))

/-- The checks of 10 R205 on a global-form operand in their order, with an alignment (0 for none); a full/empty operand must name
scratchpad, which is among the last (10 R213, 02 R62). -/
def State.globCheck (s : State) (g : Word) (align : Nat) (needSpm : Bool := false) : Except Stop Glob :=
  let x := globOf g
  if !isGlob g || 192 ≤ x.chip then .error (trapWith Code.xlate g)
  else if align ≠ 0 && g.toNat % align ≠ 0 then .error (trapWith Code.misalign g)
  else if !s.globPerm s.myPod x then .error (trapWith Code.perm g)
  else if (needSpm && !x.spm) || (x.spm && 2 ^ 21 ≤ x.off) then .error (trapWith Code.xlate g)
  else .ok x

/-- The bank group of a global-form operation (10 R208). -/
def State.globBank (s : State) (g : Glob) : Nat :=
  if g.chip = s.chipNum then 48 + clusterOfCore g.core / 16 else g.chip % 48

end Sys2Proof.Machine
end

