-- ==== Sys2Proof/Machine/Operands.lean ====
section
/-! DEFINITION. Operand forms of tile instructions: shapes, sources and broadcast, prefix fields, checks in their order, and placing
results (01 R25–R27, 02 R57, 05 R114, R120–R124, 06 R130–R133). -/

namespace Sys2Proof.Machine

/-! ## Shapes (01 R25, R26) -/

def shapeValid (s : BitVec 32) : Bool := s.getLsbD 31
def shapeCbsel (s : BitVec 32) : Nat := bits s.toNat 27 2
def shapeScaled (s : BitVec 32) : Bool := s.getLsbD 26
def shapeFmt? (s : BitVec 32) : Option Fmt := Fmt.ofCode (bits s.toNat 21 5)
def shapeRows (s : BitVec 32) : Nat := bits s.toNat 9 7
def shapeCols (s : BitVec 32) : Nat := bits s.toNat 0 9

/-- DIRTY and CKDIRTY. -/
def dirtyBits : BitVec 32 := 0x60000000

/-- The configuration bits, [31] and [28:0] (01 R14). -/
def shapeConfig (s : BitVec 32) : BitVec 32 := s &&& 0x9FFFFFFF

/-- Bytes of one row (05 R114). -/
def rowBytes (w cols : Nat) : Nat := (cols * w + 7) / 8

/-- The shape rules for a write with VALID = 1 (01 R26). -/
def shapeOk (s : BitVec 32) : Bool :=
  match shapeFmt? s with
  | none => false
  | some f =>
    let r := shapeRows s
    let c := shapeCols s
    1 ≤ r && r ≤ 64 && 1 ≤ c && c ≤ 256 && r * c ≤ 2048 && r * rowBytes f.width c ≤ 1024 &&
    (!shapeScaled s || (f.scalable && c % 32 = 0)) && (f = .cb4 || shapeCbsel s = 0)

/-- A shape word with VALID = 1. -/
def mkShape (f : Fmt) (rows cols : Nat) (scaled : Bool) (cbsel : Nat) : BitVec 32 :=
  .ofNat 32 (2 ^ 31 + cbsel * 2 ^ 27 + scaled.toNat * 2 ^ 26 + f.code * 2 ^ 21 + rows * 2 ^ 9 + cols)

namespace Tile

def valid (t : Tile) : Bool := shapeValid t.shape
def rows (t : Tile) : Nat := shapeRows t.shape
def cols (t : Tile) : Nat := shapeCols t.shape
def fmt (t : Tile) : Fmt := (shapeFmt? t.shape).getD .fp32
def scaled (t : Tile) : Bool := shapeScaled t.shape
def enc (t : Tile) (i j : Nat) : Nat := t.elems.getD (i * t.cols + j) 0
/-- The scale byte of block `b` of row `i` (01 R27). -/
def scaleByte (t : Tile) (i b : Nat) : Nat := t.side.getD (i * (t.cols / 32) + b) 0

/-- A tile configured to a shape: data and sidecar zero (01 R26), DIRTY and CKDIRTY set (06 R154). -/
def configured (sh : BitVec 32) (old : Tile) : Tile :=
  { shape := shapeConfig sh ||| dirtyBits,
    elems := List.replicate (shapeRows sh * shapeCols sh) 0,
    side := if shapeScaled sh then List.replicate (shapeRows sh * (shapeCols sh / 32)) 0 else [],
    slots := old.slots }

/-- A tile with new contents (06 R154). -/
def withData (t : Tile) (elems side : List Nat) : Tile :=
  { t with shape := t.shape ||| dirtyBits, elems := elems, side := side, unfilled := false }

end Tile

/-! ## Prefix fields (02 R57) -/

/-- The prefix that applies to the instruction being executed (01 R17). Where svc.wr has written PFX, its low bits count for nothing (log
111). -/
def State.pfx? (s : State) : Option Pfx :=
  if s.me.p.tstat.pp then some (pfxOfWord s.me.p.tstat.pfx.toNat) else none

def State.pfxSat (s : State) : Bool := match s.pfx? with | some p => p.sat | none => false
def State.pfxMz (s : State) : Bool := match s.pfx? with | some p => p.mz | none => false
def State.pfxFmt? (s : State) : Option Fmt := match s.pfx? with | some p => Fmt.ofCode p.fmt.toNat | none => none

/-- The mask that predicates the instruction. -/
def State.pfxMask? (s : State) : Option KReg :=
  match s.pfx? with
  | some p => if 8 ≤ p.mask.toNat then some (.ofNat 8 (p.mask.toNat - 8)) else none
  | none => none

/-- The effective rounding mode (05 R120). -/
def State.effRm (s : State) : Rm :=
  match s.pfx? with
  | some p => (Rm.ofCode p.rm.toNat).getD s.me.p.rmode
  | none => s.me.p.rmode

/-- The bit of a mask at a position. -/
def Mask.bit (m : Mask) (i j : Nat) : Bool := m.bits.testBit (i * m.cols + j)

/-- `en(i, j)`: the prefix mask's bit, or true without a mask (06 R130). -/
def State.enabled (s : State) (i j : Nat) : Bool :=
  match s.pfxMask? with
  | some k => match s.mask k with
    | some m => m.bit i j
    | none => false
  | none => true

/-! ## Stochastic draws (05 R122) -/

/-- draw[63:32] of the element at position `e`. -/
def Priv.draw (p : Priv) (e : Nat) : Nat :=
  let key := p.rngSeed ^^^ (word p.rngStream.toNat * 0xD6E8FEB86659FD93)
  (chg key (word (p.rngCtr.toNat * 2048 + e))).toNat / 2 ^ 32

/-- The advance of `RNGCTR` by an instruction that applies SR (05 R123). -/
def State.advanceRng (s : State) (rounds : Bool) : State :=
  if rounds && s.effRm = .sr then s.setP { s.me.p with rngCtr := s.me.p.rngCtr + 1 } else s

/-- ORs flags into `FLAGS` (05 R129). -/
def State.orFlags (s : State) (f : Flags) : State := s.setP { s.me.p with flags := s.me.p.flags ||| f }

/-! ## Sources -/

/-- A source operand as read: a tile with the codebook entries it reads through (05 R115), or a scalar as a 1×1 I64 tile (01 R12). -/
inductive Src where
  | tile (t : Tile) (cb : List Nat)
  | scalar (w : Word)
  deriving DecidableEq, Repr

namespace Src

def rows : Src → Nat
  | .tile t _ => t.rows
  | .scalar _ => 1

def cols : Src → Nat
  | .tile t _ => t.cols
  | .scalar _ => 1

def fmt : Src → Fmt
  | .tile t _ => t.fmt
  | .scalar _ => .i64

def scaled : Src → Bool
  | .tile t _ => t.scaled
  | .scalar _ => false

def enc (x : Src) (i j : Nat) : Nat :=
  match x with
  | .tile t _ => t.enc i j
  | .scalar w => w.toNat

/-- The exact value of an element (05 R111, R115, R117). -/
def val (x : Src) (i j : Nat) : Val :=
  match x with
  | .tile t cb =>
    if t.scaled then mxValue t.fmt (t.scaleByte i (j / 32)) (t.enc i j)
    else elemValue t.fmt (fun k => cb.getD k 0) (t.enc i j)
  | .scalar w => .ofInt w.toInt

/-- The integer of an element of an integer source. -/
def int (x : Src) (i j : Nat) : Int :=
  match x with
  | .tile t _ => intValue t.fmt (t.enc i j)
  | .scalar w => w.toInt

/-- An integer source: an unscaled tile of an integer format, or a scalar (06 R133). -/
def isInt (x : Src) : Bool := x.fmt.isInt && !x.scaled

/-- The shapes of 06 R132 against a destination. -/
def fits (x : Src) (r c : Nat) : Bool :=
  (x.rows = r || x.rows = 1) && (x.cols = c || x.cols = 1)

/-- The source row of destination row `i`, and likewise the column (06 R132). -/
def bi (x : Src) (i : Nat) : Nat := if x.rows = 1 then 0 else i
def bj (x : Src) (j : Nat) : Nat := if x.cols = 1 then 0 else j

/-- Value, integer and encoding after broadcast (06 R132). -/
def bval (x : Src) (i j : Nat) : Val := x.val (x.bi i) (x.bj j)
def bint (x : Src) (i j : Nat) : Int := x.int (x.bi i) (x.bj j)
def benc (x : Src) (i j : Nat) : Nat := x.enc (x.bi i) (x.bj j)

end Src

/-- The 16 entries of a codebook (01 R20). -/
def codebook (cb : Vector Word 16) (n : Nat) : List Nat :=
  (List.range 16).map (fun k => bits (cb.getD (4 * n + k / 4) 0).toNat (16 * (k % 4)) 16)

/-- The operand of a tile field, read. -/
def State.srcTile (s : State) (r : TReg) : Src :=
  let t := s.tile r
  .tile t (codebook s.me.p.cb (shapeCbsel t.shape))

def State.src (s : State) : TS → Src
  | .tile r => s.srcTile r
  | .scalar r => .scalar (s.val r)

/-! ## Checks, in the order of 06 R130 -/

/-- TILE_UNCONF on the operands in the order D, A, B, X and then the prefix mask. -/
def State.confTiles (s : State) : List TReg → Except Stop Unit
  | [] => .ok ()
  | r :: rs => if (s.tile r).valid then s.confTiles rs else .error (trapWith Code.tileUnconf)

def tilesOf : List TS → List TReg
  | [] => []
  | .tile r :: l => r :: tilesOf l
  | .scalar _ :: l => tilesOf l

def State.confMask (s : State) : Except Stop Unit :=
  match s.pfxMask? with
  | some k => match s.mask k with
    | some _ => .ok ()
    | none => .error (trapWith Code.tileUnconf)
  | none => .ok ()

/-- The prefix mask has the given shape (01 R13). -/
def State.maskFits (s : State) (r c : Nat) : Bool :=
  match s.pfxMask? with
  | some k => match s.mask k with
    | some m => m.rows = r && m.cols = c
    | none => false
  | none => true

def shapeUnless (b : Bool) : Except Stop Unit := if b then .ok () else .error (trapWith Code.tileShape)

/-- No tile of the list waits in a saved image (06 R155). -/
def State.filled (s : State) : List TReg → Except Stop Unit
  | [] => .ok ()
  | r :: rs => if (s.tile r).unfilled then .error (.refill r) else s.filled rs

/-- Enters the data of tiles, and the shared scalars, into the read set. -/
def State.noteSrcs (s : State) (ts : List TS) : State :=
  s.note (ts.foldr (fun x l => (match x with
    | .tile r => tDataLocs s.myCore r
    | .scalar r => sLocs s.myCore r) ++ l) [])

def State.noteTiles (s : State) (rs : List TReg) : State := s.noteSrcs (rs.map .tile)

/-- The destination's contribution to the read set: its data where a mask merges into it, else its shape alone (01 R14, 06 R130). -/
def State.noteDest (s : State) (d : TReg) : State :=
  s.note (if s.pfxMask?.isSome && !s.pfxMz then tDataLocs s.myCore d else tShapeLocs s.myCore d)

/-- A courier may write no `HSHAPE` (06 R130); configuration of a shared tile writes one (log 17). -/
def State.mayConfigure (s : State) (d : TReg) : Except Stop Unit :=
  match d with
  | .h n => if classOf s.cur = .courier then .error (trapWith Code.perm (word (0x28 + n.val))) else .ok ()
  | .t _ => .ok ()

/-! ## Placing results -/

/-- All positions of a shape, row by row. -/
def positions (r c : Nat) : List (Nat × Nat) := (List.range (r * c)).map (fun k => (k / c, k % c))

/-- The encodings of a destination of `c` columns where enabled positions take `f` and others keep or clear theirs (02 R57), and the
flags of the enabled ones. -/
def State.fill (s : State) (d : Tile) (f : Nat → Nat → Nat × Flags) : List Nat × Flags :=
  (positions d.rows d.cols).foldr (fun p acc =>
    if s.enabled p.1 p.2 then
      let x := f p.1 p.2
      (x.1 :: acc.1, x.2 ||| acc.2)
    else ((if s.pfxMz then 0 else d.enc p.1 p.2) :: acc.1, acc.2)) ([], 0)

/-- `fin(x)` for a float destination at position `e` (06 R133). -/
def State.finFloat (s : State) (f : Fmt) (e : Nat) (x : Val × Flags) : Nat × Flags :=
  match floatFmt f with
  | some l =>
    let r := roundFloat l s.effRm (if s.effRm = .sr then s.me.p.draw e else 0) false x.1
    (r.1, r.2 ||| x.2)
  | none => (0, 0)

/-- `fin(r)` for an integer destination (06 R133). -/
def State.finInt (s : State) (f : Fmt) (i : Int) : Nat × Flags := intoInt f s.pfxSat i

/-- The common part of 0x60, 0x61 FN 0 and 0x62: checks, then every position, then flags and `RNGCTR` (06 R130–R133, R140). `fop`
works on exact values for a float destination, `iop` on integers for an integer one. -/
def State.elementwise (s : State) (d : TReg) (srcs : List TS) (intOk : Bool) (fop : List Val → Val × Flags)
    (iop : Fmt → List Int → Int) : Res := do
  s.confTiles (d :: tilesOf srcs)
  s.confMask
  let t := s.tile d
  let xs := srcs.map s.src
  shapeUnless (!t.scaled && t.fmt ≠ .cb4 && (!t.fmt.isInt || (intOk && xs.all Src.isInt)) &&
    xs.all (fun x => x.fits t.rows t.cols) && s.maskFits t.rows t.cols)
  s.filled (d :: tilesOf srcs)
  let r := s.fill t (fun i j =>
    if t.fmt.isInt then s.finInt t.fmt (iop t.fmt (xs.map (fun x => x.bint i j)))
    else s.finFloat t.fmt (i * t.cols + j) (fop (xs.map (fun x => x.bval i j))))
  let s1 := ((s.noteDest d).noteSrcs srcs).setTile d (t.withData r.1 t.side)
  pure ((s1.orFlags r.2).advanceRng (!t.fmt.isInt))

end Sys2Proof.Machine
end

