-- ==== Sys2Proof/Machine/Fetch.lean ====
section
/-! DEFINITION. Fetch and decode at the `PC` (02 R58–R61), time (01 R40–R42) and the issue choice of a core (12 R236). -/

namespace Sys2Proof.Machine

/-- The word of code at a local-form address of a block already translated to `pa` (02 R44, R65). A poisoned line of code raises
nothing, 02 R61 has no step for it, and a line of a reduction range gives V without its partials (log 95). -/
def State.codeWord (s : State) (pa : Nat) : Nat := leNat (s.chunk.code.readBytes pa 4)

/-- The words from `pa` to the end of its 32-byte block, five at most: a prefix and a 128-bit instruction (02 R60). -/
def State.codeWords (s : State) (pa : Nat) : List Nat :=
  (List.range (min 5 ((32 - pa % 32) / 4))).map (fun i => s.codeWord (pa + 4 * i))

/-- A prefix word: LEN 0 and PK 1 (02 R54). -/
def isPfxWord (w : Nat) : Bool := bits w 0 5 = 4

/-- The operands D, A, B and X of an instruction form (01 R36). -/
def instrOpnds : Instr → List Opnd
  | .add d a b | .sub d a b | .mul d a b | .mulh d a b | .mulhu d a b | .div d a b | .divu d a b | .rem d a b | .remu d a b
  | .and d a b | .or d a b | .xor d a b | .andn d a b | .shl d a b | .shr d a b | .sar d a b | .rotl d a b | .min d a b
  | .max d a b | .minu d a b | .maxu d a b | .cmpEq d a b | .cmpNe d a b | .cmpLt d a b | .cmpLtu d a b | .cmpLe d a b
  | .cmpLeu d a b | .addr d a b _ _ | .amoAdd d a b _ | .amoAnd d a b _ | .amoOr d a b _ | .amoXor d a b _ | .amoMin d a b _
  | .amoMax d a b _ | .amoSwap d a b _ | .cpyQ d a b _ _ | .cpyQCfg d a b _ _ | .cpyFm d a b _ _ _ | .routeQ d a b _ _ _ _ _
  | .collQ d a b _ _ _ _ _ _ | .ctxStartRecord d a b | .ctxReap d a b _ => [.s d, .s a, .s b]
  | .clz d a | .ctz d a | .popc d a | .mov d a | .addi d a _ | .andi d a _ | .ori d a _ | .xori d a _ | .shli d a _
  | .ext d a _ _ _ | .ins d a _ _ | .svcRd d a _ _ | .ldB d a _ | .ldBu d a _ | .ldH d a _ | .ldHu d a _ | .ldW d a _
  | .ldWu d a _ | .ldD d a _ | .sld d a _ _ _ | .ldbit d a _ _ _ | .rld d a _ | .cbufTake d a _ | .feTake d a _ _
  | .fePeek d a _ _ _ | .launch d a | .ctxStartNext d a | .ctxStartResume d a | .ctxStop d a | .recv d a _ | .cntRead d a
  | .hmq d a => [.s d, .s a]
  | .li d _ | .mfs d _ | .svcRecv d | .cpyQClear d _ | .tlRead d _ _ => [.s d]
  | .sel d a b x | .amoCas d a b x _ => [.s d, .s a, .s b, .s x]
  | .bEq a b _ | .bNe a b _ | .bLt a b _ | .bGe a b _ | .bLtu a b _ | .bGeu a b _ | .svcReply a b _ | .svcWr a b _ _
  | .stB a b _ | .stH a b _ | .stW a b _ | .stD a b _ | .sst a b _ _ | .stbit a b _ _ | .rst a b _ | .redAdd a b _ _
  | .redMax a b _ _ | .redMin a b _ _ | .fePut a b _ _ | .waitMem a b _ _ | .send a b _ => [.none, .s a, .s b]
  | .bz a _ | .bnz a _ | .jmp a | .calli a | .loop a _ | .mts a _ | .pfL1 a _ | .pfL2 a _ | .cbufGive a _ | .tlWait a _
  | .park a _ _ | .hop a _ | .gangForm a _ | .cancelLaunch a _ | .cancelGraph a _ | .cancelPhase a _ | .cancelJob a _ => [.none, .s a]
  | .tcfg d _ | .tzero d => [.t d]
  | .tfill d a => [.t d, .s a]
  | .tmov d a | .ttrans d a | .tbcast d a | .tsclGet d a | .tsclPut d a => [.t d, .t a]
  | .trowGet d a b _ | .trowPut d a b _ | .tcolGet d a b _ | .tcolPut d a b _ | .mmaSb d a b _ _ _ => [.t d, .t a, .s b]
  | .tcvt d a _ => [tsOpnd d, tsOpnd a]
  | .kedge d a b => [.k d, .s a, .s b]
  | .kand d a b | .kor d a b | .kxor d a b => [.k d, .k a, .k b]
  | .knot d a => [.k d, .k a]
  | .kcnt d a => [.s d, .k a]
  | .tld d a b x _ _ | .tst d a b x _ _ | .tldm d a b x _ | .tstm d a b x _ => [.t d, .s a, .s b, .s x]
  | .tcbLd n a _ => [.raw n.val, .s a]
  | .tadd d a b | .tsub d a b | .tmul d a b | .tdiv d a b | .tmax d a b | .tmin d a b => [.t d, tsOpnd a, tsOpnd b]
  | .tfma d a b x => [.t d, tsOpnd a, tsOpnd b, tsOpnd x]
  | .tsel d a b k => [.t d, tsOpnd a, tsOpnd b, .k k]
  | .tsqrt d a | .trsqrt d a | .trcp d a | .texp2 d a | .tlog2 d a | .tabs d a | .tneg d a => [.t d, tsOpnd a]
  | .tcmpEq d a b | .tcmpNe d a b | .tcmpLt d a b | .tcmpLe d a b | .tcmpGt d a b | .tcmpGe d a b => [.k d, tsOpnd a, tsOpnd b]
  | .tredSum d a _ | .tredMax d a _ | .tredMin d a _ => [tsOpnd d, .t a]
  | .mma d a b _ | .mmaZ d a b _ => [.t d, .t a, .t b]
  | .mmaSa d a b _ _ _ => [.t d, .s a, .t b]
  | .mmaSs d a b _ _ _ _ => [.t d, .s a, .s b]
  | .amSend a b x _ _ => [.none, .s a, .s b, .s x]
  | .ctxStartMode d b => [.s d, .none, .s b]
  | _ => []

/-- Length in bytes of what is fetched at once: an instruction, or a prefix with its instruction (02 R60). -/
def fetchLen (w next : Nat) : Nat := if isPfxWord w then 4 + 4 * lenWords next else 4 * lenWords w

/-- A handler that would retire its 16,385th instruction, over all its chunks (12 R254). -/
def State.handlerFull (s : State) : Bool := s.me.handler && 16384 ≤ s.me.hcount + s.chunk.count

/-- What fetch finds at the `PC`. -/
inductive Fetched where
  | fault (f : FetchFault)
  | stall (t : Stop)
  | instr (i : Instr) (s : State)

/-- Fetch and decode in the order of 02 R61; the state returned has the walk's lines in its read set. A poisoned page-table line raises
POISON (16 R336; log 115). -/
def State.fetch (s : State) : Fetched :=
  let p := s.me.p.pc
  if s.me.p.codelim.toNat ≤ p.toNat then .fault .runoff
  else match s.xlateFetch (zext p) with
    | .error (.trap t) =>
      if t.code = Code.poison then .stall (.trap { t with atFetch := true })
      else .fault (if t.code = Code.xlate then .xlate else .perm)
    | .error e => .stall e
    | .ok (t, s) =>
      match t with
      | .mem pa =>
        let w := s.codeWord pa
        let off := p.toNat % 32
        if isPfxWord w && off = 28 then .fault .align
        else
          let n := fetchLen w (s.codeWord (pa + 4))
          if 32 < off + n then .fault .align
          else if s.me.p.codelim.toNat < p.toNat + n then .fault .runoff
          else match decode (s.codeWords pa) with
            | .error _ => .fault .illegal
            | .ok i =>
              match i, s.pfx? with
              | .stop, _ => .instr i s
              | .elementPrefix _, none => .instr i s
              | .pad, some _ | .elementPrefix _, some _ => .fault .illegal
              | .pad, none => if s.handlerFull then .fault .illegal else .instr i s
              | i, none => if i.acceptsNone && !s.handlerFull then .instr i s else .fault .illegal
              | i, some q => if i.accepts q && !s.handlerFull then .instr i s else .fault .illegal
      | _ => .fault .perm

/-! ## Time (01 R40, R41) -/

/-- 0.6 GHz units of a clock step (01 R41). -/
def stepUnits (step : Nat) : Nat := 6 - min step 4

/-- The accumulator after `n` cycles at a step; at 3.0 GHz the fifth cycle of each group adds one more (01 R41). -/
def Die.run (d : Die) (n : Nat) : Die :=
  let d := { d with cycles := d.cycles + n }
  match d.step with
  | 0 => { d with acc := d.acc + n * 0x10000 }
  | 1 => { d with acc := d.acc + n * 0x13333 + (d.five + n) / 5, five := (d.five + n) % 5 }
  | 2 => { d with acc := d.acc + n * 0x18000 }
  | 3 => { d with acc := d.acc + n * 0x20000 }
  | _ => { d with acc := d.acc + n * 0x30000 }

/-- A die while `t` nanoseconds pass: a relocking die holds still (01 R42). -/
def Die.elapse (d : Die) (t : Nat) : Die :=
  match d.relock with
  | some _ => d
  | none =>
    let fifths := d.part + 3 * stepUnits d.step * t
    { d with part := fifths % 5 }.run (fifths / 5)

/-- Time passes by a free amount (log 3); `REFTIME` runs from bring-up step 1 on (18 R352). -/
def State.tick (s : State) : State :=
  let t := Config.elapsed s.moment
  if s.powered && 1 ≤ s.bring then
    { s with moment := s.moment + 1, refTime := (s.refTime + t) % 2 ^ 64, dies := s.dies.map (·.elapse t) }
  else { s with moment := s.moment + 1 }

/-! ## The issue choice (12 R236) -/

/-- A core's courier slot serves the drain of its inbox, whatever the courier's state (12 R255). -/
def State.drains (s : State) (c : Nat) : Bool := inCore c = 15 && 0 < (s.core (coreOf c)).draining

/-- Whether a context is ready to issue in its core's cycle. -/
def State.readyToIssue (s : State) (c : Nat) : Bool :=
  ((s.ctx c).status = .runnable || s.drains c) && !(s.core (coreOf c)).stopped && (s.ctx c).last + 8 ≤ (s.core (coreOf c)).cycle

/-- The context a core issues: the first ready one after `ptr`, wrapping (12 R236). -/
def State.choose (s : State) (core : Nat) : Option Nat :=
  let ptr := (s.core core).ptr
  ((List.range 16).map (fun i => core * 16 + (ptr + 1 + i) % 16)).find? s.readyToIssue

/-- The marks of an issue: ptr and last (12 R236). -/
def State.markIssue (s : State) (c : Nat) : State :=
  let k := s.core (coreOf c)
  let s := s.setCore (coreOf c) { k with ptr := inCore c, activity := k.activity + 1 }
  s.setCtx c { s.ctx c with last := k.cycle }

/-- The marks of an issue, the executing context, and an open chunk. -/
def State.startIssue (s : State) (c : Nat) : State := { s.markIssue c with cur := c }.openChunk

end Sys2Proof.Machine
end

