-- ==== Sys2Proof/Machine/Sched.lean ====
section
/-! DEFINITION. Counters, launches, placement, dispatcher queues, pick-up, completion and cancels (01 R28–R30, 03 R71–R74,
12 R238–R251, 13 R276). -/

namespace Sys2Proof.Machine

/-! ## Counters (12 R238) -/

def Pod.counter (p : Pod) (n : Nat) : Counter := aget {} p.cnts n

/-- The counters a launch names, once per field (12 R238). -/
def Launch.counters (l : Launch) : List Nat := [l.lcnt, l.gcnt, l.pcnt, l.jcnt]

def Pod.live (p : Pod) (n : Nat) : Bool := p.launches.any (fun x => x.2.counters.contains n)

/-- The word `cnt.read` returns (12 R238). -/
def Pod.cntWord (p : Pod) (n : Nat) : Word :=
  if n = 0 then 0
  else word (((p.counter n).canc).toNat * 2 ^ 63 + (p.live n).toNat * 2 ^ 62 + (p.counter n).count)

/-- COUNT + 1; counter 0 never changes (12 R238). -/
def Pod.bump (p : Pod) (n : Nat) : Pod :=
  if n = 0 then p else { p with cnts := aput p.cnts n { p.counter n with count := ((p.counter n).count + 1) % 2 ^ 56 } }

def Pod.markCanc (p : Pod) (n : Nat) : Pod :=
  if n = 0 then p else { p with cnts := aput p.cnts n { p.counter n with canc := true } }

/-! ## Die time -/

/-- Cycles of the die of a cluster. -/
def State.dieCycles (s : State) (cluster : Nat) : Nat := (s.die (dieOfCluster cluster)).cycles

/-! ## Placement (12 R245) -/

/-- The global cluster of a pod-relative one. -/
def Pod.cluster (p : Pod) (i : Nat) : Nat := p.clusters.getD i 0

/-- The placement hash of unit `i`. -/
def Launch.hash (l : Launch) (i : Nat) : Nat := (chg l.seed (word i)).toNat

/-- cluster(i), pod-relative. -/
def Launch.placeCluster (l : Launch) (i : Nat) : Nat := l.clusters.getD (l.hash i % l.clusters.length) 0

/-- core(i), in its cluster. -/
def Launch.placeCore (l : Launch) (i : Nat) : Nat := l.hash i / 2 ^ 32 % 8

/-- The first unit from `i` on that is placed on a core and has not been stolen. -/
def Launch.scan (l : Launch) (rel core : Nat) : Nat → Nat → Option Nat
  | 0, _ => none
  | f + 1, i =>
    if l.placeCluster i = rel && l.placeCore i = core && (afind? l.stolen i).isNone then some i else l.scan rel core f (i + 1)

/-- The next unit to start at a core (12 R246, R250): the lowest of those stolen for it and those placed there. -/
def Launch.nextUnit (l : Launch) (rel core : Nat) : Option Nat :=
  let cur := aget 0 l.cursors (rel * 8 + core)
  let own := l.scan rel core (l.units - cur) cur
  let got := (l.stolen.filter (fun x => x.2 = rel && l.placeCore x.1 = core)).map (·.1)
  match own, got.min? with
  | some a, some b => some (min a b)
  | some a, none => some a
  | none, b => b

/-- Marks a unit started. -/
def Launch.started (l : Launch) (rel core u : Nat) : Launch :=
  if (afind? l.stolen u).isSome then { l with stolen := aput l.stolen u 0xFFFF }
  else { l with cursors := aput l.cursors (rel * 8 + core) (u + 1) }

/-- Units not yet started that a cluster holds. -/
def Launch.unstarted (l : Launch) (rel : Nat) : List Nat :=
  (List.range l.units).filter (fun u =>
    match afind? l.stolen u with
    | some r => r = rel
    | none => l.placeCluster u = rel && aget 0 l.cursors (rel * 8 + l.placeCore u) ≤ u)

/-! ## Allocation of scratchpad (12 R243) -/

/-- The lowest free offset for an aligned allocation. -/
def Cluster.findFree (k : Cluster) (size : Nat) : Option Nat :=
  ((List.range (Config.spmBytes / size)).map (· * size)).find? (fun b =>
    k.allocs.all (fun a => b + size ≤ a.2.1 || a.2.1 + a.2.2 ≤ b))

/-- Zeroes scratchpad bytes with their full/empty bits. -/
def Cluster.zeroRange (k : Cluster) (base size : Nat) : Cluster :=
  { k with spm := k.spm.clear base (base + size), full := k.full.filter (fun w => w * 8 < base || base + size ≤ w * 8) }

/-- Releases the allocations of a slot (12 R239). -/
def Cluster.release (k : Cluster) (slot : Nat) : Cluster :=
  let mine := k.allocs.filter (·.1 = slot)
  let k := { k with allocs := k.allocs.filter (·.1 ≠ slot) }
  mine.foldl (fun k a => k.zeroRange a.2.1 a.2.2) k

/-! ## Records (01 R28, 13 R261) -/

/-- A record from 64 bytes. -/
def recordOf (bs : List Byte) : Record :=
  let w (i : Nat) : Nat := leNat ((bs.drop (8 * i)).take 8)
  { slot := bits (w 0) 56 8, rmode := .ofNat 3 (bits (w 0) 53 3), efmt := .ofNat 5 (bits (w 0) 48 5), pc := .ofNat 48 (w 0),
    rngCtr := .ofNat 32 (bits (w 1) 32 32), unit := .ofNat 32 (w 1),
    s := (List.range 6).map (fun i => word (w (2 + i))) }

/-- The 64 bytes of a record. -/
def Record.bytes (r : Record) : List Byte :=
  leBytes 8 (r.slot * 2 ^ 56 + r.rmode.toNat * 2 ^ 53 + r.efmt.toNat * 2 ^ 48 + r.pc.toNat) ++
  leBytes 8 (r.rngCtr.toNat * 2 ^ 32 + r.unit.toNat) ++
  (List.range 6).flatMap (fun i => leBytes 8 (r.s.getD i 0).toNat)

/-- The record of a suspending context that continues at `pc` (13 R261). -/
def Priv.record (p : Priv) (pc : BitVec 48) : Record :=
  { slot := p.launchid.toNat, rmode := .ofNat 3 p.rmode.code, efmt := .ofNat 5 p.efmt.code, pc := pc, rngCtr := p.rngCtr,
    unit := p.unitid, s := (List.range 6).map (fun i => p.regs.getD (i + 1) 0) }

/-- The first record of a unit (03 R71, 12 R246). -/
def Launch.firstRecord (l : Launch) (slot u : Nat) : Record :=
  { slot := slot, rmode := .ofNat 3 l.rmode.code, efmt := .ofNat 5 l.efmt.code, pc := l.entry, rngCtr := 0, unit := .ofNat 32 u,
    s := l.s }

/-! ## Pick-up (01 R29) -/

/-- The private registers at pick-up. -/
def pickupPriv (r : Record) (l : Launch) (spbase spsize : Nat) (msg : Vector Word 8) : Priv :=
  { regs := Vector.ofFn (fun i => if i.val = 0 || 6 < i.val then 0 else r.s.getD (i.val - 1) 0),
    pc := r.pc,
    efmt := (Fmt.ofCode r.efmt.toNat).getD l.efmt,
    rmode := (Rm.ofCode r.rmode.toNat).getD l.rmode,
    rngSeed := l.seed, rngStream := r.unit, rngCtr := r.rngCtr,
    cb := l.cb, unitid := r.unit, launchid := .ofNat 8 r.slot, codelim := l.codelim,
    spbase := .ofNat 21 spbase, spsize := .ofNat 22 spsize, msg := msg }

/-- The allocation of a slot in a cluster. -/
def Cluster.allocOf (k : Cluster) (slot : Nat) : Nat × Nat :=
  match k.allocs.find? (·.1 = slot) with
  | some a => a.2
  | none => (0, 64)

/-- A context picks up a record, with the logical clock `clk` of what made it ready (01 R29, 09 R187). -/
def State.pickup (s : State) (c : Nat) (r : Record) (clk : Nat) : State :=
  match s.podOf c with
  | none => s
  | some pid =>
    match afind? (s.pod pid).launches r.slot with
    | none => s
    | some l =>
      let a := (s.cluster (clusterOf c)).allocOf r.slot
      let x := s.ctx c
      let s := s.setCtx c { x with p := pickupPriv r l a.1 a.2 x.p.msg, status := .runnable, chunk := none, chunkid := 0, clock := clk,
                                    squashes := 0, parityRuns := 0, wait := none, answer := none, request := none,
                                    heldRec := none, gang := none, begun := s.refTime, launching := none }
      let s := if l.gone.contains r.unit.toNat then
          s.setPod pid { s.pod pid with launches := aput (s.pod pid).launches r.slot { l with gone := l.gone.filter (· ≠ r.unit.toNat) } }
        else s
      s.setCore (coreOf c) { s.core (coreOf c) with activity := (s.core (coreOf c)).activity + 1 }

/-! ## Queues (12 R247, R249) -/

def QItem.level : QItem → Nat
  | .start x => x.level
  | .cont x => x.level

def QItem.slot : QItem → Nat
  | .start x => x.slot
  | .cont x => x.cont.slot

/-- The ready key (12 R249). -/
def QItem.key : QItem → Nat × Nat
  | .start x => (x.clock, x.src)
  | .cont x => (x.clock, x.src)

/-- Units of a pod are resident: on a context (12 R189 reading, log 20). -/
def State.unitsResident (s : State) (p : Pod) (det : Bool) : Bool :=
  (s.podCtxs p).any (fun c => s.holdsUnit c && (match s.launchOf c with | some l => l.det = det | none => false))

/-- What a context of core-in-cluster `core` would run if it took an item (12 R247, R249–R251). -/
def State.takes (s : State) (p : Pod) (rel core : Nat) (q : QItem) : Option Record :=
  match afind? p.launches q.slot with
  | none => none
  | some l =>
    if s.unitsResident p (!l.det) then none
    else match q with
      | .start x => if l.eligible then (l.nextUnit rel core).map (l.firstRecord x.slot) else none
      | .cont x => if !l.det || x.core = core then some x.cont else none

/-- Levels an item has gained by aging in deterministic mode when taken at clock `clk` (12 R249). -/
def QItem.levelAt (q : QItem) (det : Bool) (clk : Nat) : Nat :=
  if det then min 3 (q.level + (clk - q.key.1 - 1) / 2 ^ 16) else q.level

/-- Whether item `a` at place `i` is served before `b` at place `j`. -/
def qBefore (det : Bool) (clk : Nat) (a b : Nat × QItem × Record) : Bool :=
  let la := a.2.1.levelAt det clk
  let lb := b.2.1.levelAt det clk
  let ka := a.2.1.key
  let kb := b.2.1.key
  lb < la || (la = lb &&
    (if det then ka.1 < kb.1 || (ka.1 = kb.1 && (ka.2 < kb.2 || (ka.2 = kb.2 && a.1 < b.1))) else a.1 < b.1))

def firstOf {α : Type} (lt : α → α → Bool) : List α → Option α
  | [] => none
  | a :: l => match firstOf lt l with
    | none => some a
    | some b => if lt b a then some b else some a

/-- A record is placed on a core, as a unit's start is where it is taken (12 R245). -/
def QItem.on (core : Nat) : QItem → Bool
  | .start _ => true
  | .cont x => x.core = core

/-- The item R247 chooses for a core among those that `ok` admits, with its place in the queue and its record. -/
def State.chooseWhere (s : State) (ok : QItem → Bool) (pid cluster core clk : Nat) : Option (Nat × QItem × Record) :=
  let p := s.pod pid
  match p.relCluster? cluster with
  | none => none
  | some rel =>
    let q := (s.cluster cluster).queue
    let cands := (q.zip (List.range q.length)).filterMap (fun x =>
      if ok x.1 then (s.takes p rel core x.1).map (fun r => (x.2, x.1, r)) else none)
    let det := match cands with
      | x :: _ => (match afind? p.launches x.2.1.slot with | some l => l.det | none => false)
      | [] => false
    firstOf (qBefore det clk) cands

/-- The item R247 chooses for an IDLE unit context of a core. -/
def State.chooseItem (s : State) (pid cluster core clk : Nat) : Option (Nat × QItem × Record) :=
  s.chooseWhere (fun _ => true) pid cluster core clk

/-- The item R247 chooses among those placed on a core, which is all that `ctx.start … next` may take (13 R268, R269). -/
def State.choosePlaced (s : State) (pid cluster core clk : Nat) : Option (Nat × QItem × Record) :=
  s.chooseWhere (QItem.on core) pid cluster core clk

/-- Takes an item off: a record leaves the queue, a launch's pending starts when no unit remains to start in the cluster. -/
def State.dequeue (s : State) (pid cluster core : Nat) (x : Nat × QItem × Record) : State :=
  let p := s.pod pid
  let rel := (p.relCluster? cluster).getD 0
  let k := s.cluster cluster
  match x.2.1 with
  | .cont _ => s.setCluster cluster { k with queue := k.queue.eraseIdx x.1 }
  | .start st =>
    match afind? p.launches st.slot with
    | none => s
    | some l =>
      let l := l.started rel core x.2.2.unit.toNat
      let s := s.setPod pid { p with launches := aput p.launches st.slot l }
      if (List.range 8).all (fun c => (l.nextUnit rel c).isNone) then
        s.setCluster cluster { k with queue := k.queue.eraseIdx x.1 }
      else s

/-- Whether a unit context may take work by itself: IDLE, no commit pending, and no trap message of an ended unit outstanding
(log 21). -/
def State.mayTake (s : State) (c : Nat) : Bool :=
  let x := s.ctx c
  classOf c = .unit && !(s.core (coreOf c)).stopped && x.status = .idle && x.pending.isNone && x.trap.isNone && x.holder.isNone

/-- One pick-up at a core in AUTO mode by its lowest-numbered IDLE unit context (12 R247, R249). -/
def State.pickupAt (s : State) (core clk : Nat) : Option State :=
  let cluster := clusterOfCore core
  match s.podAt cluster with
  | none => none
  | some pid =>
    if !(s.core core).auto then none
    else match ((List.range 16).map (· + core * 16)).find? s.mayTake with
      | none => none
      | some c => match s.chooseItem pid cluster (core % 8) clk with
        | none => none
        | some x => some ((s.dequeue pid cluster (core % 8) x).pickup c x.2.2 x.2.1.key.1)

/-- Pick-ups at a core until nothing more is taken: at most one per unit context. -/
def State.pickupsAt (s : State) (core clk : Nat) : Nat → State
  | 0 => s
  | f + 1 => match s.pickupAt core clk with
    | none => s
    | some t => t.pickupsAt core clk f

/-- Whether deterministic launches of a pod have work to place. -/
def Pod.detWork (p : Pod) : Bool := p.launches.any (fun x => x.2.det && x.2.eligible)

/-- The largest logical clock of a pod's contexts: what aging counts with where a pick-up follows no commit (12 R249). -/
def State.podClock (s : State) (pid : Nat) : Nat := ((s.podCtxs (s.pod pid)).map (fun c => (s.ctx c).clock)).foldl max 0

/-- The pick-ups that follow a commit of a pod with deterministic work, made at that commit (12 R249). -/
def State.detPickups (s : State) (pid clk : Nat) : State :=
  let p := s.pod pid
  if p.detWork then
    (p.clusters.flatMap (fun k => (List.range 8).map (· + k * 8))).foldl (fun s core => s.pickupsAt core clk 14) s
  else s

/-! ## Making records ready (12 R247, R248) -/

/-- The records of a store, ready and parked. -/
def Cluster.records (k : Cluster) : List Stored :=
  k.queue.filterMap (fun q => match q with | .cont x => some x | .start _ => none) ++ k.parked

/-- Entries in use outside the reserved ones (12 R248): those of records that came from elsewhere, and those of the cluster's own
records beyond the 112 reserved. -/
def Cluster.unreserved (k : Cluster) : Nat :=
  let own := (k.records.filter (·.reserved)).length
  (k.records.length - own) + (own - Config.reservedEntries)

/-- The record store has `n` free unreserved entries. -/
def Cluster.storeHas (k : Cluster) (n : Nat) : Bool := k.unreserved + n ≤ Config.recordEntries - Config.reservedEntries

/-- The record store has a free unreserved entry. -/
def Cluster.storeFree (k : Cluster) : Bool := k.storeHas 1

/-- A record enters the tail of its launch's queue. -/
def State.enqueue (s : State) (cluster : Nat) (r : Stored) : State :=
  let k := s.cluster cluster
  s.setCluster cluster { k with queue := k.queue ++ [.cont { r with parked := none, since := s.dieCycles cluster }] }

/-- The stored form of a record made in `cluster` at the commit with key (`clk`, `src`); its placed core is core(i) (12 R245). -/
def State.stored (s : State) (pid cluster : Nat) (r : Record) (clk src : Nat) (reserved : Bool) : Stored :=
  let l := afind? (s.pod pid).launches r.slot
  { cont := r, core := match l with | some l => l.placeCore r.unit.toNat | none => 0,
    level := match l with | some l => l.prio | none => 0,
    since := s.dieCycles cluster, clock := clk, src := src, reserved := reserved }

/-! ## Ending units (12 R239, R241, R242) -/

/-- A unit context becomes IDLE. A trap message of it that is still queued or held stays so until its reply (04 R107). -/
def State.idleCtx (s : State) (c : Nat) : State :=
  let x := s.ctx c
  ((s.leaveTokenq c).setCtx c { x with status := .idle, chunk := none, wait := none, tokenWait := false, mma := false, ceased := s.refTime, answer := none, recs := x.recsLost, kept := [], request := none, heldRec := none, gang := none, squashes := 0, parityRuns := 0, idleAt := s.dieCycles (clusterOf c), p := { x.p with tstat := {} } }).dropTicket c

/-- Ends a running unit: its open chunk squashes and it becomes IDLE (12 R241 step 3). A chunk that has ended and waits for its grant,
with none running after it, squashes as an open one (log 29). -/
def State.endUnit (s : State) (c : Nat) : State :=
  let s := if ((s.ctx c).chunk).isSome then s.squash c false 3 else s
  s.idleCtx c

/-- The unit contexts that run a launch. -/
def State.unitsOf (s : State) (pid slot : Nat) : List Nat :=
  (s.podCtxs (s.pod pid)).filter (fun c => s.holdsUnit c && (s.ctx c).p.launchid.toNat = slot)

/-- Removes the starts and records of a slot from every cluster of the pod, releases its allocations there, and forgets what it has
acquired of the timelines: a later launch of the slot has acquired nothing (09 R193). -/
def State.purge (s : State) (pid slot : Nat) : State :=
  (s.pod pid).clusters.foldl (fun s k =>
    let x := s.cluster k
    s.setCluster k ({ x with queue := x.queue.filter (fun q => q.slot ≠ slot),
                              parked := x.parked.filter (fun r => r.cont.slot ≠ slot),
                              engines := x.engines.map (fun (e : Nat × Engine) => (e.1, { e.2 with acquired := adel e.2.acquired slot })) }.release slot)) s

/-- A launch completes: its remaining units end, its slot and allocations are released, and its counters advance if it was neither
cancelled nor reached by a KILL (12 R239). -/
def State.completeLaunch (s : State) (pid slot : Nat) (l : Launch) : State :=
  let s := (s.unitsOf pid slot).foldl State.endUnit s
  let s := s.purge pid slot
  let p := s.pod pid
  let p := { p with launches := adel p.launches slot }
  let p := if l.cancelled || l.killed then p else [l.gcnt, l.pcnt, l.jcnt].foldl Pod.bump p
  s.setPod pid p

/-- The completions have reached UNITS, or every unit that has not completed has been removed (12 R239). -/
def Launch.over (l : Launch) : Bool := l.units ≤ l.done || l.units ≤ (l.gone.foldl nput l.exited).length

/-- A run of unit `u` has completed. -/
def Launch.exit (l : Launch) (u : Nat) : Launch := { l with done := l.done + 1, exited := nput l.exited u }

/-- A run of unit `u` of a slot is left somewhere in the pod: on another context than `c`, ready, parked or held by a `hop`. Its
own start, still queued, is none (log 125). -/
def State.unitLeft (s : State) (pid slot c u : Nat) : Bool :=
  let p := s.pod pid
  let is (r : Record) : Bool := r.slot = slot && r.unit.toNat = u
  (s.podCtxs p).any (fun d => d ≠ c && s.holdsUnit d && (s.ctx d).p.launchid.toNat = slot && (s.ctx d).p.unitid.toNat = u) ||
  p.clusters.any (fun k => (s.cluster k).records.any (fun r => is r.cont))

/-- A launch with the run of unit `u` on context `c` removed: the unit is removed with its last run (12 R239, R242). -/
def State.unitGone (s : State) (pid slot c u : Nat) (l : Launch) : Launch :=
  { l with gone := if s.unitLeft pid slot c u then l.gone else nput l.gone u, killed := true }

/-- After a unit completed or was removed. -/
def State.afterUnit (s : State) (pid slot : Nat) (l : Launch) : State :=
  let s := s.setPod pid { s.pod pid with launches := aput (s.pod pid).launches slot l }
  if l.over then s.completeLaunch pid slot l else s

/-- The unit of context `c` completes (12 R239). -/
def State.completeUnit (s : State) (c : Nat) : State :=
  match s.podOf c, s.launchOf c with
  | some pid, some l =>
    let slot := (s.ctx c).p.launchid.toNat
    let u := (s.ctx c).p.unitid.toNat
    let s := s.idleCtx c
    let s := s.setPod pid ((s.pod pid).bump l.lcnt)
    s.afterUnit pid slot (l.exit u)
  | _, _ => s.idleCtx c

/-- A KILL of a unit (12 R242). -/
def State.killUnit (s : State) (c : Nat) : State :=
  match s.podOf c, s.launchOf c with
  | some pid, some l =>
    let slot := (s.ctx c).p.launchid.toNat
    let l := s.unitGone pid slot c (s.ctx c).p.unitid.toNat l
    let s := s.endUnit c
    let s := s.setPod pid (l.counters.foldl Pod.markCanc (s.pod pid))
    s.afterUnit pid slot l
  | _, _ => s.endUnit c

/-- A launch is cancelled (12 R241): its units end, what has not started is removed, and CANC is set. -/
def State.cancelSlot (s : State) (pid slot : Nat) : State :=
  match afind? (s.pod pid).launches slot with
  | none => s
  | some l =>
    let s := s.setPod pid (l.counters.foldl Pod.markCanc (s.pod pid))
    s.completeLaunch pid slot { l with cancelled := true }

/-- The field of a launch that a cancel level names: launch, graph, phase, job (13 R276). -/
def Launch.field (l : Launch) (level : Nat) : Nat :=
  if level = 0 then l.lcnt else if level = 1 then l.gcnt else if level = 2 then l.pcnt else l.jcnt

/-- A cancel at a level with counter `k` (12 R241, 13 R276). -/
def State.cancelLevel (s : State) (pid level k : Nat) : State :=
  if k = 0 then s
  else (((s.pod pid).launches.filter (fun x => x.2.field level = k)).map (·.1)).foldl (fun s slot => s.cancelSlot pid slot) s

/-! ## Dependences (12 R240) -/

def Pod.depMet (p : Pod) (d : Nat × Nat) : Bool := d.2 ≤ (p.counter d.1).count

/-- A launch that waits on a cancelled dependence. -/
def Pod.doomed (p : Pod) : Option Nat :=
  (p.launches.find? (fun x => !x.2.eligible && x.2.deps.any (fun d => !p.depMet d && (p.counter d.1).canc))).map (·.1)

/-- Cancels launches along cancelled dependences, at most one per slot. -/
def State.cancelDoomed (s : State) (pid : Nat) : Nat → State
  | 0 => s
  | f + 1 => match (s.pod pid).doomed with
    | none => s
    | some slot => (s.cancelSlot pid slot).cancelDoomed pid f

/-- A launch becomes eligible: its pending starts enter the queues of its clusters. -/
def State.makeEligible (s : State) (pid slot clk src : Nat) (l : Launch) : State :=
  let p := s.pod pid
  let l := { l with eligible := true, clock := max l.clock clk }
  let s := s.setPod pid { p with launches := aput p.launches slot l }
  l.clusters.foldl (fun s r =>
    let k := p.cluster r
    let x := s.cluster k
    s.setCluster k { x with queue := x.queue ++ [.start { slot := slot, level := l.prio, since := s.dieCycles k, clock := l.clock, src := src }] }) s

/-- The dependence test of a pod at a commit with key (`clk`, `src`) (12 R240). -/
def State.settleDeps (s : State) (pid clk src : Nat) : State :=
  let s := s.cancelDoomed pid 256
  ((s.pod pid).launches.filter (fun x => !x.2.eligible && x.2.deps.all (s.pod pid).depMet)).foldl
    (fun s x => s.makeEligible pid x.1 clk src x.2) s

/-! ## Acceptance (03 R71–R74, 12 R243) -/

/-- A 64-bit word of a block. -/
def blockWord (bs : List Byte) (off : Nat) : Nat := leNat ((bs.drop off).take 8)

/-- A preset is absent and zero, or valid with its reserved bits zero (03 R72). -/
def presetReserved (w : Nat) : Bool :=
  if bits w 31 1 = 0 then w = 0 else bits w 29 2 = 0 && bits w 16 5 = 0

/-- Reserved bits of the descriptor are zero. -/
def descReserved (d : List Byte) : Bool := bits (blockWord d 0) 60 4 = 0 && bits (blockWord d 8) 37 3 = 0

/-- Reserved bits of the extension block are zero. -/
def extReserved (e : List Byte) : Bool :=
  (List.range 8).all (fun n => presetReserved (leNat ((e.drop (4 * n)).take 4))) &&
  bits ((e.getD 0xA0 0).toNat) 4 4 = 0 && (e.drop 0xA2).all (· = 0)

def extPreset (e : List Byte) (n : Nat) : Nat := leNat ((e.drop (4 * n)).take 4)

/-- Codebooks of an extension block; an absent one is zero (03 R72). -/
def extCodebooks (e : List Byte) : Vector Word 16 :=
  Vector.ofFn (fun i =>
    if bits ((e.getD 0xA0 0).toNat) (i.val / 4) 1 = 1 then word (blockWord e (0x20 + 32 * (i.val / 4) + 8 * (i.val % 4))) else 0)

/-- Positions of the one bits of a mask, ascending. -/
def bitList (n w : Nat) : List Nat := (List.range w).filter (fun i => n.testBit i)

/-- The launch-table entry of a descriptor and extension block. -/
def launchOfBlocks (d e : List Byte) (codelim : Nat) : Launch :=
  let w0 := blockWord d 0
  let w1 := blockWord d 8
  { entry := .ofNat 48 w0, efmt := (Fmt.ofCode (bits w0 48 5)).getD .fp32, rmode := (Rm.ofCode (bits w0 53 3)).getD .rne,
    seed := word (blockWord d 0x20), s := (List.range 6).map (fun i => word (blockWord d (0x28 + 8 * i))),
    presets := (List.range 8).map (extPreset e), cb := extCodebooks e, prio := bits w0 56 2, det := bits w0 58 1 = 1,
    fuse := bits w0 59 1 = 1, units := bits w1 0 32, clusters := bitList (leNat ((d.drop 0x10).take 16)) 128,
    lcnt := bits w1 40 8, gcnt := bits w1 48 8, pcnt := bits w1 56 8, jcnt := (e.getD 0xA1 0).toNat,
    codelim := .ofNat 48 codelim, splog := bits w1 32 5,
    deps := ((List.range 4).map (fun n => let v := blockWord d (0x58 + 8 * n); (bits v 56 8, bits v 0 56))).filter (·.1 ≠ 0) }

/-- The checks of 03 R74, in the table's order, without −10: the launch, or a negative status. `ext` is the extension block,
`none` where EXT is misaligned or it cannot be read; with EXT = 0 it is zeros. -/
def State.checkLaunch (s : State) (pid : Nat) (d : List Byte) (ext : Option (List Byte)) : Except Int Launch :=
  let p := s.pod pid
  let w0 := blockWord d 0
  let entry := bits w0 0 48
  let roles := match p.image with | some i => i.roles | none => []
  -- the first role of the table that contains ENTRY gives CODELIM (log 97)
  let role := roles.find? (fun r => r.cls = 1 && r.codebase ≤ entry && entry < r.codelim)
  let e := ext.getD []
  let l := launchOfBlocks d e ((role.map (·.codelim)).getD 0)
  if !descReserved d || (ext.isSome && !extReserved e) then .error (-1)
  else if entry % 4 ≠ 0 || role.isNone then .error (-2)
  else if l.units = 0 then .error (-3)
  else if l.clusters.isEmpty || l.clusters.any (fun r => p.clusters.length ≤ r) then .error (-4)
  else if l.splog < 6 || 21 < l.splog then .error (-5)
  else if (Fmt.ofCode (bits w0 48 5)).isNone || (Rm.ofCode (bits w0 53 3)).isNone then .error (-6)
  else if ext.isNone || l.presets.any (fun w => bits w 31 1 = 1 && !shapeOk (.ofNat 32 w)) then .error (-7)
  else if ((List.range 255).all (fun n => (afind? p.launches n).isSome)) ||
      l.clusters.any (fun r => ((s.cluster (p.cluster r)).findFree (2 ^ l.splog)).isNone) then .error (-8)
  else if !l.det && (match (s.vf p.vf).policy with | some q => q.detReq | none => false) then .error (-9)
  else .ok l

/-- Acceptance at a commit with key (`clk`, `src`): slot, launch table, allocations, then the dependence test (12 R240, R243). -/
def State.accept (s : State) (pid clk src : Nat) (l : Launch) : State × Nat :=
  let p := s.pod pid
  let slot := ((List.range 255).find? (fun n => (afind? p.launches n).isNone)).getD 0
  let s := s.setPod pid { p with launches := aput p.launches slot { l with clock := clk, accepted := s.moment } }
  let s := l.clusters.foldl (fun s r =>
    let k := s.cluster (p.cluster r)
    let base := (k.findFree (2 ^ l.splog)).getD 0
    s.setCluster (p.cluster r) ({ k with allocs := k.allocs ++ [(slot, base, 2 ^ l.splog)] }.zeroRange base (2 ^ l.splog))) s
  (s.settleDeps pid clk src, slot)

end Sys2Proof.Machine
end

