-- ==== Sys2Proof/Machine/Wire.lean ====
section
/-! DEFINITION. Committed writes to memory, folds, and operations posted to this and other chips (09 R195, R199, 10 R207, R208,
16 R328, R334, R336, 18 R349, R350). -/

namespace Sys2Proof.Machine

/-- A function of the private registers applied where a squash would look for them too: an asynchronous change that no squash
undoes. -/
def Ctx.mapPriv (x : Ctx) (f : Priv → Priv) : Ctx :=
  { x with p := f x.p, chunk := x.chunk.map (fun k => { k with start := f k.start }),
            pending := x.pending.map (fun k => { k with start := f k.start }) }

/-! ## Committed writes -/

/-- The owner of a frame has a pod of class FULL (16 R328). -/
def State.fullOwner (s : State) (pa : Nat) : Bool :=
  s.vfs.any (fun v => v.2.stage2.any (fun m => m.2 = pa / unitBytes) &&
    s.pods.any (fun p => p.2.vf = v.1 && p.2.full && p.2.state ≠ .empty))

/-- The undo entry of a line about to change (16 R328). -/
def State.logUndo (s : State) (line : Nat) : State :=
  if s.fullOwner (line * 64) && !s.ivals.undo.any (fun u => u.line = line && u.interval = s.ivals.num) then
    { s with ivals := { s.ivals with undo := s.ivals.undo ++
        [⟨line, s.ivals.num, s.mem.readBytes (line * 64) 64, s.poison.contains line⟩] } }
  else s

/-- One written line: its undo entry, the end of a reduction, its poison when every byte is written (16 R336), and its frame, which
the clearer has rewritten (15 R302). -/
def State.touchLine (s : State) (l : List (Nat × Byte)) (line : Nat) : State :=
  let s := (s.logUndo line).absorb line
  { s with poison := if wholeLine l line then s.poison.filter (· ≠ line) else s.poison, clean := nput s.clean (line / 1024) }

/-- Committed writes of bytes, at physical addresses or, above `hostBase`, in host memory. -/
def State.commitBytes (s : State) (l : List (Nat × Byte)) : State :=
  let here := l.filter (·.1 < hostBase)
  let there := l.filter (fun x => hostBase ≤ x.1 && x.1 < 2 * hostBase)
  let s := (writeLines here).foldl (fun s n => s.touchLine here n) s
  { s with mem := s.mem.writeAll here, hostMem := s.hostMem.writeAll (there.map (fun x => (x.1 - hostBase, x.2))) }

/-- Committed writes to the scratchpad of a cluster. -/
def State.commitSpm (s : State) (cluster : Nat) (l : List (Nat × Byte)) : State :=
  if l.isEmpty then s
  else
    let k := s.cluster cluster
    s.setCluster cluster { k with spm := k.spm.writeAll l, spmDirty := (writeLines l).foldl nput k.spmDirty }

/-! ## Refusals (10 R207) -/

/-- The part of a refusal record that an operation of context `c` of pod `p` on `g` enters. -/
def State.refusalPart (s : State) (p : Option Nat) (c : Nat) (g : Glob) : Nat :=
  if g.chip ≠ s.chipNum then 4
  else if g.core = coreOf c then 0
  else if clusterOfCore g.core = clusterOf c then 1
  else match p with
    | some p => if (s.pod p).clusters.contains (clusterOfCore g.core) then 2 else 3
    | none => 3

/-- A refused operation on `g` enters part `k` of a refusal record. -/
def Priv.enterRefusal (p : Priv) (k : Nat) (g : Word) : Priv :=
  let r := p.refusals.getD k {}
  let r := if r.count = 0 then ⟨g, p.refTotal + 1, 1⟩ else { r with count := r.count + 1 }
  { p with refTotal := p.refTotal + 1, refusals := p.refusals.setIfInBounds k r }

/-- Enters a refused operation on `g` in the record of context `c`; a FULL pod records it for replay (16 R333). -/
def State.enterRefusal (s : State) (c : Nat) (g : Word) : State :=
  let k := s.refusalPart (s.podOf c) c (globOf g)
  (s.setCtx c ((s.ctx c).mapPriv (fun p => p.enterRefusal k g))).logFor (s.podOf c) (.refusal c g)

/-! ## Values from outside (16 R329, R333) -/

/-- Values that the uncommitted chunks of a context have taken from outside. -/
def Ctx.taken (x : Ctx) : Nat :=
  (match x.pending with | some k => k.vals.length | none => 0) + (match x.chunk with | some k => k.vals.length | none => 0)

/-- The answers that the records of a replay still hold for a source, a context or an engine context (16 R329, R333). -/
def replayAnswers (l : List Logged) (src : Nat) : List Answer :=
  l.filterMap (fun x => match x with
    | .value d v => if d = src then some (.value v) else none
    | .refused d n g => if d = src then some (if n = poisonCause then .poisoned g.toNat else .refused n) else none
    | _ => none)

/-- What the next read from outside of context `c` takes from what its re-run has at hand, if anything (16 R333). -/
def State.replayAnswer (s : State) (c : Nat) : Option Answer :=
  match s.podOf c with
  | none => none
  | some p => ((s.ctx c).kept ++ replayAnswers (s.pod p).records c)[(s.ctx c).taken]?

/-- The next answer that the executing context takes is one kept from the interval's boundary. -/
def State.takesKept (s : State) : Bool := s.me.taken < s.me.kept.length

/-- The answer that the executing context has to its request, or finds at hand in its re-run. -/
def State.outsideAnswer (s : State) : Option Answer :=
  if s.takesKept then s.replayAnswer s.cur else s.me.answer.or (s.replayAnswer s.cur)

/-- The executing context takes an answer from outside, which its commit records or uses up. -/
def State.takeAnswer (s : State) (a : Answer) : State := s.setChunk { s.chunk with vals := s.chunk.vals ++ [a] }
def State.take (s : State) (v : Word) : State := s.takeAnswer (.value v)

/-- A value from outside: the recorded one during replay, else `v`. -/
def State.outside (s : State) (v : Word) : Word × State :=
  let v := match s.replayAnswer s.cur with | some (.value w) => w | _ => v
  (v, s.take v)

/-! ## Flits (18 R349, R350) -/

/-- The port of a pair: the hashed one, or the next that has not failed. -/
def State.portOf (s : State) (srcCtx core : Nat) : Nat :=
  let h := Config.linkHash srcCtx core % 12
  (((List.range 12).map (fun i => (h + i) % 12)).find? (fun p => !(s.port p).failed)).getD h

/-- A flit goes out: it takes the port's next link sequence and stays in the retry buffer until acknowledged. -/
def State.sendFlit (s : State) (port dst : Nat) (f : Flit) : State :=
  let p := s.port port
  s.setPort port { p with retry := p.retry ++ [(p.txSeq, dst, f)], txSeq := (p.txSeq + 1) % 4096 }

/-- The TENANT of a virtual device. -/
def Vf.tenant (v : Vf) : BitVec 128 := match v.policy with | some p => p.tenant | none => 0

/-- The replay tag of the next operation of context `c` to core `core` of a chip (16 R334), and the context with it counted. -/
def State.tagFor (s : State) (c chip core : Nat) : (BitVec 32 × BitVec 32) × State :=
  match s.podOf c with
  | some p =>
    if (s.pod p).full then
      let x := s.ctx c
      let key := chip * 1024 + core
      let n := aget 0 x.sent key + 1
      ((.ofNat 32 ((s.pod p).interval.getD s.ivals.num), .ofNat 32 n), s.setCtx c { x with sent := aput x.sent key n })
    else ((0, 0), s)
  | none => ((0, 0), s)

/-- The operation header of an operation of context `c` (18 R350). -/
def State.opHeader (s : State) (c : Nat) (g : Word) (rid : Nat) : OpHdr × State :=
  let x := globOf g
  let t := s.tagFor c x.chip x.core
  let tenant := match s.podOf c with | some p => (s.vf (s.pod p).vf).tenant | none => 0
  ({ srcCtx := .ofNat 14 c, tgtCore := .ofNat 10 x.core, rid := .ofNat 32 rid, tenant := tenant, interval := t.1.1, seq := t.1.2,
     addr := g }, t.2)

/-- An operation of a FULL pod is performed once for its tag: one at or below the highest number seen of its sender, target and
interval is discarded and counted at its port (16 R334). None where it is discarded. -/
def State.acceptSeq (s : State) (chip sender target interval seq : Nat) : Option State :=
  if seq = 0 then some s
  else
    let key := (chip, sender, target, interval)
    match s.marks.find? (·.1 = key) with
    | some m => if seq ≤ m.2 then none else some { s with marks := (s.marks.filter (·.1 ≠ key)) ++ [(key, seq)] }
    | none => some { s with marks := s.marks ++ [(key, seq)] }

/-- A request identifier. -/
def State.newRid (s : State) : Nat × State := (s.rid, { s with rid := (s.rid + 1) % 2 ^ 32 })

/-- The virtual device of a context. -/
def State.vfOf (s : State) (c : Nat) : Nat := match s.podOf c with | some p => (s.pod p).vf | none => 0

/-- An operation of this chip for an agent of this chip. -/
def State.toAgent (s : State) (core : Nat) (op : RemoteOp) : State :=
  let k := s.core core
  s.setCore core { k with agent := k.agent ++ [op], activity := k.activity + 1 }

/-- Sets a bank bit, which no squash of a later chunk undoes (10 R208). -/
def State.setBank (s : State) (c bit : Nat) : State :=
  s.setCtx c ((s.ctx c).mapPriv (fun p => { p with bankmask := p.bankmask ||| (1 <<< bit) }))

/-- Counts a posted operation to a chip (18 R350, PROBE). -/
def State.countPosted (s : State) (c chip : Nat) : State :=
  let x := s.ctx c
  s.setCtx c { x with posted := aput x.posted chip ((aget 0 x.posted chip + 1) % 2 ^ 32) }

/-- The 64-byte active message of 10 R206. -/
def amWords (chip c hid : Nat) (b x y a : Word) : List Word :=
  [word (chip * 2 ^ 56 + c * 2 ^ 40 + hid), b, x, y, word (bits a.toNat 0 44), 0, 0, 0]

/-- Posting of a remote operation at a commit (09 R199, 10 R205, R206). -/
def State.post (s : State) (c : Nat) (g : Word) (words : List Word) (am : Bool) : State :=
  let x := globOf g
  let s := s.setBank c (s.globBank x)
  if x.chip = s.chipNum then
    let t := s.tagFor c x.chip x.core
    match t.2.acceptSeq s.chipNum c x.core t.1.1.toNat t.1.2.toNat with
    | none => t.2
    | some s => s.toAgent x.core { srcChip := s.chipNum, srcCtx := c, vf := s.vfOf c, pod := (s.podOf c).getD 0, addr := g, interval := t.1.1.toNat, seq := t.1.2.toNat,
                                   kind := if am then .am words else .rst (words.getD 0 0) }
  else
    let r := (s.countPosted c x.chip).newRid
    let h := (r.2.setCtx c { r.2.ctx c with unacked := (r.2.ctx c).unacked ++ [(r.1, g)] }).opHeader c g r.1
    h.2.sendFlit (h.2.portOf c x.core) x.chip (if am then .am h.1 words else .rst h.1 (words.getD 0 0))

/-! ## Targets of global-form accesses at this chip (01 R32, 15 R295) -/

/-- What a global-form address reaches here. -/
inductive RTarget where
  | key (a : Nat)
  | spm (cluster off : Nat)
  | mmio (va : Nat)
  | wait (n : Need)
  deriving DecidableEq, Repr

/-- The virtual device that an access reaches: the source's own on this chip, else the lowest whose policy has the tenant and the
source chip among its peers. -/
def State.remoteVf (s : State) (srcChip vf : Nat) (tenant : BitVec 128) : Option Nat :=
  if srcChip = s.chipNum then (if vf = 0 then none else some vf)
  else (s.vfs.find? (fun v => match v.2.policy with
    | some p => p.tenant = tenant && bits p.peers srcChip 1 = 1
    | none => false)).map (·.1)

/-- The link window that covers an offset. -/
def Vf.linkWindow (v : Vf) (off : Nat) : Option Window :=
  (v.windows.find? (fun x => x.2.kind = 0 && x.2.tgt ≤ off && off < x.2.tgt + x.2.size)).map (·.2)

/-- The target of an access, or the cause of its refusal (18 R350). -/
def State.remoteTarget (s : State) (srcChip vf : Nat) (tenant : BitVec 128) (addr : Word) (write : Bool) : Except Nat RTarget :=
  let g := globOf addr
  match s.remoteVf srcChip vf tenant with
  | none => .error 3
  | some v =>
    if g.spm then
      match s.podAt (clusterOfCore g.core) with
      | none => .error 4
      | some p => if (s.pod p).vf = v && g.off < Config.spmBytes then .ok (.spm (clusterOfCore g.core) g.off) else .error 4
    else match (s.vf v).linkWindow g.off with
      | none => .error 1
      | some w =>
        if !(if write then w.write else w.read) then .error 2
        else match translate s (s.vf v) (word (w.va + (g.off - w.tgt))) (if write then .write else .read) with
          | .ok (.mmio va, _) => .ok (.mmio va)
          | .ok (t, _) => .ok (.key t.key)
          | .error (.stage2 ipa) => .ok (.wait (.frame ipa))
          | .error (.ats p) => .ok (.wait (.page p))
          | .error _ => .error 2

/-- The 8 bytes a target holds; what an MMIO page gives is free (log 7). -/
def State.remoteRead (s : State) : RTarget → Word
  | .key a => word (leNat ((List.range 8).map (fun i => s.committed (a + i))))
  | .spm k o => word (leNat ((List.range 8).map (fun i => (s.cluster k).spm.read (o + i))))
  | .mmio _ => Config.mmioRead s.moment
  | .wait _ => 0

end Sys2Proof.Machine
end

