-- ==== Sys2Proof/Machine/Wait.lean ====
section
/-! DEFINITION. When a wait is satisfied, and what an event wakes: blocked contexts, parked records, and chunks that read control
state or counters; how an instruction ends (09 R196–R198, 12 R237, 13 R263, R268, R277). -/

namespace Sys2Proof.Machine

/-- A 64-bit word as committed, partials combined (09 R195). -/
def State.committedWord (s : State) (a : Nat) : Word := word (leNat ((List.range 8).map (fun i => s.committed (a + i))))

/-- The relation of a `wait.mem` (10 R215). -/
def ccHolds (cc : Cc) (w b : Word) : Bool :=
  match cc with
  | .eq => w = b
  | .ne => w ≠ b
  | .geu => b.toNat ≤ w.toNat
  | .ltu => w.toNat < b.toNat
  | .ge => b.toInt ≤ w.toInt
  | .lt => w.toInt < b.toInt

/-- The full/empty bit of the word at a scratchpad offset of a cluster (10 R213). -/
def State.isFull (s : State) (cluster off : Nat) : Bool := (s.cluster cluster).full.contains (off / 8)

/-- The timeline counter (10 R218). -/
def Engine.tl (e : Engine) : Word := word (e.err.toNat * 2 ^ 63 + e.errcode * 2 ^ 56 + e.count)

/-- The oldest inbox entry of a consumer and kind. -/
def Core.first (k : Core) (kind : MsgKind) (c : Nat) : Option InMsg :=
  k.inbox.find? (fun m => m.kind = kind && m.consumer = c)

/-- Messages of a sender held at a core's port (13 R273). -/
def Core.holds (k : Core) (c : Nat) : Bool := k.port.any (fun m => m.kind = .ordinary && bits m.hdr.toNat 0 14 = c)

/-- Whether an own-chip operation of context `c` on core `core` lies in a fence scope: 0 core, 1 cluster, 2 pod, 3 package, 4 system
(10 R209). -/
def State.inScope (s : State) (c scope core : Nat) : Bool :=
  match scope with
  | 0 => core = coreOf c
  | 1 => clusterOfCore core = clusterOf c
  | 2 => match s.podOf c with | some p => (s.pod p).clusters.contains (clusterOfCore core) | none => false
  | _ => true

/-- No posted own-chip operation of context `c` in the scope waits at its agent. -/
def State.agentsClear (s : State) (c scope : Nat) : Bool :=
  s.cores.all (fun k => !s.inScope c scope k.1 ||
    k.2.agent.all (fun o => !(o.srcChip = s.chipNum && o.srcCtx = c && (match o.kind with | .rst _ | .am _ => true | _ => false))))

/-- Whether the wait of context `c` would now be satisfied (12 R235, R237). A full/empty wait at another chip names cluster 128 +
chip: its reply satisfies it. -/
def State.satisfied (s : State) (c : Nat) : Wait → Bool
  | .fe _ k off put =>
    if 128 ≤ k then ((s.ctx c).answer.or (s.replayAnswer c)).isSome else if put then !s.isFull k off else s.isFull k off
  | .mem key cc b => ccHolds cc (s.committedWord key) b
  | .cbuf m => match (s.cluster (clusterOf c)).cbuf? m with
    | some b => !b.filled.isEmpty
    | none => true
  | .tl e a =>
    let x := (s.cluster (clusterOf c)).engine e
    (x.err && x.errseq ≤ a) || a ≤ x.count
  | .recv => ((s.core (coreOf c)).first .ordinary c).isSome
  | .svcRecv => ((s.core (coreOf c)).first .trap c).isSome
  | .send _ => !s.cores.any (fun k => k.2.holds c)
  | .hop core => (s.cluster (clusterOfCore core)).storeFree
  | .fence scope => (s.ctx c).acks.isEmpty && s.agentsClear c scope

/-- What contending waiters contend for (09 R197). -/
def Wait.contended : Wait → Bool
  | .fe .. | .cbuf _ => true
  | _ => false

/-- The key of a waiter (09 R198). -/
def State.waitKey (s : State) (c : Nat) : Nat := match (s.ctx c).wait with | some w => w.clock | none => (s.ctx c).clock

/-- Whether two waits, of contexts of the clusters given, contend for one thing: the same word of this chip for the same change,
through whichever form, or the same circular buffer (09 R197, R198). -/
def Wait.sameAs (k k' : Nat) : Wait → Wait → Bool
  | .fe _ cl off put, .fe _ cl' off' put' => cl = cl' && off = off' && put = put'
  | .cbuf m, .cbuf m' => k = k' && m = m'
  | _, _ => false

/-- Another waiter of deterministic mode that is served before `c` (09 R198). The mode is that of the waits' own chunks (R357). -/
def State.waitsBefore (s : State) (c : Nat) (w : Wait) : Bool :=
  w.contended && (s.chunkOf c).det &&
  s.ctxs.any (fun x => x.1 ≠ c && (match x.2.status with | .blocked | .runnable | .out _ => true | _ => false) &&
    (match x.2.wait with
     | some y => y.det && y.on.sameAs (clusterOf x.1) (clusterOf c) w &&
         (y.clock < s.waitKey c || (y.clock = s.waitKey c && x.1 < c))
     | none => false))

/-- A wait that `WAITLIM` bounds in `REFTIME` has outlived its limit: nothing that comes after the tick of the limit satisfies it (01
R21, 14 R278). -/
def Waiting.expired (w : Waiting) (now : Nat) : Bool :=
  !w.det && w.limit ≠ 0 && (match w.on with | .fence _ => false | _ => true) && w.start + w.limit.toNat < now

/-- Wakes one context where its wait is satisfied; its clock rises to that of the waking commit (09 R187). A `hop` completes by
placing its record (13 R264). -/
def State.wakeCtx (s : State) (clk : Nat) (c : Nat) : State :=
  let x := s.ctx c
  match x.status, x.wait with
  | .blocked, some w =>
    if (s.core (coreOf c)).stopped || w.expired s.refTime then s
    else if s.satisfied c w.on && !s.waitsBefore c w.on then
      match w.on, x.heldRec with
      | .hop core, some (_, r) =>
        let s := s.enqueue (clusterOfCore core) { r with clock := max r.clock clk }
        s.idleCtx c
      | .send _, _ => s.setCtx c { x with status := .runnable, wait := none, sending := .no, clock := max x.clock clk }
      | _, _ => s.setCtx c { x with status := .runnable, clock := max x.clock clk }
    else s
  | _, _ => s

/-- The operand words of the instruction that context `c` would run next (01 R36). -/
def State.nextOps (s : State) (c : Nat) : List Word :=
  match ({ s with cur := c }.openChunk).fetch with
  | .instr i t => (instrOpnds i).map t.opWord
  | _ => []

/-- A sender whose messages wait at the port of a core that is full is BLOCKED before its next instruction (13 R273). -/
def State.blockSender (s : State) (c : Nat) : State :=
  let x := s.ctx c
  if x.sending = .wait && x.status = .runnable then
    match s.cores.find? (fun y => y.2.holds c && !y.2.accepts) with
    | some (core, _) =>
      let w : Waiting := { on := .send core, w2 := word core, ops := s.nextOps c, start := s.refTime, clock := x.clock, limit := x.p.waitlim,
                           det := s.detMode c, code := s.mem }
      s.setCtx c { x with status := .blocked, ceased := s.refTime, wait := some w, gang := s.detached c }
    | none => if s.cores.any (fun y => y.2.holds c) then s else s.setCtx c { x with sending := .no }
  else s

/-- Parked records of a cluster whose condition now holds become ready (13 R263), each with the key of the event, or its own where
the event has none (log 82). -/
def State.wakeParked (s : State) (clk src : Nat) (cluster : Nat) : State :=
  let k := s.cluster cluster
  let on (r : Stored) : Bool := match r.parked with
    | some p => (s.committedWord p.pa = 0) = p.z
    | none => true
  let s1 := s.setCluster cluster { k with parked := k.parked.filter (fun r => !on r) }
  (k.parked.filter on).foldl (fun s r => s.enqueue cluster (if r.clock ≤ clk then { r with clock := clk, src := src } else r)) s1

/-- Control states (13 R268). -/
inductive Ctl where
  | idle | active | trapped | stopped
  deriving DecidableEq, Repr

def Status.ctl : Status → Ctl
  | .idle => .idle
  | .runnable | .out _ | .blocked => .active
  | .trapped => .trapped
  | .stopped _ => .stopped

/-- `n` ready items are placed on a core (13 R269). -/
def State.holdsReady (s : State) (core : Nat) : Nat → Bool
  | 0 => true
  | n + 1 => match s.podAt (clusterOfCore core) with
    | some p => (match s.choosePlaced p (clusterOfCore core) (core % 8) 0 with
      | some x => (s.dequeue p (clusterOfCore core) (core % 8) x).holdsReady core n
      | none => false)
    | none => false

/-- An IDLE context that is not free: its ended unit's trap is still outstanding (04 R107), or a commit of it (log 21). -/
def Ctx.owed (x : Ctx) : Bool := x.status = .idle && (x.trap.isSome || x.holder.isSome || x.pending.isSome)

def Ctl.code : Ctl → Nat
  | .idle => 0
  | .active => 1
  | .trapped => 2
  | .stopped => 3

/-- What stands at a place that events change otherwise than by a commit's write set: control states, counters, launches, and what a
supervisor has seen of its cluster's queues. -/
def State.place (s : State) : Loc → Nat
  | .ctl c => 2 * (s.ctx c).status.ctl.code + (s.ctx c).owed.toNat
  | .cnt p n => ((s.pod p).cntWord n).toNat
  | .ready core n => (s.holdsReady core n).toNat
  | .store cl n => ((s.cluster cl).storeHas n).toNat
  | .launch p n => match afind? (s.pod p).launches n with | some l => l.accepted + 1 | none => 0
  | _ => 0

/-- Such a place has changed. -/
def changed (s0 s : State) (x : Loc) : Bool := s0.place x ≠ s.place x

/-- A conflict found on an exact set of lines or registers (17 R341). -/
def exactCause : Nat → Nat := fun _ => 1

/-- Squashes every other context one of whose chunks has read a place that `hit` names (09 R181, R182). -/
def State.squashHits (s : State) (except : Nat) (hit : Loc → Bool) (cause : Nat → Nat) : State :=
  (s.ctxs.map (·.1)).foldl (fun s c =>
    let x := s.ctx c
    let hits (k : Option Chunk) : Bool := match k with | some k => k.reads.any hit | none => false
    if c = except then s
    else if hits x.pending then s.squash c true (cause c)
    else if hits x.chunk then s.squash c false (cause c)
    else s) s

/-- An event would squash the chunk of the context that holds the commit ticket, and so waits (09 R183 step 2). `t` is what it comes
to. -/
def State.harms (s t : State) : Bool :=
  match s.ticket with
  | some h => t.ticket = some h && (t.ctx h).squashes ≠ (s.ctx h).squashes
  | none => false

/-! ## The overflow heap in memory (12 R255) -/

/-- The physical address of a line of a core's heap, where the pod's tables map it. -/
def State.heapLine (s : State) (core slot : Nat) : Option Nat :=
  match s.podAt (clusterOfCore core) with
  | none => none
  | some pid =>
    let p := s.pod pid
    match p.relCluster? (clusterOfCore core) with
    | none => none
    | some rel => match translate s (s.vf p.vf) (word (p.heapBase + 65536 * (rel * 8 + core % 8) + 64 * slot)) .query with
      | .ok (.mem pa, _) => some pa
      | _ => none

/-- Messages of a heap reach their lines; no chunk squashes for it. -/
def State.flushHeap (s : State) (core : Nat) : State :=
  (s.core core).heap.foldl (fun s m =>
    if (s.core core).heapWritten.contains m.slot then s
    else
      let k := s.core core
      let s := s.setCore core { k with heapWritten := m.slot :: k.heapWritten }
      match s.heapLine core m.slot with
      | some pa =>
        let bs := m.words.flatMap (fun w => leBytes 8 w.toNat)
        s.commitBytes ((List.range bs.length).map (fun i => (pa + i, bs.getD i 0)))
      | none => s) s

def State.flushHeaps (s : State) : State :=
  (s.cores.map (·.1)).foldl (fun s k => if (s.core k).heap.isEmpty then s else s.flushHeap k) s

/-- An event has put an item into some dispatcher queue. -/
def State.readied (s0 s : State) : Bool := s.clusters.any (fun k => k.2.queue.any (fun q => !(s0.cluster k.1).queue.contains q))

/-- The pick-ups of a commit, in its pod. -/
def State.commitPickups (s : State) (clk src : Nat) : State :=
  match (if src < Config.contexts then s.podOf src else none) with
  | some pid => s.detPickups pid clk
  | none => s

/-- The pick-ups that an event brings in deterministic mode (12 R249): those of a commit in its pod, and those in every pod where the event
has put work into a queue. -/
def State.settlePickups (s : State) (readied : Bool) (clk src : Nat) : State :=
  let s := s.commitPickups clk src
  if readied then (s.pods.map (·.1)).foldl (fun s p => s.detPickups p (s.podClock p)) s else s

/-- What follows any event: wake-ups, parked records, and squashes by changed control states and counters. `s0` is the state before
the event, `clk` and `src` the key of the commit that was one (0 where none). -/
def State.react (s : State) (s0 : State) (clk src : Nat) : State :=
  let s := s.flushHeaps
  let s := (s.clusters.map (·.1)).foldl (fun s k => if (s.cluster k).parked.isEmpty then s else s.wakeParked clk src k) s
  let s := (s.ctxs.map (·.1)).foldl (fun s c => s.wakeCtx clk c) s
  let s := s.settlePickups (s0.readied s) clk src
  let s := (s.ctxs.map (·.1)).foldl State.blockSender s
  if s.ctxs.all (fun x => (match x.2.chunk, x.2.pending with | none, none => true | _, _ => false)) then s
  else s.squashHits src (changed s0 s) exactCause

/-! ## How an instruction ends -/

/-- Taking a trap, and what a trap that is taken at once wakes. -/
def State.trapped (s : State) (ops : List Opnd) (t : TrapReq) : State :=
  let u := s.takeTrap ops t
  if u.me.status = .trapped then u.react s 0 Config.contexts else u

/-- The outcome of an instruction whose effect came out as `r`, in the state `s` before it. -/
def settle (s : State) (ops : List Opnd) (r : Res) : Host.Outcome State Fault Refusal :=
  match r with
  | .ok t => .next t
  | .error (.trap t) => .next (s.trapped ops t)
  | .error (.endFirst why) => .next (s.endChunk why)
  | .error (.block on w2) => .next (s.blockOn on w2 ops)
  | .error (.out why) => .next (s.setMe { s.me with status := .out why })
  | .error (.refill r) => .next (s.refillTile r)
  | .error (.bad pa) => .fault (.noSuchAddress pa)

/-- An instruction of `len` bytes that is no boundary: its effect in the open chunk, then retirement. -/
def perform (s : State) (ops : List Opnd) (len : Nat) (f : State → Res) : Host.Outcome State Fault Refusal :=
  let s := s.openChunk
  settle s ops ((f s).map (·.retire len))

/-- Leaves rotation after retirement, for a multi-cycle or memory operation (12 R235). -/
def State.outFor (s : State) (why : OutWhy) : State :=
  match s.me.status with
  | .runnable => s.setMe { s.me with status := .out why }
  | _ => s

/-- As `perform`, of an instruction that takes its context out of rotation until it completes (12 R235). -/
def performOut (s : State) (ops : List Opnd) (len : Nat) (f : State → Res) : Host.Outcome State Fault Refusal :=
  let s := s.openChunk
  settle s ops ((f s).map (fun t => (t.retire len).outFor .operation))

end Sys2Proof.Machine
end

