-- ==== Sys2Proof/Machine/Matrix.lean ====
section
/-! DEFINITION. Matrix instructions (07 R156–R174). -/

namespace Sys2Proof.Machine

/-! ## Operands -/

/-- An operand of an `mma` as read: encodings by row, scale bytes by row, and its codebook. -/
structure MSide where
  fmt : Fmt
  enc : List (List Nat)
  scale : List (List Nat)
  cb : List Nat
  deriving DecidableEq, Repr

def MSide.at (m : MSide) (i k : Nat) : Nat := (m.enc.getD i []).getD k 0
def MSide.sc (m : MSide) (i b : Nat) : Nat := (m.scale.getD i []).getD b 127

/-- Values of block `b` of row `i`; the block's scale is applied apart (07 R163). -/
def MSide.val (m : MSide) (i k : Nat) : Val := elemValue m.fmt (fun c => m.cb.getD c 0) (m.at i k)

/-- A tile operand. -/
def sideOfTile (t : Tile) (mx : Bool) (cb : List Nat) : MSide :=
  { fmt := t.fmt, enc := (List.range t.rows).map (fun i => (List.range t.cols).map (t.enc i)),
    scale := if mx then (List.range t.rows).map (fun i => (t.side.drop (i * (t.cols / 32))).take (t.cols / 32)) else [],
    cb := cb }

/-- Bits [10:6] of a scratchpad offset under a rotation code (07 R161). -/
def rotate (rc i o : Nat) : Nat :=
  let b := bits o 6 5
  let b' := if rc = 0 then b else if rc = 1 then (b + i) % 32 else if rc = 2 then b ^^^ (i % 32) else (b + 2 * i) % 32
  o - b * 64 + b' * 64

/-- Offsets of the data bytes of row `i` of a scratchpad operand, before reduction (07 R161). -/
def spRowOffs (p0 p1 : Word) (ti k w i : Nat) : List Nat :=
  let base := bits p0.toNat 0 32
  let rp := bits p0.toNat 32 32
  let tp := bits p1.toNat 0 32
  let rc := bits p1.toNat 32 2
  (List.range ((k * w + 7) / 8)).map (fun c => rotate rc i ((base + ti * tp + i * rp + c) % 2 ^ 64))

/-- Offsets of the scale bytes of row `i`. -/
def spScaleOffs (p0 p1 : Word) (ti k i : Nat) : List Nat :=
  let base := bits p0.toNat 0 32
  let rp := bits p0.toNat 32 32
  let tp := bits p1.toNat 0 32
  (List.range (k / 32)).map (fun b => (base + ti * tp + 16 * rp + i * (k / 32) + b) % 2 ^ 64)

/-- Elements packed in the bytes of a row (05 R114). -/
def unpackRow (w n : Nat) (bs : List Byte) : List Nat :=
  let v := leNat bs
  (List.range n).map (fun j => bits v (j * w) w)

/-- A scratchpad operand, its bytes read by `rd` from offsets before reduction; rows that `on` excludes are zeros, never read
(07 R163). -/
def sideOfSp (f : Fmt) (mx : Bool) (cb : List Nat) (p0 p1 : Word) (ti k : Nat) (on : Nat → Bool) (rd : Nat → Byte) : MSide :=
  { fmt := f,
    enc := (List.range 16).map (fun i => if on i then unpackRow f.width k ((spRowOffs p0 p1 ti k f.width i).map rd) else List.replicate k 0),
    scale := if mx then (List.range 16).map (fun i => if on i then (spScaleOffs p0 p1 ti k i).map (fun o => (rd o).toNat) else [])
             else [],
    cb := cb }

/-! ## Accumulation (07 R166–R170) -/

/-- A float accumulator step: round(acc + t, RNE). -/
def accStep (acc : Nat) (t : Val) : Nat × Flags :=
  match floatFmt .fp32 with
  | some f =>
    let x := addVal .rne (f.value acc) t
    let r := roundFloat f .rne 0 false x.1
    (r.1, r.2 ||| x.2)
  | none => (0, 0)

/-- The products of a block, and their flags. -/
def blockProducts (a b : MSide) (i j lo n : Nat) : List Val × Flags :=
  let ps := (List.range n).map (fun q => mulVal (a.val i (lo + q)) (b.val j (lo + q)))
  (ps.map (·.1), ps.foldl (fun f p => f ||| p.2) 0)

/-- A block of the narrow-float group (07 R166). -/
def narrowBlock (a b : MSide) (i j β acc : Nat) : Nat × Flags :=
  let ps := blockProducts a b i j (32 * β) 32
  let s := sumVals .rne ps.1
  let sa := a.sc i β
  let sb := b.sc j β
  let t := if sa = 0xFF || sb = 0xFF then .nan else s.1.scale (((sa : Int) - 127) + ((sb : Int) - 127))
  let r := accStep acc t
  (r.1, r.2 ||| ps.2 ||| s.2)

/-- floor(|p| / 2^u) with the sign of p. -/
def truncTo (u : Int) (p : Val) : Int :=
  match p with
  | .fin s n e _ =>
    let q : Nat := if u ≤ e then n * 2 ^ (e - u).toNat else n / 2 ^ (u - e).toNat
    if s then -(q : Int) else q
  | _ => 0

/-- A block of the wide group (07 R167). -/
def wideBlock (a b : MSide) (i j β acc : Nat) : Nat × Flags :=
  let ps := blockProducts a b i j (32 * β) 32
  let s : Val × Flags :=
    if ps.1.any (fun p => p.isNan || p.isInf) then sumVals .rne ps.1
    else
      let logs := (ps.1.filter (fun p => p.exp?.isSome)).map Val.log2
      match logs.max? with
      | none => (.zero (ps.1.all (· = .zero true)), 0)
      | some m => (.ofScaled ((ps.1.map (truncTo (m - 47))).foldl (fun x y => x + y) 0) (m - 47) false, 0)
  let r := accStep acc s.1
  (r.1, r.2 ||| ps.2 ||| s.2)

/-- A step of the single group (07 R168). -/
def singleStep (a b : MSide) (i j k acc : Nat) : Nat × Flags :=
  match floatFmt .fp32 with
  | some f =>
    let x := fmaVal .rne (a.val i k) (b.val j k) (f.value acc)
    let r := roundFloat f .rne 0 false x.1
    (r.1, r.2 ||| x.2)
  | none => (0, 0)

/-- A block of the integer group; `none` in the second place ends the loop (07 R169). -/
def intBlock (a b : MSide) (sat : Bool) (i j β acc : Nat) : Nat × Flags × Bool :=
  let sa := a.sc i β
  let sb := b.sc j β
  if sa = 0xFF || sb = 0xFF then (0x80000000, NV, true)
  else
    let s := ((List.range 32).map (fun q => sextNat (a.at i (32 * β + q)) 8 * sextNat (b.at j (32 * β + q)) 8)).foldl
      (fun x y => x + y) (0 : Int)
    let e := ((sa : Int) - 127) + ((sb : Int) - 127)
    let t : Int × Bool := if 0 ≤ e then (s * 2 ^ e.toNat, false) else roundInt .rne 0 (Val.ofScaled s e false)
    let r := intoInt .i32 sat (sextNat acc 32 + t.1)
    (r.1, r.2 ||| (if t.2 then NX else 0), false)

/-- Steps `k, k + 1, …` of a float group. -/
def floatSteps (f : Nat → Nat → Nat × Flags) : Nat → Nat → Nat × Flags → Nat × Flags
  | 0, _, acc => acc
  | n + 1, k, acc => let r := f k acc.1; floatSteps f n (k + 1) (r.1, acc.2 ||| r.2)

/-- Blocks `β, β + 1, …` of the integer group. -/
def intSteps (f : Nat → Nat → Nat × Flags × Bool) : Nat → Nat → Nat × Flags → Nat × Flags
  | 0, _, acc => acc
  | n + 1, k, acc =>
    let r := f k acc.1
    if r.2.2 then (r.1, acc.2 ||| r.2.1) else intSteps f n (k + 1) (r.1, acc.2 ||| r.2.1)

/-- `accumulate` (07 R163, R164). -/
def accumulate (a b : MSide) (sat : Bool) (k i j acc : Nat) : Nat × Flags :=
  match a.fmt.group with
  | some .narrow => floatSteps (narrowBlock a b i j) (k / 32) 0 (acc, 0)
  | some .wide => floatSteps (wideBlock a b i j) (k / 32) 0 (acc, 0)
  | some .single => floatSteps (singleStep a b i j) k 0 (acc, 0)
  | some .integer => intSteps (intBlock a b sat i j) (k / 32) 0 (acc, 0)
  | none => (acc, 0)

/-- The D format of a group (07 R159). -/
def accFmt (f : Fmt) : Fmt := if f.group = some .integer then .i32 else .fp32

/-- The 256 results: encodings and flags (07 R163). -/
def mmaResult (a b : MSide) (sat zero : Bool) (k : Nat) (en : Nat → Nat → Bool) (d : Tile) : List Nat × Flags :=
  let r := (positions 16 16).map (fun p =>
    if en p.1 p.2 then accumulate a b sat k p.1 p.2 (if zero then 0 else d.enc p.1 p.2) else (d.enc p.1 p.2, 0))
  (r.map (·.1), r.foldl (fun f x => f ||| x.2) 0)

/-! ## Tokens (07 R173) -/

/-- Whether an `mma` of `cyc` cycles may start in a cluster now. -/
def State.tokenFree (s : State) (cluster cyc : Nat) : Bool :=
  (s.die (dieOfCluster cluster)).ringtok = 32 ||
  ((s.cluster cluster).token && (match (s.cluster cluster).burst with
    | none => true
    | some t => s.dieCycles cluster + cyc ≤ t + 512))

/-- Whether an `mma` of the executing context may start: a token, and no other `mma` of the cluster that waited before it. -/
def State.mmaMayStart (s : State) (cyc : Nat) : Bool :=
  s.tokenFree s.myCluster cyc && (match (s.cluster s.myCluster).tokenq with
    | [] => true
    | c :: _ => c = s.cur)

/-- Joins the waiters of the cluster. -/
def State.awaitToken (s : State) : State :=
  let k := s.cluster s.myCluster
  if k.tokenq.contains s.cur then s else s.setCluster s.myCluster { k with tokenq := k.tokenq ++ [s.cur] }

/-- An `mma` that waited starts: it leaves the queue, is counted in WAITCNT (07 R174), and the next waiter may try. -/
def State.mmaStarts (s : State) : State :=
  if s.me.tokenWait then (s.leaveTokenq s.cur).setMe { (s.leaveTokenq s.cur).me with waitcnt := s.me.waitcnt + 1, tokenWait := false }
  else s

/-- The burst begins with the first `mma` (07 R173). -/
def State.startBurst (s : State) (cluster : Nat) : State :=
  let k := s.cluster cluster
  if (s.die (dieOfCluster cluster)).ringtok = 32 || k.burst.isSome then s
  else s.setCluster cluster { k with burst := some (s.dieCycles cluster) }

/-- Cycles of a group (07 R159). -/
def mmaCycles (f : Fmt) : Nat := if f.group = some .single then 16 else 4

/-! ## The instructions -/

/-- An operand field: a tile, or a scratchpad pair with its selection. -/
inductive MOpnd where
  | tile (r : TReg)
  | sp (r : SReg) (sel : SpSel)
  deriving DecidableEq, Repr

def MOpnd.tiles : MOpnd → List TReg
  | .tile r => [r]
  | .sp _ _ => []

def mOpnd : MOpnd → Opnd
  | .tile r => .t r
  | .sp r _ => .s r

/-- The second register of a pair. -/
def sNext : SReg → SReg
  | .s n => .s (n + 1)
  | .g n => .g (n + 1)

/-- The shape check of one operand (07 R160). -/
def State.mmaFits (s : State) (o : MOpnd) (f : Fmt) (mx : Bool) (k : Nat) : Bool :=
  match o with
  | .tile r => (s.tile r).rows = 16 && (s.tile r).fmt = f && (s.tile r).scaled = mx && (s.tile r).cols = k
  | .sp _ _ => true

/-- Absolute scratchpad addresses that a scratchpad operand reads, those of rows that `on` excludes left out. -/
def State.mmaAddrs (s : State) (o : MOpnd) (f : Fmt) (mx : Bool) (k : Nat) (on : Nat → Bool) : List Nat :=
  match o with
  | .tile _ => []
  | .sp r sl =>
    let p0 := s.val r
    let p1 := s.val (sNext r)
    ((List.range 16).filter on).flatMap (fun i =>
      (spRowOffs p0 p1 sl.ti.toNat k f.width i ++ (if mx then spScaleOffs p0 p1 sl.ti.toNat k i else [])).map
        (fun x => s.me.p.spAddr (word x)))

/-- An operand as read. -/
def State.mmaSide (s : State) (o : MOpnd) (f : Fmt) (mx : Bool) (k : Nat) (on : Nat → Bool) : MSide :=
  match o with
  | .tile r => sideOfTile (s.tile r) mx (codebook s.me.p.cb (shapeCbsel (s.tile r).shape))
  | .sp r sl => sideOfSp f mx (codebook s.me.p.cb sl.cb.toNat) (s.val r) (s.val (sNext r)) sl.ti.toNat k on
      (fun o => s.spByteAt (s.me.p.spAddr (word o)))

/-- Scalars that an operand reads. -/
def MOpnd.scalars : MOpnd → List SReg
  | .tile _ => []
  | .sp r _ => [r, sNext r]

/-- The effect of every form (07 R160, R163, R172): checks, the token, the result. -/
def mmaOp (d : TReg) (a b : MOpnd) (f : MmaFmt) (zero : Bool) (k? : Option Nat) (s : State) : Res := do
  s.confTiles (d :: (a.tiles ++ b.tiles))
  s.confMask
  let t := s.tile d
  let k := match k?, a with
    | some k, _ => k
    | none, .tile r => (s.tile r).cols
    | none, _ => 0
  shapeUnless (t.rows = 16 && t.cols = 16 && !t.scaled && t.fmt = accFmt f.af && s.mmaFits a f.af f.mx k && s.mmaFits b f.bf f.mx k &&
    kRule f.af f.bf k && s.maskFits 16 16)
  s.filled (d :: (a.tiles ++ b.tiles))
  if s.mmaMayStart (mmaCycles f.af) then do
    let onA (i : Nat) : Bool := (List.range 16).any (s.enabled i)
    let onB (j : Nat) : Bool := (List.range 16).any (fun i => s.enabled i j)
    let r := mmaResult (s.mmaSide a f.af f.mx k onA) (s.mmaSide b f.bf f.mx k onB) s.pfxSat zero k s.enabled t
    let s1 := (s.note (if zero && s.pfxMask?.isNone then tShapeLocs s.myCore d else tDataLocs s.myCore d)).noteTiles (a.tiles ++ b.tiles)
    let s1 := (s1.noteS (a.scalars ++ b.scalars)).noteSp (s.mmaAddrs a f.af f.mx k onA ++ s.mmaAddrs b f.bf f.mx k onB)
    pure (((s1.setTile d (t.withData r.1 t.side)).orFlags r.2).startBurst s.myCluster).mmaStarts
  else .error (.out .token)

def mmaExec (d : TReg) (a b : MOpnd) (f : MmaFmt) (zero : Bool) (k? : Option Nat) (s : State) : Host.Outcome State Fault Refusal :=
  let s := s.openChunk
  match mmaOp d a b f zero k? s with
  | .error (.out .token) =>
    .next (s.awaitToken.setMe { s.me with status := .out .token, tokenWait := true })
  | r => settle s [.t d, mOpnd a, mOpnd b] (r.map (fun t =>
      let u := (t.retire 8).outFor .operation
      u.setMe { u.me with mma := u.me.status = .out .operation }))

def execMma (d a b : TReg) (f : MmaFmt) (s : State) : Host.Outcome State Fault Refusal :=
  mmaExec d (.tile a) (.tile b) f false none s
def execMmaSa (d : TReg) (a : SReg) (b : TReg) (f : MmaFmt) (km1 : BitVec 7) (pa : SpSel) (s : State) :
    Host.Outcome State Fault Refusal :=
  mmaExec d (.sp a pa) (.tile b) f false (some (km1.toNat + 1)) s
def execMmaSb (d a : TReg) (b : SReg) (f : MmaFmt) (km1 : BitVec 7) (pb : SpSel) (s : State) : Host.Outcome State Fault Refusal :=
  mmaExec d (.tile a) (.sp b pb) f false (some (km1.toNat + 1)) s
def execMmaSs (d : TReg) (a b : SReg) (f : MmaFmt) (km1 : BitVec 7) (pa pb : SpSel) (s : State) :
    Host.Outcome State Fault Refusal :=
  mmaExec d (.sp a pa) (.sp b pb) f false (some (km1.toNat + 1)) s
def execMmaZ (d a b : TReg) (f : MmaFmt) (s : State) : Host.Outcome State Fault Refusal :=
  mmaExec d (.tile a) (.tile b) f true none s

end Sys2Proof.Machine
end

