-- ==== Sys2Proof/Machine/Engine.lean ====
section
/-! DEFINITION. Engine contexts: circular buffers, copies, follow-ons, routing, collectives, and their acquire points (09 R192, R193,
10 R216–R229). -/

namespace Sys2Proof.Machine

/-! ## Error codes (10 R218) -/

namespace EngErr
def xlate : Nat := 1
def perm : Nat := 2
def poison : Nat := 3
def bounds : Nat := 4
def aborted : Nat := 5
def remote : Nat := 6
def busy : Nat := 7
def cancelled : Nat := 8
end EngErr

/-! ## Circular buffers (10 R216, R217, R224, R225) -/

def CBuf.used (b : CBuf) : List Nat := b.fill ++ b.filled ++ b.held
def CBuf.freeCount (b : CBuf) : Nat := b.nslot - b.used.length
/-- The next slot to claim: the first free one from the cursor on. -/
def CBuf.next (b : CBuf) : Option Nat :=
  ((List.range b.nslot).map (fun i => (b.claim + i) % b.nslot)).find? (fun x => !b.used.contains x)
def CBuf.claimSlot (b : CBuf) (x : Nat) : CBuf := { b with claim := (x + 1) % b.nslot, fill := b.fill ++ [x] }
def CBuf.toFilled (b : CBuf) (x : Nat) : CBuf := { b with fill := b.fill.filter (· ≠ x), filled := b.filled ++ [x] }
def CBuf.toFree (b : CBuf) (x : Nat) : CBuf := { b with fill := b.fill.filter (· ≠ x) }
/-- The oldest held slot goes free (10 R217). -/
def CBuf.give (b : CBuf) : CBuf := { b with held := b.held.drop 1 }
/-- The oldest filled slot becomes held. -/
def CBuf.take (b : CBuf) : CBuf := { b with filled := b.filled.drop 1, held := b.held ++ b.filled.take 1 }

def Cluster.setCbuf (k : Cluster) (m : Nat) (b : CBuf) : Cluster := { k with cbufs := aput k.cbufs m b }

def State.setEngine (s : State) (cl e : Nat) (x : Engine) : State := s.setCluster cl ((s.cluster cl).setEngine e x)
def State.engine (s : State) (cl e : Nat) : Engine := (s.cluster cl).engine e

/-! ## The timeline as read (10 R221, 09 R193) -/

/-- A count with the first failure and the follow-on flags that go with it. -/
structure TlView where
  count : Nat
  err : Option (Nat × Nat × Word)
  flags : BitVec 5
  deriving DecidableEq, Repr

/-- The timeline as it stood when the commands up to number `n` had been performed: a clear among them has wiped what came before. -/
def Engine.upTo (e : Engine) (n : Nat) : TlView :=
  let q := (e.clears.filter (· ≤ n)).foldl max 0
  let on (m : Nat) : Bool := q < m && m ≤ n
  { count := n, err := firstOf (fun x y => x.1 < y.1) (e.errAt.filter (fun x => on x.1)), flags := (e.flagsAt.filter (fun x => on x.1)).foldl (fun f x => f ||| x.2) 0 }

/-- The count that the launch of a slot has acquired (09 R193). -/
def Engine.acq (e : Engine) (slot : Nat) : Nat := aget 0 e.acquired slot

/-- The timeline that a context of launch slot `slot` sees, in the given mode. -/
def Engine.view (e : Engine) (det : Bool) (slot : Nat) : TlView :=
  if det then e.upTo (e.acq slot)
  else { count := e.count, err := if e.err then some (e.errseq, e.errcode, e.fault) else none, flags := e.fflags }

/-- Values `tl.read` returns. -/
def TlView.readSel (v : TlView) (sel : Nat) : Word :=
  match sel with
  | 0 => word (match v.err with | some x => 2 ^ 63 + x.2.1 * 2 ^ 56 + v.count | none => v.count)
  | 1 => word (match v.err with | some x => x.1 | none => 0)
  | 2 => match v.err with | some x => x.2.2 | none => 0
  | _ => zext v.flags

/-- The member of the read set for the timeline of engine context `e` as the launch of `slot` sees it. -/
def tlLoc (cl e slot : Nat) : Loc := .engine cl (16 + e + 32 * slot)

/-! ## Queueing (10 R219) -/

/-- Memory as a read sees it, partials combined. -/
def State.viewMem (s : State) : Memory :=
  ((s.pods.flatMap (fun x => x.2.partials.map (·.line))).eraseDups).foldl
    (fun m l => m.writeBytes (l * 64) ((List.range 64).map (fun i => s.committed (l * 64 + i)))) s.mem

/-- What a deterministic command will read (09 R193). -/
def State.snapshot (s : State) : Snap := ⟨s.viewMem, s.clusters.map (fun k => (k.1, k.2.spm)), s.hostMem, s.poison⟩

/-- The package as a command reads it: as it stands, or as it stood at the issuing commit (09 R193). -/
def State.asOf (s : State) : Option Snap → State
  | none => s
  | some m => { s with mem := m.mem, hostMem := m.host, poison := m.poison,
                       clusters := s.clusters.map (fun k => (k.1, { k.2 with spm := aget [] m.spms k.1 })),
                       pods := s.pods.map (fun p => (p.1, { p.2 with partials := [] })) }

/-- A command enters the store at its chunk's commit. -/
def State.queueCmd (s : State) (c e : Nat) (kind : CmdKind) (cb : Vector Word 16) (det : Bool) : State :=
  let cl := clusterOf c
  let x := s.engine cl e
  let p := (s.ctx c).p
  let cmd : Cmd :=
    { seq := x.tail + 1, kind := kind, ctx := c, slot := p.launchid.toNat, spbase := p.spbase.toNat, spsize := p.spsize.toNat, cb := cb,
      bank := p.bankmask, det := det, snap := if det then some s.snapshot else none, eng := e }
  s.setEngine cl e { x with tail := x.tail + 1, store := x.store ++ [cmd] }

/-! ## Completion and failure (10 R220) -/

/-- What an acquire point will install of a deterministic command. -/
def Run.heldCmd (r : Run) (slot : Option (Nat × Nat)) (base : Nat) (frees fo : Bool) : HeldCmd :=
  ⟨r.cmd, r.heldMem, r.heldSpm, slot, base, frees, fo⟩

/-- COUNT rises to a command's sequence number. -/
def Engine.finish (e : Engine) (r : Run) (h : List HeldCmd) (fl : Flags) : Engine :=
  { e with count := r.cmd.seq, run := none, held := e.held ++ h, fflags := (e.fflags ||| fl), flagsAt := e.flagsAt ++ [(r.cmd.seq, fl)] }

/-- The first failure is recorded (10 R220). -/
def Engine.failed (e : Engine) (seq code : Nat) (fault : Word) : Engine :=
  let e := { e with errAt := e.errAt ++ [(seq, code, fault)] }
  if e.err then e else { e with err := true, errcode := code, errseq := seq, fault := fault }

/-- A command fails: what it wrote stays, and COUNT passes it. -/
def Engine.fail (e : Engine) (r : Run) (code : Nat) (fault : Word) : Engine :=
  let slot := match r.slot, r.cmd.kind with | some x, .copy f .. => some (f.cbn.toNat, x) | _, _ => none
  (e.failed r.cmd.seq code fault).finish r (if r.cmd.det then [r.heldCmd slot 0 false false] else []) 0

def State.failCmd (s : State) (cl e : Nat) (r : Run) (code : Nat) (fault : Word) : State :=
  s.setEngine cl e ((s.engine cl e).fail r code fault)

/-- The commands of an engine context are withdrawn by recovery (10 R218): the one performed fails, or the next, and the others are
skipped, so that COUNT passes them all (10 R220). -/
def Engine.cancel (e : Engine) : Engine :=
  match (e.run.map (·.cmd)).toList ++ e.store with
  | [] => e
  | c :: l => { e.failed c.seq EngErr.cancelled 0 with run := none, store := [], count := (l.map (·.seq)).foldl max c.seq }

/-! ## Copies: what is written and from where (10 R223, R224) -/

/-- Offsets of destination and source, dimension 0 fastest; no source where some index is not valid. -/
def walkElems : List Dim → List (Int × Option Int)
  | [] => [(0, some 0)]
  | d :: ds => (walkElems ds).flatMap (fun o => (List.range d.size).map (fun (i : Nat) =>
      (o.1 + (i : Int) * d.dstr, if i < d.vld then o.2.map (fun x => x + (i : Int) * d.sstr) else none)))

/-- An address moved by a signed offset, modulo 2^64. -/
def wordAdd (b : Word) (i : Int) : Word := b + BitVec.ofInt 64 i

/-- Where byte `k` of an element lands, as a line and an offset in it. -/
def destByte (cmd : Cmd) (f : CpyF) (b : Word) (slot : Option Nat) (o : Int) (k : Nat) : LineAt × Nat :=
  match slot with
  | some base => let a := (base + (wordAdd b o).toNat + k) % Config.spmBytes; (.spm (a / 64 * 64), a % 64)
  | none =>
    if f.dsp then
      let a := cmd.spbase + (wordAdd b (o + k)).toNat % cmd.spsize
      (.spm (a / 64 * 64), a % 64)
    else
      let a := wordAdd b (o + k)
      ((if isGlob a then .glob (a - word (a.toNat % 64)) else .mem (a - word (a.toNat % 64))), a.toNat % 64)

def srcByte (cmd : Cmd) (f : CpyF) (a : Word) (o : Option Int) (k : Nat) : JobSrc :=
  match o with
  | none => .zero
  | some o => if f.ssp then .sp (cmd.spbase + (wordAdd a (o + k)).toNat % cmd.spsize) else .va (wordAdd a (o + k))

/-- Adds one byte to the job of its line; a later element of one byte wins. -/
def jobPut (l : List LineJob) (at_ : LineAt) (i : Nat) (x : JobSrc) : List LineJob :=
  match l with
  | [] => [⟨at_, [(i, x)]⟩]
  | j :: js => if j.dest = at_ then { j with bytes := aput j.bytes i x } :: js else j :: jobPut js at_ i x

/-- The jobs of a copy, in the order in which the walk first reaches their lines. -/
def copyJobs (cmd : Cmd) (f : CpyF) (a b : Word) (slot : Option Nat) (dims : List Dim) : List LineJob :=
  let n := 2 ^ f.esz.toNat
  (walkElems dims).foldl (fun l x =>
    (List.range n).foldl (fun l k =>
      let d := destByte cmd f b slot (x.1 * n) k
      jobPut l d.1 d.2 (srcByte cmd f a (x.2.map (· * n)) k)) l) []

/-- The first element that BOUNDS stops: a misaligned local or global address, or a byte outside the slot (10 R223, R224). -/
def copyBounds (f : CpyF) (a b : Word) (slot : Option (Nat × Nat)) (dims : List Dim) : Option Word :=
  let n := 2 ^ f.esz.toNat
  (walkElems dims).findSome? (fun x =>
    let d := wordAdd b (x.1 * n)
    let off : Int := b.toNat + x.1 * n
    if slot.isNone && !f.dsp && d.toNat % n ≠ 0 then some d
    else match slot with
      | some (_, size) => if off < 0 || (size : Int) < off + n then some d else
          (match x.2 with
           | some o => if !f.ssp && (wordAdd a (o * n)).toNat % n ≠ 0 then some (wordAdd a (o * n)) else none
           | none => none)
      | none => match x.2 with
          | some o => if !f.ssp && (wordAdd a (o * n)).toNat % n ≠ 0 then some (wordAdd a (o * n)) else none
          | none => none)

/-- The shape record is within its limits (10 R223). -/
def dimsOk (dims : List Dim) (highZero : Bool) : Bool :=
  highZero && dims.all (fun d => 1 ≤ d.size && d.size ≤ 2 ^ 24 && d.vld ≤ d.size)

/-! ## Reads and writes of a line event -/

/-- The virtual device that an engine command runs under. -/
def State.cmdVf (s : State) (cl : Nat) : Vf := match s.podAt cl with | some p => s.vf (s.pod p).vf | none => {}

def State.cmdVfId (s : State) (cl : Nat) : Nat := match s.podAt cl with | some p => (s.pod p).vf | none => 0

/-- Why a line event cannot happen: the command fails, it waits for a frame or another chip, or the address does not exist. -/
inductive EngStop where
  | fail (code : Nat) (fault : Word)
  | wait (n : Need) (va : Word)
  | ask (g : Word)
  deriving DecidableEq, Repr

/-- Translation for an engine, through the tables as they stand, or as they stood at the issuing commit (09 R193). -/
def State.engXlate (s : State) (cl : Nat) (cmd : Cmd) (va : Word) (acc : Access) : Except EngStop Target :=
  match translate (s.asOf cmd.snap) (s.cmdVf cl) va acc with
  | .ok (t, _) => .ok t
  | .error .xlate => .error (.fail EngErr.xlate va)
  | .error .perm => .error (.fail EngErr.perm va)
  | .error (.stage2 ipa) => .error (.wait (.frame ipa) va)
  | .error (.ats p) => .error (.wait (.page p) va)
  | .error (.bad _) => .error (.fail EngErr.xlate va)
  | .error (.poison n) => .error (.fail EngErr.poison (word (n * 64)))

/-- The checks of 01 R32 for an engine. -/
def State.engGlob (s : State) (cl : Nat) (g : Word) : Except EngStop Glob :=
  let x := globOf g
  let pod := match s.podAt cl with | some p => s.pod p | none => {}
  if 192 ≤ x.chip then .error (.fail EngErr.xlate g)
  else if !s.globPerm pod x then .error (.fail EngErr.perm g)
  else if x.spm && 2 ^ 21 ≤ x.off then .error (.fail EngErr.xlate g)
  else .ok x

/-- Element address of a byte of a command. -/
def CmdKind.elemOf (k : CmdKind) (a : Word) : Word :=
  match k with
  | .copy f .. => a - word (a.toNat % 2 ^ f.esz.toNat)
  | .coll _ bf .. => a - word (a.toNat % (if bf then 2 else 4))
  | _ => a

/-- An engine context as a source of replay records (16 R329). -/
def engSrc (cl e : Nat) : Nat := 32768 + cl * 16 + e

/-- A byte of host memory that an engine context reads: a recorded one of a re-run (16 R333). -/
def State.engHost (s : State) (cl e k : Nat) : Byte :=
  ((match s.podAt cl with | some p => (s.pod p).records | none => []).findSome? (fun (x : Logged) => match x with
    | .host c line bs => if c = engSrc cl e && line = k / 64 then some (bs.getD (k % 64) 0) else none
    | _ => none)).getD (s.committed k)

/-- A byte of memory, by its key, as a running command reads it: what it has itself written reads as before its first write (10 R223), and
a poisoned line fails it (10 R218). -/
def State.engKey (s : State) (cl : Nat) (r : Run) (k : Nat) : Except EngStop Byte :=
  let u := s.asOf r.cmd.snap
  if r.poisoned.contains (k / 64) then .error (.fail EngErr.poison (word (k / 64 * 64)))
  else match afind? r.orig k with
    | some b => .ok b
    | none =>
      if u.poison.contains (k / 64) then .error (.fail EngErr.poison (word (k / 64 * 64)))
      else if hostBase ≤ k then .ok (u.engHost cl r.cmd.eng k)
      else .ok (u.committed k)

/-- A byte of a scratchpad as a running command reads it. -/
def State.engSp (s : State) (r : Run) (cl o : Nat) : Byte :=
  match afind? r.origSpm (cl * Config.spmBytes + o) with
  | some b => b
  | none => ((s.asOf r.cmd.snap).cluster cl).spm.read o

/-- A source byte of a running command. -/
def State.engByte (s : State) (cl : Nat) (r : Run) (x : JobSrc) : Except EngStop Byte :=
  match x with
  | .zero => .ok 0
  | .lit b => .ok b
  | .sp o => .ok (s.engSp r cl o)
  | .va a =>
    if isGlob a && (match r.cmd.kind with | .coll .. => true | _ => false) then .error (.fail EngErr.xlate (r.cmd.kind.elemOf a))
    else if isGlob a then
      match s.engGlob cl (r.cmd.kind.elemOf a) with
      | .error e => .error e
      | .ok g =>
        let w := a - word (a.toNat % 8)
        if g.chip = s.chipNum then
          match (s.asOf r.cmd.snap).remoteTarget s.chipNum (s.cmdVfId cl) 0 w false with
          | .ok (.wait n) => .error (.wait n w)
          | .ok (.key k) => s.engKey cl r (k + a.toNat % 8)
          | .ok (.spm k o) => .ok (s.engSp r k (o + a.toNat % 8))
          | .ok t => .ok (.ofNat 8 ((s.remoteRead t).toNat / 2 ^ (8 * (a.toNat % 8))))
          | .error _ => .error (.fail EngErr.remote w)
        else match r.got.find? (·.1 = w.toNat) with
          | some v => .ok (.ofNat 8 (v.2.toNat / 2 ^ (8 * (a.toNat % 8))))
          | none => .error (.ask w)
    else match s.engXlate cl r.cmd (r.cmd.kind.elemOf a) .read with
      | .error e => .error e
      | .ok (.mmio _) => .error (.fail EngErr.perm (r.cmd.kind.elemOf a))
      | .ok t => s.engKey cl r (t.key + (a - r.cmd.kind.elemOf a).toNat)

end Sys2Proof.Machine
end

