-- ==== Sys2Proof/Machine/EngineRun.lean ====
section
/-! DEFINITION. Performing engine commands (09 R192, R193, 10 R219–R229). -/

namespace Sys2Proof.Machine

def State.setRun (s : State) (cl e : Nat) (r : Run) : State := s.setEngine cl e { s.engine cl e with run := some r }

/-- Records that replay performs at their place between commits. -/
def Logged.acts : Logged → Bool
  | .refusal c _ => c < 32768
  | .inbound .. | .coll _ | .cut _ | .leave | .launch _ | .loaded .. | .mapped .. | .restored .. | .command .. => true
  | .commit .. | .end_ .. | .value .. | .refused .. | .host .. | .translation .. => false

def Logged.isCommit : Logged → Bool
  | .commit .. => true
  | _ => false

/-- During replay, whether the next entry of a FULL pod's commit log lets this event happen; a REPORT pod runs free (16 R332, R333). -/
def State.replayAllows (s : State) (pid lvl3 src : Nat) : Bool :=
  match (s.pod pid).replay with
  | none => true
  | some l =>
    !(s.pod pid).full || (l.takeWhile (fun x => !x.isCommit)).all (fun x => !x.acts) &&
    (match l.find? Logged.isCommit with
     | some (.commit _ lvl x) => (if lvl = 3 then 1 else 0) = lvl3 && x = src
     | _ => true)

/-- Uses up that entry. -/
def State.replayStep (s : State) (pid : Nat) : State :=
  match (s.pod pid).replay with
  | none => s
  | some l =>
    s.setPod pid { s.pod pid with replay := some (l.takeWhile (fun x => !x.isCommit) ++ (l.dropWhile (fun x => !x.isCommit)).drop 1) }

/-- Records an event of the commit order of a FULL pod in free mode, or uses up its entry during replay (09 R186, 16 R333). -/
def State.logEvent (s : State) (pid : Nat) (det : Bool) (x : Logged) : State :=
  if !(s.pod pid).full || det then s
  else if (s.pod pid).replay.isSome then s.replayStep pid
  else s.setPod pid { s.pod pid with log := (s.pod pid).log ++ [x] }

def State.logEngine (s : State) (cl e : Nat) (r : Run) : State :=
  match s.podAt cl with
  | some p => s.logEvent p r.cmd.det (.commit (r.cmd.seq % 2 ^ 16) 3 (cl * 16 + e))
  | none => s

/-- The ticket holder's reads keep an event away (09 R183 step 2). -/
def State.ticketBlocks (s : State) (except : Nat) (hit : Loc → Bool) : Bool :=
  match s.ticket with
  | none => false
  | some h => h ≠ except && (match (s.ctx h).chunk with | some k => k.reads.any hit | none => false)

/-! ## Beginning a command (10 R220, R224, R225, R228) -/

/-- The base of slot `x` of a buffer. -/
def CBuf.slotBase (b : CBuf) (x : Nat) : Nat := b.base + x * b.slot

/-- A line in global form whose bank bit the issuer's `BANKMASK` lacked at the issue (10 R208, R223). -/
def State.unbanked (s : State) (cmd : Cmd) : LineAt → Option Word
  | .glob g => if cmd.bank.getLsbD (s.globBank (globOf g)) then none else some g
  | _ => none

/-- Plans a copy whose slot, if it has one, is settled. -/
def State.planCopy (s : State) (cl e : Nat) (r : Run) : State :=
  match r.cmd.kind with
  | .copy f a b dims hz _ =>
    let slot := match r.slot with
      | some x => ((s.cluster cl).cbuf? f.cbn.toNat).map (fun k => (k.slotBase x, k.slot))
      | none => none
    if !dimsOk dims hz then s.failCmd cl e r EngErr.bounds 0
    else match copyBounds f a b slot dims with
      | some va => s.failCmd cl e r EngErr.bounds va
      | none =>
        let jobs := copyJobs r.cmd f a b (slot.map (·.1)) dims
        match jobs.findSome? (fun j => s.unbanked r.cmd j.dest) with
        | some g => s.failCmd cl e r EngErr.perm g
        | none => s.setRun cl e { r with waitSlot := false, jobs := jobs }
  | _ => s

/-- Claims a slot if one is free, else leaves the command waiting (10 R224). -/
def State.claimFor (s : State) (cl e m : Nat) (r : Run) : State :=
  match (s.cluster cl).cbuf? m with
  | none => s.failCmd cl e r EngErr.bounds 0
  | some b => match b.next with
    | none => if r.waitSlot then s else s.setRun cl e { r with waitSlot := true, since := s.refTime }
    | some x =>
      let s := s.setCluster cl ((s.cluster cl).setCbuf m (b.claimSlot x))
      let s := s.setEngine cl e { s.engine cl e with opens := aput (s.engine cl e).opens m x }
      s.planCopy cl e { r with slot := some x }

/-- A configure command (10 R225). -/
def State.cfgCmd (s : State) (cl e : Nat) (r : Run) (m base : Nat) (b : Word) : State :=
  let slot := bits b.toNat 0 32
  let n := bits b.toNat 32 16
  let k := s.cluster cl
  let busy := (match k.cbuf? m with | some x => !x.used.isEmpty | none => false) ||
    k.engines.any (fun x => x.1 ≠ e && x.2.opens.any (·.1 = m))
  if slot % 64 ≠ 0 || slot < 64 || 65536 < slot || n < 1 || 256 < n || bits b.toNat 48 16 ≠ 0 then s.failCmd cl e r EngErr.bounds 0
  else if busy then s.failCmd cl e r EngErr.busy 0
  else
    let s := s.setCluster cl (k.setCbuf m { base := base, slot := slot, nslot := n })
    s.setEngine cl e ((s.engine cl e).finish r [] 0)

/-- A clear command (10 R220, R224). -/
def State.clearCmd (s : State) (cl e : Nat) (r : Run) : State :=
  let s := (s.engine cl e).opens.foldl (fun s o =>
    match (s.cluster cl).cbuf? o.1 with
    | some b => s.setCluster cl ((s.cluster cl).setCbuf o.1 (b.toFree o.2))
    | none => s) s
  let x := { s.engine cl e with err := false, errcode := 0, errseq := 0, fault := 0, opens := [], clears := (s.engine cl e).clears ++ [r.cmd.seq] }
  s.setEngine cl e { x.finish r [] 0 with fflags := 0 }

/-- Input entries and outputs of a routing command (10 R228). -/
structure Routing where
  cnt : List (Nat × Nat) := []
  list : List (Nat × List Nat) := []
  drop : List Nat := []
  deriving DecidableEq, Repr

/-- One assignment `l` with expert `v`. -/
def Routing.put (x : Routing) (c k l v : Nat) : Routing :=
  let t := l / k + (l % k) * 2 ^ 16
  let n := aget 0 x.cnt v
  if v = 0xFFFF then x
  else if n < c then { x with cnt := aput x.cnt v (n + 1), list := aput x.list v (aget [] x.list v ++ [t]) }
  else { x with drop := x.drop ++ [t] }

/-- The 32-bit words a routing command writes from b on. -/
def Routing.out (x : Routing) (e c : Nat) : List Nat :=
  (List.range e).map (fun v => aget 0 x.cnt v) ++
  (List.range e).flatMap (fun v => let l := aget [] x.list v; l ++ List.replicate (c - l.length) 0xFFFFFFFF) ++
  [x.drop.length] ++ x.drop

/-- Jobs that write bytes to the scratchpad of a command from offset `b` on. -/
def spJobs (cmd : Cmd) (b : Word) (bs : List Byte) : List LineJob :=
  (bs.zip (List.range bs.length)).foldl (fun l x =>
    let a := cmd.spbase + (b + word x.2).toNat % cmd.spsize
    jobPut l (.spm (a / 64 * 64)) (a % 64) (.lit x.1)) []

def State.routeCmd (s : State) (cl e : Nat) (r : Run) (a b : Word) (k t ex c : Nat) : State :=
  let spm := ((s.asOf r.cmd.snap).cluster cl).spm
  let rd (o : Word) : Nat := (spm.read (r.cmd.spbase + o.toNat % r.cmd.spsize)).toNat
  let entry (l : Nat) : Nat := rd (a + word (2 * l)) + 256 * rd (a + word (2 * l + 1))
  let es := (List.range (t * k)).map entry
  if t = 0 || es.any (fun v => v ≠ 0xFFFF && ex ≤ v) then s.failCmd cl e r EngErr.bounds 0
  else
    let x := (es.zip (List.range es.length)).foldl (fun x v => Routing.put x c k v.2 v.1) {}
    s.setRun cl e { r with jobs := spJobs r.cmd b ((x.out ex c).flatMap (leBytes 4)) }

/-- Members of a collective group that a virtual device's policy grants, ascending (10 R229). -/
def Vf.members (v : Vf) (g : Nat) : List Nat :=
  match v.policy with
  | some p => bitList (p.groups.getD g 0) 192
  | none => []

/-- Beginning a command: the first in the store, if none is being performed. -/
def State.beginCmd (s : State) (cl e : Nat) : State :=
  let x := s.engine cl e
  match x.run, x.store with
  | none, cmd :: rest =>
    let r : Run := { cmd := cmd }
    let s := s.setEngine cl e { x with store := rest }
    if x.err && cmd.kind ≠ .clear then s.setEngine cl e ((s.engine cl e).finish r [] 0)
    else if cmd.aborted then s.failCmd cl e r EngErr.aborted 0
    else match cmd.kind with
      | .clear => s.clearCmd cl e r
      | .cfg m base b => s.cfgCmd cl e r m base b
      | .copy f _ _ _ _ fo =>
        let m := f.cbn.toNat
        let cbrel : Bool := match fo with | some y => bits y.flg 1 1 = 1 | none => false
        if f.cbv then
          if ((s.cluster cl).cbuf? m).isNone then s.failCmd cl e r EngErr.bounds 0
          else match afind? x.opens m with
            | some slot => s.planCopy cl e { r with slot := some slot }
            | none => s.claimFor cl e m r
        else if cbrel then s.failCmd cl e r EngErr.bounds 0
        else s.planCopy cl e r
      | .route a b k t ex c => s.routeCmd cl e r a b k t ex c
      | .coll ck bf g n _ a b =>
        let ms := (s.cmdVf cl).members g
        let es := if bf then 2 else 4
        if !ms.contains s.chipNum || ms.length < 2 then s.failCmd cl e r EngErr.perm 0
        else if isGlob a || isGlob b then s.failCmd cl e r EngErr.xlate (if isGlob a then a else b)
        else if n = 0 || (ck = .redscatter && n % ms.length ≠ 0) || a.toNat % es ≠ 0 || b.toNat % es ≠ 0 then
          s.failCmd cl e r EngErr.bounds 0
        else s.setRun cl e r
  | _, _ => s

/-- A waiting command takes the slot that has become free (10 R224). -/
def State.claimCmd (s : State) (cl e : Nat) : State :=
  match (s.engine cl e).run with
  | some r =>
    match r.waitSlot, r.cmd.kind with
    | true, .copy f .. => s.claimFor cl e f.cbn.toNat r
    | _, _ => s
  | none => s

/-! ## One-line events (09 R192) -/

/-- The answers that the records of a re-run still hold for an engine context (16 R329). -/
def State.engAnswers (s : State) (cl e : Nat) : List Logged :=
  (match s.podAt cl with | some p => (s.pod p).records | none => []).filter (·.answers (engSrc cl e))

/-- A record of the pod of a cluster is used up. -/
def State.useRecord (s : State) (cl : Nat) (x : Logged) : State :=
  match s.podAt cl with
  | some p => s.setPod p ((s.pod p).mapRecords (fun l => l.erase x))
  | none => s

/-- A request of an engine to another chip for 8 bytes goes out (10 R223). -/
def State.sendAsk (s : State) (cl e : Nat) (r : Run) (g : Word) : State :=
  if r.request.isSome then s
  else
    let i := s.newRid
    let h := i.2.opHeader r.cmd.ctx g i.1
    (h.2.sendFlit (h.2.portOf r.cmd.ctx (globOf g).core) (globOf g).chip (.rld h.1)).setRun cl e { r with request := some (i.1, g, s.refTime) }

/-- An engine needs 8 bytes of another chip: it asks for them, or takes them, or their refusal, from the records of its replay, the request
going out again to be discarded (16 R334). -/
def State.askWord (s : State) (cl e : Nat) (r : Run) (g : Word) : State :=
  match s.engAnswers cl e with
  | .value c v :: _ => ((s.sendAsk cl e r g).useRecord cl (.value c v)).setRun cl e { r with request := none, got := aput r.got g.toNat v }
  | .refused c n h :: _ => ((s.sendAsk cl e r g).useRecord cl (.refused c n h)).failCmd cl e r EngErr.remote g
  | _ => s.sendAsk cl e r g

/-- An answer to the request of an engine context, which a FULL pod records (16 R329). -/
def State.answerRun (s : State) (cl e : Nat) (r : Run) (g v : Word) : State :=
  (s.logAnswer (s.podAt cl) (.value (engSrc cl e) v)).setRun cl e { r with request := none, got := aput r.got g.toNat v }

/-- The refusal `x` of a read or write of an engine context fails its command (10 R218); a FULL pod records it. -/
def State.refuseRun (s : State) (cl e : Nat) (r : Run) (x : Logged) (g : Word) : State :=
  (s.logAnswer (s.podAt cl) x).failCmd cl e r EngErr.remote g

/-- Lines of host memory among the sources of a job. -/
def State.hostLines (s : State) (cl : Nat) (r : Run) (l : List (Nat × JobSrc)) : List Nat :=
  (l.filterMap (fun x => match x.2 with
    | .va a =>
      if isGlob a then none
      else match s.engXlate cl r.cmd (r.cmd.kind.elemOf a) .read with
        | .ok t => if hostBase ≤ t.key then some ((t.key + (a - r.cmd.kind.elemOf a).toNat) / 64) else none
        | .error _ => none
    | _ => none)).eraseDups

/-- What an engine context has read of host memory is recorded, or in replay used up (16 R329, R333). -/
def State.logHostLines (s : State) (cl e : Nat) (r : Run) (lines : List Nat) : State :=
  lines.foldl (fun s n =>
    let x : Logged := .host (engSrc cl e) n ((s.asOf r.cmd.snap).hostMem.readBytes (n * 64 - hostBase) 64)
    match s.podAt cl with
    | some p =>
      if (s.pod p).records.any x.sameUse then s.setPod p ((s.pod p).mapRecords (fun l => l.eraseP x.sameUse)) else s.logFor (some p) x
    | none => s) s

/-- The bytes of a job. -/
def State.jobBytes (s : State) (cl : Nat) (r : Run) : List (Nat × JobSrc) → Except EngStop (List (Nat × Byte))
  | [] => .ok []
  | (i, x) :: rest =>
    match s.engByte cl r x with
    | .error e => .error e
    | .ok b => match s.jobBytes cl r rest with
      | .error e => .error e
      | .ok l => .ok ((i, b) :: l)

/-- Original bytes of a line, kept before the command first writes it (10 R223). -/
def keepLine (l : List (Nat × Byte)) (line : Nat) (rd : Nat → Byte) : List (Nat × Byte) :=
  if (afind? l (line * 64)).isSome then l
  else (List.range 64).foldl (fun l i => aput l (line * 64 + i) (rd (line * 64 + i))) l

/-- A relock keeps a line from crossing between a cluster's die and its home (01 R42). -/
def State.stalls (s : State) (cl key : Nat) : Bool :=
  key < hostBase && homeDie key ≠ dieOfCluster cl && ((s.die (homeDie key)).relock.isSome || (s.die (dieOfCluster cl)).relock.isSome)

/-- Writes a line of memory as one event, or holds it for the acquire point (09 R193). -/
def State.lineToMem (s : State) (cl e : Nat) (r : Run) (held : Bool) (key : Nat) (bs : List (Nat × Byte)) : State :=
  let w := bs.map (fun x => (key + x.1, x.2))
  if held then s.setRun cl e { r with jobs := r.jobs.drop 1, heldMem := w.foldl (fun l x => aput l x.1 x.2) r.heldMem }
  else
    let hit (x : Loc) : Bool := x.isLine (key / 64)
    if s.ticketBlocks Config.contexts hit || s.stalls cl key then s
    else
      let first := (afind? r.orig (key / 64 * 64)).isNone
      let r' := { r with jobs := r.jobs.drop 1, orig := keepLine r.orig (key / 64) s.committed,
                         poisoned := if first && s.poison.contains (key / 64) then key / 64 :: r.poisoned else r.poisoned }
      let t := ((s.setRun cl e r').commitBytes w).squashHits Config.contexts hit exactCause
      t.logEngine cl e r

/-- Writes a line of a scratchpad as one event; a relock keeps it from crossing to another die (01 R42). -/
def State.lineToSpm (s : State) (cl e : Nat) (r : Run) (held : Bool) (target off : Nat) (bs : List (Nat × Byte)) : State :=
  let w := bs.map (fun x => (off + x.1, x.2))
  if held then
    s.setRun cl e { r with jobs := r.jobs.drop 1, heldSpm := w.foldl (fun l x => aput l x.1 x.2) r.heldSpm }
  else
    let hit (x : Loc) : Bool := x = .spm target (off / 64)
    let far : Bool := dieOfCluster target ≠ dieOfCluster cl && ((s.die (dieOfCluster target)).relock.isSome || (s.die (dieOfCluster cl)).relock.isSome)
    if s.ticketBlocks Config.contexts hit || far then s
    else
      let at_ := target * Config.spmBytes
      let r' := { r with jobs := r.jobs.drop 1,
                         origSpm := keepLine r.origSpm ((at_ + off) / 64) (fun a => (s.cluster target).spm.read (a - at_)) }
      let t := ((s.setRun cl e r').commitSpm target w).squashHits Config.contexts hit exactCause
      t.logEngine cl e r

/-- The 8-byte words of a line with which of their bytes are given. -/
def lineWords (bs : List (Nat × Byte)) : List (Nat × List (Nat × Byte)) :=
  ((List.range 8).map (fun q => (q, bs.filter (fun x => x.1 / 8 = q)))).filter (fun x => !x.2.isEmpty)

/-- A word of 8 bytes with some replaced. -/
def mergeWord (old : Nat) (bs : List (Nat × Byte)) : Word :=
  word (leNat ((List.range 8).map (fun i => match bs.find? (fun x => x.1 % 8 = i) with | some x => x.2 | none => .ofNat 8 (old / 2 ^ (8 * i)))))

/-- A word of another chip in line `g` that the command has still to read, before it writes the line (10 R223). -/
def Run.unread (r : Run) (g : Word) : Option Word :=
  r.jobs.findSome? (fun j => j.bytes.findSome? (fun x => match x.2 with
    | .va a =>
      let w := a - word (a.toNat % 8)
      if isGlob a && a - word (a.toNat % 64) = g && (afind? r.got w.toNat).isNone then some w else none
    | _ => none))

/-- Writes a line in global form: here through this chip's agent, elsewhere as posted stores of whole words (10 R223). -/
def State.lineToGlob (s : State) (cl e : Nat) (r : Run) (g : Word) (bs : List (Nat × Byte)) : State :=
  let first := r.cmd.kind.elemOf (g + word ((bs.map (·.1)).min?.getD 0))
  match s.engGlob cl first with
  | .error (.fail c f) => s.failCmd cl e r c f
  | .error _ => s
  | .ok x =>
    if x.chip = s.chipNum then
      match s.remoteTarget s.chipNum (s.cmdVfId cl) 0 g true with
      | .ok (.key a) => s.lineToMem cl e r false a bs
      | .ok (.spm k o) => s.lineToSpm cl e r false k o bs
      | .ok (.mmio _) => (s.setRun cl e { r with jobs := r.jobs.drop 1 }).logEngine cl e r
      | .ok (.wait _) => s
      | .error _ => s.failCmd cl e r EngErr.remote first
    else
      let ws := lineWords bs
      let part := (ws.find? (fun w => w.2.length < 8 && (afind? r.got (g + word (8 * w.1)).toNat).isNone)).map (fun w => g + word (8 * w.1))
      match part, r.unread g with
      | some w, _ | none, some w => s.askWord cl e r w
      | none, none =>
        let t := ws.foldl (fun (acc : State × List Nat) w =>
          let a := g + word (8 * w.1)
          let i := acc.1.newRid
          let h := i.2.opHeader r.cmd.ctx a i.1
          let v := mergeWord ((afind? r.got a.toNat).getD 0).toNat w.2
          ((h.2.sendFlit (h.2.portOf r.cmd.ctx x.core) x.chip (.rst h.1 v)).countPosted r.cmd.ctx x.chip, acc.2 ++ [i.1])) (s, r.rids)
        (t.1.setRun cl e { r with jobs := r.jobs.drop 1, rids := t.2 }).logEngine cl e r

/-- The line of a scratchpad or of memory that a source byte lies in. -/
def JobSrc.line : JobSrc → Option (Bool × Nat)
  | .va a => some (true, a.toNat / 64)
  | .sp o => some (false, o / 64)
  | .zero | .lit _ => none

/-- The bytes of one source line that a job has still to read. -/
def Run.toRead (r : Run) (l : List (Nat × JobSrc)) : List (Nat × JobSrc) :=
  let left := l.filter (fun x => x.2.line.isSome && (afind? r.part x.1).isNone)
  match left with
  | [] => []
  | x :: _ => left.filter (fun y => y.2.line = x.2.line)

/-- A byte of a job, as a literal where it has been read. -/
def Run.known (r : Run) (x : Nat × JobSrc) : Nat × JobSrc :=
  match afind? r.part x.1 with
  | some b => (x.1, .lit b)
  | none => x

/-- The next line of a command is written, if it can be, from what has been read and what its sources hold now. -/
def State.lineWrite (s : State) (cl e : Nat) (r : Run) (j : LineJob) : State :=
  match s.jobBytes cl r (j.bytes.map r.known) with
  | .error (.fail c f) => s.failCmd cl e r c f
  | .error (.wait ..) => s
  | .error (.ask g) => s.askWord cl e r g
  | .ok bs =>
    let r := { r with part := [] }
    match j.dest with
    | .spm o => s.lineToSpm cl e r r.cmd.det cl o bs
    | .glob g => s.lineToGlob cl e r g bs
    | .mem va =>
      let first := r.cmd.kind.elemOf (va + word ((bs.map (·.1)).min?.getD 0))
      match s.engXlate cl r.cmd first .write with
      | .error (.fail c f) => s.failCmd cl e r c f
      | .error _ => s
      | .ok (.mmio _) => s.failCmd cl e r EngErr.perm first
      | .ok t => s.lineToMem cl e r r.cmd.det (t.key / 64 * 64) bs

/-- The next event of a copy: one source line of its next line is read, or that line is written (09 R192). -/
def State.lineEvent (s : State) (cl e : Nat) (r : Run) (j : LineJob) : State :=
  match r.toRead j.bytes with
  | [] => s.lineWrite cl e r j
  | l => match s.jobBytes cl r l with
    | .error (.fail c f) => s.failCmd cl e r c f
    | .error (.wait ..) => s
    | .error (.ask g) => s.askWord cl e r g
    | .ok bs => (s.setRun cl e { r with part := bs.foldl (fun m x => aput m x.1 x.2) r.part }).logHostLines cl e r (s.hostLines cl r l)

/-! ## Collectives (10 R229) -/

/-- Elements one flit carries (18 R350). -/
def collCap (bf : Bool) : Nat := if bf then 80 else 40

/-- The received flit of a step and first element. -/
def State.collFlit (s : State) (cid : BitVec 32) (g step first : Nat) : Option CollMsg :=
  s.colls.find? (fun m => m.cid = cid && m.grp.toNat = g && m.step.toNat = step && m.first.toNat = first)

/-- One element of a source. -/
def State.collElem (s : State) (cl : Nat) (r : Run) (a : Word) (bf : Bool) (j : Nat) : Except EngStop Nat :=
  let n := if bf then 2 else 4
  match s.jobBytes cl r ((List.range n).map (fun k => (k, .va (a + word (j * n + k))))) with
  | .error e => .error e
  | .ok bs => .ok (leNat (bs.map (·.2)))

def State.collElems (s : State) (cl : Nat) (r : Run) (a : Word) (bf : Bool) : List Nat → Except EngStop (List Nat)
  | [] => .ok []
  | j :: js => match s.collElem cl r a bf j with
    | .error e => .error e
    | .ok v => match s.collElems cl r a bf js with
      | .error e => .error e
      | .ok l => .ok (v :: l)

/-- Sends a collective flit to the member of rank `to_`. -/
def State.sendColl (s : State) (cl e : Nat) (ms : List Nat) (to_ : Nat) (m : CollMsg) : State :=
  let chip := ms.getD to_ 0
  let x := s.engine cl e
  let full := match s.podAt cl with | some p => (s.pod p).full | none => false
  let n := aget 0 x.seqs chip + 1
  let m := if full then { m with interval := .ofNat 32 (((s.podAt cl).bind (fun p => (s.pod p).interval)).getD s.ivals.num), seq := .ofNat 32 n } else m
  let s := if full then s.setEngine cl e { x with seqs := aput x.seqs chip n } else s
  s.sendFlit (s.portOf (cl * 16 + e) chip) chip (.coll m)

/-- The steps of a member: (key, the step whose flit it needs, whether its own source enters, the step it sends or none, whether
the result is kept). Sums pass from rank 0 up in rank order, then the result passes from the last rank round the ring (log 23). -/
def collSteps (ck : CollKind) (gn rank : Nat) : List (Nat × Option Nat × Bool × Option Nat × Bool) :=
  if ck = .allgather then
    (0, none, true, some 0, true) ::
    (List.range (gn - 1)).map (fun t => (t + 1, some t, false, if t + 1 ≤ gn - 2 then some (t + 1) else none, true))
  else
    (rank, (if rank = 0 then none else some (rank - 1)), true, some rank, rank = gn - 1) ::
    (if rank = gn - 1 then [] else [(gn + rank, some (gn - 1 + rank), false, if rank + 1 < gn - 1 then some (gn + rank) else none, true)])

/-- Index of the first element of unit `u` in a step's flit: of the block it carries, for an all-gather. -/
def collFirst (ck : CollKind) (gn rank n cap : Nat) (need : Option Nat) (u : Nat) : Nat :=
  match ck, need with
  | .allgather, some t => ((rank + gn - 1 - t % gn) % gn) * n + u * cap
  | .allgather, none => rank * n + u * cap
  | _, _ => u * cap

/-- Elements in unit `u` of a step. -/
def collLen (n cap u : Nat) : Nat := min cap (n - u * cap)

/-- A flit of this collective that does not fit this member's command: another operation, format or count (10 R229; log 101). -/
def collClash (ck : CollKind) (bf : Bool) (gn n cap : Nat) (m : CollMsg) : Bool :=
  let i := if ck = .allgather then m.first.toNat % n else m.first.toNat
  m.ck ≠ ck || m.bf16 ≠ bf || (if ck = .allgather then n * gn else n) ≤ m.first.toNat || i % cap ≠ 0 ||
  m.elems.length ≠ collLen n cap (i / cap)

/-- A flit of a step whose first flit has not come first: the members send the last unit of a step before the others, and it tells the
count of its sender (log 101). -/
def State.collSkew (s : State) (ck : CollKind) (n cap : Nat) (m : CollMsg) : Bool :=
  let base := if ck = .allgather then m.first.toNat / n * n else 0
  (s.collFlit m.cid m.grp.toNat m.step.toNat (base + ((n + cap - 1) / cap - 1) * cap)).isNone

/-- A collective of this chip, queued or performed, that a flit belongs to. -/
def State.collClaimed (s : State) (m : CollMsg) : Bool :=
  s.clusters.any (fun k => k.2.engines.any (fun e => ((e.2.run.map (·.cmd)).toList ++ e.2.store).any (fun c => match c.kind with
    | .coll _ _ g _ cid _ _ => cid = m.cid && g = m.grp.toNat
    | _ => false)))

/-- A flit that makes a collective of group `g` fail: one that does not fit, or one of its id that names another group, for which this chip
has no command. A flit of another id is of another collective: a member that differs in the id alone has not issued this one (log
101). -/
def State.collDiffers (s : State) (ck : CollKind) (bf : Bool) (gn g n cap : Nat) (cid : BitVec 32) (m : CollMsg) : Bool :=
  m.cid = cid && (if m.grp.toNat = g then collClash ck bf gn n cap m || s.collSkew ck n cap m else !s.collClaimed m)

/-- The elements at a source that the unit with indexes `idx` still lacks, those of one line (10 R229: sources are read one line at a
time). -/
def collLine (r : Run) (a : Word) (es : Nat) (idx : List Nat) : List Nat :=
  let left := idx.filter (fun j => (afind? r.own j).isNone)
  match left with
  | [] => []
  | j :: _ => left.filter (fun i => (a.toNat + i * es) / 64 = (a.toNat + j * es) / 64)

/-- A collective that fails for a member that differs: the next member learns of it by a flit that fits no command, and so on round the
ring (log 101). -/
def State.collFail (s : State) (cl e : Nat) (r : Run) (ms : List Nat) (rank g : Nat) (m : CollMsg) : State :=
  let m : CollMsg := { m with engine := .ofNat 16 (cl * 16 + e), interval := 0, seq := 0, grp := .ofNat 8 g, first := 0, elems := [] }
  (s.sendColl cl e ms ((rank + 1) % ms.length) m).failCmd cl e r EngErr.bounds 0

/-- One event of a collective: a line of its source read, or the first step and unit that is due. -/
def State.collEvent (s : State) (cl e : Nat) (r : Run) (ck : CollKind) (bf : Bool) (g n : Nat) (cid : BitVec 32) (a b : Word) : State :=
  let ms := (s.cmdVf cl).members g
  let gn := ms.length
  let rank := ms.findIdx (· = s.chipNum)
  let cap := collCap bf
  let es := if bf then 2 else 4
  let units := (n + cap - 1) / cap
  let todo := (collSteps ck gn rank).flatMap (fun st => (List.range units).reverse.map (fun u => (st, u)))
  match s.colls.find? (s.collDiffers ck bf gn g n cap cid) with
  | some m => s.collFail cl e r ms rank g m
  | none => match (todo.find? (fun x => !r.sent.contains (x.1.1, x.2))).filter (fun x =>
      match x.1.2.1 with | none => true | some t => (s.collFlit cid g t (collFirst ck gn rank n cap (some t) x.2)).isSome) with
    | some ((key, need, own, out, keep), u) =>
      let first := collFirst ck gn rank n cap need u
      let got : Option (List Nat) := match need with | some t => (s.collFlit cid g t first).map (·.elems) | none => none
      let idx := (List.range (collLen n cap u)).map (· + u * cap)
      match (if own then collLine r a es idx else []) with
      | j :: js =>
        match s.collElems cl r a bf (j :: js) with
        | .error (.fail c f) => s.failCmd cl e r c f
        | .error (.ask w) => s.askWord cl e r w
        | .error (.wait ..) => s
        | .ok vs =>
          let src := (j :: js).flatMap (fun i => (List.range es).map (fun k => (k, JobSrc.va (a + word (i * es + k)))))
          (s.setRun cl e { r with own := ((j :: js).zip vs).foldl (fun l x => aput l x.1 x.2) r.own }).logHostLines cl e r (s.hostLines cl r src)
      | [] =>
        let mine := if own then idx.map (fun j => aget 0 r.own j) else []
        let vs := match got with
          | some l => if own then (l.zip mine).map (fun x => redOp (if bf then .bf16 else .fp32) 0 x.1 x.2) else l
          | none =>
            -- x_0 alone opens a sum; an all-gather passes encodings on
            mine
        let r' := { r with sent := (key, u) :: r.sent, own := idx.foldl adel r.own,
                            vals := if keep then (vs.zip (List.range vs.length)).foldl (fun l x => aput l (first + x.2) x.1) r.vals else r.vals }
        let s := s.setRun cl e r'
        match out with
        | none => s
        | some st => s.sendColl cl e ms ((rank + 1) % gn)
            { engine := .ofNat 16 (cl * 16 + e), interval := 0, seq := 0, cid := cid, ck := ck, bf16 := bf, grp := .ofNat 8 g,
              step := .ofNat 16 st, first := word first, elems := vs }
    | none =>
      if todo.all (fun x => r.sent.contains (x.1.1, x.2)) then
        let lo := if ck = .redscatter then rank * (n / gn) else 0
        let cnt := if ck = .redscatter then n / gn else if ck = .allgather then n * gn else n
        let jobs := (List.range cnt).foldl (fun l j =>
          (List.range es).foldl (fun l k =>
            let d := b + word (j * es + k)
            jobPut l (.mem (d - word (d.toNat % 64))) (d.toNat % 64) (.lit (.ofNat 8 (aget 0 r.vals (lo + j) / 2 ^ (8 * k))))) l) []
        let s := { s with colls := s.colls.filter (fun m => !(m.cid = cid && m.grp.toNat = g)) }
        s.setRun cl e { r with jobs := jobs, foDone := true }
      else s

/-- One line event, or one event of a collective, as replay may order it. -/
def State.engineTry (s : State) (cl e : Nat) : State :=
  match (s.engine cl e).run with
  | none => s
  | some r =>
    if r.waitSlot then s
    else match r.jobs, r.cmd.kind with
      | j :: _, _ => s.lineEvent cl e r j
      | [], .coll ck bf g n cid a b => if r.foDone then s else s.collEvent cl e r ck bf g n cid a b
      | [], _ => s

/-- During replay, whether the commit log still holds an entry of a command: one that has none left writes no line more (09 R186). -/
def State.entriesLeft (s : State) (pid cl e seq : Nat) : Bool :=
  match (s.pod pid).replay with
  | some l => l.any (fun x => match x with | .commit q lvl src => lvl = 3 && src = cl * 16 + e && q = seq % 2 ^ 16 | _ => false)
  | none => true

/-- The recorded refusal of a write that the command has posted, which ends it after its last recorded line (16 R333). -/
def State.refusedNext (s : State) (pid cl e : Nat) (r : Run) : Option Word :=
  if s.entriesLeft pid cl e r.cmd.seq then none
  else ((s.pod pid).replay.getD []).findSome? (fun x => match x with
    | .refusal c g => if c = engSrc cl e then some g else none
    | _ => none)

/-- One line event of an engine context, or one event of a collective. Replay lets a line be written at its entry of the commit log; a
read has none, and a command that has no entry left may only fail. -/
def State.engineStep (s : State) (cl e : Nat) : State :=
  match s.podAt cl, (s.engine cl e).run with
  | some p, some r =>
    match s.refusedNext p cl e r with
    | some g => (s.useRecord cl (.refusal (engSrc cl e) g)).failCmd cl e r EngErr.remote g
    | none =>
      let t := s.engineTry cl e
      let free : Bool := r.jobs.isEmpty || (match (t.engine cl e).run with
        | some q => q.jobs.length = r.jobs.length
        | none => !s.entriesLeft p cl e r.cmd.seq)
      if r.cmd.det || free || s.replayAllows p 1 (cl * 16 + e) then t else s
  | _, _ => s

/-- What an engine context would do now writes its next line, or ends its command. -/
def State.wouldWrite (s t : State) (cl e : Nat) : Bool :=
  match (s.engine cl e).run, (t.engine cl e).run with
  | some r, some q => q.jobs.length < r.jobs.length
  | some _, none => true
  | none, _ => false

/-- The lines of a cluster's engine contexts are written in turn (10 R220): none before `e` from the last served one on could write now.
In replay the commit log orders them. -/
def State.turnOf (s : State) (cl e : Nat) : Bool :=
  let n := (e + 16 - (s.cluster cl).rotor - 1) % 16
  (match s.podAt cl with | some p => (s.pod p).replay.isSome | none => false) ||
  ((List.range n).map (fun i => ((s.cluster cl).rotor + 1 + i) % 16)).all (fun d => !s.wouldWrite (s.engineStep cl d) cl d)

/-! ## Follow-ons (10 R226, R227) -/

/-- The fields of MIMM (07 R157). -/
def foFmt (mimm : Nat) : Option MmaFmt :=
  match Fmt.ofCode (bits mimm 0 5), Fmt.ofCode (bits mimm 5 5) with
  | some a, some b => some ⟨a, b, bits mimm 10 1 = 1⟩
  | _, _ => none

/-- The record passes 07 R158 and R160 as far as they concern it alone. -/
def foRecordOk (fo : FollowOn) : Bool :=
  fo.rsvZero && fo.mimm < 2 ^ 30 && fo.core < 8 && fo.hidx < 8 && fo.flg < 8 && fo.erows ≤ 16 && fo.ecols ≤ 16 &&
  (match foFmt fo.mimm with
   | some f => f.ok && kRule f.af f.bf (bits fo.mimm 11 7 + 1) && (bits fo.mimm 18 2 = 0 || f.af = .cb4) &&
       (bits fo.mimm 20 2 = 0 || f.bf = .cb4)
   | none => false)

/-- The record and `HSHAPE` pass 07 R158 and R160. -/
def foOk (fo : FollowOn) (d : Tile) : Bool :=
  foRecordOk fo && (match foFmt fo.mimm with
   | some f => d.valid && d.rows = 16 && d.cols = 16 && !d.scaled && d.fmt = accFmt f.af
   | none => false)

/-- The result of a follow-on on tile `d`, with the scratchpad read through `rd` at offsets before reduction. -/
def foResult (fo : FollowOn) (cmd : Cmd) (d : Tile) (rd : Nat → Byte) : List Nat × Flags :=
  match foFmt fo.mimm with
  | none => (d.elems, 0)
  | some f =>
    let k := bits fo.mimm 11 7 + 1
    let er := if fo.erows = 0 then 16 else fo.erows
    let ec := if fo.ecols = 0 then 16 else fo.ecols
    let a := sideOfSp f.af f.mx (codebook cmd.cb (bits fo.mimm 18 2)) (fo.pairs.getD 0 0) (fo.pairs.getD 1 0) (bits fo.mimm 22 4) k
      (· < er) rd
    let b := sideOfSp f.bf f.mx (codebook cmd.cb (bits fo.mimm 20 2)) (fo.pairs.getD 2 0) (fo.pairs.getD 3 0) (bits fo.mimm 26 4) k
      (· < ec) rd
    mmaResult a b (bits fo.flg 2 1 = 1) (bits fo.flg 0 1 = 1) k (fun i j => i < er && j < ec) d

/-- Reduction of a follow-on's offsets: in the slot's scratchpad with CBREL, else in the allocation (10 R226). -/
def foAddr (fo : FollowOn) (cmd : Cmd) (slotBase : Nat) (o : Nat) : Nat :=
  if bits fo.flg 1 1 = 1 then (slotBase + o) % Config.spmBytes else cmd.spbase + o % cmd.spsize

/-- The install of a follow-on's result into `hN` (01 R14, 06 R154, 07 R172), and its flags into the engine's. -/
def State.foInstall (s : State) (cl except : Nat) (cmd : Cmd) (fo : FollowOn) (slotBase : Nat) (rd : Nat → Byte) : State × Flags :=
  let core := cl * 8 + fo.core
  let k := s.core core
  let d := k.h.getD fo.hidx {}
  let r := foResult fo cmd d (fun o => rd (foAddr fo cmd slotBase o))
  let s := s.setCore core { k with h := k.h.setIfInBounds fo.hidx (d.withData r.1 d.side) }
  (s.squashHits except (fun x => x = .hData core fo.hidx || x = .hAll core fo.hidx) exactCause, r.2)

/-- The follow-on of a command whose copy is done. -/
def Run.followOn (r : Run) : Option FollowOn :=
  match r.cmd.kind with
  | .copy _ _ _ _ _ fo => fo
  | _ => none

/-- The base of the slot that a run fills. -/
def State.runSlotBase (s : State) (cl : Nat) (r : Run) : Nat :=
  match r.slot, r.cmd.kind with
  | some x, .copy f .. => match (s.cluster cl).cbuf? f.cbn.toNat with | some b => b.slotBase x | none => 0
  | _, _ => 0

/-- The start of a follow-on in free mode: its checks, then a token (07 R173). -/
def State.startFollowOn (s : State) (cl e : Nat) : State :=
  match (s.engine cl e).run with
  | some r =>
    match r.followOn with
    | some fo =>
      if !r.jobs.isEmpty || r.waitSlot || r.foOn || r.cmd.det then s
      else if !foOk fo ((s.core (cl * 8 + fo.core)).h.getD fo.hidx {}) then s.failCmd cl e r EngErr.bounds 0
      else if s.tokenFree cl 16 then (s.startBurst cl).setRun cl e { r with foOn := true }
      else s
    | none => s
  | none => s

/-- The install of a follow-on that has started. `HSHAPE` may have changed since: the checks are made again, and where they fail nothing is
installed (10 R226). Replay lets it happen at its entry of the commit log. -/
def State.finishFollowOn (s : State) (cl e : Nat) : State :=
  match (s.engine cl e).run with
  | some r =>
    match r.followOn with
    | some fo =>
      let hit (x : Loc) : Bool := x = .hData (cl * 8 + fo.core) fo.hidx || x = .hAll (cl * 8 + fo.core) fo.hidx
      let turn : Bool := match s.podAt cl with | some p => r.cmd.det || s.replayAllows p 1 (cl * 16 + e) | none => true
      if !r.foOn || r.foDone || s.ticketBlocks Config.contexts hit || !turn then s
      else if !foOk fo ((s.core (cl * 8 + fo.core)).h.getD fo.hidx {}) then s.failCmd cl e r EngErr.bounds 0
      else
        let t := s.foInstall cl Config.contexts r.cmd fo (s.runSlotBase cl r) (s.cluster cl).spm.read
        let x := t.1.engine cl e
        let t := t.1.setEngine cl e { x with fflags := x.fflags ||| t.2, run := some { r with foDone := true } }
        (t.setCluster cl { t.cluster cl with activity := (t.cluster cl).activity + 1 }).logEngine cl e r
    | none => s
  | none => s

/-! ## Completion (10 R220, R224) -/

/-- A run that has nothing left to do. -/
def Run.finished (r : Run) : Bool :=
  r.jobs.isEmpty && !r.waitSlot &&
  (match r.cmd.kind with
   | .copy _ _ _ _ _ (some _) => r.foDone || r.cmd.det
   | .coll .. => r.foDone
   | _ => true)

/-- Whether a copy's slot goes free at its completion (10 R227). -/
def CmdKind.frees : CmdKind → Bool
  | .copy f _ _ _ _ (some y) => bits y.flg 1 1 = 1 && !f.cbk
  | _ => false

/-- The slot of a completing copy: filled, freed after a follow-on with CBREL, or kept open; and which slot that is. -/
def State.settleSlot (s : State) (cl e : Nat) (r : Run) : State × Option (Nat × Nat) :=
  match r.slot, r.cmd.kind with
  | some x, .copy f _ _ _ _ fo =>
    let m := f.cbn.toNat
    let cbrel : Bool := match fo with | some y => bits y.flg 1 1 = 1 | none => false
    if f.cbk then (s, some (m, x))
    else
      let s := s.setEngine cl e { s.engine cl e with opens := adel (s.engine cl e).opens m }
      match (s.cluster cl).cbuf? m with
      | none => (s, none)
      | some b =>
        if cbrel then (if r.cmd.det then s else s.setCluster cl ((s.cluster cl).setCbuf m (b.toFree x)), some (m, x))
        else (s.setCluster cl ((s.cluster cl).setCbuf m (b.toFilled x)), some (m, x))
  | _, _ => (s, none)

def State.completeCmd (s : State) (cl e : Nat) : State :=
  match (s.engine cl e).run with
  | some r =>
    if r.finished then
      -- in deterministic mode a follow-on's record is checked here, its `HSHAPE` at the acquire point (log 39)
      if r.cmd.det && (match r.followOn with | some fo => !foRecordOk fo | none => false) then s.failCmd cl e r EngErr.bounds 0
      else
      let t := s.settleSlot cl e r
      t.1.setEngine cl e ((t.1.engine cl e).finish r
        (if r.cmd.det then [r.heldCmd t.2 (s.runSlotBase cl r) r.cmd.kind.frees r.followOn.isSome] else []) 0)
    else s
  | none => s

/-! ## What follows an event of an engine (09 R186) -/

/-- What an engine context does without a line written: the next command is skipped or fails before its first line, or the one being
performed fails at its next, or in the checks of its follow-on. A configure or clear command that completes does so at its own start
(log 120). -/
def State.passesOver (s : State) (cl e : Nat) : Option State :=
  match (s.engine cl e).run, (s.engine cl e).store with
  | none, cmd :: _ =>
    let t := s.beginCmd cl e
    let u := match (t.engine cl e).run with
      | some r => (match r.jobs with | j :: _ => if r.waitSlot then t else t.lineWrite cl e r j | [] => t)
      | none => t
    if (u.engine cl e).run.isNone && cmd.kind ≠ .clear && (u.engine cl e).err then some u else none
  | some r, _ => match r.jobs with
    | j :: _ =>
      let t := s.lineWrite cl e r j
      if !r.waitSlot && (t.engine cl e).run.isNone then some t else none
    | [] => match r.followOn with
      | some fo =>
        if !r.waitSlot && !r.foOn && !r.foDone && !r.cmd.det && !foOk fo ((s.core (cl * 8 + fo.core)).h.getD fo.hidx {}) then
          some (s.failCmd cl e r EngErr.bounds 0)
        else none
      | none => none
  | none, [] => none

/-- Commands that fail or are skipped without a further line do so at once, `n` of them at most: COUNT rises with the last entry of a
command, or with the completion before it (09 R186). -/
def State.passOver (s : State) (cl e : Nat) : Nat → State
  | 0 => s
  | n + 1 => match s.passesOver cl e with
    | some t => t.passOver cl e n
    | none => s

/-! ## Acquire points of deterministic mode (09 R193) -/

/-- A failure found at an acquire point. A clear that has been performed since has wiped it from the timeline of free mode. -/
def Engine.failedLate (e : Engine) (seq code : Nat) (fault : Word) : Engine :=
  if e.clears.all (· < seq) then e.failed seq code fault else { e with errAt := e.errAt ++ [(seq, code, fault)] }

/-- A held command that fails or is skipped leaves its slot open until a clear (10 R224). -/
def State.reopen (s : State) (cl e : Nat) (h : HeldCmd) : State :=
  match h.frees, h.slot with
  | true, some x => s.setEngine cl e { s.engine cl e with opens := (s.engine cl e).opens ++ [x] }
  | _, _ => s

/-- Installs one held command; `laid` is the scratchpad its follow-on reads over the one of its issuing commit. A command after one
that has failed at its acquire point is skipped (10 R220, log 39). -/
def State.installHeld (s : State) (cl e except : Nat) (laid : List (Nat × Byte)) (h : HeldCmd) : State :=
  if ((s.engine cl e).upTo (h.cmd.seq - 1)).err.isSome then s.reopen cl e h
  else
  let ls := writeLines h.writes
  let sp := writeLines h.spm
  let s := ((s.commitBytes h.writes).commitSpm cl h.spm).squashHits except (fun x => match x with
    | .line n | .fetch n | .table n => ls.contains n
    | .spm k n => k = cl && sp.contains n
    | _ => false) exactCause
  match h.fo, h.cmd.kind with
  | true, .copy _ _ _ _ _ (some fo) =>
    let x := s.engine cl e
    if !foOk fo ((s.core (cl * 8 + fo.core)).h.getD fo.hidx {}) then
      (s.setEngine cl e (x.failedLate h.cmd.seq EngErr.bounds 0)).reopen cl e h
    else
      let spm := ((s.asOf h.cmd.snap).cluster cl).spm
      let t := s.foInstall cl except h.cmd fo h.base (fun o => (afind? laid o).getD (spm.read o))
      let y := t.1.engine cl e
      let u := t.1.startBurst cl |>.setEngine cl e { y with
        fflags := if y.clears.all (· < h.cmd.seq) then y.fflags ||| t.2 else y.fflags, flagsAt := y.flagsAt ++ [(h.cmd.seq, t.2)] }
      match h.frees, h.slot with
      | true, some (m, n) => (match (u.cluster cl).cbuf? m with | some b => u.setCluster cl ((u.cluster cl).setCbuf m (b.toFree n)) | none => u)
      | _, _ => u
  | _, _ => s

/-- Installs the held commands of an engine context that `pick` names, in order. -/
def State.installWhere (s : State) (cl e except : Nat) (pick : HeldCmd → Bool) : State :=
  let x := s.engine cl e
  let hs := x.held.filter pick
  let s := s.setEngine cl e { x with held := x.held.filter (fun h => !pick h) }
  (hs.foldl (fun (acc : State × List (Nat × Byte)) h =>
    let laid := h.spm.foldl (fun l y => aput l y.1 y.2) acc.2
    (acc.1.installHeld cl e except laid h, laid)) (s, [])).1

/-- The acquire point of a `tl.wait` of a context of launch slot `slot`: of every command up to the count, whichever launch issued it
(log 124). -/
def State.acquireTl (s : State) (cl e upto slot except : Nat) : State :=
  let s := s.installWhere cl e except (fun h => h.cmd.seq ≤ upto)
  let x := s.engine cl e
  let n := max (x.acq slot) (min upto x.count)
  let s := s.setEngine cl e { x with acquired := aput x.acquired slot n }
  if n = x.acq slot then s else s.squashHits except (fun y => y = tlLoc cl e slot) exactCause

/-- The acquire point of a `cbuf.take` of slot `x` of buffer `m`. -/
def State.acquireSlot (s : State) (cl m x except : Nat) : State :=
  ((s.cluster cl).engines.map (·.1)).foldl (fun s e => s.installWhere cl e except (fun h => h.slot = some (m, x))) s

/-- The completion of a launch installs what its commands still hold. -/
def State.acquireLaunch (s : State) (pid slot : Nat) : State :=
  (s.pod pid).clusters.foldl (fun s cl =>
    ((s.cluster cl).engines.map (·.1)).foldl (fun s e => s.installWhere cl e Config.contexts (fun h => h.cmd.slot = slot)) s) s

/-- The completion of a finished run. What a deterministic command holds is installed at once where its launch has already completed
(09 R193). -/
def State.completeRun (s : State) (cl e : Nat) : State :=
  let t := s.completeCmd cl e
  let gone (slot : Nat) : Bool := match t.podAt cl with
    | some p => (afind? (t.pod p).launches slot).isNone && slot < 255
    | none => false
  t.installWhere cl e Config.contexts (fun h => gone h.cmd.slot)

/-- After an event of an engine context: its command completes with its last line, and commands that write no further line go
(09 R186). -/
def State.afterEngine (s : State) (cl e : Nat) : State :=
  let t := match (s.engine cl e).run with | some r => if r.finished then s.completeRun cl e else s | none => s
  t.passOver cl e (Config.engineStore + 1)

/-- An event of an engine context, with what follows it: a line written in turn, or a source line read, which no turn keeps back. -/
def State.engineEvent (s : State) (cl e : Nat) : State :=
  let t := s.engineStep cl e
  let u := t.setCluster cl { t.cluster cl with activity := (t.cluster cl).activity + 1 }
  if t = s then s
  else if !s.wouldWrite t cl e then u.afterEngine cl e
  else if !s.turnOf cl e then s
  else (u.setCluster cl { u.cluster cl with rotor := e }).afterEngine cl e

end Sys2Proof.Machine
end

