-- ==== Sys2Proof/Machine/Special.lean ====
section
/-! DEFINITION. Special registers: numbers, rights, what a read returns, what a write does (01 R15–R26, R43, 04 R99, R103, R104). -/

namespace Sys2Proof.Machine

/-- The special registers (01 R15). -/
inductive SrName where
  | pc | tstat | efmt | rmode | flags | rngSeed | rngStream | rngCtr
  | tshape (n : Fin 8) | hshape (n : Fin 8) | cb (n : Fin 16)
  | chunklen | chunkid | bankmask | waitlim | cycle | reftime | ctxid | unitid | launchid | podid | svctgt
  | rsbase | retdepth | codelim | spbase | spsize | tokstat
  deriving DecidableEq, Repr

/-- The register of a number; none where it is reserved (01 R15). -/
def srOf (n : Nat) : Option SrName :=
  match n with
  | 0x000 => some .pc
  | 0x001 => some .tstat
  | 0x002 => some .efmt
  | 0x003 => some .rmode
  | 0x004 => some .flags
  | 0x010 => some .rngSeed
  | 0x011 => some .rngStream
  | 0x012 => some .rngCtr
  | 0x040 => some .chunklen
  | 0x041 => some .chunkid
  | 0x042 => some .bankmask
  | 0x043 => some .waitlim
  | 0x050 => some .cycle
  | 0x051 => some .reftime
  | 0x060 => some .ctxid
  | 0x061 => some .unitid
  | 0x062 => some .launchid
  | 0x063 => some .podid
  | 0x064 => some .svctgt
  | 0x070 => some .rsbase
  | 0x071 => some .retdepth
  | 0x072 => some .codelim
  | 0x078 => some .spbase
  | 0x079 => some .spsize
  | 0x080 => some .tokstat
  | _ =>
    if n / 8 = 4 then some (.tshape (.ofNat 8 (n % 8)))
    else if n / 8 = 5 then some (.hshape (.ofNat 8 (n % 8)))
    else if n / 16 = 3 then some (.cb (.ofNat 16 (n % 16)))
    else none

/-- Whether a context of a class may write a register (01 R15). -/
def srWritable (cls : CtxClass) : SrName → Bool
  | .tstat | .efmt | .rmode | .flags | .rngSeed | .rngCtr | .tshape _ | .cb _ | .chunklen | .waitlim | .rsbase => true
  | .hshape _ => cls ≠ .courier
  | .svctgt => cls = .supervisor
  | _ => false

/-- What the service target may write (01 R16). -/
def svcWritable : SrName → Bool
  | .pc | .tstat | .efmt | .rmode | .flags | .rngSeed | .rngCtr | .tshape _ | .cb _ | .chunklen | .waitlim | .rsbase => true
  | _ => false

/-! ## Reading -/

/-- `TSTAT` as a word (01 R17). -/
def TStat.word (t : TStat) : Word :=
  Machine.word (t.pfx.toNat * 2 ^ 32 + t.rv.toNat * 2 ^ 15 + t.rrow.toNat * 2 ^ 8 + t.clamp.toNat * 2 + t.pp.toNat)

def TStat.ofWord (w : Word) : TStat :=
  ⟨.ofNat 32 (bits w.toNat 32 32), bits w.toNat 15 1 = 1, .ofNat 7 (bits w.toNat 8 7), bits w.toNat 1 1 = 1, bits w.toNat 0 1 = 1⟩

/-- The mode of the chunk that context `c` has open, or would open. -/
def State.modeOf (s : State) (c : Nat) : Bool := match (s.ctx c).chunk with | some k => k.det | none => s.detMode c

/-- Instructions retired in the chunks of a context that have not committed. -/
def Ctx.uncommitted (x : Ctx) : Nat :=
  (match x.pending with | some k => k.count | none => 0) + (match x.chunk with | some k => k.count | none => 0)

/-- The logical clock as it stands at an instruction of context `c` (01 R43). -/
def State.liveClock (s : State) (c : Nat) : Nat := (s.ctx c).clock + (s.ctx c).uncommitted

/-- The service target's number as context `c` reads it (01 R22): its own uncommitted write, else the committed one. -/
def State.svctgtOf (s : State) (c : Nat) : Nat :=
  match (s.chunkOf c).svctgt with
  | some n => n
  | none => ((s.ctx c).pending.bind (·.svctgt)).getD (s.pod ((s.podOf c).getD 0)).svctgt

/-- What `mfs` returns in context `c`, whose private registers are `p` (01 R15–R26, R43). -/
def State.srRead (s : State) (c : Nat) (p : Priv) : SrName → Word
  | .pc => zext p.pc
  | .tstat => p.tstat.word
  | .efmt => word p.efmt.code
  | .rmode => word p.rmode.code
  | .flags => zext p.flags
  | .rngSeed => p.rngSeed
  | .rngStream => zext p.rngStream
  | .rngCtr => zext p.rngCtr
  | .tshape n => zext (p.tiles[n]).shape
  | .hshape n => zext (s.tileOf c (.h n)).shape
  | .cb n => p.cb[n]
  | .chunklen => zext p.chunklen
  | .chunkid => (s.ctx c).chunkid + (if (s.ctx c).pending.isSome then 1 else 0)
  | .bankmask => p.bankmask
  | .waitlim => p.waitlim
  | .cycle => if s.modeOf c then word (s.liveClock c) else word ((s.die (dieOf c)).acc / 2 ^ 16)
  | .reftime => if s.modeOf c then word (s.liveClock c) else word s.refTime
  | .ctxid => word (s.chipNum * 2 ^ 16 + c)
  | .unitid => zext p.unitid
  | .launchid => zext p.launchid
  | .podid => word (s.pod ((s.podOf c).getD 0)).group
  | .svctgt => word (s.svctgtOf c)
  | .rsbase => p.rsbase
  | .retdepth => word (p.retdepth + p.rets.length * 2 ^ 16)
  | .codelim => zext p.codelim
  | .spbase => zext p.spbase
  | .spsize => zext p.spsize
  | .tokstat =>
    if s.modeOf c then 0
    else word ((s.ctx c).waitcnt.toNat * 2 ^ 32 + (s.die (dieOf c)).ringtok * 2 ^ 8 + (s.cluster (clusterOf c)).token.toNat)

/-- Places that a read of a special register of context `c` enters into the read set (01 R14, R22). -/
def State.srLocs (s : State) (c : Nat) : SrName → List Loc
  | .hshape n => [.hAll (coreOf c) n.val]
  | .svctgt => [.svctgt ((s.podOf c).getD 0)]
  | _ => []

/-! ## Writing -/

/-- The value checks of a write: ILLEGAL under 01 R18, TILE_SHAPE under R26. -/
def srCheck (n : SrName) (v : Word) : Except Stop Unit :=
  let w : BitVec 32 := v.truncate 32
  match n with
  | .efmt => if (Fmt.ofCode (bits v.toNat 0 5)).isSome then .ok () else .error (trapWith Code.illegal)
  | .rmode => if (Rm.ofCode (bits v.toNat 0 3)).isSome then .ok () else .error (trapWith Code.illegal)
  | .tshape _ | .hshape _ => shapeUnless (!shapeValid w || shapeOk w)
  | _ => .ok ()

/-- A tile whose shape register is written with `w` (01 R26): configured, or unconfigured with DIRTY and CKDIRTY kept (log 25).
Reserved bits [20:16] ignore the write (00 R5). -/
def Tile.written (t : Tile) (w : BitVec 32) : Tile :=
  if shapeValid w then Tile.configured (w &&& 0x9FE0FFFF) t
  else { shape := (w &&& 0x1FE0FFFF) ||| (t.shape &&& dirtyBits), slots := t.slots }

/-- `CHUNKLEN` as written (01 R21). -/
def clampChunk (v : Word) : BitVec 15 := .ofNat 15 (max 64 (min 16384 (bits v.toNat 0 15)))

/-- The private registers after a write that passed its checks; `svc` lets every field of `TSTAT` and the `PC` be written,
whose bits [1:0] stay 0 (02 R44; log 44). -/
def Priv.putSr (p : Priv) (svc : Bool) (n : SrName) (v : Word) : Priv :=
  match n with
  | .pc => if svc then { p with pc := v.truncate 48 &&& 0xFFFFFFFFFFFC } else p
  | .tstat => if svc then { p with tstat := .ofWord v } else { p with tstat := { p.tstat with clamp := p.tstat.clamp && v.getLsbD 1 } }
  | .efmt => { p with efmt := (Fmt.ofCode (bits v.toNat 0 5)).getD p.efmt }
  | .rmode => { p with rmode := (Rm.ofCode (bits v.toNat 0 3)).getD p.rmode }
  | .flags => { p with flags := v.truncate 5 }
  | .rngSeed => { p with rngSeed := v }
  | .rngCtr => { p with rngCtr := v.truncate 32 }
  | .tshape n => { p with tiles := p.tiles.set n ((p.tiles[n]).written (v.truncate 32)) }
  | .cb n => { p with cb := p.cb.set n v }
  | .chunklen => { p with chunklen := clampChunk v }
  | .waitlim => { p with waitlim := v }
  | .rsbase => { p with rsbase := v &&& 0xFFFFFFFFFFFFFFC0 }
  | _ => p

/-- Whether a value names context 0 of a core in one of the pod's clusters (01 R22). -/
def State.svctgtOk (s : State) (v : Word) : Bool :=
  let n := v.toNat % 2 ^ 14
  n % 16 = 0 && s.myPod.clusters.contains (clusterOf n)

/-- The write of `mts` (01 R16–R26). -/
def State.mts (s : State) (n : SrName) (v : Word) : Res :=
  match n with
  | .svctgt => if s.svctgtOk v then .ok (s.setChunk { s.chunk with svctgt := some (v.toNat % 2 ^ 14) })
               else .error (trapWith Code.perm 0x064)
  | .hshape h => do
    srCheck n v
    pure (s.setTile (.h h) ((s.tile (.h h)).written (v.truncate 32)))
  | .tshape t => do
    srCheck n v
    pure (s.setTile (.t t) ((s.tile (.t t)).written (v.truncate 32)))
  | n => do
    srCheck n v
    pure (s.setP (s.me.p.putSr false n v))

def mfsRes (d : SReg) (sr : BitVec 10) (s : State) : Res :=
  match srOf sr.toNat with
  | none => .error (trapWith Code.illegal)
  | some n => .ok ((s.note (s.srLocs s.cur n)).putS d (s.srRead s.cur s.me.p n))

/-- 04 R99. -/
def execMfs (d : SReg) (sr : BitVec 10) (s : State) : Host.Outcome State Fault Refusal := perform s [.s d] 8 (mfsRes d sr)

def mtsRes (a : SReg) (sr : BitVec 10) (s : State) : Res :=
  match srOf sr.toNat with
  | none => .error (trapWith Code.illegal)
  | some n =>
    if srWritable (classOf s.cur) n then (s.noteS [a]).mts n (s.val a)
    else .error (trapWith Code.perm (zext sr))

/-- 04 R99. -/
def execMts (a : SReg) (sr : BitVec 10) (s : State) : Host.Outcome State Fault Refusal := perform s [.none, .s a] 8 (mtsRes a sr)

end Sys2Proof.Machine
end

