-- ==== Sys2Proof/Machine/Commit.lean ====
section
/-! DEFINITION. Commits: levels, grants, what a commit installs, the effects it has, and single-operation chunks (09 R177–R193,
04 R105–R107, 13 R268–R273). -/

namespace Sys2Proof.Machine

/-! ## Footprint and level (09 R184) -/

/-- Memory lines of a chunk's read and write sets. -/
def Chunk.memLines (k : Chunk) : List Nat :=
  writeLines k.writes ++ k.reads.filterMap (fun x => match x with | .line n | .fetch n | .table n => some n | _ => none)

/-- The commit level of a chunk of context `c`: 0 cluster, 1 die, 2 package. -/
def Chunk.level (k : Chunk) (c : Nat) : Nat :=
  let ls := k.memLines
  if k.reads.any (fun x => match x with | .spm cl _ => cl ≠ clusterOf c | _ => false) then 2
  else if ls.all (fun n => !hostLine n && homeCluster (n * 64) = clusterOf c) then 0
  else if ls.all (fun n => !hostLine n && homeDie (n * 64) = dieOf c) then 1
  else 2

/-- A commit whose effects may leave the die: posted operations, messages, a trap (01 R42). -/
def Chunk.crosses (k : Chunk) (c : Nat) : Bool :=
  (match k.ended with | some (.trap _) => true | _ => false) ||
  k.fx.any (fun f => match f with
    | .post .. => true
    | .send t .. => dieOf t ≠ dieOf c
    | _ => false)

/-- Dies that a commit above cluster level needs: the context's own, and those of its lines and of the scratchpads it has accessed
(01 R42, 09 R184). What leaves a die that relocks waits in its FIFOs, so that its commit waits too (log 104). -/
def Chunk.dies (k : Chunk) (c : Nat) : List Nat :=
  if k.level c = 0 then (if k.crosses c then [dieOf c] else [])
  else dieOf c :: (k.memLines.filter (fun n => !hostLine n)).map (fun n => homeDie (n * 64)) ++
    k.reads.filterMap (fun x => match x with | .spm cl _ => some (dieOfCluster cl) | _ => none)

/-! ## What a commit writes (09 R181, 01 R14) -/

/-- Lines that the folds of a chunk change (09 R195). -/
def Chunk.folds (k : Chunk) : List Nat :=
  k.fx.filterMap (fun f => match f with | .fold pa .. => some (pa / 64) | _ => none)

/-- Whether the commit of chunk `k` of context `c` writes a place of some read set. -/
def State.wrote (s : State) (c : Nat) (k : Chunk) : Loc → Bool
  | .line n | .fetch n | .table n => (writeLines k.writes).contains n || k.folds.contains n
  | .spm cl n => cl = clusterOf c && (writeLines k.spm).contains n
  | .g core n => core = coreOf c && (afind? k.gs n).isSome
  | .hData core n | .hAll core n => core = coreOf c && (afind? k.hs n).isSome
  | .hShape core n => core = coreOf c && (match afind? k.hs n with
    | some t => shapeConfig t.shape ≠ shapeConfig ((s.core core).h.getD n {}).shape
    | none => false)
  | .svctgt p => k.svctgt.isSome && s.podOf c = some p
  | .engine cl e => cl = clusterOf c && k.tails.contains e
  | .ctl _ | .cnt .. | .ready .. | .store .. | .launch .. => false

/-- The squash counter for a conflict of the commit of chunk `k` of context `c` with context `x`: the lines that a package-level commit
writes reach other dies as a signature, while folds, registers and page-table lines are found exactly (17 R341, log 27). -/
def State.sqCause (s : State) (c : Nat) (k : Chunk) (x : Nat) : Nat :=
  let exact (y : Loc) : Bool := s.wrote c k y && (match y with | .line n => k.folds.contains n | _ => true)
  if k.level c = 2 && dieOf x ≠ dieOf c &&
      !((s.ctx x).pending.toList ++ (s.ctx x).chunk.toList).any (fun q => q.reads.any exact) then 2 else 1

/-! ## Grants (09 R183, R185, R188, 16 R333) -/

/-- The least clock at which context `x` can still end a chunk that commits (09 R188): such a chunk holds one instruction at least
(log 40). -/
def Ctx.bound (x : Ctx) : Nat :=
  match x.pending, x.chunk with
  | some k, _ => x.clock + max 1 k.count
  | none, some k => x.clock + max 1 k.count
  | none, none => x.clock + 1

/-- A context that takes part in a pod's key order (09 R188): placed supervisors and couriers, units of deterministic launches. -/
def State.takesPart (s : State) (c : Nat) : Bool :=
  match classOf c with
  | .unit => s.holdsUnit c && (match s.launchOf c with | some l => l.det | none => false)
  | _ => (s.ctx c).status ≠ .stopped .unplaced

def Status.running : Status → Bool
  | .runnable | .out _ => true
  | _ => false

/-- The clock at which a wait of deterministic mode ends by its limit, if that bounds it (09 R190). -/
def Waiting.limitKey (w : Waiting) : Option Nat :=
  if w.det && w.limit ≠ 0 && (match w.on with | .fence _ => false | _ => true) then some (w.clock + w.limit.toNat) else none

/-- The least clock at which a context can still take a place in the key order: that of its next commit where it runs, of its limit where
it waits. -/
def Ctx.nextKey (x : Ctx) : Option Nat :=
  match x.status with
  | .runnable | .out _ => some x.bound
  | .blocked => x.wait.bind Waiting.limitKey
  | _ => none

/-- No other context that takes part can still take a place below the key (`clk`, `c`): neither end a chunk nor a wait (09 R188, R190). -/
def State.keyFree (s : State) (pid clk c : Nat) : Bool :=
  (s.podCtxs (s.pod pid)).all (fun d => d = c || !s.takesPart d ||
    (match (s.ctx d).nextKey with | some n => !(n < clk || (n = clk && d < c)) | none => true))

/-- A chunk of context `c` comes before the ticket holder's in the key order of their pod, so that it cannot wait for it (09 R188; log
28). -/
def State.precedesHolder (s : State) (c : Nat) (det : Bool) : Bool :=
  match s.ticket with
  | some h => det && s.podOf h = s.podOf c && s.takesPart h
  | none => false

/-- Whether the arbiters grant chunk `k` of context `c`; `hits` are the contexts that its signature matches without need. -/
def State.grantable (s : State) (c : Nat) (k : Chunk) (hits : List Nat) : Bool :=
  match s.podOf c with
  | none => true
  | some pid =>
    (!k.det || s.keyFree pid ((s.ctx c).clock + k.count) c) &&
    (match s.ticket with
     | some h => h = c || s.precedesHolder c k.det || !(s.ticketBlocks c (s.wrote c k) || hits.contains h)
     | none => true) &&
    (k.dies c).all (fun d => (s.die d).relock.isNone) &&
    (k.det || k.isEmpty || s.replayAllows pid 0 c)

/-! ## Ends of units with what deterministic engines hold (09 R193) -/

/-- The unit of context `c` completes; if its launch does, its commands install what they hold first. -/
def State.finishUnit (s : State) (c : Nat) : State :=
  match s.podOf c, s.launchOf c with
  | some pid, some l =>
    (if l.det && (l.exit (s.ctx c).p.unitid.toNat).over then s.acquireLaunch pid (s.ctx c).p.launchid.toNat else s).completeUnit c
  | _, _ => s.completeUnit c

/-- A KILL of the unit of context `c`. -/
def State.removeUnit (s : State) (c : Nat) : State :=
  match s.podOf c, s.launchOf c with
  | some pid, some l =>
    let slot := (s.ctx c).p.launchid.toNat
    (if l.det && (s.unitGone pid slot c (s.ctx c).p.unitid.toNat l).over then s.acquireLaunch pid slot else s).killUnit c
  | _, _ => s.killUnit c

/-- A cancel (13 R276), deterministic launches first installing what they hold. -/
def State.cancelField (s : State) (pid level k : Nat) : State :=
  if k = 0 then s
  else
    let slots := ((s.pod pid).launches.filter (fun x => x.2.det && x.2.field level = k)).map (·.1)
    (slots.foldl (fun s slot => s.acquireLaunch pid slot) s).cancelLevel pid level k

/-! ## Context control and replies (13 R269–R271, 04 R105, R106) -/

/-- A stopped, killed or restarted context leaves what it waited for. -/
def Ctx.abandon (x : Ctx) : Ctx :=
  { x with wait := none, answer := none, recs := x.recsLost, request := none, heldRec := none, gang := none, mma := false, sending := .no, launching := none }

/-- `ctx.stop` at the supervisor's commit (13 R270): a pending commit squashes with the open chunk (log 29). Messages of its own that wait
at a port bar its next instruction when it resumes (13 R273). -/
def State.stopCtx (s : State) (t : Nat) : State :=
  let s := if ((s.ctx t).chunk).isSome || ((s.ctx t).pending).isSome then s.squash t true 3 else s
  (s.setCtx t { (s.ctx t).abandon with status := .stopped .byStop, squashes := 0, ceased := s.refTime,
                                        sending := match (s.ctx t).sending with | .no => .no | _ => .wait }).dropTicket t

/-- The word at a local-form address of context `c`, where its page translates to memory. -/
def State.wordAt (s : State) (c : Nat) (va : Word) : Option Nat :=
  match translate s (s.vf (s.vfOf c)) va .query with
  | .ok (.mem pa, _) => some (leNat (s.mem.readBytes pa 4))
  | _ => none

/-- Length of what stands at `p`, for SKIP (04 R106). Where a page no longer translates, one word stands there (log 45). -/
def State.skipLen (s : State) (c : Nat) (p : BitVec 48) (atFetch : Bool) : Nat :=
  if atFetch then 4
  else match s.wordAt c (zext p) with
    | some w => if isPfxWord w then 4 + (match s.wordAt c (zext (p + 4)) with | some n => 4 * lenWords n | none => 4) else 4 * lenWords w
    | none => 4

/-- The trap of a context whose resumption is refused at `b` (04 R105, 02 R44): words 1 and 2 hold `b`, words 4–7 nothing (log 117), and a
later SKIP still advances as for the trap before it. -/
def State.refuseResume (s : State) (c : Nat) (code : Nat) (b : Word) : State :=
  let x := s.ctx c
  let old := x.trap
  let ts := x.p.tstat
  let t : Trap := { code := code, w1 := b, w2 := b,
                    row := if ts.rv then some ((old.bind (·.row)).map (·.1) |>.getD 0, ts.rrow.toNat) else none,
                    pfx := if ts.pp then some ts.pfx else none,
                    atFetch := match old with | some o => o.atFetch | none => false }
  s.trapEntry c t false

/-- A context of the pod re-enters rotation. RESUME re-enters a wait for messages of its own that it trapped in; SKIP and REDIRECT end
that wait; messages held since another trap's commit still bar its next instruction (13 R273). -/
def State.release (s : State) (c : Nat) (p : Priv) (clk : Nat) (again : Bool) : State :=
  let x := s.ctx c
  let y := { x.released p with clock := max x.clock clk, request := if again then x.request else none, begun := s.refTime,
                               sending := match x.sending with | .trapped => if again then .wait else .no | z => z }
  (s.setCtx c y).blockSender c

/-- A reply at its commit (04 R105, R107). A context whose unit has ended is only released from the hold. -/
def State.reply (s : State) (c : Nat) (r : Reply) (b : Word) (clk : Nat) : State :=
  let x := s.ctx c
  if x.status ≠ .trapped then s.setCtx c { x with holder := none, trap := none }
  else match r with
    | .resume => s.release c x.p clk true
    | .skip =>
      let n := s.skipLen c x.p.pc (match x.trap with | some t => t.atFetch | none => false)
      s.release c { x.p.clearRestart with pc := x.p.pc + BitVec.ofNat 48 n } clk false
    | .redirect =>
      if b.toNat % 4 ≠ 0 then s.refuseResume c Code.fetchAlign b
      else if !localOk b then s.refuseResume c Code.xlate b
      else s.release c { x.p.clearRestart with pc := b.truncate 48 } clk false
    | .kill =>
      let s := s.setCtx c { x with holder := none, trap := none }
      match classOf c with
      | .unit => s.removeUnit c
      | _ => (s.setCtx c { (s.ctx c).abandon with status := .stopped .killed, chunk := none, ceased := s.refTime }).dropTicket c

/-! ## Gangs (12 R252, 13 R275) -/

/-- The gang that the leader of `g` holds, if it has the same range and tag. -/
def State.sameGang (s : State) (c : Nat) (g : Gang) : Option Gang :=
  (s.ctx (leaderOf c g)).gang.filter (fun l => l.first = g.first && l.last = g.last && l.tag = g.tag)

/-- `gang.form` takes effect: a leader forms a new gang, another core's context leaves any it was in and has still to meet its leader. -/
def State.formGang (s : State) (c first last : Nat) (tag : BitVec 16) : State :=
  let g : Gang := { first := first, last := last, tag := tag }
  s.setCtx c { s.ctx c with gang := some (if leaderOf c g = c then { g with id := s.moment } else { g with fresh := true }) }

/-- `gang.join` takes effect: in a leader it enters the list of its joins, in a detached member of its gang it is the one that may attach it
again. One that its leader has left, or has formed anew, joins nothing before a `gang.form` of its own. -/
def State.joinGang (s : State) (c : Nat) (tag : BitVec 16) (pc : BitVec 48) : State :=
  let x := s.ctx c
  match x.gang with
  | some g =>
    if leaderOf c g = c then s.setCtx c { x with gang := some { g with joins := g.joins ++ [((tag, pc), g.path.length)] } }
    else if s.attached c then s
    else match (if g.fresh then s.sameGang c g else s.ledBy c g) with
      | some l => s.setCtx c { x with gang := some { g with id := l.id, base := none, joined := some (tag, pc), path := [] } }
      | none => s
  | none => s

/-- A member that stands at its leader's `PC` for the first time attaches. -/
def State.meetLeader (s : State) (d : Nat) : State :=
  match (s.ctx d).gang with
  | some g => match s.sameGang d g with
    | some l =>
      if g.fresh && leaderOf d g ≠ d && (s.ctx (leaderOf d g)).p.pc = (s.ctx d).p.pc then
        s.setCtx d { s.ctx d with gang := some { g with id := l.id, fresh := false, base := some l.path.length, path := [] } }
      else s
    | none => s
  | none => s

/-- What one step of a committing chunk does to gangs. -/
def State.applyGang (s : State) (c : Nat) : GangStep → State
  | .form first last tag => s.formGang c first last tag
  | .join tag pc => s.joinGang c tag pc
  | .leave => s.setCtx c { s.ctx c with gang := none }
  | .go pc => s.setCtx c { s.ctx c with gang := (s.ctx c).gang.map (fun g => { g with path := g.path ++ [pc] }) }

/-- What a committing chunk does to gangs; members of its column of contexts may meet their leader. -/
def State.installGangs (s : State) (c : Nat) (k : Chunk) : State :=
  let s := k.gangs.foldl (fun s g => s.applyGang c g) s
  match (s.ctx c).gang with
  | some _ => ((List.range 8).map (fun i => (clusterOf c * 8 + i) * 16 + inCore c)).foldl State.meetLeader s
  | none => s

/-! ## Effects at a commit -/

/-- One deferred effect of the chunk of context `c` committing at clock `clk`. -/
def State.applyFx (s : State) (c clk : Nat) (det : Bool) (f : Fx) : State :=
  let core := coreOf c
  let pid := (s.podOf c).getD 0
  match f with
  | .post g words am => s.post c g words am
  | .send target tag body =>
    s.deliver (coreOf target) { kind := .ordinary, consumer := target, hdr := word (c + tag.toNat * 2 ^ 16), words := body }
  | .fold pa rf opr v => s.fold pid core pa rf opr v
  | .give m =>
    match (s.cluster (clusterOf c)).cbuf? m with
    | some b => s.setCluster (clusterOf c) ((s.cluster (clusterOf c)).setCbuf m b.give)
    | none => s
  | .queue e kind cb =>
    let t := s.queueCmd c e kind cb det
    -- on an idle engine context one that fails or is skipped counts at once (09 R186)
    if (t.engine (clusterOf c) e).run.isNone then t.passOver (clusterOf c) e (Config.engineStore + 1) else t
  | .cancel level k => s.cancelField pid level k
  | .startRec n r => s.pickup (core * 16 + n) r clk
  | .startNext n =>
    match s.choosePlaced pid (clusterOf c) (core % 8) clk with
    | some x => (s.dequeue pid (clusterOf c) (core % 8) x).pickup (core * 16 + n) x.2.2 clk
    | none => s
  | .mode auto => s.setCore core { s.core core with auto := auto }
  | .resume n =>
    let t := core * 16 + n
    if (s.ctx t).status = .stopped .byStop then
      s.setCtx t { s.ctx t with status := .runnable, clock := max (s.ctx t).clock clk, chunk := none, begun := s.refTime }
    else s
  | .stop n => s.stopCtx (core * 16 + n)
  | .reap n queue =>
    let t := core * 16 + n
    let r := (s.ctx t).p.record (s.ctx t).p.pc
    let s := if queue then s.enqueue (clusterOf c) (s.stored pid (clusterOf c) r clk c false) else s
    s.idleCtx t
  | .svcReg t n v =>
    if (s.ctx t).status = .trapped && n ≠ 0 then
      s.setCtx t { s.ctx t with p := { (s.ctx t).p with regs := (s.ctx t).p.regs.setIfInBounds n v } }
    else s
  | .svcSr t n v =>
    match srOf n.toNat with
    | some r => if (s.ctx t).status = .trapped then s.setCtx t { s.ctx t with p := (s.ctx t).p.putSr true r v } else s
    | none => s
  | .reply t r b => s.reply t r b clk
  | .bank bit => s.setBank c bit

/-! ## Installing a chunk (09 R181, R185) -/

/-- The pending shared registers and the service target of a chunk (01 R14, R22). -/
def State.installShared (s : State) (c : Nat) (k : Chunk) : State :=
  let x := s.core (coreOf c)
  let x := { x with g := k.gs.foldl (fun g y => g.setIfInBounds y.1 y.2) x.g,
                    h := k.hs.foldl (fun h y => h.setIfInBounds y.1 y.2) x.h, activity := x.activity + 1 }
  let s := s.setCore (coreOf c) x
  match k.svctgt, s.podOf c with
  | some n, some p => s.setPod p { s.pod p with svctgt := n }
  | _, _ => s

/-- The context's counts after a commit, with its recorded answers `recs`: `CHUNKID`, the logical clock, the squash counts, the ticket (01 R21, 09 R183, R187); the commit
of a handler takes its message (16 R316). -/
def State.countCommit (s : State) (c : Nat) (k : Chunk) (recs : List Bool) : State :=
  let x := s.ctx c
  let s := if x.handler then s.setCore (coreOf c) { s.core (coreOf c) with handling := none } else s
  let s := s.setCtx c { x with chunkid := x.chunkid + 1, clock := x.clock + k.count, squashes := 0, parityRuns := 0, begun := s.refTime, recs := recs, kept := x.kept.drop k.vals.length,
                               hcount := if x.handler then x.hcount + k.count else x.hcount,
                               hlines := if x.handler then (k.places (clusterOf c)).foldl locPut x.hlines else x.hlines }
  if s.ticket = some c then { s with ticket := none } else s

/-- The end of a chunk recorded for replay, where something other than the program chose it (16 R333); `ts` tells a tile load or store
that a pre-emption has stopped at a row. -/
def Chunk.endMark (k : Chunk) (c seq : Nat) (ts : TStat) : List Logged :=
  match k.ended with
  | some .pressure => [.end_ c seq k.count 0]
  | some .preempt => [.end_ c seq k.count (if ts.rv then ts.rrow.toNat else 0)]
  | _ => []

/-- What is written to the commit log (09 R186). -/
def State.logCommit (s : State) (c : Nat) (k : Chunk) : State :=
  match s.podOf c with
  | some p =>
    let seq := (s.ctx c).chunkid.toNat
    let s := (s.logEvent p k.det (.commit (seq % 2 ^ 16) (k.level c) c)).logVals (some p) c k
    if k.det then s else (k.endMark c seq (s.ctx c).p.tstat).foldl (fun s x => s.logFor (some p) x) s
  | none => s

/-- A chunk of context `c` takes its place in the commit order: conflicts, writes, effects. `hits` are false conflicts of its
signature (09 R180). -/
def State.install (s : State) (c : Nat) (k : Chunk) (hits : List Nat) : State :=
  let lvl := k.level c
  let clk := (s.ctx c).clock + k.count
  let wrote := s.wrote c k
  let cause := s.sqCause c k
  let recs := s.recsAfter c k
  let s := s.logCommit c k
  let s := ((s.commitBytes k.writes).commitSpm (clusterOf c) k.spm).installShared c k
  let s := s.countCommit c k recs
  let s := s.squashHits c wrote cause
  let s := if lvl = 2 then
      (hits.filter (fun d => dieOf d ≠ dieOf c && s.ticket ≠ some d)).foldl (fun s d =>
        let reads (k : Option Chunk) : Bool := match k with
          | some k => k.reads.any (fun x => match x with | .line _ | .fetch _ | .table _ => true | _ => false)
          | none => false
        if reads (s.ctx d).pending then s.squash d true 2 else if reads (s.ctx d).chunk then s.squash d false 2 else s) s
    else s
  let s := s.installGangs c k
  k.fx.foldl (fun s f => s.applyFx c clk k.det f) s

/-- The dependence tests at a commit (12 R240); the pick-ups that it brings follow with what it wakes (`State.react`). -/
def State.afterCommit (s : State) (pid clk c : Nat) : State := s.settleDeps pid clk c

/-- A sender whose message of this chunk waits at a port is to be BLOCKED before its next instruction (13 R273). -/
def State.holdSender (s : State) (c : Nat) (k : Chunk) : State :=
  let sent := k.fx.any (fun f => match f with | .send .. => true | _ => false)
  if sent && (s.ctx c).status ≠ .idle && s.cores.any (fun y => y.2.holds c) then
    (s.setCtx c { s.ctx c with sending := .wait }).blockSender c
  else s

/-- The extension block a descriptor names: zeros where it names none, none where it is misaligned or cannot be read (03 R72,
R74). A stage-2 failure above the grant is logged and ends nothing but the read (13 R260, 15 R305; log 41). -/
def State.extBlock (s : State) (ext : Word) : Except Stop (Option (List Byte) × State) :=
  if ext = 0 then .ok (some (List.replicate 192 0), s)
  else if ext.toNat % 64 ≠ 0 then .ok (none, s)
  else match s.load ext 192 with
    | .ok (bs, _) => .ok (some bs, s)
    | .error (.out why) =>
      if s.beyondGrant s.myVf ext 192 then
        .ok (none, s.logError 3 (some s.myPodId) s.myPod.vf (Config.errDetail s.moment))
      else .error (.out why)
    | .error (.bad pa) => .error (.bad pa)
    | .error _ => .ok (none, s)

/-- The descriptor at `a` and its extension block as they stand now (03 R73). -/
def State.readLaunch (s : State) (a : Word) : Except Stop (LaunchRead × State) :=
  match s.load a 128 with
  | .error (.trap t) => if t.code = Code.poison then .ok ({ poison := some t.w2.toNat }, s) else .error (.trap t)
  | .error e => .error e
  | .ok (bs, s) => match s.extBlock (word (blockWord bs 0x78)) with
    | .ok (e, s) => .ok ({ block := bs, ext := some e }, s)
    | .error _ => .ok ({ block := bs }, s)

/-- The commit before a `launch` reads the descriptor at `a` and its extension block as they stand at its place in the commit order
(03 R73). Where a page has still to be mapped, the `launch` reads them itself. -/
def State.captureLaunch (s : State) (c : Nat) (a : Word) : State :=
  match ({ s with cur := c }.openChunk).readLaunch a with
  | .ok (r, t) => { s with errlog := t.errlog, vfs := t.vfs }.setCtx c { s.ctx c with launching := some r }
  | .error _ => s

/-- What becomes of a context whose open chunk, already ended, has committed. A cancel in the chunk may have ended its unit, which then
raises no trap (12 R241). -/
def State.resumeAfter (s : State) (c : Nat) (k : Chunk) : State :=
  let x := { s.ctx c with chunk := none }
  let s := s.setCtx c x
  match k.ended with
  | some (.trap t) => if x.status = .out .commit then s.trapEntry c t (1 ≤ k.count) else s
  | some (.launch a) => (s.captureLaunch c a).setCtx c { (s.captureLaunch c a).ctx c with
      status := if x.status = .out .commit then .runnable else x.status }
  | _ => if x.status = .out .commit then s.setCtx c { x with status := .runnable } else s

/-- A commit that a `launch` with nothing before it in the open chunk has waited for reads what that names (03 R73, 13 R260). -/
def State.captureNext (s : State) (c : Nat) : State :=
  match ({ s with cur := c }.openChunk).fetch with
  | .instr (.launch _ a) t => s.captureLaunch c (t.val a)
  | _ => s

/-- What becomes of a context whose pending chunk has committed (09 R182): its next chunk, if it has ended, becomes pending where
it may overlap, and otherwise waits for its own grant. -/
def State.resumePending (s : State) (c : Nat) : State :=
  let x := { s.ctx c with pending := none }
  match x.status, x.chunk with
  | .out .commit, some k =>
    match k.ended with
    | some .length | some .budget | some .pressure =>
      if k.excl then s.setCtx c x else s.setCtx c { x with pending := some k, chunk := none, status := .runnable }
    | some _ => s.setCtx c x
    | none => s.setCtx c { x with status := .runnable }
  | .out .commit, none => (s.setCtx c { x with status := .runnable }).captureNext c
  | .out .ticket, _ =>
    let s := s.setCtx c x
    if s.ticketQueue.contains c then s else { s with ticketQueue := s.ticketQueue ++ [c] }
  | _, _ => s.setCtx c x

/-- What the chunk after a commit of context `c` has read of control state and counters, as it expected them after that commit, stands
there now, or the chunk squashes (13 R268, R277). -/
def State.checkSeen (s : State) (c : Nat) : State :=
  let x := s.ctx c
  let stale (k : Option Chunk) : Bool := match k with | some k => k.seen.any (fun y => s.place y.1 ≠ y.2) | none => false
  let met (k : Chunk) : Chunk := { k with seen := [] }
  if stale x.pending then s.squash c true 1
  else if stale x.chunk then s.squash c false 1
  else s.setCtx c { x with chunk := x.chunk.map met, pending := x.pending.map met }

/-- The commit of an ended chunk: of the pending one, or of the open one where none is pending. A trap whose chunk holds nothing
commits no chunk. -/
def State.commitEnded (s : State) (c : Nat) (hits : List Nat) : State :=
  let x := s.ctx c
  let pid := (s.podOf c).getD 0
  match x.pending with
  | some k =>
    let clk := x.clock + k.count
    (((((s.install c k hits).resumePending c).holdSender c k).afterCommit pid clk c).react s clk c).checkSeen c
  | none => match x.chunk with
    | some k =>
      let clk := x.clock + k.count
      let t := if k.isEmpty then
          let u := (s.logVals (s.podOf c) c k).dropTicket c
          u.setCtx c { u.ctx c with recs := s.recsAfter c k, kept := (u.ctx c).kept.drop k.vals.length }
        else s.install c k hits
      (((t.resumeAfter c k).holdSender c k).afterCommit pid clk c).react s clk c
    | none => s

/-! ## Single-operation chunks (09 R178) -/

/-- Removes from the read set what fetching the instruction has read: a boundary instruction's own chunk begins after its fetch
(13 R266, log 38). -/
def State.dropFetch (s : State) : State :=
  s.setChunk { s.chunk with reads := s.chunk.reads.filter (fun x => match x with | .fetch _ => false | _ => true) }

/-- The retirement of a boundary instruction that continues at `pc`. -/
def State.retireSingle (s : State) (pc : BitVec 48) : State :=
  let s := s.setP { s.me.p.clearRestart with pc := pc }
  s.setChunk { s.chunk with count := s.chunk.count + 1 }

/-- The commit of the single-operation chunk that context `cur` has just run; `fin` ends its unit, where the instruction does. -/
def State.commitSingle (s : State) (s0 : State) (fin : State → Nat → State) : State :=
  let c := s.cur
  let k := { s.chunk with ended := some .boundary }
  let clk := s.me.clock + k.count
  let pid := (s.podOf c).getD 0
  let s := s.install c k (Config.falseHits s.moment)
  let s := s.setCtx c { s.ctx c with chunk := none, wait := none }
  let s := fin s clk
  (((s.holdSender c k).afterCommit pid clk c)).react s0 clk c

/-- The context waits, with no chunk open, until a boundary instruction may begin. -/
def State.waitTurn (s : State) : State := s.unpair.setMe { s.unpair.me with chunk := none, status := .out .commit }

/-- A boundary instruction. Its checks `pre` come first, in the open chunk; the chunk before it then ends and commits; and the
instruction `f` runs as a single-operation chunk that commits at once, when its place in the commit order has come. `prep` is what
happens where it stops instead: a request goes out, what a fence reports is cleared. -/
def single (s : State) (ops : List Opnd) (pre : State → Res) (f : State → Res) (fin : State → Nat → State := fun s _ => s)
    (prep : Stop → State → State := fun _ s => s) (why : EndWhy := .boundary) : Host.Outcome State Fault Refusal :=
  let s := s.openChunk
  match pre s with
  | .error e => settle s ops (.error e)
  | .ok _ =>
    if !s.chunk.isEmpty then .next (s.endChunk why)
    else if s.me.pending.isSome then .next s.waitTurn
    else
      let s := s.dropFetch
      let r := f s
      let trial := match r with | .ok t => { t.chunk with count := 1 } | .error _ => { s.chunk with count := 1 }
      if !s.grantable s.cur trial (Config.falseHits s.moment) then .next s.waitTurn
      else match r with
        | .ok t =>
          let u := (t.retireSingle (t.me.p.pc + 8)).commitSingle s fin
          .next (if s.harms u && !s.precedesHolder s.cur s.chunk.det then s.waitTurn else u)
        | .error e =>
          let u := prep e s
          if s.harms u && !s.precedesHolder s.cur s.chunk.det then .next s.waitTurn else settle u ops (.error e)

/-- A blocking wait in a courier raises COURIER_BLOCK unless it is satisfied at once (12 R254). -/
def State.mayBlock (s : State) (on : Wait) (w2 : Word) : Stop :=
  if classOf s.cur = .courier then trapWith Code.courierBlock else .block on w2

end Sys2Proof.Machine
end

