-- ==== Sys2Proof/Machine/Memory.lean ====
section
/-! DEFINITION. Loads, stores, scratchpad and bit accesses, remote operations, prefetches, atomics and reductions (10 R201–R212). -/

namespace Sys2Proof.Machine

/-- (a + sext(off, 64)) mod 2^64. -/
def State.ea {w : Nat} (s : State) (a : SReg) (off : BitVec w) : Word := s.val a + sext off

def misalign (x : Word) (n : Nat) : Except Stop Unit := if x.toNat % n ≠ 0 then .error (trapWith Code.misalign x) else .ok ()

/-! ## Loads and stores (10 R202) -/

/-- What a load of `n` bytes writes. -/
def loaded (v : Nat) (n : Nat) (sx : Bool) : Word := if sx then BitVec.ofInt 64 (sextNat v (8 * n)) else word v

/-- The bank bit of an access to an MMIO page (10 R208). -/
def mmioBit (va : Nat) : Fx := .bank (60 + homeDie va)

/-- An aligned access at `x`: to MMIO as a single operation (10 R201), elsewhere as part of the open chunk. -/
def access (s : State) (ops : List Opnd) (acc : Access) (x : Word) (n : Nat) (mmio : Nat → State → Res) (plain : State → Res) :
    Host.Outcome State Fault Refusal :=
  let s := s.openChunk
  match misalign x n with
  | .error e => settle s ops (.error e)
  | .ok () =>
    match s.xlate x acc with
    | .ok (.mmio va, t) => single s ops (fun _ => .ok t) (fun s => do
        let (_, s) ← s.xlate x acc
        mmio va (s.defer (mmioBit va)))
    | _ => performOut s ops 8 plain

def loadOp (d a : SReg) (off : BitVec 30) (n : Nat) (sx : Bool) (s : State) : Host.Outcome State Fault Refusal :=
  let x := s.ea a off
  access s [.s d, .s a] .read x n
    (fun _ s =>
      let r := s.outside (Config.mmioRead s.moment)
      .ok ((r.2.noteS [a]).putS d (loaded (r.1.toNat % 2 ^ (8 * n)) n sx)))
    (fun s => do
      let (bs, t) ← (s.noteS [a]).load x n
      pure (t.putS d (loaded (leNat bs) n sx)))

def execLdB (d a : SReg) (off : BitVec 30) (s : State) : Host.Outcome State Fault Refusal := loadOp d a off 1 true s
def execLdBu (d a : SReg) (off : BitVec 30) (s : State) : Host.Outcome State Fault Refusal := loadOp d a off 1 false s
def execLdH (d a : SReg) (off : BitVec 30) (s : State) : Host.Outcome State Fault Refusal := loadOp d a off 2 true s
def execLdHu (d a : SReg) (off : BitVec 30) (s : State) : Host.Outcome State Fault Refusal := loadOp d a off 2 false s
def execLdW (d a : SReg) (off : BitVec 30) (s : State) : Host.Outcome State Fault Refusal := loadOp d a off 4 true s
def execLdWu (d a : SReg) (off : BitVec 30) (s : State) : Host.Outcome State Fault Refusal := loadOp d a off 4 false s
def execLdD (d a : SReg) (off : BitVec 30) (s : State) : Host.Outcome State Fault Refusal := loadOp d a off 8 false s

/-- A store to an interrupt window: 4 bytes of n in 2–7 raise vector n (15 R295), but not during replay of a FULL pod (16 R333). -/
def State.mmioStore (s : State) (n v : Nat) : State :=
  if n = 4 && 2 ≤ v && v ≤ 7 && (s.myPod.replay.isNone || !s.myPod.full) then s.raiseVector s.myPod.vf v else s

def storeOp (a b : SReg) (off : BitVec 30) (n : Nat) (s : State) : Host.Outcome State Fault Refusal :=
  let x := s.ea a off
  access s [.none, .s a, .s b] .write x n
    (fun _ s => .ok ((s.noteS [a, b]).mmioStore n ((s.val b).toNat % 2 ^ (8 * n))))
    (fun s => (s.noteS [a, b]).store x (leBytes n (s.val b).toNat))

def execStB (a b : SReg) (off : BitVec 30) (s : State) : Host.Outcome State Fault Refusal := storeOp a b off 1 s
def execStH (a b : SReg) (off : BitVec 30) (s : State) : Host.Outcome State Fault Refusal := storeOp a b off 2 s
def execStW (a b : SReg) (off : BitVec 30) (s : State) : Host.Outcome State Fault Refusal := storeOp a b off 4 s
def execStD (a b : SReg) (off : BitVec 30) (s : State) : Host.Outcome State Fault Refusal := storeOp a b off 8 s

/-! ## Scratchpad (10 R203, R204) -/

def execSld (d a : SReg) (sz : BitVec 2) (sx : Bool) (off : BitVec 27) (s : State) : Host.Outcome State Fault Refusal :=
  performOut s [.s d, .s a] 8 (fun s =>
    let n := 2 ^ sz.toNat
    let r := (s.noteS [a]).spLoad (s.ea a off) n
    .ok (r.2.putS d (loaded (leNat r.1) n sx)))

def execSst (a b : SReg) (sz : BitVec 2) (off : BitVec 27) (s : State) : Host.Outcome State Fault Refusal :=
  performOut s [.none, .s a, .s b] 8 (fun s =>
    (s.noteS [a, b]).spStore (s.ea a off) (leBytes (2 ^ sz.toNat) (s.val b).toNat))

/-- Scratchpad bytes that hold the `w` bits from bit address `p` on (10 R204). -/
def State.bitAddrs (s : State) (p : Word) (w : Nat) : List Nat :=
  (List.range ((p.toNat % 8 + w + 7) / 8)).map (fun i => s.me.p.spAddr (word ((p.toNat / 8 + i) % 2 ^ 61)))

def execLdbit (d a : SReg) (wm1 : BitVec 6) (sx : Bool) (boff : BitVec 23) (s : State) : Host.Outcome State Fault Refusal :=
  performOut s [.s d, .s a] 8 (fun s =>
    let w := wm1.toNat + 1
    let p := s.ea a boff
    let os := s.bitAddrs p w
    let f := bits (leNat (os.map s.spByteAt)) (p.toNat % 8) w
    .ok (((s.noteS [a]).noteSp os).putS d (if sx then BitVec.ofInt 64 (sextNat f w) else word f)))

def execStbit (a b : SReg) (wm1 : BitVec 6) (boff : BitVec 23) (s : State) : Host.Outcome State Fault Refusal :=
  performOut s [.none, .s a, .s b] 8 (fun s =>
    let w := wm1.toNat + 1
    let p := s.ea a boff
    let os := s.bitAddrs p w
    let old := leNat (os.map s.spByteAt)
    let lo := p.toNat % 8
    let new := old % 2 ^ lo + ((s.val b).toNat % 2 ^ w) * 2 ^ lo + old / 2 ^ (lo + w) * 2 ^ (lo + w)
    ((s.noteS [a, b]).noteSp os).spPut (os.zip (leBytes os.length new)))

/-! ## Remote operations (10 R205, R206) -/

/-- Sends the request of a remote read: to the agent of this chip, or as a flit. -/
def State.ask (s : State) (c : Nat) (g : Word) (kind : RemoteKind) (flit : OpHdr → Flit) : State :=
  let x := globOf g
  let i := s.newRid
  let s := i.2
  let s := s.setCtx c { s.ctx c with request := some { rid := i.1, chip := x.chip, sent := s.refTime } }
  if x.chip = s.chipNum then
    s.toAgent x.core { srcChip := s.chipNum, srcCtx := c, rid := i.1, vf := s.vfOf c, addr := g, kind := kind }
  else
    let h := s.opHeader c g i.1
    h.2.sendFlit (h.2.portOf c x.core) x.chip (flit h.1)

/-- A request whose answer a replay takes from its records goes out again, and its receiver discards it (16 R334): not one of this chip, nor
one sent before the interval's boundary. -/
def State.askedAgain (s : State) (g : Word) (kind : RemoteKind) (flit : OpHdr → Flit) : State :=
  if s.me.answer.isNone && s.me.request.isNone && !s.takesKept && (globOf g).chip ≠ s.chipNum then s.ask s.cur g kind flit else s

/-- The context has the reply that it waited for no more. -/
def Ctx.answered (x : Ctx) : Ctx := { x with answer := none, request := none }

/-- An answer is taken: a request that is on its way beyond one kept from the boundary stays so. -/
def State.answerTaken (s : State) (g : Word) (kind : RemoteKind) (flit : OpHdr → Flit) : State :=
  if s.takesKept then s else (s.askedAgain g kind flit).setMe (s.askedAgain g kind flit).me.answered

/-- What an access that ends by REMOTE or POISON leaves of its request: the refusal is recorded or used up (16 R333). -/
def State.takeRefusal (s : State) (e : Stop) (g : Word) (kind : RemoteKind) (flit : OpHdr → Flit) : State :=
  match e, s.outsideAnswer with
  | .trap t, some (.refused n) => if t.code = Code.remote then (s.askedAgain g kind flit).takeAnswer (.refused n) else s
  | .trap t, some (.poisoned l) => if t.code = Code.poison then s.takeAnswer (.poisoned l) else s
  | _, _ => s

def rldRes (d a : SReg) (off : BitVec 30) (s : State) : Res := do
  let g := s.ea a off
  let x ← s.globCheck g 8
  let got (v : Word) : State := (((s.answerTaken g .rld .rld).noteS [a]).take v).putS d v
  match s.outsideAnswer with
  | some (.value v) => pure (if x.chip = s.chipNum then (got v).defer (.bank (s.globBank x)) else got v)
  | some (.refused _) => .error (trapWith Code.remote g)
  | some (.poisoned l) => .error (trapWith Code.poison (word (l * 64)))
  | none => .error (.out .reply)

/-- A remote read leaves rotation until its reply (10 R205); one that met a poisoned line of this chip raises POISON (10 R201; log 115). -/
def execRld (d a : SReg) (off : BitVec 30) (s : State) : Host.Outcome State Fault Refusal :=
  let s := s.openChunk
  match rldRes d a off s with
  | .ok t => .next (t.retire 8)
  | .error (.out .reply) =>
    let s := if s.me.request.isSome then s else s.ask s.cur (s.ea a off) .rld .rld
    .next (s.setMe { s.me with status := .out .reply })
  | .error e =>
    let s := s.takeRefusal e (s.ea a off) .rld .rld
    settle (s.setMe s.me.answered) [.s d, .s a] (.error e)

def execRst (a b : SReg) (off : BitVec 30) (s : State) : Host.Outcome State Fault Refusal :=
  perform s [.none, .s a, .s b] 8 (fun s => do
    let g := s.ea a off
    let _ ← s.globCheck g 8
    pure ((s.noteS [a, b]).defer (.post g [s.val b] false)))

def execAmSend (a b x y : SReg) (hid : BitVec 10) (s : State) : Host.Outcome State Fault Refusal :=
  perform s [.none, .s a, .s b, .s x] 12 (fun s => do
    let g := s.val a
    -- SPACE is ignored, so that the checks see it clear
    let _ ← (s.globCheck (g &&& 0xFFBFFFFFFFFFFFFF) 0).mapError (fun e => match e with
      | .trap t => .trap { t with w2 := g }
      | e => e)
    pure ((s.noteS [a, b, x, y]).defer (.post g (amWords s.chipNum s.cur hid.toNat (s.val b) (s.val x) (s.val y) g) true)))

/-! ## Prefetches (10 R210) -/

def Core.countPf (k : Core) (i : Nat) : Core := { k with pf := k.pf.setIfInBounds i ((k.pf.getD i 0 + 1) % 2 ^ 48) }

/-- A prefetch changes counters alone. What becomes of it is timing, so a free value (log 30). -/
def prefetch (a : SReg) (off : BitVec 30) (s : State) : Host.Outcome State Fault Refusal :=
  perform s [.none, .s a] 8 (fun s =>
    let fate := Config.prefetchFate s.moment
    let s1 := s.noteS [a]
    match translate s.seen s.myVf (s.ea a off) .read with
    | .ok (.mem _, _) | .ok (.host _, _) =>
      if fate = 0 then .ok s1
      else
        let k := (s1.core s1.myCore).countPf 0
        .ok (s1.setCore s1.myCore (if fate = 1 then k.countPf 1 else if fate = 2 then k.countPf 2 else if fate = 3 then k.countPf 3 else k))
    | _ => .ok s1)

def execPfL1 (a : SReg) (off : BitVec 30) (s : State) : Host.Outcome State Fault Refusal := prefetch a off s
def execPfL2 (a : SReg) (off : BitVec 30) (s : State) : Host.Outcome State Fault Refusal := prefetch a off s

/-! ## Atomics (10 R211) -/

/-- The read-modify-write of an atomic on the word at `x`. -/
def atomicRes (d : SReg) (reads : List SReg) (x : Word) (f : Word → Word) (s : State) : Res := do
  misalign x 8
  let (_, s1) ← s.range .read x 8
  let (_, _) ← s1.range .write x 8
  let (bs, t) ← (s.noteS reads).load x 8
  let old := word (leNat bs)
  let t ← t.store x (leBytes 8 (f old).toNat)
  pure (t.putS d old)

def atomic (d a b : SReg) (off : BitVec 30) (f : Word → Word → Word) (s : State) : Host.Outcome State Fault Refusal :=
  performOut s [.s d, .s a, .s b] 8 (fun s => atomicRes d [a, b] (s.ea a off) (fun o => f o (s.val b)) s)

def execAmoAdd (d a b : SReg) (off : BitVec 30) (s : State) : Host.Outcome State Fault Refusal := atomic d a b off (· + ·) s
def execAmoAnd (d a b : SReg) (off : BitVec 30) (s : State) : Host.Outcome State Fault Refusal := atomic d a b off (· &&& ·) s
def execAmoOr (d a b : SReg) (off : BitVec 30) (s : State) : Host.Outcome State Fault Refusal := atomic d a b off (· ||| ·) s
def execAmoXor (d a b : SReg) (off : BitVec 30) (s : State) : Host.Outcome State Fault Refusal := atomic d a b off (· ^^^ ·) s
def execAmoMin (d a b : SReg) (off : BitVec 30) (s : State) : Host.Outcome State Fault Refusal :=
  atomic d a b off (fun x y => if x.toInt ≤ y.toInt then x else y) s
def execAmoMax (d a b : SReg) (off : BitVec 30) (s : State) : Host.Outcome State Fault Refusal :=
  atomic d a b off (fun x y => if y.toInt ≤ x.toInt then x else y) s
def execAmoSwap (d a b : SReg) (off : BitVec 30) (s : State) : Host.Outcome State Fault Refusal := atomic d a b off (fun _ y => y) s

def execAmoCas (d a b x : SReg) (off : BitVec 30) (s : State) : Host.Outcome State Fault Refusal :=
  performOut s [.s d, .s a, .s b, .s x] 12 (fun s =>
    atomicRes d [a, b, x] (s.ea a off) (fun o => if o = s.val b then s.val x else o) s)

/-! ## Reductions (10 R212) -/

/-- Whether an element lies in a reduction range of its format and operation: by its address, or in a line that holds partials. -/
def State.foldsInto (s : State) (x : Word) (pa : Nat) (rf : RedFmt) (opr : Nat) : Bool :=
  s.myPod.ranges.any (fun r => r.rf = rf && r.opr = opr && r.base ≤ x.toNat && x.toNat < r.base + r.size) ||
  (s.partialsOf (pa / 64)).any (fun p => p.rf = rf && p.opr = opr)

/-- The operand's encoding. -/
def redValue (rf : RedFmt) (b : Word) : Nat := b.toNat % 2 ^ (8 * redBytes rf)

def redRes (a b : SReg) (rf : RedFmt) (opr : Nat) (x : Word) (s : State) : Res := do
  let n := redBytes rf
  misalign x n
  let (l, s1) ← s.range .read x n
  let (_, s1) ← s1.range .write x n
  let pa := match l with | (k, _) :: _ => k | [] => 0
  if pa < hostBase && s.foldsInto x pa rf opr then
    pure ((s1.noteS [a, b]).defer (.fold pa rf opr (redValue rf (s.val b))))
  else
    let (bs, t) ← (s.noteS [a, b]).load x n
    t.store x (leBytes n (redOp rf opr (leNat bs) (redValue rf (s.val b))))

def reduce (a b : SReg) (rf : RedFmt) (opr : Nat) (off : BitVec 28) (s : State) : Host.Outcome State Fault Refusal :=
  performOut s [.none, .s a, .s b] 8 (fun s => redRes a b rf opr (s.ea a off) s)

def execRedAdd (a b : SReg) (rf : RedFmt) (off : BitVec 28) (s : State) : Host.Outcome State Fault Refusal := reduce a b rf 0 off s
def execRedMax (a b : SReg) (rf : RedFmt) (off : BitVec 28) (s : State) : Host.Outcome State Fault Refusal := reduce a b rf 1 off s
def execRedMin (a b : SReg) (rf : RedFmt) (off : BitVec 28) (s : State) : Host.Outcome State Fault Refusal := reduce a b rf 2 off s

end Sys2Proof.Machine
end

