-- ==== Sys2Proof/Machine/Sync.lean ====
section
/-! DEFINITION. Full/empty words, memory waits, circular buffers, fences and timelines (10 R208, R209, R213–R217, R221). -/

namespace Sys2Proof.Machine

/-! ## Full/empty words (10 R213, R214) -/

/-- Sets or clears a full/empty bit. -/
def State.setFull (s : State) (cl off : Nat) (full : Bool) : State :=
  let k := s.cluster cl
  s.setCluster cl { k with full := if full then nput k.full (off / 8) else k.full.filter (· ≠ off / 8) }

/-- A word of a scratchpad of this chip. -/
def State.spWord (s : State) (cl off : Nat) : Word := word (leNat ((s.cluster cl).spm.readBytes off 8))

/-- Writes a word of a scratchpad of this chip in the executing single-operation chunk: in its write set for its own cluster, at
once for another one (09 R196). -/
def State.putSpWord (s : State) (cl off : Nat) (v : Word) : State :=
  let bs := leBytes 8 v.toNat
  if cl = s.myCluster then s.setChunk { s.chunk with spm := putBytes s.chunk.spm off bs }
  else (s.commitSpm cl ((List.range 8).map (fun i => (off + i, bs.getD i 0)))).squashHits s.cur
    (fun x => x = .spm cl (off / 64)) (fun x => if dieOf x ≠ dieOf s.cur then 2 else 1)

/-- Where a full/empty instruction finds its word: cluster and offset on this chip, or another chip. -/
inductive FePlace where
  | here (cl off : Nat)
  | away (g : Glob)
  deriving DecidableEq, Repr

/-- y = (a + sext(WOFF, 64) × 8) mod 2^64 (10 R213). -/
def State.feAddr (s : State) (a : SReg) (woff : BitVec 27) : Word := s.val a + (sext woff <<< 3)

def State.fePlace (s : State) (g : Bool) (y : Word) : Except Stop FePlace :=
  if g then
    match s.globCheck y 8 true with
    | .error e => .error e
    | .ok x => .ok (if x.chip = s.chipNum then .here (clusterOfCore x.core) x.off else .away x)
  else .ok (.here s.myCluster (s.me.p.spAddr (y - word (y.toNat % 8))))

/-- The event of a full/empty operation on a word of this chip: the bank bit of a global-form one, then what `f` does. -/
def State.feHere (s : State) (g : Bool) (y : Word) (cl off : Nat) (f : State → Res) : Res :=
  let hit (x : Loc) : Bool := x = .spm cl (off / 64)
  if s.ticketBlocks s.cur hit && !s.chunk.det then .error (.out .commit)
  else
    let s := s.note [.spm cl (off / 64)]
    f (if g then s.defer (.bank (s.globBank (globOf y))) else s)

/-- The reply to a full/empty operation at another chip, or the wait for it. -/
def State.feReply (s : State) (y : Word) (op : FeOp) (v : Word) (wait : Stop) (f : Word → State → Res) : Res :=
  match s.outsideAnswer with
  | some (.value r) => f r ((s.answerTaken y (.fe op v) (fun h => .fe h op v)).take r)
  | some _ => .error (trapWith Code.remote y)
  | none => .error wait

/-- The request of a full/empty operation to another chip, sent once; its bank bit is set (10 R208). -/
def State.feAsk (s : State) (y : Word) (op : FeOp) (v : Word) (e : Stop) : State :=
  match e with
  | .block .. | .out .reply =>
    if s.me.request.isSome then s
    else (s.setBank s.cur (s.globBank (globOf y))).ask s.cur y (.fe op v) (fun h => .fe h op v)
  | _ =>
    let s := s.takeRefusal e y (.fe op v) (fun h => .fe h op v)
    s.setMe s.me.answered

/-- The frame of the full/empty instructions. -/
def feOp (ops : List Opnd) (g : Bool) (y : State → Word) (op : FeOp) (v : State → Word) (wait : State → FePlace → Stop)
    (here : Nat → Nat → State → Res) (away : Word → State → Res) (s : State) : Host.Outcome State Fault Refusal :=
  single s ops (fun s => (s.fePlace g (y s)).map (fun _ => s))
    (fun s => match s.fePlace g (y s) with
      | .error e => .error e
      | .ok (.here cl off) => s.feHere g (y s) cl off (here cl off)
      | .ok (.away x) => s.feReply (y s) op (v s) (wait s (.away x)) away)
    (prep := fun e s => match s.fePlace g (y s) with
      | .ok (.away _) => s.feAsk (y s) op (v s) e
      | _ => s)

/-- The wait of a full/empty instruction, with y in word 2 (10 R214). -/
def feWait (g put : Bool) (y : Word) (s : State) (p : FePlace) : Stop :=
  match p with
  | .here cl off => s.mayBlock (.fe g cl off put) y
  | .away x => s.mayBlock (.fe g (128 + x.chip) x.off put) y

/-- Whether a waiter of lower key is to be served first (09 R198). -/
def State.served (s : State) (on : Wait) : Bool := !s.waitsBefore s.cur on

def execFePut (a b : SReg) (g : Bool) (woff : BitVec 27) (s : State) : Host.Outcome State Fault Refusal :=
  feOp [.none, .s a, .s b] g (fun s => s.feAddr a woff) .put (fun s => s.val b) (fun s p => feWait g true (s.feAddr a woff) s p)
    (fun cl off s =>
      if !s.isFull cl off && s.served (.fe g cl off true) then .ok (((s.noteS [a, b]).putSpWord cl off (s.val b)).setFull cl off true)
      else .error (feWait g true (s.feAddr a woff) s (.here cl off)))
    (fun _ s => .ok (s.noteS [a, b])) s

def execFeTake (d a : SReg) (g : Bool) (woff : BitVec 27) (s : State) : Host.Outcome State Fault Refusal :=
  feOp [.s d, .s a] g (fun s => s.feAddr a woff) .take (fun _ => 0) (fun s p => feWait g false (s.feAddr a woff) s p)
    (fun cl off s =>
      if s.isFull cl off && s.served (.fe g cl off false) then .ok (((s.noteS [a]).putS d (s.spWord cl off)).setFull cl off false)
      else .error (feWait g false (s.feAddr a woff) s (.here cl off)))
    (fun v s => .ok ((s.noteS [a]).putS d v)) s

def execFePeek (d a : SReg) (g ps : Bool) (woff : BitVec 27) (s : State) : Host.Outcome State Fault Refusal :=
  feOp [.s d, .s a] g (fun s => s.feAddr a woff) (if ps then .peekState else .peekWord) (fun _ => 0) (fun _ _ => .out .reply)
    (fun cl off s => .ok ((s.noteS [a]).putS d (if ps then boolWord (s.isFull cl off) else s.spWord cl off)))
    (fun v s => .ok ((s.noteS [a]).putS d v)) s

/-! ## Memory waits (10 R215) -/

/-- The translated word of a wait; an MMIO page raises PERM (log 16). -/
def State.waitWord (s : State) (x : Word) : Except Stop (Nat × State) := do
  misalign x 8
  let (l, s1) ← s.range .read x 8
  match l with
  | (k, _) :: _ => pure (k, s1)
  | [] => pure (0, s1)

def execWaitMem (a b : SReg) (cc : Cc) (woff : BitVec 27) (s : State) : Host.Outcome State Fault Refusal :=
  let x := s.val a + (sext woff <<< 3)
  single s [.none, .s a, .s b] (fun s => (s.waitWord x).map (·.2))
    (fun s => do
      let (k, _) ← s.waitWord x
      -- COURIER_BLOCK comes before POISON (02 R62)
      if classOf s.cur = .courier && !ccHolds cc (word (leNat (s.bytesAt k 8))) (s.val b) then .error (trapWith Code.courierBlock)
      let (bs, t) ← (s.noteS [a, b]).load x 8
      if ccHolds cc (word (leNat bs)) (s.val b) then pure t else .error (s.mayBlock (.mem k cc (s.val b)) x))

/-! ## Circular buffers (10 R217) -/

def State.cbufIdx (s : State) (a : SReg) (m : BitVec 5) : Nat := ((s.val a).toNat + m.toNat) % 32

/-- The buffer named, or PERM. -/
def State.cbufOf (s : State) (n : Nat) : Except Stop CBuf :=
  match (s.cluster s.myCluster).cbuf? n with
  | some b => .ok b
  | none => .error (trapWith Code.perm (word n))

/-- The cycles of the follow-ons that an acquire point performs, 16 for each (07 R159); a burst holds 512 (07 R173). -/
def State.heldWork (s : State) (pick : HeldCmd → Bool) : Nat :=
  min 512 (16 * ((s.cluster s.myCluster).engines.flatMap (fun x => x.2.held.filter (fun h => pick h && h.fo))).length)

/-- An acquire point that performs follow-ons needs a power token, as that matrix work does (07 R173; log 102). -/
def State.needsToken (s : State) (pick : HeldCmd → Bool) : Bool :=
  s.chunk.det && 0 < s.heldWork pick && !s.mmaMayStart (s.heldWork pick)

def takeRes (d a : SReg) (m : BitVec 5) (s : State) : Res := do
  let n := s.cbufIdx a m
  let b ← s.cbufOf n
  match b.filled with
  | [] => .error (s.mayBlock (.cbuf n) (word n))
  | x :: _ =>
    if !s.served (.cbuf n) then .error (s.mayBlock (.cbuf n) (word n))
    else if s.needsToken (fun h => h.slot = some (n, x)) then .error (.out .token)
    else
      let s1 := if s.chunk.det then (s.leaveTokenq s.cur).acquireSlot s.myCluster n x s.cur else s
      let k := s1.cluster s.myCluster
      let s1 := s1.setCluster s.myCluster (k.setCbuf n b.take)
      pure ((s1.noteS [a]).putS d (word (b.slotBase x) - zext s.me.p.spbase))

def execCbufTake (d a : SReg) (m : BitVec 5) (s : State) : Host.Outcome State Fault Refusal :=
  single s [.s d, .s a] (fun s => (s.cbufOf (s.cbufIdx a m)).map (fun _ => s)) (takeRes d a m)
    (prep := fun z s => match z with | .out .token => s.awaitToken | _ => s)

def execCbufGive (a : SReg) (m : BitVec 5) (s : State) : Host.Outcome State Fault Refusal :=
  perform s [.none, .s a] 8 (fun s => do
    let n := s.cbufIdx a m
    let _ ← s.cbufOf n
    pure ((s.noteS [a]).defer (.give n)))

/-! ## Fences (09 R200, 10 R207–R209, 15 R309) -/

/-- A clamped policy: `fence.system` acts as `fence.pod` (15 R309). -/
def State.clamped (s : State) (scope : Nat) : Bool :=
  scope = 4 && (match s.myVf.policy with | some p => p.fence | none => false)

/-- Bank bits that a scope clears. -/
def scopeBits (scope : Nat) : Word :=
  if scope = 3 then 0xF0FF000000000000 else if scope = 4 then 0xFFFFFFFFFFFFFFFF else 0

/-- Chips that a fence of system scope probes: those with posted operations whose bank group is marked. -/
def Ctx.probeChips (x : Ctx) : List Nat :=
  (x.posted.filter (fun c => 0 < c.2 && x.p.bankmask.getLsbD (c.1 % 48))).map (·.1)

/-- Sends the probes of a fence once. -/
def State.sendProbes (s : State) : State :=
  let c := s.cur
  let i := s.newRid
  let chips := s.me.probeChips
  let s := i.2.setCtx c { i.2.ctx c with request := some { rid := i.1, chip := 255, sent := s.refTime, fence := true }, acks := chips }
  chips.foldl (fun s chip =>
    let tenant := (s.vf (s.vfOf c)).tenant
    let h : OpHdr := { srcCtx := .ofNat 14 c, tgtCore := 0, rid := .ofNat 32 i.1, tenant := tenant, interval := 0, seq := 0, addr := 0 }
    s.sendFlit (s.portOf c chip) chip (.probe h (.ofNat 32 (aget 0 (s.ctx c).posted chip)))) s

/-- The parts of the refusal record that a scope covers, and what it reports of them (10 R207). -/
def Priv.refused (p : Priv) (scope : Nat) : Option (Word × Nat) :=
  let ps := (p.refusals.toList.take (scope + 1)).filter (fun r => 0 < r.count)
  (firstOf (fun a b => a.pos < b.pos) ps).map (fun r => (r.addr, (ps.map (·.count)).foldl (· + ·) 0))

def Priv.clearRefused (p : Priv) (scope : Nat) : Priv :=
  { p with refusals := Vector.ofFn (fun i => if i.val ≤ scope then {} else p.refusals[i]) }

/-- What has been done when a fence completes: its bank bits and its probes are gone. -/
def State.fenceDone (s : State) (scope : Nat) : State :=
  let s := s.setMe { s.me with request := none, acks := [] }
  s.setMe (s.me.mapPriv (fun p => { p with bankmask := p.bankmask &&& ~~~(scopeBits scope) }))

/-- A fence whose scope after clamping is `sc`. -/
def fenceRes (scope : Nat) (s : State) : Res :=
  let sc := if s.clamped scope then 2 else scope
  let probed := sc ≠ 4 || s.me.request.isSome || s.me.probeChips.isEmpty
  if !probed || !s.satisfied s.cur (.fence sc) then .error (.block (.fence sc) 0)
  else match s.me.p.refused sc with
    | some (g, n) => .error (.trap { code := Code.remote, w2 := g, own := some [word n, 0, 0, 0] })
    | none =>
      let t := s.fenceDone sc
      .ok (if s.clamped scope then t.setP { t.me.p with tstat := { t.me.p.tstat with clamp := true } } else t)

def fence (scope : Nat) (s : State) : Host.Outcome State Fault Refusal :=
  single s [] (fun s => .ok s) (fenceRes scope) (prep := fun e s =>
    let sc := if s.clamped scope then 2 else scope
    match e with
    | .block .. => if sc = 4 && s.me.request.isNone then s.sendProbes else s
    | .trap _ =>
      let s := (s.fenceDone sc).setMe ((s.fenceDone sc).me.mapPriv (fun p => p.clearRefused sc))
      if s.clamped scope then s.setMe (s.me.mapPriv (fun p => { p with tstat := { p.tstat with clamp := true } })) else s
    | _ => s)

def execFenceCore (s : State) : Host.Outcome State Fault Refusal := fence 0 s
def execFenceCluster (s : State) : Host.Outcome State Fault Refusal := fence 1 s
def execFencePod (s : State) : Host.Outcome State Fault Refusal := fence 2 s
def execFencePackage (s : State) : Host.Outcome State Fault Refusal := fence 3 s
def execFenceSystem (s : State) : Host.Outcome State Fault Refusal := fence 4 s

/-! ## Timelines (10 R221) -/

/-- a[55:0]. -/
def tlCount (a : Word) : Nat := a.toNat % 2 ^ 56

/-- The acquire point of a `tl.wait` that finds no failure and its count reached (09 R193). A follow-on may fail there (log 39). -/
def State.tlAcquire (s : State) (e : BitVec 4) (n : Nat) : State :=
  let x := s.engine s.myCluster e.toNat
  if s.chunk.det && n ≤ x.count && !(x.err && x.errseq ≤ n) then s.acquireTl s.myCluster e.toNat n s.me.p.launchid.toNat s.cur else s

/-- What a `tl.wait` of engine context `e` for count `n` acquires of that engine context. -/
def State.tlNeedsToken (s : State) (e : BitVec 4) (n : Nat) : Bool :=
  let x := s.engine s.myCluster e.toNat
  s.needsToken (fun h => h.cmd.seq ≤ n && x.held.contains h)

def tlWaitRes (a : SReg) (e : BitVec 4) (s : State) : Res :=
  let cl := s.myCluster
  let n := tlCount (s.val a)
  if n ≤ (s.engine cl e.toNat).count && s.tlNeedsToken e n then .error (.out .token)
  else
  let t := (s.leaveTokenq s.cur).tlAcquire e n
  let x := t.engine cl e.toNat
  if x.err && x.errseq ≤ n then
    .error (.trap { code := Code.engine, w2 := x.tl, own := some [s.val a, word x.errseq, x.fault, 0] })
  else if n ≤ x.count then .ok (t.noteS [a])
  else .error (s.mayBlock (.tl e.toNat n) x.tl)

def execTlWait (a : SReg) (e : BitVec 4) (s : State) : Host.Outcome State Fault Refusal :=
  single s [.none, .s a] (fun s => .ok s) (tlWaitRes a e) (prep := fun z s => match z with
    | .trap _ => s.tlAcquire e (tlCount (s.val a))
    | .out .token => s.awaitToken
    | _ => s)

/-- `tl.read` (10 R221): in deterministic mode what the contexts of the same LAUNCHID have acquired, all supervisors and couriers
together as they carry 0xFF (log 123). -/
def execTlRead (d : SReg) (e : BitVec 4) (sl : BitVec 2) (s : State) : Host.Outcome State Fault Refusal :=
  perform s [.s d] 8 (fun s =>
    let det := s.chunk.det
    let slot := s.me.p.launchid.toNat
    let s1 := if det then s.note [tlLoc s.myCluster e.toNat slot] else s
    .ok (s1.putS d (((s.engine s.myCluster e.toNat).view det slot).readSel sl.toNat)))

end Sys2Proof.Machine
end

