-- ==== Sys2Proof/Machine/Husk.lean ====
section
/-! DEFINITION. The Husk's queues: command entries and completions in host memory (15 R285, R286, 18 R346), and handles (15 R287). -/

namespace Sys2Proof.Machine

/-! ## Queues -/

/-- The function of a queue: 0–15 are the physical function's, then four for each virtual function (15 R285). -/
def queueFn (q : Nat) : Nat := if q < 16 then 0 else (q - 16) / 4 + 1

/-- The Husk has a command in hand that takes effect only at a switch-out (15 R286, R292). -/
def State.huskBusy (s : State) : Bool := s.pods.any (fun p => p.2.pausing.isSome)

/-- Commands of a queue not yet taken. -/
def HQueue.pending (q : HQueue) : Nat := (q.tail + 2 ^ q.logn - q.head) % 2 ^ q.logn

/-- A command entry (15 R286), with its bytes 0x00–0x2F (15 R288). -/
structure Entry where
  head : List Byte
  opc : Nat
  clear : Bool
  tag : Nat
  rsvZero : Bool
  h0 : Word
  h1 : Word
  a0 : Nat
  a1 : Nat
  a2 : Nat
  blk : Nat
  len : Nat
  deriving DecidableEq, Repr

/-- The entry that 64 bytes hold. -/
def entryOf (bs : List Byte) : Entry :=
  let w (i : Nat) : Nat := leNat ((bs.drop (8 * i)).take 8)
  { head := bs.take 48, opc := bits (w 0) 0 8, clear := bits (w 0) 8 1 = 1, tag := bits (w 0) 16 16,
    rsvZero := bits (w 0) 9 7 = 0 && bits (w 0) 32 32 = 0 && bits (w 7) 32 32 = 0,
    h0 := word (w 1), h1 := word (w 2), a0 := w 3, a1 := w 4, a2 := w 5, blk := w 6, len := bits (w 7) 0 32 }

/-- The command that `i` others precede in a queue, in host memory. -/
def State.entryAt (s : State) (q i : Nat) : Entry :=
  let x := s.queue q
  entryOf (s.hostMem.readBytes (x.cbase.toNat + 64 * ((x.head + i) % 2 ^ x.logn)) 64)

/-- The next command of a queue. -/
def State.nextEntry (s : State) (q : Nat) : Entry := s.entryAt q 0

/-- The Husk takes the head of a queue: the next queue in turn is served after it (15 R286). -/
def State.takeEntry (s : State) (q : Nat) : State :=
  let x := s.queue q
  { s with rrQueue := q + 1 }.setQueue q { x with head := (x.head + 1) % 2 ^ x.logn }

/-- Posts a completion; a virtual device's vector 1 signals it (15 R285, R286). -/
def State.complete (s : State) (q tag : Nat) (res : Int) (out : Word) : State :=
  let x := s.queue q
  let w := tag % 2 ^ 16 + (wrapInt res 16) * 2 ^ 16 + x.phase.toNat * 2 ^ 63
  let bs := leBytes 8 w ++ leBytes 8 out.toNat
  let s := { s with hostMem := s.hostMem.writeBytes (x.cpbase.toNat + 16 * x.cpi) bs }
  let last := x.cpi + 1 = 2 ^ x.logn
  let s := s.setQueue q { x with cpi := (x.cpi + 1) % 2 ^ x.logn, phase := if last then !x.phase else x.phase }
  s.raiseVector (queueFn q) 1

/-! ## Handles (15 R287) -/

/-- A handle of virtual device `v`: kind, generation and index. -/
def mkHandle (v kind gen idx : Nat) : Word :=
  let low := kind * 2 ^ 24 + gen % 256 * 2 ^ 16 + idx % 2 ^ 16
  word ((Config.handleCheck v low).toNat * 2 ^ 32 + low)

/-- The handle of a virtual device, a pod, a window, as now valid. -/
def State.vfHandle (s : State) (v : Nat) : Word := mkHandle v 1 (s.vf v).gen.toNat v
def State.podHandle (s : State) (pid : Nat) : Word := mkHandle (s.pod pid).vf 2 (s.vf (s.pod pid).vf).gen.toNat (s.pod pid).idx
def State.winHandle (s : State) (v n : Nat) : Word := mkHandle v 3 (s.vf v).gen.toNat n

/-- A bound virtual device, by its handle. -/
def State.vfByHandle (s : State) (h : Word) : Option Nat :=
  (s.vfs.find? (fun v => v.2.policy.isSome && v.2.handle = h)).map (·.1)

/-- An allocated pod, by its handle. -/
def State.podByHandle (s : State) (h : Word) : Option Nat := (s.pods.find? (fun p => p.2.handle = h)).map (·.1)

/-- A window with its virtual device, by its handle. -/
def State.winByHandle (s : State) (h : Word) : Option (Nat × Nat) :=
  s.vfs.findSome? (fun v => (v.2.windows.find? (fun w => w.2.handle = h)).map (fun w => (v.1, w.1)))

end Sys2Proof.Machine
end

