-- ==== Sys2Proof/Machine/Events.lean ====
section
/-! DEFINITION. Events of the scheduler, the inboxes, the remote agents, the tokens and the dies (01 R21, R41, R42, 07 R173, 09 R199,
12 R237–R258, 18 R355). An event that is not possible in a state changes nothing. -/

namespace Sys2Proof.Machine

/-- Something has come from outside, or an error has: what it wakes and squashes follows (09 R196, 12 R237). -/
def arrives (s t : State) : Host.Outcome State Fault Refusal := .next (t.react s 0 Config.contexts)

/-- As `arrives`, of an event of the package's own, which waits where it would squash the commit ticket's holder (09 R183 step 2). -/
def happens (s t : State) : Host.Outcome State Fault Refusal :=
  if s.harms (t.react s 0 Config.contexts) then .next s else arrives s t

/-! ## Contexts -/

/-- The end of a fixed-length or memory operation (12 R235, R237). -/
def execOperationCompletion (c : Nat) (s : State) : Host.Outcome State Fault Refusal :=
  match (s.ctx c).status with
  | .out .operation | .out .refill => happens s (s.setCtx c { s.ctx c with status := .runnable, mma := false })
  | _ => .next s

/-- The trap that ends a wait (01 R21, 12 R258): word 2 as the wait gives it, live for a timeline. A chunk that has begun beside a
held `send` falls, so that the message truncates nothing (13 R273), and counts as squashed (17 R341). -/
def State.waitTrap (s : State) (c code : Nat) (own : List Word → List Word) : State :=
  let s := match (s.ctx c).chunk with
    | some k => (s.setCtx c { s.ctx c with p := k.start, chunk := none, recs := voidFrom 0 (s.ctx c).recs }).setCore (coreOf c) ((s.core (coreOf c)).countSq 3)
    | none => s
  let x := s.ctx c
  match x.wait with
  | none => s
  | some w =>
    let w2 := match w.on with | .tl e _ => (s.engine (clusterOf c) e).tl | _ => w.w2
    let ops := (List.range 4).map (fun i => w.ops.getD i 0)
    let s := match w.on with | .send _ => s.setCtx c { x with sending := .trapped } | _ => s
    s.trapEntry c { code := code, w1 := zext x.p.pc, w2 := w2, ops := own ops } false

/-- Contexts of a pod that take part in its key order and run. -/
def State.detRunning (s : State) (pid : Nat) : Bool :=
  (s.podCtxs (s.pod pid)).any (fun d => s.takesPart d && (s.ctx d).status.running)

/-- When the last context of a pod that took part in its key order ceased to run (09 R190). -/
def State.quietSince (s : State) (pid : Nat) : Nat := ((s.podCtxs (s.pod pid)).map (fun d => (s.ctx d).ceased)).foldl max 0

/-- A global-form or collective command is queued or performed on an engine context (12 R256). -/
def Engine.reachesOut (x : Engine) : Bool :=
  let out (k : CmdKind) : Bool := match k with
    | .coll .. => true
    | .copy f a b _ _ _ => (!f.ssp && isGlob a) || (!f.dsp && isGlob b)
    | _ => false
  x.store.any (fun c => out c.kind) || (match x.run with | some r => out r.cmd.kind | none => false)

/-- A command in some queue names the pod, or its virtual device. -/
def State.commanded (s : State) (pid : Nat) : Bool :=
  let p := s.pod pid
  s.queues.any (fun q => q.2.en && (List.range q.2.pending).any (fun i =>
    let h := (s.entryAt q.1 i).h0
    h = p.handle || h = (s.vf p.vf).handle))

/-- A message held at a core that takes no more, whose sender waits for it: the port of a blocked `send` (12 R258), not a message on its way. -/
def State.heldForSend (s : State) (k : Core) (m : InMsg) : Bool :=
  let c := bits m.hdr.toNat 0 14
  m.kind = .ordinary && !k.accepts && (s.ctx c).status = .blocked &&
    (match (s.ctx c).wait with | some w => (match w.on with | .send _ => true | _ => false) | none => false)

/-- Anything in flight toward the pod: its inbound operations, its messages at ports, its requests, commands of the host (12 R256). -/
def State.inFlight (s : State) (pid : Nat) : Bool :=
  let p := s.pod pid
  s.cores.any (fun k => p.clusters.contains (clusterOfCore k.1) && (!k.2.agent.isEmpty || k.2.port.any (fun m => !s.heldForSend k.2 m))) ||
  (s.podCtxs p).any (fun c => (s.ctx c).request.isSome && (s.ctx c).wait.isNone) ||
  0 < p.inflight || s.commanded pid

/-- The virtual device's policy allows another chip. -/
def State.allowsPeers (s : State) (pid : Nat) : Bool :=
  match (s.vf (s.pod pid).vf).policy with
  | some q => (bitList q.peers 192).any (· ≠ s.chipNum)
  | none => false

/-- A word that an agent outside the pod could change: some window of the pod's virtual device maps its page. -/
def State.wordOpen (s : State) (pid : Nat) (key : Nat) : Bool :=
  hostBase ≤ key || (s.vf (s.pod pid).vf).windows.any (fun w => w.2.kind = 0 &&
    (List.range (w.2.size / 65536)).any (fun i =>
      match translate s (s.vf (s.pod pid).vf) (word (w.2.va + 65536 * i)) .query with
      | .ok (.mem pa, _) => pa / 65536 = key / 65536
      | _ => false))

/-- Whether the port of a wait is open (12 R256). -/
def State.portOpen (s : State) (pid c : Nat) : Wait → Bool
  | .fe _ k _ _ => 128 ≤ k || s.allowsPeers pid || s.inFlight pid
  | .mem key _ _ => s.wordOpen pid key || s.inFlight pid
  | .cbuf _ | .hop _ => s.inFlight pid
  | .tl e _ => (s.engine (clusterOf c) e).reachesOut || s.inFlight pid
  | .recv | .send _ => s.allowsPeers pid || s.inFlight pid
  | .svcRecv => s.inFlight pid
  | .fence _ => true

/-- Whether the limit of the wait of context `c` has been reached (01 R21, 09 R190), and the clock at which it ends. What arrives in
the tick of the limit comes first (14 R278), and a trap waits out a relock of its die (01 R42). -/
def State.limitReached (s : State) (c : Nat) : Option Nat :=
  let x := s.ctx c
  match x.wait, s.podOf c with
  | some w, some pid =>
    let n := w.limit.toNat
    let fence : Bool := match w.on with | .fence _ => true | _ => false
    if x.status ≠ .blocked || (s.core (coreOf c)).stopped || s.dieStill (coreOf c) then none
    else if !w.det then (if w.expired s.refTime then some x.clock else none)
    else if n = 0 || fence || s.satisfied c w.on then none
    else if s.detRunning pid then (if s.keyFree pid (w.clock + n) c then some (w.clock + n) else none)
    else if s.portOpen pid c w.on && s.quietSince pid + n < s.refTime then some x.clock else none
  | _, _ => none

/-- A wait ends at its limit. In deterministic mode it does so at its place in the key order, ahead of a ticket holder's (log 28). The trap
is no commit: the clock of a supervisor it wakes stands (log 82). -/
def execWaitLimit (c : Nat) (s : State) : Host.Outcome State Fault Refusal :=
  match s.limitReached c, (s.ctx c).wait with
  | some clk, some w =>
    let t := (s.setCtx c { s.ctx c with clock := max (s.ctx c).clock clk }).waitTrap c Code.waitLimit id
    if s.precedesHolder c w.det then arrives s t else happens s t
  | _, _ => .next s

/-! ## Pick-up, aging, stealing (12 R247–R250) -/

/-- One pick-up at a core that follows no commit: aging counts with the largest clock of the pod (12 R249). -/
def State.pickupNow (s : State) (core : Nat) : Option State :=
  s.pickupAt core (match s.podAt (clusterOfCore core) with | some p => s.podClock p | none => 0)

/-- One pick-up at a core, if some context and item allow it. -/
def execPickup (core : Nat) (s : State) : Host.Outcome State Fault Refusal :=
  match s.pickupNow core with
  | some t => happens s t
  | none => .next s

/-- The items of a cluster that have waited long enough move up one level, to the tail (12 R247). -/
def execAging (cluster : Nat) (s : State) : Host.Outcome State Fault Refusal :=
  let k := s.cluster cluster
  let now := s.dieCycles cluster
  let det (slot : Nat) : Bool := match s.podAt cluster with
    | some p => (match afind? (s.pod p).launches slot with | some l => l.det | none => false)
    | none => false
  let old (q : QItem) : Bool := match q with
    | .start x => !det x.slot && x.level < 3 && x.since + 65536 < now
    | .cont x => !det x.cont.slot && x.level < 3 && x.since + 65536 < now
  let up (q : QItem) : QItem := match q with
    | .start x => .start { x with level := x.level + 1, since := x.since + 65536 }
    | .cont x => .cont { x with level := x.level + 1, since := x.since + 65536 }
  .next (s.setCluster cluster { k with queue := k.queue.filter (fun q => !old q) ++ (k.queue.filter old).map up })

/-- A launch from which `cluster` may steal units of `victim` (12 R250), with the units. -/
def State.stealable (s : State) (cluster victim : Nat) : Option (Nat × Nat × List Nat) :=
  match s.podAt cluster with
  | none => none
  | some pid =>
    let p := s.pod pid
    let ids := (List.range 128).map (· + cluster * 128)
    let idle := ids.any (fun c => s.mayTake c && max (s.ctx c).idleAt (s.cluster cluster).openedAt + 4096 ≤ s.dieCycles cluster &&
      (!(s.core (coreOf c)).auto || (s.chooseItem pid cluster (coreOf c % 8) 0).isNone))
    match idle, p.relCluster? cluster, p.relCluster? victim with
    | true, some me, some him =>
      (p.launches.filter (fun x => !x.2.det && x.2.eligible && x.2.clusters.contains me && x.2.clusters.contains him && me ≠ him)).findSome?
        (fun x =>
          let mine := x.2.unstarted him
          if !mine.isEmpty && x.2.clusters.all (fun r => (x.2.unstarted r).length ≤ mine.length) then some (pid, x.1, mine.take 8)
          else none)
    | _, _, _ => none

def execWorkStealing (cluster victim : Nat) (s : State) : Host.Outcome State Fault Refusal :=
  match s.stealable cluster victim with
  | none => .next s
  | some (pid, slot, us) =>
    let p := s.pod pid
    match afind? p.launches slot, p.relCluster? cluster with
    | some l, some rel =>
      let l := { l with stolen := us.foldl (fun m u => aput m u rel) l.stolen }
      let s1 := s.setPod pid { p with launches := aput p.launches slot l }
      let k := s1.cluster cluster
      let has := k.queue.any (fun q => match q with | .start x => x.slot = slot | .cont _ => false)
      let it : QItem := .start { slot := slot, level := l.prio, since := s.dieCycles cluster, clock := l.clock, src := 0 }
      .next (if has then s1 else s1.setCluster cluster { k with queue := k.queue ++ [it] })
    | _, _ => .next s

/-! ## Inboxes and couriers (12 R253–R255) -/

/-- The message that waits first at a core's port arrives. -/
def execMessageArrival (core : Nat) (s : State) : Host.Outcome State Fault Refusal :=
  let k := s.core core
  match k.port with
  | m :: rest => if k.accepts && !s.dieStill core then happens s (s.setCore core ({ k with port := rest }.accept m)) else .next s
  | [] => .next s

/-- One line of the drain of an inbox that has been full, in a slot of its core's courier. -/
def execInboxDrain (core : Nat) (s : State) : Host.Outcome State Fault Refusal :=
  let k := s.core core
  if k.draining = 0 then .next s else happens s (s.setCore core k.drain)

/-- Whether the consumer of a message waits for one of its kind. -/
def State.consumerWaits (s : State) (m : InMsg) : Bool :=
  match m.kind, (s.ctx m.consumer).wait with
  | .ordinary, some w => (s.ctx m.consumer).status = .blocked && w.on = .recv
  | .trap, some w => (s.ctx m.consumer).status = .blocked && w.on = .svcRecv
  | .active, _ => (s.ctx m.consumer).status = .idle
  | _, none => false

/-- The message of the heap that is replayed next: the oldest of a consumer that waits for it, else the oldest of all. -/
def State.nextReplay (s : State) (k : Core) : Option InMsg :=
  match k.heap.find? (fun m => s.consumerWaits m && !k.inbox.any (fun i => i.kind = m.kind && i.consumer = m.consumer)) with
  | some m => some m
  | none => k.heap.head?

/-- Replay delivers what the heap line holds (12 R255). -/
def execHeapReplay (core : Nat) (s : State) : Host.Outcome State Fault Refusal :=
  let k := s.core core
  if k.draining ≠ 0 || Config.inboxEntries ≤ k.entries then .next s
  else match s.nextReplay k with
    | none => .next s
    | some m =>
      let ws := match s.heapLine core m.slot with
        | some pa => (List.range 8).map (fun i => s.committedWord (pa + 8 * i))
        | none => m.words
      let k := { k with heap := k.heap.erase m, heapHead := k.heapHead + 1, heapWritten := k.heapWritten.filter (· ≠ m.slot),
                        activity := k.activity + 1 }
      happens s (s.setCore core (k.toInbox { m with words := ws }))

/-- The courier's registers at handler start (10 R206, 12 R254). -/
def Priv.handler (p : Priv) (pl : Place) (ws : List Word) : Priv :=
  { p with regs := Vector.ofFn (fun i => if i.val = 0 || 5 < i.val then 0 else ws.getD (i.val - 1) 0),
           pc := .ofNat 48 (pl.codebase + 64 * bits (ws.getD 0 0).toNat 0 10), codelim := .ofNat 48 pl.codelim,
           tiles := Vector.replicate 8 {}, masks := Vector.replicate 8 none, flags := 0, tstat := {}, rets := [], retdepth := 0 }

def execCourierHandlerStart (core : Nat) (s : State) : Host.Outcome State Fault Refusal :=
  let c := core * 16 + 15
  let k := s.core core
  let x := s.ctx c
  match k.courier, k.first .active c with
  | some pl, some m =>
    if x.status = .idle && x.pending.isNone && !k.stopped then
      let s1 := s.setCore core { k.takeMsg m with handling := some m, activity := k.activity + 1 }
      happens s (s1.setCtx c { x with p := x.p.handler pl m.words, status := .runnable, handler := true, chunk := none, hcount := 0,
                                      hlines := [], begun := s.refTime, launching := none })
    else .next s
  | _, _ => .next s

/-! ## Remote agents (09 R199, 10 R205–R214, 18 R350) -/

/-- The number of a thing of `w` to a cluster, counted from the pod's first cluster. -/
def relNum (cls : List Nat) (w n : Nat) : Nat := (cls.findIdx? (· = n / w)).getD 0 * w + n % w
def absNum (cls : List Nat) (w n : Nat) : Nat := cls.getD (n / w) 0 * w + n % w

/-- Changes every context, resident or in a saved image: what comes for a context while its pod is out is kept for it (16 R318). -/
def State.everyCtx (s : State) (f : Ctx → Ctx) : State :=
  let g (l : List (Nat × Ctx)) : List (Nat × Ctx) := l.map (fun x => (x.1, f x.2))
  { s with ctxs := g s.ctxs, pods := s.pods.map (fun p => (p.1, { p.2 with saved := p.2.saved.map (fun m => { m with ctxs := g m.ctxs }) })) }

/-- The context still waits for the answer to a request. -/
def Ctx.awaits (x : Ctx) (rid : Nat) : Bool :=
  match x.request with
  | some r => r.rid = rid && !r.fence && x.answer.isNone
  | none => false

/-- A reply to the request of a context. -/
def Ctx.replied (x : Ctx) (rid : Nat) (a : Answer) : Ctx :=
  if x.awaits rid then
    { x with answer := some a, recs := x.recs ++ [false], status := if x.status = .out .reply then .runnable else x.status }
  else x

/-- The context that waits for the answer to a request, resident or in a saved image, with its pod. -/
def State.waiterOf (s : State) (rid : Nat) : Option (Option Nat × Nat) :=
  match s.ctxs.find? (fun x => x.2.awaits rid) with
  | some x => some (s.podOf x.1, x.1)
  | none => s.pods.findSome? (fun p => p.2.saved.bind (fun m =>
      (m.ctxs.find? (fun x => x.2.awaits rid)).map (fun x => (some p.1, absNum p.2.clusters 128 x.1))))

/-- A context that waits for a reply looks again. -/
def State.wakeReply (s : State) (c : Nat) : State :=
  if (s.ctx c).status = .out .reply then s.setCtx c { s.ctx c with status := .runnable } else s

/-- The answer to a request that was on its way at a rollback joins the records, from which its source's re-run takes it (16 R334). -/
def State.lateAnswer (s : State) (rid : Nat) (a : Answer) : Option State :=
  s.pods.findSome? (fun p => (p.2.asked.find? (·.1 = rid)).map (fun q =>
    let x := a.record q.2
    let t := s.logAnswer (some p.1) x
    let u := t.setPod p.1 (Pod.mapRecords { t.pod p.1 with asked := (t.pod p.1).asked.filter (·.1 ≠ rid) } (fun l => l ++ [x]))
    if q.2 < Config.contexts then u.wakeReply q.2 else u))

/-- A reply, by request identifier: recorded at its arrival (16 R329), and kept until the context takes it. -/
def State.answer (s : State) (rid : Nat) (a : Answer) : State :=
  match s.lateAnswer rid a with
  | some t => t
  | none =>
    let t := match s.waiterOf rid with
      | some (pid, c) => s.logAnswer pid (a.record c)
      | none => s
    t.everyCtx (fun x => x.replied rid a)

/-- A posted operation on `g` of context `c` of pod `pid` is refused: the context enters it, where it is resident or in its saved image
(10 R207, 16 R318). -/
def State.refuseIn (s : State) (pid c : Nat) (g : Word) : State :=
  if s.podOf c = some pid then s.enterRefusal c g
  else
    let p := s.pod pid
    let n := relNum p.clusters 128 c
    let k := s.refusalPart (some pid) c (globOf g)
    let put (m : PodImage) : PodImage :=
      { m with ctxs := m.ctxs.map (fun x => if x.1 = n then (n, x.2.mapPriv (fun q => q.enterRefusal k g)) else x) }
    (s.setPod pid { p with saved := p.saved.map put }).logFor (some pid) (.refusal c g)

/-- The header of a reply: the request's own, with its source as the target of the answer. -/
def RemoteOp.header (o : RemoteOp) : OpHdr :=
  { srcCtx := .ofNat 14 o.srcCtx, tgtCore := .ofNat 10 (globOf o.addr).core, rid := .ofNat 32 o.rid, tenant := o.tenant,
    interval := .ofNat 32 o.interval, seq := .ofNat 32 o.seq, addr := o.addr }

def RemoteOp.posted (o : RemoteOp) : Bool := match o.kind with | .rst _ | .am _ => true | _ => false

/-- The answer to an operation goes back. -/
def State.respond (s : State) (o : RemoteOp) (a : Answer) : State :=
  if o.srcChip = s.chipNum then
    match a, o.posted with
    | .refused _, true => s.refuseIn o.pod o.srcCtx o.addr
    | _, true => s
    | _, false => s.answer o.rid a
  else match a, o.posted with
    | .value v, false => s.sendFlit (s.portOf o.srcCtx (globOf o.addr).core) o.srcChip (.reply o.header v)
    | .refused n, _ => s.sendFlit (s.portOf o.srcCtx (globOf o.addr).core) o.srcChip (.refuse o.header n)
    | .value _, true | .poisoned _, _ => s

/-- A count of performed operations has reached a probe's POSTED, both modulo 2^32 (18 R350; log 114). -/
def reached (done posted : Nat) : Bool := (done + 2 ^ 32 - posted % 2 ^ 32) % 2 ^ 32 < 2 ^ 31

/-- Sends the echoes whose operations have all been performed (18 R350). -/
def State.sendEchoes (s : State) : State :=
  let due (e : Echo) : Bool :=
    reached (match s.performed.find? (·.1 = (e.chip, e.ctx, e.tenant.toNat)) with | some p => p.2 | none => 0) e.posted
  (s.echoes.filter due).foldl (fun s e =>
    let h : OpHdr := { srcCtx := .ofNat 14 e.ctx, tgtCore := 0, rid := .ofNat 32 e.rid, tenant := e.tenant, interval := 0, seq := 0, addr := 0 }
    s.sendFlit (s.portOf e.ctx e.chip) e.chip (.echo h (.ofNat 32 e.posted))) { s with echoes := s.echoes.filter (fun e => !due e) }

/-- Counts a posted operation of another chip as performed. -/
def State.countPerformed (s : State) (o : RemoteOp) : State :=
  if o.posted && o.srcChip ≠ s.chipNum then
    let key := (o.srcChip, o.srcCtx, o.tenant.toNat)
    let n := match s.performed.find? (fun (p : (Nat × Nat × Nat) × Nat) => p.1 = key) with | some p => p.2 | none => 0
    State.sendEchoes { s with performed := (s.performed.filter (fun (p : (Nat × Nat × Nat) × Nat) => p.1 ≠ key)) ++ [(key, (n + 1) % 2 ^ 32)] }
  else s

/-- Records of a pod's log since the interval's boundary. -/
def Pod.sinceCut (p : Pod) : List Logged := p.log.reverse.takeWhile (fun x => match x with | .cut _ => false | _ => true)

/-- The inbound record of an operation, and its place in the commit order where it is a one-line event (09 R186, 16 R329). Its position
is the number of the core's records before it in the interval (log 56). -/
def State.logInbound (s : State) (core : Nat) (o : RemoteOp) (event : Bool) : State :=
  match s.podAt (clusterOfCore core) with
  | none => s
  | some pid =>
    let p := s.pod pid
    if !p.full || p.replay.isSome then s
    else
      let pos := (p.sinceCut.filter (fun x => match x with | .inbound c _ => c = core | _ => false)).length
      s.setPod pid { p with log := p.log ++ (if event then [.commit (pos % 2 ^ 16) 3 (0x2000 + core)] else []) ++ [.inbound core o] }

/-- An 8-byte write of the agent of a core as a one-line event; none while the ticket holder's reads keep it away (09 R183), or a
relock (01 R42). -/
def State.agentWrite (s : State) (core : Nat) (t : RTarget) (v : Word) : Option State :=
  let bs (a : Nat) : List (Nat × Byte) := (List.range 8).map (fun i => (a + i, .ofNat 8 (v.toNat / 2 ^ (8 * i))))
  match t with
  | .key a =>
    let hit (x : Loc) : Bool := x.isLine (a / 64)
    if s.ticketBlocks Config.contexts hit || s.stalls (clusterOfCore core) a then none else some ((s.commitBytes (bs a)).squashHits Config.contexts hit exactCause)
  | .spm cl o =>
    let hit (x : Loc) : Bool := x = .spm cl (o / 64)
    if s.ticketBlocks Config.contexts hit then none else some ((s.commitSpm cl (bs o)).squashHits Config.contexts hit exactCause)
  | .mmio _ => some s
  | .wait _ => none

/-- What an agent answers to a read: POISON goes back to a source on this chip, which raises it, and is a refusal to another chip's (10
R201, 16 R336; log 115). -/
def State.agentRead (s : State) (o : RemoteOp) (t : RTarget) : Answer :=
  match t with
  | .key a =>
    if s.poison.contains (a / 64) then (if o.srcChip = s.chipNum then .poisoned (a / 64) else .refused 2) else .value (s.remoteRead t)
  | _ => .value (s.remoteRead t)

/-- The performance of one operation at this chip's agent; none where it must still wait. -/
def State.agentPerform (s : State) (core : Nat) (o : RemoteOp) : Option State :=
  let write := match o.kind with | .rld => false | _ => true
  match o.kind with
  | .am ws =>
    match s.remoteVf o.srcChip o.vf o.tenant, s.podAt (clusterOfCore core) with
    | none, _ => some (s.respond o (.refused 3))
    | some v, some p =>
      if (s.pod p).vf ≠ v || (s.core core).courier.isNone then some (s.respond o (.refused 4))
      else some ((s.logInbound core o false).deliver core { kind := .active, consumer := core * 16 + 15, words := ws })
    | some _, none => some (s.respond o (.refused 4))
  | k =>
    match s.remoteTarget o.srcChip o.vf o.tenant o.addr write with
    | .error n => some (s.respond o (.refused n))
    | .ok (.wait _) => none
    | .ok t =>
      match k with
      | .rld => some (s.respond o (s.agentRead o t))
      | .rst v => (s.agentWrite core t v).map (fun s => s.logInbound core o true)
      | .fe op v =>
        match t with
        | .spm cl off =>
          let full := s.isFull cl off
          let w := word (leNat ((s.cluster cl).spm.readBytes off 8))
          let setBit (s : State) (b : Bool) : State :=
            let k := s.cluster cl
            s.setCluster cl { k with full := if b then nput k.full (off / 8) else k.full.filter (· ≠ off / 8) }
          match op with
          | .put => if full then none else ((s.agentWrite core t v).map (fun s => setBit s true)).map (fun s =>
              (s.logInbound core o true).respond o (.value 0))
          | .take => if full then some (((setBit s false).logInbound core o true).respond o (.value w)) else none
          | .peekWord => some ((s.logInbound core o true).respond o (.value w))
          | .peekState => some ((s.logInbound core o true).respond o (.value (boolWord full)))
        | _ => some (s.respond o (.refused 2))
      | .am _ => none

/-- The first operation at an agent that may be performed: nothing of its source is before it (09 R199). -/
def State.agentStep (s : State) (core : Nat) : Option State :=
  let l := (s.core core).agent
  (l.zip (List.range l.length)).findSome? (fun (x : RemoteOp × Nat) =>
    if (l.take x.2).any (fun y => y.srcChip = x.1.srcChip && y.srcCtx = x.1.srcCtx) then none
    else
      let s1 := s.setCore core { s.core core with agent := l.eraseIdx x.2, activity := (s.core core).activity + 1 }
      (s1.agentPerform core x.1).map (fun t => t.countPerformed x.1))

/-- During replay of the pod at a core, the operation that its next inbound record holds is performed at its entry of the commit log,
and no other (16 R329, R333). Its answer went out in the first run. -/
def State.agentReplay (s : State) (core pid : Nat) (l : List Logged) : Option State :=
  if !s.replayAllows pid 1 (0x2000 + core) then none
  else match l.findSome? (fun x => match x with | .inbound c o => if c = core then some o else none | _ => none) with
    | none => none
    | some o =>
      let s1 := s.replayStep pid
      let s1 := s1.setCore core { s1.core core with activity := (s1.core core).activity + 1 }
      let s2 := s1.setPod pid { s1.pod pid with replay := (s1.pod pid).replay.map (fun r => r.erase (.inbound core o)) }
      s2.agentPerform core { o with srcChip := s.chipNum, vf := (s.pod pid).vf, rid := 2 ^ 32 }

/-- What the agent of a core does next; nothing while its die relocks (01 R42). -/
def State.agentTurn (s : State) (core : Nat) : Option State :=
  if s.dieStill core then none
  else match s.podAt (clusterOfCore core) with
    | some pid => match (s.pod pid).replay with
      | some l => s.agentReplay core pid l
      | none => s.agentStep core
    | none => s.agentStep core

def execRemoteAgentPerform (core : Nat) (s : State) : Host.Outcome State Fault Refusal :=
  match s.agentTurn core with
  | some t => happens s t
  | none => .next s

/-! ## Deadlock probes (12 R256–R258) -/

/-- Contexts of a pod that are agents. -/
def State.agents (s : State) (pid : Nat) : List Nat :=
  (s.podCtxs (s.pod pid)).filter (fun c => match (s.ctx c).status with
    | .runnable | .out _ | .blocked | .trapped => true
    | _ => false)

/-- Engine contexts of a pod with commands queued or performed. -/
def State.engineAgents (s : State) (pid : Nat) : List (Nat × Nat × Engine) :=
  (s.pod pid).clusters.flatMap (fun cl =>
    ((s.cluster cl).engines.filter (fun x => x.2.run.isSome || !x.2.store.isEmpty)).map (fun x => (cl, x.1, x.2)))

/-- An engine context that waits for a free slot of its circular buffer, a port that no agent outside the pod changes; once a slot is free, its
claim is possible and it waits no longer. One that waits for a collective's peer, which is another chip, waits at an open port (12 R256). -/
def State.waitsSlot (s : State) (x : Nat × Nat × Engine) : Bool :=
  (match x.2.2.run with | some r => r.waitSlot | none => false) && s.claimCmd x.1 x.2.1 = s

/-- A port not open, for every blocked agent (12 R256). -/
def State.closedPorts (s : State) (pid : Nat) : Bool :=
  (s.agents pid).all (fun c => (s.ctx c).status = .blocked && (match (s.ctx c).wait with
    | some w => !s.portOpen pid c w.on
    | none => false)) &&
  (s.engineAgents pid).all s.waitsSlot &&
  ((s.pod pid).clusters.flatMap (fun cl => (s.cluster cl).parked)).all (fun r => match r.parked with
    | some p => !s.wordOpen pid p.pa
    | none => true)

/-- A record of the pod is ready, or a context has still to take up a unit that waits for it (12 R247, R256; log 61). -/
def State.workReady (s : State) (pid : Nat) : Bool :=
  (s.pod pid).clusters.any (fun cl =>
    (s.cluster cl).queue.any (fun q => match q with | .cont _ => true | .start _ => false) ||
    (List.range 8).any (fun k => (s.pickupNow (cl * 8 + k)).isSome))

/-- The members that the victim's message counts: contexts, engine contexts and parked records. -/
def State.members (s : State) (pid : Nat) : Nat :=
  (s.agents pid).length + (s.engineAgents pid).length + ((s.pod pid).clusters.flatMap (fun cl => (s.cluster cl).parked)).length

/-- Whether the pod's agents form a closed cycle now: two or more, or one context that waits on itself; a pod whose only blocked contexts
are in `svc.recv` is idle (12 R256). -/
def State.closedCycle (s : State) (pid : Nat) : Bool :=
  let p := s.pod pid
  let cs := s.agents pid
  let waits (c : Nat) : Bool := match (s.ctx c).wait with | some w => w.on ≠ .svcRecv | none => false
  (cs.any waits || (cs.length < s.members pid && 2 ≤ s.members pid)) && s.closedPorts pid && !s.inFlight pid &&
  (s.podCtxs p).all (fun c => (s.ctx c).pending.isNone) && !s.workReady pid &&
  p.clusters.all (fun cl => (s.die (dieOfCluster cl)).relock.isNone)

/-- The activity counts of a pod's clusters: those of their engine contexts and of their cores. -/
def State.activities (s : State) (pid : Nat) : List Nat :=
  (s.pod pid).clusters.flatMap (fun cl => (s.cluster cl).activity :: (List.range 8).map (fun k => (s.core (cl * 8 + k)).activity))

/-- Port kinds (12 R258). -/
def Wait.portKind : Wait → Nat
  | .fe false .. => 1
  | .fe true .. => 2
  | .mem .. => 3
  | .cbuf _ => 4
  | .tl .. => 5
  | .recv | .svcRecv => 6
  | .send _ => 7
  | .hop _ => 8
  | .fence _ => 0

/-- A declared cycle: its victim traps, or, without one, the Husk records it (12 R258). -/
def State.declareCycle (s : State) (pid : Nat) : State :=
  let vs := (s.agents pid).filter (fun c => match (s.ctx c).wait with | some w => w.on ≠ .svcRecv | none => false)
  match vs.max? with
  | some c =>
    let kind := match (s.ctx c).wait with | some w => w.on.portKind | none => 0
    s.waitTrap c Code.blockCycle (fun ops => ops.take 3 ++ [word (kind + s.members pid * 2 ^ 16)])
  | none => (s.logError 2 (some pid) (s.pod pid).vf (Config.errDetail s.moment)).raiseVector (s.pod pid).vf 0

/-- A port blocked for 4 µs sends its probe: the pod's first round is due (12 R257). -/
def execPortProbe (c : Nat) (s : State) : Host.Outcome State Fault Refusal :=
  let x := s.ctx c
  match x.wait with
  | some w => if x.status = .blocked && !w.probed && w.start + 4000 ≤ s.refTime then
      .next (s.setCtx c { x with wait := some { w with probed := true } }) else .next s
  | none => .next s

/-- Some probe of the pod stands. -/
def State.probeStands (s : State) (pid : Nat) : Bool :=
  (s.agents pid).any (fun c => match (s.ctx c).wait with | some w => w.probed && (s.ctx c).status = .blocked | none => false) ||
  (s.engineAgents pid).any (fun e => match e.2.2.run with | some r => r.waitSlot && r.since + 4000 ≤ s.refTime | none => false) ||
  (s.pod pid).clusters.any (fun cl => (s.cluster cl).parked.any (fun r => r.since + 4000 ≤ s.refTime))

/-- A probe round; the second in a row with the same counts declares the cycle. -/
def execProbeRound (vf pod : Nat) (s : State) : Host.Outcome State Fault Refusal :=
  let pid := podKey vf pod
  let p := s.pod pid
  if !p.resident || !s.probeStands pid then .next s
  else if !s.closedCycle pid then .next (s.setPod pid { p with probe := none })
  else match p.probe with
    | some (t, acts) =>
      if s.refTime < t + 2000 then .next s
      else if acts = s.activities pid then happens s ((s.setPod pid { p with probe := none }).declareCycle pid)
      else .next (s.setPod pid { p with probe := some (s.refTime, s.activities pid) })
    | none => .next (s.setPod pid { p with probe := some (s.refTime, s.activities pid) })

/-! ## Power tokens (07 R173) -/

/-- Matrix work that waits in a cluster for a token. -/
def State.tokenWork (s : State) (cl : Nat) : Bool :=
  !(s.cluster cl).tokenq.isEmpty || (s.cluster cl).engines.any (fun e => match e.2.run with
    | some r => r.followOn.isSome && r.jobs.isEmpty && !r.waitSlot && !r.foOn && !r.cmd.det
    | none => false)

/-- Matrix work that a cluster performs: an `mma` of a context, or a follow-on. -/
def State.matrixBusy (s : State) (cl : Nat) : Bool :=
  s.ctxs.any (fun x => clusterOf x.1 = cl && x.2.mma && x.2.status = .out .operation) ||
  (s.cluster cl).engines.any (fun e => match e.2.run with
    | some r => r.foOn && !r.foDone
    | none => false)

/-- A token moves on to the next cluster of its die. -/
def State.passToken (s : State) (cl : Nat) : State :=
  let d := s.die (dieOfCluster cl)
  s.setDie (dieOfCluster cl) { d with tokens := d.tokens ++ [(cl % 32 + 1) % 32] }

def execTokenArrival (cluster : Nat) (s : State) : Host.Outcome State Fault Refusal :=
  let d := s.die (dieOfCluster cluster)
  let k := s.cluster cluster
  if !d.tokens.contains (cluster % 32) then .next s
  else
    let s1 := s.setDie (dieOfCluster cluster) { d with tokens := d.tokens.erase (cluster % 32) }
    if k.token || !s.tokenWork cluster then .next (s1.passToken cluster)
    else .next ((s1.setCluster cluster { k with token := true, burst := none }).wakeToken cluster)

def execBurstEnd (cluster : Nat) (s : State) : Host.Outcome State Fault Refusal :=
  let d := s.die (dieOfCluster cluster)
  let k := s.cluster cluster
  let spent := match k.burst with | some t => t + 512 ≤ s.dieCycles cluster | none => false
  if k.token && d.ringtok ≠ 32 && (spent || !(s.tokenWork cluster || s.matrixBusy cluster)) then
    .next ((s.setCluster cluster { k with token := false, burst := none }).passToken cluster)
  else .next s

/-- Sets the token count of a die: 32 puts one in every cluster for good, fewer circulate. Which clusters gain or lose one is the model's
choice (log 118). -/
def State.setRing (s : State) (die n : Nat) : State :=
  let d := s.die die
  let cls := (List.range 32).map (· + die * 32)
  if n = d.ringtok then s
  else if n = 32 then
    let s := s.setDie die { d with ringtok := 32, tokens := [] }
    cls.foldl (fun s cl => (s.setCluster cl { s.cluster cl with token := true, burst := none }).wakeToken cl) s
  else
    let s := if d.ringtok = 32 then cls.foldl (fun s cl => s.setCluster cl { s.cluster cl with token := false, burst := none }) s else s
    let held := (cls.filter (fun cl => (s.cluster cl).token)).length
    -- tokens that circulate make up the count; where too many are held, the highest clusters give theirs up
    let s := ((cls.filter (fun cl => (s.cluster cl).token)).drop n).foldl
      (fun s cl => s.setCluster cl { s.cluster cl with token := false, burst := none }) s
    let free := n - min held n
    let tokens := (d.tokens ++ List.range 32).take free
    s.setDie die { s.die die with ringtok := n, tokens := tokens }

/-! ## Clocks (01 R42, 18 R355) -/

/-- Whether an allocated pod has a cluster on a die. -/
def State.dieInUse (s : State) (d : Nat) : Bool := s.pods.any (fun p => p.2.clusters.any (fun cl => dieOfCluster cl = d))

/-- Whether some share group of a die lies between its tick and the end of its switch. -/
def State.dieSwitching (s : State) (d : Nat) : Bool :=
  s.groups.any (fun g => g.2.ticking.isSome && g.2.clusters.any (fun cl => dieOfCluster cl = d))

/-- The signed value of a temperature register. -/
def tempOf (t : BitVec 16) : Int := t.toInt

/-- The power share of a share group, n/256: that of its resident pod (15 R291; log 89). -/
def State.powerShare (s : State) (g : Group) : Nat := match g.resident with | some p => (s.pod p).power | none => 0

/-- The allotment of a die in W: of the budget min(PWRCAP, 3,200 W), each share group has its share, which its clusters divide evenly (18
R355; log 89). -/
def State.allotment (s : State) (d : Nat) : Nat :=
  (s.groups.map (fun g =>
    let here := (g.2.clusters.filter (fun cl => dieOfCluster cl = d)).length
    min s.pwrcap 3200 * s.powerShare g.2 * here / (256 * g.2.clusters.length))).sum

/-- The highest clock step whose estimated power fits, the lowest of all where none does. -/
def stepFor (watts : List Nat) (w : Nat) : Nat := (watts.findIdx? (fun p => p ≤ w)).getD 4

/-- The step a die is to run at, before the limit of one step per period. -/
def State.wantedStep (s : State) (d : Nat) (hot : Bool) (est : Estimate) : Nat :=
  let cap := if 400 < tempOf s.sensors.inlet then 2 else 0
  if !s.dieInUse d then 4
  else if hot then min 4 (max cap ((s.die d).step + 1))
  else max cap (min 4 (stepFor est.watts (s.allotment d)))

/-- One die at an arbiter period. -/
def State.arbitrate (s : State) (d : Nat) (est : Estimate) : State :=
  let t := tempOf (s.sensors.hot.getD d 0)
  let x := s.die d
  let hot := 1000 ≤ t || (x.hot && 950 ≤ t)
  let s := s.setDie d { x with hot := hot }
  let n := if s.dieInUse d then max 1 (min 32 est.ringtok) else 0
  let s := s.setRing d n
  let w := s.wantedStep d hot est
  let x := s.die d
  if x.relock.isSome || s.dieSwitching d || w = x.step then s
  else s.setDie d { x with step := if x.step < w then x.step + 1 else x.step - 1, relock := some s.refTime }

/-- The power arbiter's period, with the module power measured (18 R353, R355). -/
def execPowerArbiterPeriod (p : PowerPeriod) (s : State) : Host.Outcome State Fault Refusal :=
  if s.refTime < s.arbiterAt || !s.powered || s.bring < 6 then .next s
  else
    let s1 := { s with arbiterAt := (s.refTime / 100000 + 1) * 100000, sensors := { s.sensors with modpwr := p.power } }
    .next ((List.range 4).foldl (fun s d => s.arbitrate d (p.est.getD d ⟨[], 32⟩)) s1)

/-- round(3.6 × t), ties to even; no tie arises (01 R42). -/
def relockCycles (t : Nat) : Nat := (18 * t + 2) / 5

def execRelockEnd (die : Nat) (s : State) : Host.Outcome State Fault Refusal :=
  let d := s.die die
  match d.relock with
  | some t0 =>
    if t0 + 1500 ≤ s.refTime then
      happens s (s.setDie die { d with relock := none, acc := d.acc + relockCycles (s.refTime - t0) * 2 ^ 16, five := 0, part := 0 })
    else .next s
  | none => .next s

/-! ## Engines (09 R192, 10 R220–R227) -/

/-- An engine event, while the cluster's engine contexts run: not after their die reported saved in a switch (16 R319), nor in a pod
stopped by an error (16 R331). -/
def State.engineRuns (s : State) (cl : Nat) : Bool :=
  (match s.podAt cl with | some p => !(s.pod p).errored | none => true) &&
  s.groups.all (fun g => !(g.2.clusters.contains cl && g.2.saved.contains (dieOfCluster cl)))

def engineEvent (cl : Nat) (s t : State) : Host.Outcome State Fault Refusal := if s.engineRuns cl then happens s t else .next s

def execEngineCommandStart (cluster e : Nat) (s : State) : Host.Outcome State Fault Refusal :=
  engineEvent cluster s ((s.beginCmd cluster e).afterEngine cluster e)
def execCbufSlotClaim (cluster e : Nat) (s : State) : Host.Outcome State Fault Refusal :=
  engineEvent cluster s ((s.claimCmd cluster e).afterEngine cluster e)
def execEngineLineEvent (cluster e : Nat) (s : State) : Host.Outcome State Fault Refusal := engineEvent cluster s (s.engineEvent cluster e)
def execEngineCommandComplete (cluster e : Nat) (s : State) : Host.Outcome State Fault Refusal :=
  engineEvent cluster s (s.afterEngine cluster e)
def execFollowOnStart (cluster e : Nat) (s : State) : Host.Outcome State Fault Refusal :=
  engineEvent cluster s ((s.startFollowOn cluster e).afterEngine cluster e)
def execFollowOnInstall (cluster e : Nat) (s : State) : Host.Outcome State Fault Refusal :=
  engineEvent cluster s ((s.finishFollowOn cluster e).afterEngine cluster e)

end Sys2Proof.Machine
end

