-- ==== Sys2Proof/Machine/TileMem.lean ====
section
/-! DEFINITION. Tile loads and stores and codebook loads (06 R147–R153). -/

namespace Sys2Proof.Machine

/-- Bytes of a packed row (05 R114). -/
def packRow (w : Nat) (es : List Nat) : List Byte :=
  let v := (es.zip (List.range es.length)).foldl (fun n x => n + (x.1 % 2 ^ w) * 2 ^ (x.2 * w)) 0
  leBytes ((es.length * w + 7) / 8) v

/-- Enabled columns of a row. -/
def State.onCols (s : State) (t : Tile) (i : Nat) : List Nat := (List.range t.cols).filter (s.enabled i)

/-- What a row transfers: its data, or the bytes of its enabled elements, then its sidecar bytes, as (address, length). -/
def State.rowSegs (s : State) (t : Tile) (r c : Nat → Word) (i : Nat) : List (Word × Nat) :=
  if s.pfxMask?.isSome then (s.onCols t i).map (fun j => (r i + word (j * (t.fmt.width / 8)), t.fmt.width / 8))
  else (r i, rowBytes t.fmt.width t.cols) :: (if t.scaled then [(c i, t.cols / 32)] else [])

/-- A row's new elements and sidecar from the bytes of its segments; masked-off elements follow 02 R57. -/
def State.rowLoaded (s : State) (t : Tile) (i : Nat) (bs : List Byte) : List Nat × List Nat :=
  if s.pfxMask?.isSome then
    let n := t.fmt.width / 8
    let on := s.onCols t i
    let got := (on.zip (List.range on.length)).map (fun x => (x.1, leNat ((bs.drop (x.2 * n)).take n)))
    ((List.range t.cols).map (fun j => (afind? got j).getD (if s.pfxMz then 0 else t.enc i j)), [])
  else
    let l := rowBytes t.fmt.width t.cols
    (unpackRow t.fmt.width t.cols (bs.take l), (bs.drop l).map BitVec.toNat)

/-- A list with zeros after it, up to `n` entries. -/
def padTo (n : Nat) (l : List Nat) : List Nat := l ++ List.replicate (n - l.length) 0

/-- A tile with row `i` replaced. -/
def Tile.setRow (t : Tile) (i : Nat) (x : List Nat × List Nat) : Tile :=
  let n := t.cols / 32
  t.withData (padTo (i * t.cols) (t.elems.take (i * t.cols)) ++ x.1 ++ t.elems.drop ((i + 1) * t.cols))
    (if t.scaled then padTo (i * n) (t.side.take (i * n)) ++ x.2 ++ t.side.drop ((i + 1) * n) else t.side)

/-- The bytes a row stores, segment by segment. -/
def State.rowStored (s : State) (t : Tile) (i : Nat) : List Byte :=
  if s.pfxMask?.isSome then (s.onCols t i).flatMap (fun j => leBytes (t.fmt.width / 8) (t.enc i j))
  else packRow t.fmt.width ((List.range t.cols).map (t.enc i)) ++
    (if t.scaled then (List.range (t.cols / 32)).map (fun b => .ofNat 8 (t.scaleByte i b)) else [])

/-- The lowest of some addresses. -/
def lowestVa : List Word → Option Word
  | [] => none
  | a :: l => match lowestVa l with
    | none => some a
    | some b => some (if a.toNat ≤ b.toNat then a else b)

/-- Translation of all segments of a row: XLATE before PERM, each at its lowest faulting address (06 R150, 02 R62). Of a masked row those
of its enabled elements count alone (log 99). -/
def State.rowRange (s : State) (acc : Access) (segs : List (Word × Nat)) : Except Stop (List (Nat × Nat) × State) :=
  let ps := segs.flatMap (fun x => pieces (x.2 / 65536 + 2) x.1 x.2)
  let u := s.seen
  let rs := ps.map (fun p => (p.1, translate u s.myVf p.1 acc))
  let bad (e : XErr) : List Word := (rs.filter (fun x => match x.2 with | .error e' => e' = e | _ => false)).map (·.1)
  let mmio : List Word := (rs.filter (fun x => match x.2 with | .ok (.mmio _, _) => true | _ => false)).map (·.1)
  match lowestVa (bad .xlate), lowestVa (bad .perm ++ mmio) with
  | some va, _ => .error (trapWith Code.xlate va)
  | none, some va => .error (trapWith Code.perm va)
  | none, none => s.xlateAll acc ps

/-- Access to the rows from `i` on, `n` of them: the state after the completed rows, and the stop with its row. `step` does one row. -/
def rowLoop (step : Nat → State × Tile → Except Stop (State × Tile)) : Nat → Nat → State × Tile → (State × Tile) × Option (Stop × Nat)
  | 0, _, x => (x, none)
  | n + 1, i, x => match step i x with
    | .ok y => rowLoop step n (i + 1) y
    | .error e => (x, some (e, i))

/-- A row number in a trap of a row (06 R150). -/
def rowStop (d : TReg) (x : Stop × Nat) : Stop :=
  match x.1 with
  | .trap t => .trap { t with row := some (d.field, x.2) }
  | e => e

/-- The checks before any access (06 R130, R148–R150): the first row to transfer. -/
def State.rowChecks (s : State) (d : TReg) (base pitch : Word) (align : Bool) : Except Stop Nat := do
  s.confTiles [d]
  s.confMask
  let t := s.tile d
  let w := t.fmt.width
  let start := if s.me.p.tstat.rv then s.me.p.tstat.rrow.toNat else 0
  shapeUnless (s.maskFits t.rows t.cols && !(s.pfxMask?.isSome && (w < 8 || t.scaled)) && start < t.rows)
  let u := if 8 ≤ w then w / 8 else 1
  if align && (base.toNat % u ≠ 0 || pitch.toNat % u ≠ 0) then .error (trapWith Code.misalign base)
  s.filled [d]
  pure start

/-- Row and sidecar addresses (06 R148). -/
def rowAddr (base pitch : Word) (i : Nat) : Word := base + word i * pitch
def sideAddr (x : Word) (t : Tile) (i : Nat) : Word := x + word (i * (t.cols / 32))

/-- Reads the bytes of a row: memory, or the scratchpad. -/
def State.rowBytesIn (s : State) (sp : Bool) (segs : List (Word × Nat)) : Except Stop (List Byte × State) :=
  if sp then
    .ok (segs.foldl (fun (acc : List Byte × State) x => let r := acc.2.spLoad x.1 x.2; (acc.1 ++ r.1, r.2)) ([], s))
  else match s.rowRange .read segs with
    | .error e => .error e
    | .ok (l, s) => s.readRanges l

/-- Puts the bytes of a row into the chunk, before any test of its budget. -/
def State.rowBytesOut (s : State) (sp : Bool) (segs : List (Word × Nat)) (bs : List Byte) : Except Stop State :=
  if sp then
    let os := segs.flatMap (fun x => s.spAddrs x.1 x.2)
    .ok (s.setChunk { s.chunk with spm := (os.zip bs).foldl (fun w x => aput w x.1 x.2) s.chunk.spm })
  else match s.rowRange .write segs with
    | .error e => .error e
    | .ok (l, s) => .ok (s.setChunk (s.chunk.putMem l bs))

/-- A tile load, up to row `upto` (06 R148–R151). A completed row is a write of the tile, be it of the bytes it held (06 R154). -/
def tileLoad (d : TReg) (base pitch side : Word) (regs : List SReg) (sp : Bool) (upto : Nat) (s : State) : State × Option Stop :=
  match s.rowChecks d base pitch (!sp) with
  | .error e => (s, some e)
  | .ok start =>
    let t := s.tile d
    let s1 := (s.noteDest d).noteS regs
    let r := rowLoop (fun i x =>
      match x.1.rowBytesIn sp (s.rowSegs t (rowAddr base pitch) (sideAddr side t) i) with
      | .error e => .error e
      | .ok (bs, s2) => .ok (s2, x.2.setRow i (s.rowLoaded t i bs))) (min t.rows upto - start) start (s1, t)
    let done := match r.2 with | none => true | some (_, i) => decide (start < i)
    let s2 := if done then r.1.1.setTile d r.1.2 else r.1.1
    (s2, r.2.map (rowStop d))

/-- A tile store, up to row `upto` (06 R148–R152). The budget is tested on all the rows it would store, wherever it is cut. -/
def tileStore (d : TReg) (base pitch side : Word) (regs : List SReg) (sp : Bool) (upto : Nat) (s : State) : State × Option Stop :=
  match s.rowChecks d base pitch (!sp) with
  | .error e => (s, some e)
  | .ok start =>
    let t := s.tile d
    let s1 := (s.noteTiles [d]).noteS regs
    let rows (n : Nat) : (State × Tile) × Option (Stop × Nat) := rowLoop (fun i x =>
      match x.1.rowBytesOut sp (s.rowSegs t (rowAddr base pitch) (sideAddr side t) i) (s.rowStored t i) with
      | .error e => .error e
      | .ok s2 => .ok (s2, x.2)) (n - start) start (s1, t)
    let r := rows t.rows
    match s.budget r.1.1.chunk with
    | .error e => (s, some e)
    | .ok () =>
      let r := if upto < t.rows then rows upto else r
      (r.1.1, r.2.map (rowStop d))

/-- How a tile load or store ends: rows completed before a trap stay (06 R150); any other stop leaves the state as it was. -/
def settleRows (s : State) (ops : List Opnd) (r : State × Option Stop) : Host.Outcome State Fault Refusal :=
  match r.2 with
  | none => settle s ops (.ok ((r.1.retire 12).outFor .operation))
  | some (.trap t) => settle r.1 ops (.error (.trap t))
  | some e => settle s ops (.error e)

def tileMem (st sp : Bool) (d : TReg) (a b x : SReg) (off : BitVec 30) (s : State) : Host.Outcome State Fault Refusal :=
  let s := s.openChunk
  let scaled := (s.tile d).valid && (s.tile d).scaled
  let regs := if scaled then [a, b, x] else [a, b]
  let f := if st then tileStore else tileLoad
  settleRows s [.t d, .s a, .s b, .s x] (f d (s.val a + sext off) (s.val b) (s.val x) regs sp 128 s)

def execTld (d : TReg) (a b x : SReg) (off : BitVec 30) (_nt : Bool) (s : State) : Host.Outcome State Fault Refusal :=
  tileMem false false d a b x off s
def execTst (d : TReg) (a b x : SReg) (off : BitVec 30) (_nt : Bool) (s : State) : Host.Outcome State Fault Refusal :=
  tileMem true false d a b x off s
def execTldm (d : TReg) (a b x : SReg) (off : BitVec 30) (s : State) : Host.Outcome State Fault Refusal :=
  tileMem false true d a b x off s
def execTstm (d : TReg) (a b x : SReg) (off : BitVec 30) (s : State) : Host.Outcome State Fault Refusal :=
  tileMem true true d a b x off s

/-- A tile load or store that a pre-emption stops at the end of row `upto` − 1, with RV and RROW set and nothing retired (06 R151);
none where no such stop is possible. -/
def tileCut (st sp : Bool) (d : TReg) (a b x : SReg) (off : BitVec 30) (upto : Nat) (s : State) : Option State :=
  let s := s.openChunk
  let t := s.tile d
  let start := if s.me.p.tstat.rv then s.me.p.tstat.rrow.toNat else 0
  let regs := if t.valid && t.scaled then [a, b, x] else [a, b]
  if start < upto && upto < t.rows then
    let f := if st then tileStore else tileLoad
    match f d (s.val a + sext off) (s.val b) (s.val x) regs sp upto s with
    | (t, none) => some (t.setP { t.me.p with tstat := { t.me.p.tstat with rv := true, rrow := .ofNat 7 upto } })
    | (_, some _) => none
  else none

/-- `tcb.ld` (06 R153). -/
def execTcbLd (n : Fin 4) (a : SReg) (off : BitVec 30) (s : State) : Host.Outcome State Fault Refusal :=
  performOut s [.raw n.val, .s a] 12 (fun s => do
    let x := s.val a + sext off
    if x.toNat % 32 ≠ 0 then .error (trapWith Code.misalign x)
    let r ← s.load x 32
    let s1 := r.2.noteS [a]
    let cb := (List.range 4).foldl (fun v q => v.setIfInBounds (4 * n.val + q) (word (leNat ((r.1.drop (8 * q)).take 8)))) s1.me.p.cb
    pure (s1.setP { s1.me.p with cb := cb }))

end Sys2Proof.Machine
end

