-- ==== Sys2Proof/Machine/Recovery.lean ====
section
/-! DEFINITION. Pre-emption, saved state, gang switches, intervals and checkpoints, rollback, the error ladder (16 R312–R340). -/

namespace Sys2Proof.Machine

/-! ## Saved state by pod-relative numbers (16 R317, R319, 15 R294) -/

/-- The number that context `c` of clusters `a` has on clusters `b`. -/
def moveCtx (a b : List Nat) (c : Nat) : Nat :=
  match a.findIdx? (· = clusterOf c) with
  | some r => b.getD r 0 * 128 + c % 128
  | none => c

def moveCore (a b : List Nat) (k : Nat) : Nat := coreOf (moveCtx a b (k * 16))
def moveCluster (a b : List Nat) (k : Nat) : Nat := clusterOf (moveCtx a b (k * 128))

/-- A wait, moved to other clusters. -/
def Wait.move (a b : List Nat) : Wait → Wait
  | .fe g k off p => .fe g (if k < 128 then moveCluster a b k else k) off p
  | .send k => .send (moveCore a b k)
  | .hop k => .hop (moveCore a b k)
  | w => w

def Stored.move (a b : List Nat) (r : Stored) : Stored := { r with src := moveCtx a b r.src }
def InMsg.move (a b : List Nat) (m : InMsg) : InMsg := { m with consumer := moveCtx a b m.consumer }

def Ctx.move (a b : List Nat) (x : Ctx) : Ctx :=
  { x with holder := x.holder.map (moveCtx a b), wait := x.wait.map (fun w => { w with on := w.on.move a b }),
           heldRec := x.heldRec.map (fun h => (moveCluster a b h.1, h.2.move a b)) }

/-- An operation of this chip, by the context that sent it. -/
def RemoteOp.move (a b : List Nat) (o : RemoteOp) : RemoteOp := if o.vf = 0 then o else { o with srcCtx := moveCtx a b o.srcCtx }

def Core.move (a b : List Nat) (k : Core) : Core :=
  { k with agent := k.agent.map (RemoteOp.move a b), inbox := k.inbox.map (InMsg.move a b), heap := k.heap.map (InMsg.move a b), port := k.port.map (InMsg.move a b) }

def Cmd.move (a b : List Nat) (c : Cmd) : Cmd := { c with ctx := moveCtx a b c.ctx }

def Engine.move (a b : List Nat) (e : Engine) : Engine :=
  { e with store := e.store.map (Cmd.move a b), run := e.run.map (fun r => { r with cmd := r.cmd.move a b }),
           held := e.held.map (fun h => { h with cmd := h.cmd.move a b }) }

def Cluster.move (a b : List Nat) (k : Cluster) : Cluster :=
  { k with queue := k.queue.map (fun q => match q with
             | .start x => .start { x with src := moveCtx a b x.src }
             | .cont x => .cont (x.move a b)),
           parked := k.parked.map (Stored.move a b), engines := k.engines.map (fun e => (e.1, e.2.move a b)) }

def PodImage.move (a b : List Nat) (m : PodImage) : PodImage :=
  { ctxs := m.ctxs.map (fun x => (x.1, x.2.move a b)), cores := m.cores.map (fun x => (x.1, x.2.move a b)),
    clusters := m.clusters.map (fun x => (x.1, x.2.move a b)) }

/-- What a pod's clusters hold. -/
def State.imageOf (s : State) (cls : List Nat) : PodImage :=
  { ctxs := (s.ctxs.filter (fun x => cls.contains (clusterOf x.1))).map (fun x => (relNum cls 128 x.1, x.2)),
    cores := (s.cores.filter (fun x => cls.contains (clusterOfCore x.1))).map (fun x => (relNum cls 8 x.1, x.2)),
    clusters := (s.clusters.filter (fun x => cls.contains x.1)).map (fun x => (relNum cls 1 x.1, x.2)) }

def PodImage.mapEngines (m : PodImage) (f : Engine → Engine) : PodImage :=
  { m with clusters := m.clusters.map (fun k => (k.1, { k.2 with engines := k.2.engines.map (fun e => (e.1, f e.2)) })) }

/-- Zeroes clusters (15 R283): everything but the power tokens of their dies. -/
def State.zero (s : State) (cls : List Nat) : State :=
  { s with ctxs := s.ctxs.filter (fun x => !cls.contains (clusterOf x.1)), cores := s.cores.filter (fun x => !cls.contains (clusterOfCore x.1)),
           clusters := s.clusters.map (fun x => if cls.contains x.1 then (x.1, { token := x.2.token, burst := x.2.burst }) else x) }

/-- Puts an image on clusters; an abandoned wait counts from now (16 R316). -/
def State.putImage (s : State) (cls : List Nat) (m : PodImage) : State :=
  let s := m.ctxs.foldl (fun s x => s.setCtx (absNum cls 128 x.1) { x.2 with begun := s.refTime }) s
  let s := m.cores.foldl (fun s x => s.setCore (absNum cls 8 x.1) { x.2 with stopped := false }) s
  let s := m.clusters.foldl (fun s x =>
    let n := absNum cls 1 x.1
    s.setCluster n { x.2 with token := (s.cluster n).token, burst := (s.cluster n).burst, tokenq := [] }) s
  cls.foldl (fun s n => s.setCluster n { s.cluster n with openedAt := s.dieCycles n }) s

/-! ## Pre-emption (16 R315–R318) -/

/-- DIRTY of a shape. -/
def dirtyBit : BitVec 32 := 0x40000000

/-- A tile after its save: clean, and refilled at its next use (06 R155). 08 R176 keeps DIRTY at any timing of a pre-emption: log 119. -/
def Tile.saved (t : Tile) : Tile := if t.valid then { t with shape := t.shape &&& ~~~dirtyBit, unfilled := true } else t

/-- Waits that keep what they hold and stay BLOCKED over a pre-emption. -/
def Wait.holds : Wait → Bool
  | .send _ | .hop _ => true
  | _ => false

/-- The state in which a context resumes: RUNNABLE where it ran or waited, or BLOCKED in a `send` or `hop` (16 R316, R318). -/
def Ctx.settled (x : Ctx) : Ctx :=
  let keeps : Bool := x.status = .blocked && (match x.wait with | some w => w.on.holds | none => false)
  let st : Status := match x.status with
    | .out _ => .runnable
    | .blocked => if keeps then .blocked else .runnable
    | t => t
  { x with status := st, wait := if keeps then x.wait else none, gang := none, squashes := 0, sqAt := (0, 0), parityRuns := 0,
           tokenWait := false, mma := false }

/-- Resolves a pending commit: it commits if it can, else both chunks squash. -/
def State.resolvePending (s : State) (c : Nat) : Nat → State
  | 0 => s
  | f + 1 => match (s.ctx c).pending with
    | none => s
    | some k => if s.grantable c k [] then (s.commitEnded c []).resolvePending c f else s.squash c true 3

/-- Ends the open chunk of a context that is pre-empted: a handler's and a deterministic one squash, another commits as it stands if it
can. During replay only the end trace ends a chunk early (16 R333). -/
def State.endOpen (s : State) (c : Nat) : State :=
  let x := s.ctx c
  let replays : Bool := match s.podOf c with | some p => (s.pod p).replay.isSome | none => false
  match x.chunk with
  | none => s
  | some k =>
    if k.isEmpty && k.ended.isNone then s.setCtx c { x with chunk := none }
    else if x.handler || k.det || (replays && k.ended.isNone) then s.squash c false 3
    else
      let k := { k with ended := some (k.ended.getD .preempt) }
      if s.grantable c k [] then (s.setCtx c { x with chunk := some k, status := .out .commit }).commitEnded c []
      else s.squash c false 3

/-- The message of a handler that has committed nothing goes back to the head of the courier's queue: the handler runs again from its
start (16 R316). -/
def State.unhandle (s : State) (c : Nat) : State :=
  let k := s.core (coreOf c)
  let x := s.ctx c
  match k.handling, x.handler && x.hcount = 0 && x.status.running with
  | some m, true => (s.setCore (coreOf c) { k with inbox := m :: k.inbox, handling := none }).setCtx c
      { x with handler := false, status := .idle, chunk := none }
  | _, _ => s

/-- One context of a core that is pre-empted. -/
def State.preemptCtx (s : State) (c : Nat) : State :=
  let s := ((s.resolvePending c 3).endOpen c).unhandle c
  let s := (s.leaveTokenq c).dropTicket c
  let x := (s.ctx c).settled
  s.setCtx c { x with p := { x.p with tiles := x.p.tiles.map Tile.saved } }

/-- Contexts of a core that have state of their own. -/
def State.coreCtxs (s : State) (core : Nat) : List Nat := (s.ctxs.filter (fun x => coreOf x.1 = core)).map (·.1)

/-- The tile load or store in progress of context `c` stops at the end of row `r` − 1 (06 R151). -/
def State.cutRow (s : State) (c r : Nat) : State :=
  let s0 := { s with cur := c }.openChunk
  if (s.ctx c).status ≠ .runnable || s0.chunk.det || s0.me.handler then s
  else match s0.fetch with
    | .instr (.tld d a b x off _) t => (tileCut false false d a b x off r t).getD s
    | .instr (.tst d a b x off _) t => (tileCut true false d a b x off r t).getD s
    | .instr (.tldm d a b x off) t => (tileCut false true d a b x off r t).getD s
    | .instr (.tstm d a b x off) t => (tileCut true true d a b x off r t).getD s
    | _ => s

/-- Pre-empts a core (16 R316); `rows` are the tile loads and stores that it stops at a row. -/
def State.preempt (s : State) (core : Nat) (rows : List (Nat × Nat)) : State :=
  let s := rows.foldl (fun s r => if coreOf r.1 = core then s.cutRow r.1 r.2 else s) s
  let s := s.setCore core { s.core core with stopped := true }
  let s := (s.coreCtxs core).foldl State.preemptCtx s
  s.setCore core { s.core core with h := (s.core core).h.map Tile.saved }

/-- Pre-empts a core at a switch: where its tile loads and stores stop is free (06 R151; log 84). -/
def State.preemptAnywhere (s : State) (core : Nat) : State :=
  s.preempt core ((s.coreCtxs core).map (fun c => (c, Config.cutRow s.moment c)))

/-- Lines of its save units that a FULL pod writes in an interval take undo entries; how many is the layout's, so a free value (16 R328; log
34). -/
def State.noteSave (s : State) (pid : Nat) : State :=
  let p := s.pod pid
  let key := (s.ivals.num, pid)
  let n := Config.saveLines s.moment % (81920 * p.clusters.length + 1)
  let old := match s.ivals.saves.find? (·.1 = key) with | some x => x.2 | none => 0
  if p.full then
    { s with ivals := { s.ivals with saves := (s.ivals.saves.filter (fun x => x.1 ≠ key)) ++ [(key, max old n)] } }
  else s

def execPreemptCore (core : Nat) (rows : List (Nat × Nat)) (s : State) : Host.Outcome State Fault Refusal :=
  if (s.core core).stopped then .next s
  else
    let t := s.preempt core rows
    happens s (match s.podAt (clusterOfCore core) with | some p => t.noteSave p | none => t)

/-- The share group of a cluster. -/
def State.groupAt (s : State) (cl : Nat) : Option Nat := (s.groups.find? (fun g => g.2.clusters.contains cl)).map (·.1)

/-- A core pre-empted alone is restored (16 R318), and its abandoned waits count from now; one that a switch stopped waits for the switch. -/
def execCoreRestore (core : Nat) (s : State) : Host.Outcome State Fault Refusal :=
  let switching := match s.groupAt (clusterOfCore core) with | some g => (s.group g).ticking.isSome | none => false
  if !(s.core core).stopped || switching then .next s
  else happens s ((s.coreCtxs core).foldl (fun s c => s.setCtx c { s.ctx c with begun := s.refTime })
      (s.setCore core { s.core core with stopped := false }))

/-! ## Residency and gang switches (16 R319–R323) -/

/-- Pods of a share group. -/
def State.podsOf (s : State) (g : Nat) : List (Nat × Pod) := s.pods.filter (fun p => p.2.group = g && p.2.state ≠ .evicted && !p.2.clusters.isEmpty)

/-- The ACTIVE pod that comes after `out` in ascending order of VF and INDEX, wrapping round (16 R320). -/
def State.nextPod (s : State) (g out : Nat) : Option Nat :=
  let act : List Nat := ((s.podsOf g).filter (fun p => p.2.state = .active && p.1 ≠ out)).map (·.1)
  match act.find? (fun (p : Nat) => out < p) with
  | some p => some p
  | none => act.head?

/-- Follow-ons that have started complete before the save (16 R319). -/
def State.finishFollowOns (s : State) (cls : List Nat) : State :=
  cls.foldl (fun s cl => ((s.cluster cl).engines.map (·.1)).foldl (fun s e => s.finishFollowOn cl e) s) s

/-- The cores of clusters. -/
def coresOf (cls : List Nat) : List Nat :=
  cls.flatMap (fun cl => (List.range 8).map (fun k => cl * 8 + k))

/-- A command as its engine context saves it: a line assembled and not yet written is assembled again, from sources read again; in
deterministic mode the values read are kept (16 R319). -/
def Run.saved (r : Run) : Run :=
  if r.cmd.det then { r with request := none } else { r with request := none, got := [], own := [], part := [] }

def Engine.saved (e : Engine) : Engine := { e with run := e.run.map Run.saved }

/-- The resident pod of a share group goes to the recovery reserve; its clusters are zeroed (15 R283). -/
def State.switchOut (s : State) (g : Nat) : State :=
  match (s.group g).resident with
  | none => s
  | some pid =>
    let p := s.pod pid
    let s := s.finishFollowOns p.clusters
    let p := s.pod pid
    let log := if p.full && p.replay.isNone then p.log ++ (if p.pausing.isSome then [.command 7 0] else []) ++ [.leave] else p.log
    let s := (s.noteSave pid).setPod pid { p with saved := some ((s.imageOf p.clusters).mapEngines Engine.saved), resident := false, log := log }
    let s := (s.zero p.clusters).setGroup g { s.group g with resident := none }
    match p.pausing with
    | some (q, tag) => (s.setPod pid { s.pod pid with state := .paused, pausing := none }).complete q tag 0 0
    | none => s

/-- A pod becomes resident on zeroed clusters, with what the reserve holds of it (15 R283). -/
def State.switchIn (s : State) (pid : Nat) : State :=
  let p := s.pod pid
  let s := s.setPod pid { p with resident := true, saved := none }
  let s := (s.zero p.clusters).putImage p.clusters (p.saved.getD {})
  s.setGroup p.group { s.group p.group with resident := some pid, lastTick := s.refTime }

/-- Makes a pod resident in a group that has none: `pid` if it is ACTIVE, else the first that is. -/
def State.fillGroup (s : State) (g pid : Nat) : State :=
  let x := s.group g
  if x.resident.isSome || x.ticking.isSome then s
  else match (s.podsOf g).filter (fun p => p.2.state = .active) with
    | [] => s
    | p :: l => if (p :: l).any (·.1 = pid) then s.switchIn pid else s.switchIn p.1

/-- Ends a tick. -/
def Group.ended (g : Group) : Group := { g with ticking := none, saved := [], incoming := none, forced := false }

/-- The pod that comes in: the one chosen at the tick, or where it has left ACTIVE since, the next that is, the outgoing one last. -/
def State.comesIn (s : State) (g out : Nat) (chosen : Option Nat) : Option Nat :=
  let live (p : Option Nat) : Option Nat := p.filter (fun p => (s.pod p).state = .active)
  ((live chosen).or (s.nextPod g out)).or (live (some out))

/-- The switch completes on every die (16 R320 step 3). -/
def State.finishSwitch (s : State) (g : Nat) : State :=
  let x := s.group g
  let s := s.switchOut g
  let s := s.setGroup g { (s.group g).ended with misses := 0, lastTick := s.refTime }
  match s.comesIn g (x.resident.getD 0) x.incoming with
  | some p => s.switchIn p
  | none => s

/-- The dies that hold clusters of a group. -/
def Group.dies (g : Group) : List Nat := (List.range 4).filter (fun d => g.clusters.any (fun cl => dieOfCluster cl = d))

/-- Values of `SET_SLICE` come into force at a tick of the pod's share group (15 R291). -/
def Pod.tick (p : Pod) : Pod :=
  { p with slice := p.nextSlice.getD p.slice, nextSlice := none, power := p.nextPower.getD p.power, nextPower := none }

/-- Whether a slice tick falls: the slice of the resident pod has run out (16 R320). None does during a replay of the group's pods
(16 R333). -/
def State.tickDue (s : State) (g : Nat) : Bool :=
  let x := s.group g
  match x.resident with
  | none => false
  | some pid => x.ticking.isNone && x.lastTick + (s.pod pid).slice * 1000 ≤ s.refTime && (s.podsOf g).all (fun q => q.2.replay.isNone)

/-- Whether a share group switches at its tick: more than one pod of it is ACTIVE, or a `PAUSE` is pending (16 R320). -/
def State.switches (s : State) (g : Nat) : Bool :=
  (match (s.group g).resident with | some pid => (s.pod pid).pausing.isSome | none => false) ||
  1 < ((s.podsOf g).filter (fun q => q.2.state = .active)).length

/-- The values of `SET_SLICE` come into force for the pods of a group. -/
def State.tickPods (s : State) (g : Nat) : State :=
  { s with pods := s.pods.map (fun p => (p.1, if p.2.group = g then p.2.tick else p.2)) }

/-- The tick. Where the group switches, issue stops on its cores (16 R320 step 1); where it does not, the next slice begins. -/
def execSliceTick (group : Nat) (s : State) : Host.Outcome State Fault Refusal :=
  let x := s.group group
  if !s.tickDue group then .next s
  else if !s.switches group then .next ((s.tickPods group).setGroup group { x with lastTick := s.refTime })
  else
    let out := x.resident.getD 0
    let s1 := (coresOf x.clusters).foldl (fun s k => s.setCore k { s.core k with stopped := true }) (s.tickPods group)
    .next (s1.setGroup group { x with ticking := some s.refTime, hold := x.deadline * 1000, saved := [], incoming := s.nextPod group out })

/-- A die has written its state. Its save waits while a stack retrains (16 R324). The last one completes the switch. -/
def execDieSaved (group die : Nat) (s : State) : Host.Outcome State Fault Refusal :=
  let x := s.group group
  match x.ticking with
  | none => .next s
  | some t =>
    if !x.dies.contains die || x.saved.contains die || !s.retraining.isEmpty || (!x.forced && t + x.hold < s.refTime) then .next s
    else
      let s1 := (coresOf (x.clusters.filter (fun cl => dieOfCluster cl = die))).foldl State.preemptAnywhere s
      let y := { s1.group group with saved := die :: x.saved }
      let s2 := s1.setGroup group y
      happens s (if y.dies.all y.saved.contains then s2.finishSwitch group else s2)

/-- A switch misses its deadline: it is undone, the waits that saved dies had abandoned counting from now (16 R316), or forced at the third
miss in a row (16 R321, R322). -/
def execSwitchDeadline (group : Nat) (s : State) : Host.Outcome State Fault Refusal :=
  let x := s.group group
  match x.ticking with
  | none => .next s
  | some t =>
    if x.forced || s.refTime < t + x.hold || !s.retraining.isEmpty then .next s
    else if x.misses < 2 then
      let s1 := (coresOf x.clusters).foldl (fun s k => s.setCore k { s.core k with stopped := false }) s
      let back := coresOf (x.clusters.filter (fun cl => x.saved.contains (dieOfCluster cl)))
      let s1 := (back.flatMap s1.coreCtxs).foldl (fun s c => s.setCtx c { s.ctx c with begun := s.refTime }) s1
      happens s (s1.setGroup group { x.ended with misses := x.misses + 1, swmiss := x.swmiss + 1, lastTick := s.refTime })
    else
      let late := (coresOf x.clusters).filter (fun k => !x.saved.contains (dieOfCluster (clusterOfCore k)))
      let s1 := (late.flatMap s.coreCtxs).foldl (fun s c =>
        if ((s.ctx c).chunk).isSome || ((s.ctx c).pending).isSome then s.squash c true 3 else s) s
      happens s (s1.setGroup group { x with misses := 0, swmiss := x.swmiss + 1, swforce := x.swforce + 1, forced := true })

/-- A stack begins or ends retraining (16 R324): not while a save streams; and a save that began meanwhile has its deadline extended. -/
def execHbmRetrain (stack : Nat) (on : Bool) (s : State) : Host.Outcome State Fault Refusal :=
  if on then
    if s.groups.any (fun g => g.2.ticking.isSome) || 8 ≤ stack then .next s else .next { s with retraining := nput s.retraining stack }
  else if s.retraining.contains stack then
    let left := s.retraining.filter (· ≠ stack)
    let gs := if left.isEmpty then s.groups.map (fun g => match g.2.ticking with
        | some t => (g.1, { g.2 with hold := g.2.hold + (s.refTime - t) })
        | none => g) else s.groups
    .next { s with retraining := left, groups := gs }
  else .next s

/-! ## Intervals and checkpoints (16 R325–R328) -/

/-- The recorded answers that a context has had since its last commit: what its uncommitted chunks have taken, and one not yet taken. -/
def Ctx.liveAnswers (x : Ctx) : List Answer :=
  let vals (k : Option Chunk) : List Answer := match k with | some k => k.vals | none => []
  let l := vals x.pending ++ vals x.chunk
  l.drop (l.length + x.answer.toList.length - x.recs.count false) ++ x.answer.toList

/-- The state of a context at its last committed boundary (16 R327). A fence probes again from there; a read that is on its way stays so, and
the answers of what will run again are kept for it. -/
def Ctx.boundary (x : Ctx) : Ctx :=
  let p := match x.pending, x.chunk with
    | some k, _ => k.start
    | none, some k => k.start
    | none, none => x.p
  let fence : Bool := match x.request with | some r => r.fence | none => false
  let y := { x.settled with p := p, chunk := none, pending := none, answer := none, recs := [], kept := x.kept ++ x.liveAnswers }
  if fence then { y with request := none, acks := [] } else if x.answer.isSome then { y with request := none } else y

def PodImage.boundary (m : PodImage) : PodImage := { m with ctxs := m.ctxs.map (fun x => (x.1, x.2.boundary)) }

/-- CKDIRTY of a shape. -/
def ckBit : BitVec 32 := 0x20000000

/-- The bit of a slot: 1 slot A, 2 slot B. -/
def slotBit (b : Bool) : BitVec 2 := if b then 2 else 1

/-- A tile after a checkpoint into a slot (16 R327). -/
def Tile.recorded (b : Bool) (t : Tile) : Tile :=
  if t.shape &&& ckBit = ckBit then { t with shape := t.shape &&& ~~~ckBit, slots := slotBit b } else { t with slots := t.slots ||| slotBit b }

/-- A cluster after a checkpoint: the record of which slots hold each scratchpad line. -/
def Cluster.recorded (b : Bool) (k : Cluster) : Cluster :=
  let bit := (slotBit b).toNat
  { k with spmSlots := (k.spmSlots.map (fun x => (x.1, if k.spmDirty.contains x.1 then bit else x.2 ||| bit))) ++
             ((k.spmDirty.filter (fun l => (afind? k.spmSlots l).isNone)).map (fun l => (l, bit))),
           spmDirty := [] }

/-- Tiles after a checkpoint, but for those that chunks still open at the cut have written (06 R155). -/
def Priv.recorded (b : Bool) (late : List Nat) (p : Priv) : Priv :=
  { p with tiles := Vector.ofFn (fun i => if late.contains i.val then p.tiles[i] else (p.tiles[i]).recorded b) }

/-- A context after a checkpoint: the tiles of its last committed boundary recorded, and its sequence numbers of 16 R334 begun again. -/
def Ctx.recorded (b : Bool) (x : Ctx) : Ctx :=
  let tiles (k : Option Chunk) : List Nat := match k with | some k => k.tiles | none => []
  { x with p := x.p.recorded b (tiles x.pending ++ tiles x.chunk),
           chunk := x.chunk.map (fun k => { k with start := k.start.recorded b (tiles x.pending) }),
           pending := x.pending.map (fun k => { k with start := k.start.recorded b [] }), sent := [] }

def PodImage.recorded (b : Bool) (m : PodImage) : PodImage :=
  { ctxs := m.ctxs.map (fun x => (x.1, x.2.recorded b)), cores := m.cores.map (fun x => (x.1, { x.2 with h := x.2.h.map (Tile.recorded b) })),
    clusters := m.clusters.map (fun x => (x.1, { x.2.recorded b with engines := x.2.engines.map (fun e => (e.1, { e.2 with seqs := [] })) })) }

/-- The image of every pod as of the cut. -/
def State.podImages (s : State) : List (Nat × PodImage) :=
  s.pods.filterMap (fun p => if p.2.resident then some (p.1, (s.imageOf p.2.clusters).boundary) else p.2.saved.map (fun m => (p.1, m.boundary)))

/-- A change of recovery class takes effect at a cut (16 R325). -/
def Pod.atCut (p : Pod) (n : Nat) (b : Bool) : Pod :=
  let full := p.fullNext.getD p.full
  { p with full := full, fullNext := none, log := p.log ++ [.cut n], saved := p.saved.map (PodImage.recorded b) }

/-- The cut: the interval closes, its checkpoint is written into the slot that the previous one did not use, the next opens. A
checkpoint still being written is complete first (16 R328). -/
def State.closeInterval (s : State) : State :=
  let b := !s.ivals.useB
  let n := s.ivals.num + 1
  let s : State := { s with
    pods := s.pods.map (fun p => (p.1, p.2.atCut n b)),
    ctxs := s.ctxs.map (fun x => (x.1, x.2.recorded b)),
    cores := s.cores.map (fun x => (x.1, { x.2 with h := x.2.h.map (Tile.recorded b) })),
    clusters := s.clusters.map (fun x => (x.1, { x.2.recorded b with engines := x.2.engines.map (fun e => (e.1, { e.2 with seqs := [] })) })) }
  let ck : Checkpoint := ⟨n, s.pods.map (fun p => (p.1, { p.2 with log := [], saved := none })), s.podImages, s.groups,
    s.vfs.map (fun v => (v.1, v.2.windows)), s.colls⟩
  { s with ivals := { s.ivals with num := n, opened := s.refTime, filling := some ck } }

/-- The last complete checkpoint; before the first, that of READY, which holds no pod. -/
def State.lastCheckpoint (s : State) : Checkpoint :=
  (if s.ivals.useB then s.ivals.slotB else s.ivals.slotA).getD ⟨0, [], [], [], [], []⟩

/-- Records before the boundary of interval `n` go. -/
def logFrom (n : Nat) (l : List Logged) : List Logged :=
  if l.contains (.cut n) then l.dropWhile (fun x => x ≠ .cut n) else l

/-- The slot being written is complete; undo entries and replay records before the closing interval go (16 R326 steps 4 and 5), and
other chips hear of it (16 R334). -/
def State.completeCheckpoint (s : State) : State :=
  match s.ivals.filling with
  | none => s
  | some ck =>
    let b := !s.ivals.useB
    let closing := ck.interval - 1
    let iv := { s.ivals with slotA := if b then s.ivals.slotA else some ck, slotB := if b then some ck else s.ivals.slotB, useB := b,
                             filling := none, undo := s.ivals.undo.filter (fun u => closing ≤ u.interval),
                             saves := s.ivals.saves.filter (fun x => closing ≤ x.1.1), rollbacks := 0 }
    let s := { s with ivals := iv, pods := s.pods.map (fun p => (p.1, { p.2 with log := logFrom closing p.2.log })) }
    let peers := (List.range 192).filter (fun c => c ≠ s.chipNum &&
      s.vfs.any (fun v => match v.2.policy with | some q => bits q.peers c 1 = 1 | none => false))
    peers.foldl (fun s c => s.sendFlit (s.portOf 0 c) c (.notice (.ofNat 32 closing))) s

/-- Bytes that a record takes in the replay records: 4 for a commit log entry (09 R186), and the model counts 64 for any other, whose
layout is not architectural (log 34). -/
def Logged.size (x : Logged) : Nat := if x.isCommit then 4 else 64

/-- Whether the open interval is to close (16 R325). -/
def State.intervalDue (s : State) : Bool :=
  let cur (p : Pod) : List Logged := logFrom s.ivals.num p.log
  s.ivals.opened + 10000000 ≤ s.refTime || 2 ^ 26 ≤ (s.ivals.undo.filter (fun u => u.interval = s.ivals.num)).length +
    ((s.ivals.saves.filter (fun x => x.1.1 = s.ivals.num)).map (·.2)).sum ||
  80 * 2 ^ 20 ≤ (s.pods.map (fun p => ((cur p.2).map Logged.size).sum)).sum

/-- No die relocks: the cut of an interval can fall (16 R326). -/
def State.mayCut (s : State) : Bool := (List.range 4).all (fun d => (s.die d).relock.isNone)

/-- An interval closes when due; a relocking die holds the cut (16 R326). -/
def execIntervalClose (s : State) : Host.Outcome State Fault Refusal :=
  if s.ready && s.intervalDue && s.ivals.filling.isNone && s.mayCut &&
      s.pods.all (fun p => p.2.replay.isNone) then
    .next s.closeInterval
  else .next s

def execCheckpointComplete (s : State) : Host.Outcome State Fault Refusal := .next s.completeCheckpoint

/-- The commands that close the interval first, so that no rollback crosses them: the checkpoint is complete before they act (16 R325,
R330). -/
def State.closeFirst (s : State) : State := s.completeCheckpoint.closeInterval.completeCheckpoint

/-- Changes the last complete checkpoint, and one being written. -/
def State.mapCheckpoint (s : State) (f : Checkpoint → Checkpoint) : State :=
  let ck := some (f s.lastCheckpoint)
  let iv := s.ivals
  { s with ivals := { iv with slotA := if iv.useB then iv.slotA else ck, slotB := if iv.useB then ck else iv.slotB, filling := iv.filling.map f } }

/-- What a command that closed the interval has made of a pod stands in the checkpoint too: a rollback to it finds the pod so. -/
def State.carryPod (s : State) (pid : Nat) : State :=
  s.mapCheckpoint (fun ck =>
    match afind? s.pods pid with
    | none => { ck with pods := adel ck.pods pid, images := adel ck.images pid }
    | some p =>
      { ck with
        pods := aput ck.pods pid { p with log := [], saved := none },
        images := match (if p.resident then some (s.imageOf p.clusters) else p.saved).map PodImage.boundary with
          | some m => aput ck.images pid m
          | none => adel ck.images pid,
        groups := aput ck.groups p.group (s.group p.group) })

/-- The windows of a virtual device as they stand are those of the checkpoint too. -/
def State.carryWindows (s : State) (v : Nat) : State :=
  s.mapCheckpoint (fun ck => { ck with windows := aput ck.windows v (s.vf v).windows })

/-! ## The error ladder (16 R331–R336) -/

/-- A context that an error stops. -/
def Ctx.errored (x : Ctx) : Ctx := { x.boundary.abandon with status := .stopped .error, trap := none }

/-- An image with every context of `n` clusters stopped by an error, and its engine commands withdrawn (10 R218). -/
def PodImage.errored (m : PodImage) (n : Nat) : PodImage :=
  { m.mapEngines Engine.cancel with ctxs := (List.range (128 * n)).map (fun i => (i, (aget (Ctx.fresh i) m.ctxs i).errored)) }

/-- A pod that an error stops: every context STOPPED, its engine contexts stopped, an entry of kind 6, the error interrupt. -/
def State.stopPod (s : State) (pid : Nat) : State :=
  let p := s.pod pid
  let s := (s.podCtxs p).foldl (fun s c => (s.leaveTokenq c).dropTicket c) s
  let s := if p.resident then s.putImage p.clusters ((s.imageOf p.clusters).errored p.clusters.length) else s
  let s := s.setPod pid { p with errored := true, replay := none, saved := p.saved.map (fun m => m.errored p.clusters.length) }
  (s.logError 6 (some pid) p.vf (Config.errDetail s.moment)).raiseVector p.vf 0

/-- Pods that a rollback covers (16 R332): every FULL pod, and the REPORT pods of their virtual devices. -/
def State.covered (s : State) : List Nat :=
  let live (p : Pod) : Bool := p.state ≠ .evicted && !p.clusters.isEmpty
  let fullVfs := (s.pods.filter (fun p => p.2.full && live p.2)).map (fun p => p.2.vf)
  (s.pods.filter (fun p => live p.2 && fullVfs.contains p.2.vf)).map (·.1)

/-- A line's old contents come back. -/
def State.undoLine (s : State) (u : Undo) : State :=
  { s with mem := s.mem.writeBytes (u.line * 64) u.bytes,
           poison := if u.poisoned then nput s.poison u.line else s.poison.filter (· ≠ u.line) }

/-- Operations of covered contexts that wait at agents of this chip will be posted again: they go, and count as not performed. -/
def State.withdrawPosted (s : State) (cs : List Nat) : State :=
  let mine (o : RemoteOp) : Bool := o.srcChip = s.chipNum && cs.contains o.srcCtx
  let gone := s.cores.flatMap (fun k => (k.2.agent.filter mine).map (fun o => (k.1, o)))
  let lower (m : (Nat × Nat × Nat × Nat) × Nat) : (Nat × Nat × Nat × Nat) × Nat :=
    match (gone.filter (fun g => m.1 = (s.chipNum, g.2.srcCtx, g.1, g.2.interval) && g.2.seq ≠ 0)).map (fun g => g.2.seq - 1) with
    | [] => m
    | l => (m.1, l.foldl min m.2)
  { s with cores := s.cores.map (fun k => (k.1, { k.2 with agent := k.2.agent.filter (fun o => !mine o) })), marks := s.marks.map lower }

/-- A pod as the boundary had it, with what does not roll back: its handle, its class, its log (16 R332 step 5). The quota and the slice
of a FULL pod are as the boundary had them, and its replay sets them again (16 R330); those of a REPORT pod stay. A pod that the checkpoint
does not hold was empty then. -/
def Pod.rolled (p : Pod) (old : Option Pod) : Pod :=
  match old with
  | some q =>
    let r := { q with handle := p.handle, log := p.log, full := p.full, evictions := p.evictions, pausing := p.pausing }
    if p.full then r
    else { r with quota := p.quota, slice := p.slice, power := p.power, nextSlice := p.nextSlice, nextPower := p.nextPower,
                  fullNext := p.fullNext }
  | none => { vf := p.vf, idx := p.idx, clusters := p.clusters, handle := p.handle, group := p.group, ranges := p.ranges,
              heapBase := p.heapBase, full := p.full, fullNext := p.fullNext, quota := p.quota, slice := p.slice, power := p.power,
              log := p.log, svctgt := p.svctgt, pausing := p.pausing }

/-- A core of a checkpoint without the operations at its agent that replay performs from the records, and those of other chips, which
are kept as they stand now. -/
def Core.undelivered (k : Core) (chip : Nat) (records : List Logged) : Core :=
  let done (o : RemoteOp) : Bool := records.any (fun x => match x with | .inbound _ p => p = o | _ => false)
  { k with agent := k.agent.filter (fun o => o.srcChip = chip && !done o) }

/-- What a pod's contexts and engine contexts hold, resident or saved, under the clusters' present numbers. -/
def State.present (s : State) (pid : Nat) : PodImage :=
  let p := s.pod pid
  if p.resident then s.imageOf p.clusters else p.saved.getD {}

/-- The requests of an image that are on their way to other chips, with their sources. -/
def PodImage.asked (m : PodImage) (cls : List Nat) (chip : Nat) : List (Nat × Nat) :=
  m.ctxs.filterMap (fun x => match x.2.request with
    | some r => if r.fence || r.chip = chip || x.2.answer.isSome then none else some (r.rid, absNum cls 128 x.1)
    | none => none) ++
  m.clusters.flatMap (fun k => k.2.engines.filterMap (fun e => e.2.run.bind (fun r => r.request.map (fun q =>
    (q.1, engSrc (absNum cls 1 k.1) e.1)))))

/-- A pod's records without the answers that are void for its contexts as `f` takes them. -/
def State.cleanRecords (s : State) (pid : Nat) (f : Ctx → Ctx) : State :=
  let p := s.pod pid
  s.setPod pid { p with log := (s.present pid).ctxs.foldl (fun l x => (f x.2).cleanLog (absNum p.clusters 128 x.1) l) p.log }

/-- A pod's records before a rollback: the void answers go, and the requests that are on their way are kept, so that their answers can join
the records (16 R329, R334). -/
def State.closeRecords (s : State) (pid : Nat) : State :=
  let s := s.cleanRecords pid id
  s.setPod pid { s.pod pid with asked := (s.pod pid).asked ++ (s.present pid).asked (s.pod pid).clusters s.chipNum }

/-- Rollback to the last complete checkpoint, with replay to follow (16 R332, R333). -/
def State.rollback (s : State) : State :=
  let ck := s.lastCheckpoint
  let cov := s.covered
  let gs := (s.groups.filter (fun g => (s.podsOf g.1).any (fun p => cov.contains p.1))).map (·.1)
  let home (k : Nat) : Bool := match s.podAt (clusterOfCore k) with | some p => cov.contains p | none => false
  let s := cov.foldl State.closeRecords s
  let arrived := (s.cores.filter (fun k => home k.1)).map (fun k => (k.1, k.2.agent.filter (fun o => o.srcChip ≠ s.chipNum)))
  -- pods of other virtual devices on those groups are switched out; the covered ones stop where they are
  let s := gs.foldl (fun s g =>
    match (s.group g).resident with
    | some p =>
      if cov.contains p then
        let q := s.pod p
        ((s.setPod p { q with resident := false }).zero q.clusters).setGroup g { (s.group g).ended with resident := none }
      else
        let s := (coresOf (s.group g).clusters).foldl State.preemptAnywhere s
        let s := s.switchOut g
        s.setGroup g (s.group g).ended
    | none => s.setGroup g (s.group g).ended) (s.withdrawPosted (cov.flatMap (fun p => s.podCtxs (s.pod p))))
  let s : State := { s with ticket := none, ticketQueue := [] }
  let s := (s.ivals.undo.filter (fun u => ck.interval ≤ u.interval)).foldr (fun u s => s.undoLine u) s
  let iv := { s.ivals with undo := [], saves := [], filling := none, rollbacks := s.ivals.rollbacks + 1 }
  let covers (v : Nat) : Bool := cov.any (fun p => (s.pod p).vf = v)
  -- cached translations go; those that the replays need are the recorded ones (16 R333, R340)
  let pages (v : Nat) : List Nat := (cov.filter (fun p => (s.pod p).vf = v)).flatMap (fun p =>
    (logFrom ck.interval (s.pod p).log).filterMap (fun x => match x with | .translation true n _ => some n | _ => none))
  let vfs := s.vfs.map (fun v => (v.1, if covers v.1 then
    { v.2 with atc := (pages v.1).foldl nput [], windows := (afind? ck.windows v.1).getD [] } else v.2))
  -- collective flits of the covered virtual devices are those of the boundary; the records bring the others
  let mine (m : CollMsg) : Bool := s.vfs.any (fun v => covers v.1 && (v.2.members m.grp.toNat).contains s.chipNum)
  let s : State := { s with ivals := iv, vfs := vfs, colls := s.colls.filter (fun m => !mine m) ++ ck.colls.filter mine }
  let s := cov.foldl (fun s p =>
    let q := { (s.pod p).rolled (afind? ck.pods p) with asked := (s.pod p).asked }
    let records := (logFrom ck.interval q.log).filter (fun x => x ≠ .cut ck.interval)
    let kept (m : PodImage) : PodImage := { m with cores := m.cores.map (fun k => (k.1, k.2.undelivered s.chipNum records)) }
    let q1 := { q with resident := false, saved := (afind? ck.images p).map kept, errored := false }
    s.setPod p (match q.replay with
      -- the checkpoint was taken during a replay, whose rest comes first
      | some l => { q1 with replay := some (l ++ .cut ck.interval :: records) }
      | none => { q1 with interval := some ck.interval, replay := some (q.owed ++ records), owed := [] })) s
  let s := gs.foldl (fun s g =>
    match (afind? ck.groups g).bind (·.resident) with
    | some p => if (s.pod p).state = .active && (s.pod p).group = g then s.switchIn p else s.fillGroup g p
    | none => s.fillGroup g 0) s
  arrived.foldl (fun s k => s.setCore k.1 { s.core k.1 with agent := (s.core k.1).agent ++ k.2 }) s

/-- An error that only a rollback repairs. One during a rollback or replay starts it again; where that was the third rollback to one
boundary or a later one, it has failed, and every pod it covers stops (16 R335). -/
def State.recover (s : State) : State :=
  if s.covered.any (fun p => (s.pod p).replay.isSome) && 3 ≤ s.ivals.rollbacks then s.covered.foldl State.stopPod s
  else s.rollback

/-- An error in committed state of the pod of a cluster. -/
def State.podError (s : State) (cl : Nat) : State :=
  match s.podAt cl with
  | none => s
  | some p => if (s.pod p).full then s.recover else s.stopPod p

/-- The frame's bit in the cleared bitmap is clear: it has been rewritten since it last changed owner (15 R302). -/
def State.frameClean (s : State) (pa : Nat) : Bool := s.clean.contains (pa / 65536)

/-- A parity error in the uncommitted lines of context `c`: its open chunk squashes, the pending one too where `both`, an exclusive attempt
still holding the ticket; the sixteenth such attempt in a row is an error of the core (09 R183 steps 3 and 5, 17 R341). -/
def State.parityFall (s : State) (c : Nat) (both : Bool) : State :=
  let n := (s.ctx c).parityRuns + 1
  let t := s.squash c both 0
  if s.ticket ≠ some c then t
  else if 16 ≤ n then (t.dropTicket c).podError (clusterOf c)
  else (t.setCtx c { t.ctx c with parityRuns := n, status := .runnable }).setCore (coreOf c) ((t.core (coreOf c)).countSq 4)

def State.uncorrectable (s : State) (e : ErrLoc) : State :=
  match e with
  | .line pa =>
    if !s.frameClean pa then s
    else if s.fullOwner pa && s.ivals.undo.any (fun u => u.line = pa / 64 && u.interval = s.ivals.num) then s.recover
    else { s with poison := nput s.poison (pa / 64) }
  | .core n => s.podError (clusterOfCore n)
  | .spm cl _ => s.podError cl
  | .saved c => s.podError (clusterOf c)
  | .l1 c => if ((s.ctx c).chunk).isSome then s.parityFall c false else s
  | .reserve => s.covered.foldl State.stopPod s

def execUncorrectableError (e : ErrLoc) (s : State) : Host.Outcome State Fault Refusal := arrives s (s.uncorrectable e)

/-! ## Error history and scrubber (16 R337, R338) -/

/-- Entries of one stack's history. -/
def historyEntries : Nat := 4096

/-- The row to replace in a full history: the lowest count, the oldest last error among those. -/
def worstRow (l : List HistRow) : Option HistRow :=
  firstOf (fun a b => a.count < b.count || (a.count = b.count && a.last < b.last)) l

/-- Counts a corrected error of a row. -/
def countRow (l : List HistRow) (row now : Nat) : List HistRow :=
  if l.any (·.row = row) then l.map (fun r => if r.row = row then { r with count := r.count + 1, last := now } else r)
  else
    let l := if historyEntries ≤ l.length then (match worstRow l with | some w => l.erase w | none => l) else l
    l ++ [⟨row, 1, now, now⟩]

/-- Counts a corrected error in the history of a stack. -/
def State.countError (s : State) (stack row : Nat) : State :=
  { s with history := aput s.history stack (countRow (aget [] s.history stack) row s.refTime) }

/-- A corrected error is counted in the error history (16 R331, R338): one of HBM in its row; where the history, which has rows of stacks
alone, counts one that lies elsewhere is free (log 110). -/
def execCorrectableError (e : ErrLoc) (s : State) : Host.Outcome State Fault Refusal :=
  match e with
  | .line pa => .next (if s.frameClean pa then s.countError (homeStack pa) (Config.rowOf pa) else s)
  | _ => .next (s.countError (Config.errRow s.moment % 8) (Config.errRow s.moment / 8))

/-- A pass over a stack: it changes no value; the next is due after SCRUBH hours, as set when this one begins (18 R347). -/
def execScrubPass (stack : Nat) (s : State) : Host.Outcome State Fault Refusal :=
  if s.ready && aget 0 s.scrubs stack ≤ s.refTime && stack < 8 then
    .next { s with scrubs := aput s.scrubs stack (s.refTime + s.scrubh * 3600000000000) }
  else .next s

end Sys2Proof.Machine
end

