-- ==== Sys2Proof/Machine/Arbiter.lean ====
section
/-! DEFINITION. The arbiters' events: a commit, and the commit ticket (09 R183, R185, 17 R341). -/

namespace Sys2Proof.Machine

/-- The chunk of a context that waits for its grant: the pending one, else the open one if it has ended. -/
def Ctx.candidate (x : Ctx) : Option Chunk :=
  match x.pending, x.chunk with
  | some k, _ => some k
  | none, some k => if k.ended.isSome then some k else none
  | none, none => none

/-- An arbiter grants a chunk, or finds its lines in error; a context that waits to begin a boundary instruction tries again. -/
def execChunkCommit (c : Nat) (o : CommitObs) (s : State) : Host.Outcome State Fault Refusal :=
  match (s.ctx c).candidate with
  | some k =>
    if o.parity && !(k.writes.isEmpty && k.spm.isEmpty) then arrives s (s.parityFall c (s.ctx c).pending.isSome)
    else if s.grantable c k o.falseHits && (!s.harms (s.commitEnded c o.falseHits) || s.precedesHolder c k.det) then
      .next (s.commitEnded c o.falseHits)
    else .next s
  | none =>
    if (s.ctx c).status = .out .commit then .next (s.setCtx c { s.ctx c with status := .runnable }) else .next s

/-- The package arbiter gives the free ticket to the first context that asked, where that context lies in the cluster. -/
def execCommitTicket (cluster : Nat) (s : State) : Host.Outcome State Fault Refusal :=
  match s.ticket, s.ticketQueue with
  | none, c :: rest =>
    if clusterOf c = cluster && (s.ctx c).status = .out .ticket && ((s.ctx c).pending).isNone then
      let s1 : State := { s with ticket := some c, ticketQueue := rest }
      let s2 := s1.setCtx c { s1.ctx c with status := .runnable }
      happens s (s2.setCore (coreOf c) ((s2.core (coreOf c)).countSq 4))
    else .next s
  | _, _ => .next s

end Sys2Proof.Machine
end

