-- ==== Sys2Proof/Machine/Control.lean ====
section
/-! DEFINITION. Branches, calls and the return-address store, prefixes and fetch faults, software traps (02 R55–R62, 04 R92–R98,
R100). -/

namespace Sys2Proof.Machine

/-- An instruction that gives its next `PC` itself; the flag says that it accesses memory. -/
def performTo (s : State) (ops : List Opnd) (f : State → Except Stop (State × BitVec 48 × Bool)) : Host.Outcome State Fault Refusal :=
  let s := s.openChunk
  match f s with
  | .error e => settle s ops (.error e)
  | .ok (t, pc, out) =>
    let t := if t.ganged then t.gangStep (.go pc) else t
    .next (if out then (t.retireTo pc).outFor .operation else t.retireTo pc)

/-- The checks of a target (04 R92, 02 R44): the transfer's `PC`. -/
def checkTarget (t : Word) : Except Stop (BitVec 48) :=
  if t.toNat % 4 ≠ 0 then .error (.trap { code := Code.fetchAlign, w2 := t, w1 := some t })
  else if !localOk t then .error (.trap { code := Code.xlate, w2 := t, w1 := some t })
  else .ok (t.truncate 48)

/-- pc + sext(IMM30, 64) × 4 (04 R92). -/
def State.relative (s : State) (off : BitVec 30) : Word := zext s.me.p.pc + (sext off <<< 2)

/-- The address after a 64-bit instruction. -/
def State.pc8 (s : State) : BitVec 48 := s.me.p.pc + 8

/-! ## Branches (04 R92–R95) -/

/-- A conditional branch: a target not taken is not checked (04 R92, R93). -/
def branchRes (reads : List SReg) (c : State → Bool) (off : BitVec 30) (s : State) : Except Stop (State × BitVec 48 × Bool) :=
  if c s then (checkTarget (s.relative off)).map (fun t => (s.noteS reads, t, false))
  else .ok (s.noteS reads, s.pc8, false)

def branch2 (a b : SReg) (off : BitVec 30) (r : Word → Word → Bool) (s : State) : Host.Outcome State Fault Refusal :=
  performTo s [.none, .s a, .s b] (branchRes [a, b] (fun s => r (s.val a) (s.val b)) off)

def branch1 (a : SReg) (off : BitVec 30) (r : Word → Bool) (s : State) : Host.Outcome State Fault Refusal :=
  performTo s [.none, .s a] (branchRes [a] (fun s => r (s.val a)) off)

def execBEq (a b : SReg) (off : BitVec 30) (s : State) : Host.Outcome State Fault Refusal := branch2 a b off (fun x y => x = y) s
def execBNe (a b : SReg) (off : BitVec 30) (s : State) : Host.Outcome State Fault Refusal := branch2 a b off (fun x y => x ≠ y) s
def execBLt (a b : SReg) (off : BitVec 30) (s : State) : Host.Outcome State Fault Refusal :=
  branch2 a b off (fun x y => x.toInt < y.toInt) s
def execBGe (a b : SReg) (off : BitVec 30) (s : State) : Host.Outcome State Fault Refusal :=
  branch2 a b off (fun x y => y.toInt ≤ x.toInt) s
def execBLtu (a b : SReg) (off : BitVec 30) (s : State) : Host.Outcome State Fault Refusal :=
  branch2 a b off (fun x y => x.toNat < y.toNat) s
def execBGeu (a b : SReg) (off : BitVec 30) (s : State) : Host.Outcome State Fault Refusal :=
  branch2 a b off (fun x y => y.toNat ≤ x.toNat) s
def execBz (a : SReg) (off : BitVec 30) (s : State) : Host.Outcome State Fault Refusal := branch1 a off (fun x => x = 0) s
def execBnz (a : SReg) (off : BitVec 30) (s : State) : Host.Outcome State Fault Refusal := branch1 a off (fun x => x ≠ 0) s

def execBr (off : BitVec 30) (s : State) : Host.Outcome State Fault Refusal := performTo s [] (branchRes [] (fun _ => true) off)

def execJmp (a : SReg) (s : State) : Host.Outcome State Fault Refusal :=
  performTo s [.none, .s a] (fun s => (checkTarget (s.val a)).map (fun t => (s.noteS [a], t, false)))

def execNop (s : State) : Host.Outcome State Fault Refusal := perform s [] 8 (fun s => .ok s)

/-- 04 R95. -/
def loopRes (a : SReg) (off : BitVec 30) (s : State) : Except Stop (State × BitVec 48 × Bool) :=
  if s.val a ≠ 0 then (checkTarget (s.relative off)).map (fun t => ((s.noteS [a]).putS a (s.val a - 1), t, false))
  else .ok (s.noteS [a], s.pc8, false)

def execLoop (a : SReg) (off : BitVec 30) (s : State) : Host.Outcome State Fault Refusal :=
  performTo s [.none, .s a] (loopRes a off)

/-! ## Calls (04 R96, R97) -/

/-- Pushes a return address, spilling the oldest where the hardware entries are full; `rets` lists them newest first. -/
def State.pushRet (s : State) (r : BitVec 48) : Except Stop (State × Bool) :=
  let p := s.me.p
  if p.rets.length = 16 then
    match s.store (p.rsbase + word (8 * (p.retdepth - 16))) (leBytes 8 (p.rets.getD 15 0).toNat) with
    | .error e => .error e
    | .ok s => .ok (s.setP { s.me.p with rets := r :: s.me.p.rets.take 15, retdepth := s.me.p.retdepth + 1 }, true)
  else .ok (s.setP { p with rets := r :: p.rets, retdepth := p.retdepth + 1 }, false)

def callRes (reads : List SReg) (target : State → Word) (s : State) : Except Stop (State × BitVec 48 × Bool) :=
  if 1024 ≤ s.me.p.retdepth then
    .error (.trap { code := Code.callDepth, own := some [word s.me.p.retdepth, 0, 0, 0] })
  else do
    let t ← checkTarget (target s)
    let (s1, out) ← (s.noteS reads).pushRet s.pc8
    pure (s1, t, out)

def execCall (off : BitVec 30) (s : State) : Host.Outcome State Fault Refusal :=
  performTo s [] (callRes [] (fun s => s.relative off))

def execCalli (a : SReg) (s : State) : Host.Outcome State Fault Refusal :=
  performTo s [.none, .s a] (callRes [a] (fun s => s.val a))

/-- 04 R97. -/
def retRes (s : State) : Except Stop (State × BitVec 48 × Bool) :=
  let p := s.me.p
  if p.retdepth = 0 then .error (trapWith Code.retEmpty)
  else match p.rets with
    | t :: rest => do
      let t ← checkTarget (zext t)
      pure (s.setP { p with rets := rest, retdepth := p.retdepth - 1 }, t, false)
    | [] => do
      let (bs, s1) ← s.load (p.rsbase + word (8 * (p.retdepth - 1))) 8
      let t ← checkTarget (word (leNat bs))
      pure (s1.setP { s1.me.p with retdepth := p.retdepth - 1 }, t, true)

def execRet (s : State) : Host.Outcome State Fault Refusal := performTo s [] retRes

/-! ## Words of 32 bits and fetch faults (02 R55–R61) -/

/-- A fault of fetch: its code, with the address fetched in words 1 and 2 (01 R36, R37, 02 R61). -/
def fetchTrap (s : State) (code : Nat) : Host.Outcome State Fault Refusal :=
  settle s.openChunk [] (.error (.trap { code := code, w2 := zext s.me.p.pc, atFetch := true }))

/-- 02 R55. -/
def execStop (s : State) : Host.Outcome State Fault Refusal := fetchTrap s Code.runoff

def execPad (s : State) : Host.Outcome State Fault Refusal := perform s [] 4 (fun s => .ok s)

/-- The instruction at the `PC`, past the first `skip` words of what is fetched there. -/
def State.decoded (s : State) (skip : Nat) : Option Instr :=
  match s.xlateFetch (zext s.me.p.pc) with
  | .ok (.mem pa, t) => match decode ((t.codeWords pa).drop skip) with
    | .ok i => some i
    | .error _ => none
  | _ => none

/-- The instruction after the prefix at the `PC`, in the same fetch block (02 R60). -/
def State.prefixed (s : State) : Option Instr :=
  match s.decoded 1 with
  | some .stop | some .pad | some (.elementPrefix _) => none
  | r => r

/-- The operands that an ILLEGAL raised at an instruction reports: those of the instruction that stands there, none where no
instruction does (01 R36, log 51). -/
def State.illegalOpnds (s : State) (skip : Nat) : List Opnd :=
  match s.decoded skip with
  | some i => instrOpnds i
  | none => []

/-- An element prefix: latched for the instruction after it if the pair is well formed, and otherwise ILLEGAL at the prefix. It does
not retire by itself (02 R56–R59, 01 R17). -/
def execElementPrefix (p : Pfx) (s : State) : Host.Outcome State Fault Refusal :=
  let s := s.openChunk
  match p.ok, s.prefixed with
  | true, some i =>
    if i.accepts p then
      .next ((s.setP { s.me.p with tstat := { s.me.p.tstat with pp := true, pfx := .ofNat 32 p.word }, pc := s.me.p.pc + 4 }).setChunk
        { s.chunk with paired := true })
    else settle s (instrOpnds i) (.error (trapWith Code.illegal))
  | _, _ => settle s (s.illegalOpnds 1) (.error (trapWith Code.illegal))

/-- 02 R61. -/
def execFetchFault (f : FetchFault) (s : State) : Host.Outcome State Fault Refusal :=
  match f with
  | .runoff => fetchTrap s Code.runoff
  | .xlate => fetchTrap s Code.xlate
  | .perm => fetchTrap s Code.perm
  | .align => fetchTrap s Code.fetchAlign
  | .illegal => settle s.openChunk (s.illegalOpnds 0) (.error (trapWith Code.illegal))

/-- 04 R100. -/
def execTrap (imm : BitVec 30) (s : State) : Host.Outcome State Fault Refusal :=
  settle s.openChunk [] (.error (.trap { code := Code.soft, own := some [sext imm, 0, 0, 0] }))

end Sys2Proof.Machine
end

