-- ==== Sys2Proof/Machine/EngineIssue.lean ====
section
/-! DEFINITION. Queueing engine commands (10 R219, R222–R229). -/

namespace Sys2Proof.Machine

/-- The tail of an engine context as the executing context sees it, with the commands of its own uncommitted chunks. -/
def State.tailSeen (s : State) (e : Nat) : Nat :=
  let own (k : Option Chunk) : Nat := match k with
    | some k => (k.fx.filter (fun f => match f with | .queue n _ _ => n = e | _ => false)).length
    | none => 0
  (s.engine s.myCluster e).tail + own s.me.pending + own s.me.chunk

/-- Queues a command, or gives −1 where the store is full; `mk` reads the records the command names. -/
def queueRes (d : SReg) (reads : List SReg) (e : Nat) (mk : State → CmdKind × State) (s : State) : Res :=
  let cl := s.myCluster
  let x := s.engine cl e
  let det := s.chunk.det
  let slot := s.me.p.launchid.toNat
  let s1 := (s.noteS reads).note (.engine cl e :: (if det then [tlLoc cl e slot] else []))
  let s1 := s1.setChunk { s1.chunk with tails := nput s1.chunk.tails e }
  let tail := s.tailSeen e
  if Config.engineStore ≤ tail - (x.view det slot).count then .ok (s1.putS d 0xFFFFFFFFFFFFFFFF)
  else
    let r := mk s1
    .ok ((r.2.defer (.queue e r.1 s.me.p.cb)).putS d (word (tail + 1)))

def queueOp (d : SReg) (ops : List Opnd) (reads : List SReg) (e : Nat) (mk : State → CmdKind × State) (s : State) :
    Host.Outcome State Fault Refusal := performOut s ops 16 (queueRes d reads e mk)

/-- One dimension of a shape record (10 R223). -/
def dimOf (bs : List Byte) (n : Nat) : Dim :=
  let w (i : Nat) : Nat := leNat ((bs.drop (16 * n + 4 * i)).take 4)
  ⟨w 0, w 1, sextNat (w 2) 32, sextNat (w 3) 32⟩

/-- The dimensions in use, and whether those above are zero. -/
def dimsOf (bs : List Byte) (ndm : Nat) : List Dim × Bool :=
  ((List.range (ndm + 1)).map (dimOf bs), (bs.drop (16 * (ndm + 1))).all (· = 0))

/-- A follow-on record (10 R226). -/
def followOnOf (bs : List Byte) : FollowOn :=
  let b (i : Nat) : Nat := (bs.getD i 0).toNat
  ⟨(List.range 4).map (fun i => word (blockWord bs (8 * i))), leNat ((bs.drop 0x20).take 4), b 0x24, b 0x25, b 0x26, b 0x27, b 0x28,
    (bs.drop 0x29).all (· = 0)⟩

/-- A copy command with its shape record read at SHP, and its follow-on record where it has one. -/
def copyKind (a b : SReg) (f : CpyF) (shp : BitVec 32) (fo : Option (BitVec 32)) (s : State) : CmdKind × State :=
  let r := s.spLoad (zext shp) 128
  let x := dimsOf r.1 f.ndm.toNat
  match fo with
  | none => (.copy f (s.val a) (s.val b) x.1 x.2 none, r.2)
  | some at_ =>
    let q := r.2.spLoad (zext at_) 64
    (.copy f (s.val a) (s.val b) x.1 x.2 (some (followOnOf q.1)), q.2)

def execCpyQ (d a b : SReg) (f : CpyF) (shp : BitVec 32) (s : State) : Host.Outcome State Fault Refusal :=
  queueOp d [.s d, .s a, .s b] [a, b] f.e.toNat (copyKind a b f shp none) s

def execCpyFm (d a b : SReg) (f : CpyF) (shp fo : BitVec 32) (s : State) : Host.Outcome State Fault Refusal :=
  queueOp d [.s d, .s a, .s b] [a, b] f.e.toNat (copyKind a b f shp (some fo)) s

def execCpyQCfg (d a b : SReg) (cbn : BitVec 5) (e : BitVec 4) (s : State) : Host.Outcome State Fault Refusal :=
  queueOp d [.s d, .s a, .s b] [a, b] e.toNat (fun s => (.cfg cbn.toNat (s.me.p.spAddr (s.val a)) (s.val b), s)) s

def execCpyQClear (d : SReg) (e : BitVec 4) (s : State) : Host.Outcome State Fault Refusal :=
  queueOp d [.s d] [] e.toNat (fun s => (.clear, s)) s

def execRouteQ (d a b : SReg) (e : BitVec 4) (km1 : BitVec 3) (t : BitVec 16) (em1 : BitVec 12) (c : BitVec 16) (s : State) :
    Host.Outcome State Fault Refusal :=
  queueOp d [.s d, .s a, .s b] [a, b] e.toNat
    (fun s => (.route (s.val a) (s.val b) (km1.toNat + 1) t.toNat (em1.toNat + 1) c.toNat, s)) s

def execCollQ (d a b : SReg) (e : BitVec 4) (ck : CollKind) (bf16 : Bool) (g : BitVec 6) (n cid : BitVec 32) (s : State) :
    Host.Outcome State Fault Refusal :=
  queueOp d [.s d, .s a, .s b] [a, b] e.toNat (fun s => (.coll ck bf16 g.toNat n.toNat cid (s.val a) (s.val b), s)) s

end Sys2Proof.Machine
end

