-- ==== Sys2Proof/Machine/Link.lean ====
section
/-! DEFINITION. Flits received, and what fails on a link (18 R349, R350, 10 R205–R209, R229, 15 R310, 16 R334). -/

namespace Sys2Proof.Machine

/-! ## Link headers (18 R349) -/

/-- Retried flits up to an acknowledged sequence go. -/
def ackRetry (l : List (Nat × Nat × Flit)) (a : Nat) : List (Nat × Nat × Flit) :=
  if l.any (fun x => x.1 = a) then (l.dropWhile (fun x => x.1 ≠ a)).drop 1 else l

/-- The header's acknowledgement and credits. -/
def State.linkAck (s : State) (l : LinkHdr) : State :=
  let p := s.port l.port.val
  s.setPort l.port.val { p with retry := ackRetry p.retry l.ack.toNat, credits := p.credits + l.credits.toNat }

/-- The header's acknowledgement, credits and sequence. -/
def State.linkHeader (s : State) (l : LinkHdr) : State :=
  let t := s.linkAck l
  t.setPort l.port.val { t.port l.port.val with rxSeq := (l.lseq.toNat + 1) % 4096 }

/-- A flit is the next of its port, so that a replay keeps the order; any other has come before, or comes again after the replay (log 121). -/
def State.inSequence (s : State) (l : LinkHdr) : Bool := l.lseq.toNat = (s.port l.port.val).rxSeq

/-- A flit that is dropped and counted. -/
def State.dropFlit (s : State) : State := { s with dropped := s.dropped + 1 }

/-- A flit in sequence: one for another chip is dropped and counted, one for this chip does `f`. -/
def flit (l : LinkHdr) (s : State) (f : State → State) : Host.Outcome State Fault Refusal :=
  if !s.inSequence l then .next s
  else if l.dst.toNat ≠ s.chipNum then .next (s.linkHeader l).dropFlit
  else arrives s (f (s.linkHeader l))

/-- An idle flit carries credits and an acknowledgement, and takes no sequence (log 121). -/
def execFlitIdle (l : LinkHdr) (s : State) : Host.Outcome State Fault Refusal :=
  if l.dst.toNat ≠ s.chipNum then .next s.dropFlit else arrives s (s.linkAck l)

/-! ## Operations of other chips -/

/-- A wrapping counter of a link port counts one more; its width is not given (18 R348; log 93). -/
def linkCount (n : Nat) : Nat := (n + 1) % 2 ^ (Config.counterBits % 64 + 1)

/-- Counts a discarded duplicate at its port (16 R334, 18 R348). -/
def State.countDup (s : State) (port : Nat) : State := s.setPort port { s.port port with dups := linkCount (s.port port).dups }

/-- An operation reaches its agent, or is a duplicate of one already performed. -/
def State.inboundOp (s : State) (l : LinkHdr) (o : OpHdr) (kind : RemoteKind) : State :=
  match s.acceptSeq l.src.toNat o.srcCtx.toNat o.tgtCore.toNat o.interval.toNat o.seq.toNat with
  | none => s.countDup l.port.val
  | some s => s.toAgent o.tgtCore.toNat { srcChip := l.src.toNat, srcCtx := o.srcCtx.toNat, rid := o.rid.toNat, tenant := o.tenant,
                                          addr := o.addr, kind := kind, interval := o.interval.toNat, seq := o.seq.toNat }

def execFlitRld (l : LinkHdr) (o : OpHdr) (s : State) : Host.Outcome State Fault Refusal := flit l s (fun s => s.inboundOp l o .rld)
def execFlitRst (l : LinkHdr) (o : OpHdr) (v : Word) (s : State) : Host.Outcome State Fault Refusal :=
  flit l s (fun s => s.inboundOp l o (.rst v))
def execFlitAm (l : LinkHdr) (o : OpHdr) (body : List Word) (s : State) : Host.Outcome State Fault Refusal :=
  flit l s (fun s => s.inboundOp l o (.am body))
def execFlitFe (l : LinkHdr) (o : OpHdr) (op : FeOp) (v : Word) (s : State) : Host.Outcome State Fault Refusal :=
  flit l s (fun s => s.inboundOp l o (.fe op v))

/-- A fence probe: its echo goes out once the posted operations it counts are performed. -/
def execFlitProbe (l : LinkHdr) (o : OpHdr) (posted : BitVec 32) (s : State) : Host.Outcome State Fault Refusal :=
  flit l s (fun s => State.sendEchoes { s with echoes := s.echoes ++ [⟨l.src.toNat, o.srcCtx.toNat, o.rid.toNat, o.tenant, posted.toNat⟩] })

/-! ## Answers to operations of this chip -/

/-- The engine run that waits for a request. -/
def State.runOfRid (s : State) (rid : Nat) : Option (Nat × Nat × Run × Word) :=
  s.clusters.findSome? (fun k => k.2.engines.findSome? (fun e => match e.2.run with
    | some r => match r.request with
      | some (n, g, _) => if n = rid then some (k.1, e.1, r, g) else none
      | none => none
    | none => none))

/-- The engine run that posted a write. -/
def State.runOfPost (s : State) (rid : Nat) : Option (Nat × Nat × Run) :=
  s.clusters.findSome? (fun k => k.2.engines.findSome? (fun e => match e.2.run with
    | some r => if r.rids.contains rid then some (k.1, e.1, r) else none
    | none => none))

/-- A reply to a context or an engine. -/
def State.reply? (s : State) (rid : Nat) (v : Word) : State :=
  match s.lateAnswer rid (.value v), s.runOfRid rid with
  | some t, _ => t
  | none, some (cl, e, r, g) => s.answerRun cl e r g v
  | none, none => s.answer rid (.value v)

def execFlitReply (l : LinkHdr) (o : OpHdr) (v : Word) (s : State) : Host.Outcome State Fault Refusal :=
  flit l s (fun s => s.reply? o.rid.toNat v)

/-- Posted operations are no longer outstanding. -/
def Ctx.settle (x : Ctx) (us : List (Nat × Word)) : Ctx := { x with unacked := x.unacked.filter (fun u => !us.contains u) }

/-- The posted operations that `pick` finds outstanding in contexts, resident or in saved images, are refused: they enter the refusal
records (10 R207), each in the part of operations to other chips. -/
def State.refuseWhere (s : State) (pick : Ctx → List (Nat × Word)) : State :=
  let s := (s.ctxs.map (·.1)).foldl (fun s c =>
    let us := pick (s.ctx c)
    us.foldl (fun s u => s.enterRefusal c u.2) (if us.isEmpty then s else s.setCtx c ((s.ctx c).settle us))) s
  let put (x : Ctx) : Ctx := (pick x).foldl (fun y u => y.mapPriv (fun p => p.enterRefusal 4 u.2)) (x.settle (pick x))
  let saved (p : Pod) : Pod := match p.saved with
    | some m => { p with
        saved := some { m with ctxs := m.ctxs.map (fun x => (x.1, put x.2)) },
        log := if p.full && p.replay.isNone then p.log ++
            m.ctxs.flatMap (fun x => (pick x.2).map (fun u => .refusal (absNum p.clusters 128 x.1) u.2)) else p.log }
    | none => p
  { s with pods := s.pods.map (fun p => (p.1, saved p.2)) }

/-- Changes the engine contexts of every saved image. -/
def State.savedEngines (s : State) (f : Engine → Engine) : State :=
  { s with pods := s.pods.map (fun p => (p.1, { p.2 with saved := p.2.saved.map (fun m => m.mapEngines f) })) }

/-- A refusal: of a request it answers the requester, of an engine's request or write it fails the command, of a posted operation that is
outstanding it enters the refusal record (10 R207). -/
def State.refused (s : State) (rid cause : Nat) (g : Word) : State :=
  match s.lateAnswer rid (.refused cause) with
  | some t => t
  | none => match s.runOfRid rid, s.runOfPost rid with
  | some (cl, e, r, g), _ => s.refuseRun cl e r (.refused (engSrc cl e) cause g) g
  | none, some (cl, e, r) => s.refuseRun cl e r (.refusal (engSrc cl e) g) g
  | none, none =>
    ((s.answer rid (.refused cause)).refuseWhere (fun x => x.unacked.filter (·.1 = rid))).savedEngines (fun e => match e.run with
      | some r => if r.rids.contains rid then e.fail r EngErr.remote g else e
      | none => e)

def execFlitRefuse (l : LinkHdr) (o : OpHdr) (cause : Nat) (s : State) : Host.Outcome State Fault Refusal :=
  flit l s (fun s => s.refused o.rid.toNat cause o.addr)

/-- The context waits for the echoes of a fence's probes. -/
def Ctx.probes (x : Ctx) (rid : Nat) : Bool := match x.request with | some r => r.fence && r.rid = rid | none => false

/-- The operations that a context has posted to some chips and no echo has covered. -/
def Ctx.uncovered (x : Ctx) (chips : List Nat) : List (Nat × Word) := x.unacked.filter (fun u => chips.contains (globOf u.2).chip)

/-- An echo of a chip: what the fence's context posted there is performed or refused. -/
def Ctx.echoed (x : Ctx) (rid chip : Nat) : Ctx :=
  if x.probes rid then { x.settle (x.uncovered [chip]) with acks := x.acks.erase chip } else x

def State.echoed (s : State) (rid chip : Nat) : State := s.everyCtx (fun x => x.echoed rid chip)

def execFlitEcho (l : LinkHdr) (o : OpHdr) (_posted : BitVec 32) (s : State) : Host.Outcome State Fault Refusal :=
  flit l s (fun s => s.echoed o.rid.toNat l.src.toNat)

/-! ## Collectives, aborts, notices -/

/-- Virtual devices whose group has a chip and this one as members. -/
def State.groupVfs (s : State) (grp chip : Nat) : List Nat :=
  (s.vfs.filter (fun v => (v.2.members grp).contains chip && (v.2.members grp).contains s.chipNum)).map (·.1)

/-- Collective data arrive, and FULL pods of the group record them (16 R329). -/
def State.collArrives (s : State) (l : LinkHdr) (m : CollMsg) : State :=
  match s.acceptSeq l.src.toNat (0x10000 + m.engine.toNat) s.chipNum m.interval.toNat m.seq.toNat with
  | none => s.countDup l.port.val
  | some s =>
    let vs := s.groupVfs m.grp.toNat l.src.toNat
    let rec_ (p : Pod) : Pod := if p.full && p.replay.isNone && vs.contains p.vf then { p with log := p.log ++ [.coll m] } else p
    { s with colls := s.colls ++ [m], pods := s.pods.map (fun p => (p.1, rec_ p.2)) }

/-- A collective command with an id and group. -/
def Cmd.isColl (c : Cmd) (cid : BitVec 32) (grp : Nat) : Bool :=
  match c.kind with
  | .coll _ _ g _ i _ _ => i = cid && g = grp
  | _ => false

/-- The commands of an engine context. -/
def Engine.cmds (e : Engine) : List Cmd := (e.run.map (·.cmd)).toList ++ e.store

/-- Flits of 256 bytes that 64 KiB hold (18 R349). -/
def parkedFlits : Nat := 256

/-- The flits parked for an engine context of a pod that is out fill their 64 KiB: the link holds back what follows of its collective (16
R319). -/
def State.collFull (s : State) (m : CollMsg) : Bool :=
  let full (e : Engine) : Bool := e.cmds.any (fun c => c.isColl m.cid m.grp.toNat) &&
    parkedFlits ≤ (s.colls.filter (fun x => e.cmds.any (fun c => c.isColl x.cid x.grp.toNat))).length
  s.pods.any (fun p => (p.2.saved.map (fun i => i.clusters.any (fun k => k.2.engines.any (fun e => full e.2)))).getD false)

def execFlitColl (l : LinkHdr) (m : CollMsg) (s : State) : Host.Outcome State Fault Refusal :=
  if l.dst.toNat = s.chipNum && s.collFull m then .next s else flit l s (fun s => s.collArrives l m)

/-- A queued command with the id and group will end with ABORTED at its turn. -/
def Engine.abortQueued (e : Engine) (cid : BitVec 32) (grp : Nat) : Engine :=
  { e with store := e.store.map (fun c => if c.isColl cid grp then { c with aborted := true } else c) }

/-- An abort reaches an engine context: the command being performed fails at once (15 R310 step 3). -/
def State.abortEngine (s : State) (cl e : Nat) (cid : BitVec 32) (grp : Nat) : State :=
  let s := s.setEngine cl e ((s.engine cl e).abortQueued cid grp)
  match (s.engine cl e).run with
  | some r => if r.cmd.isColl cid grp then s.failCmd cl e r EngErr.aborted 0 else s
  | none => s

/-- An engine context of a saved pod: the same, with the failure recorded in its saved state. -/
def Engine.abortSaved (e : Engine) (cid : BitVec 32) (grp : Nat) : Engine :=
  let e := e.abortQueued cid grp
  match e.run with
  | some r =>
    if r.cmd.isColl cid grp then e.fail r EngErr.aborted 0 else e
  | none => e

/-- Commands of virtual devices `vs` with an id and group that have not completed fail with ABORTED. -/
def State.abortColl (s : State) (vs : List Nat) (cid : BitVec 32) (grp : Nat) : State :=
  s.pods.foldl (fun s p =>
    if !vs.contains p.2.vf then s
    else if p.2.resident then
      p.2.clusters.foldl (fun s cl => ((s.cluster cl).engines.map (·.1)).foldl (fun s e => s.abortEngine cl e cid grp) s) s
    else
      s.setPod p.1 { p.2 with saved := p.2.saved.map (fun m => m.mapEngines (fun e => e.abortSaved cid grp)) }) s

def execFlitAbort (l : LinkHdr) (cid : BitVec 32) (grp : Nat) (s : State) : Host.Outcome State Fault Refusal :=
  flit l s (fun s => s.abortColl (s.groupVfs grp l.src.toNat) cid grp)

/-- The high-water marks of a chip's intervals up to the announced one go (16 R334). -/
def execFlitNotice (l : LinkHdr) (interval : BitVec 32) (s : State) : Host.Outcome State Fault Refusal :=
  flit l s (fun s => { s with marks := s.marks.filter (fun m => !(m.1.1 = l.src.toNat && m.1.2.2.2 ≤ interval.toNat)) })

/-! ## Errors of the link -/

/-- A flit whose TYPE is none of the table, 0x0C and above, is dropped and counted (18 R350); the event is no flit of a TYPE below. -/
def execReservedTypeFlit (l : LinkHdr) (ty : BitVec 8) (s : State) : Host.Outcome State Fault Refusal :=
  if ty.toNat < 0x0C || !s.inSequence l then .next s else .next (s.linkHeader l).dropFlit

/-- A flit that fails its CRC is replayed, and counted; one that FEC corrects is counted and arrives. -/
def execFlitCrcFailure (l : LinkHdr) (fixed : Bool) (s : State) : Host.Outcome State Fault Refusal :=
  let p := s.port l.port.val
  .next (s.setPort l.port.val (if fixed then { p with fec := linkCount p.fec } else { p with replays := linkCount p.replays }))

/-- Every context, resident or in a saved image, with its pod and its present number. -/
def State.allCtxs (s : State) : List (Option Nat × Nat × Ctx) :=
  s.ctxs.map (fun x => (s.podOf x.1, x.1, x.2)) ++
  s.pods.flatMap (fun p => match p.2.saved with
    | some m => m.ctxs.map (fun x => (some p.1, absNum p.2.clusters 128 x.1, x.2))
    | none => [])

/-- The records of a re-run hold an answer for context `c`. -/
def State.recorded (s : State) (pid : Option Nat) (c : Nat) : Bool :=
  match pid with
  | some p => (s.pod p).records.any (·.answers c)
  | none => false

/-- A request without answer for 200 µs is refused, one that has its answer is not; a fence's missing echoes refuse what they would have
covered. In a replay the records answer. -/
def State.timeOut (s : State) (rid : Nat) : State :=
  match s.runOfRid rid with
  | some (cl, e, r, g) => match r.request with
    | some (_, _, t) =>
      if t + 200000 ≤ s.refTime && (s.engAnswers cl e).isEmpty then s.refuseRun cl e r (.refused (engSrc cl e) 5 g) g else s
    | none => s
  | none =>
    match s.allCtxs.find? (fun x => match x.2.2.request with | some r => r.rid = rid | none => false) with
    | none => s
    | some (pid, c, x) => match x.request with
      | none => s
      | some r =>
        if s.refTime < r.sent + 200000 then s
        else if r.fence then
          let t := s.refuseWhere (fun y => if y.probes rid then y.uncovered x.acks else [])
          t.everyCtx (fun y => if y.probes rid then { y with acks := [] } else y)
        else if r.chip = s.chipNum || x.answer.isSome || s.recorded pid c then s
        else s.answer rid (.refused 5)

def execLinkTimeout (rid : Nat) (s : State) : Host.Outcome State Fault Refusal := happens s (s.timeOut rid)

/-- A flit in flight on a failed port is lost: a request or posted operation counts as refused, a probe leaves its chip unanswered,
and a collective fails with REMOTE (log 36). -/
def State.loseFlit (s : State) (dst : Nat) (f : Flit) : State :=
  match f with
  | .rld o | .rst o _ | .am o _ | .fe o _ _ => s.refused o.rid.toNat 5 o.addr
  | .probe o _ => (s.refuseWhere (fun x => if x.probes o.rid.toNat then x.uncovered [dst] else [])).echoed o.rid.toNat dst
  | .coll m =>
    let cl := m.engine.toNat / 16
    let e := m.engine.toNat % 16
    match (s.engine cl e).run with
    | some r => if r.cmd.isColl m.cid m.grp.toNat then s.refuseRun cl e r (.refusal (engSrc cl e) 0) 0 else s
    | none => s
  | .reply .. | .refuse .. | .echo .. | .abort .. | .notice _ => s

def execLinkPortFailure (port : Nat) (s : State) : Host.Outcome State Fault Refusal :=
  let p := s.port port
  if p.failed || 12 ≤ port then .next s
  else
    let s1 := s.setPort port { p with failed := true, retry := [] }
    arrives s (p.retry.foldl (fun s x => s.loseFlit x.2.1 x.2.2) s1)

end Sys2Proof.Machine
end

