-- ==== Sys2Proof/Machine/Crypto.lean ====
section
/-! DEFINITION. The digest and the authenticated cipher that the spec names: SHA-384 (03 R75, 15 R299) and AES-256-GCM (15 R288), as
their standards FIPS 180-4, FIPS 197 and SP 800-38D define them (log 106). -/

namespace Sys2Proof.Machine

/-- Big-endian value of a byte sequence. -/
def beNat (bs : List Byte) : Nat := bs.foldl (fun n b => n * 256 + b.toNat) 0

/-- Big-endian bytes. -/
def beBytes (n v : Nat) : List Byte := (leBytes n v).reverse

/-! ## SHA-384 (FIPS 180-4) -/

/-- Constants of rounds 0 to 19. -/
def shaK0 : List Nat :=
  [ 0x428A2F98D728AE22, 0x7137449123EF65CD, 0xB5C0FBCFEC4D3B2F, 0xE9B5DBA58189DBBC,
    0x3956C25BF348B538, 0x59F111F1B605D019, 0x923F82A4AF194F9B, 0xAB1C5ED5DA6D8118,
    0xD807AA98A3030242, 0x12835B0145706FBE, 0x243185BE4EE4B28C, 0x550C7DC3D5FFB4E2,
    0x72BE5D74F27B896F, 0x80DEB1FE3B1696B1, 0x9BDC06A725C71235, 0xC19BF174CF692694,
    0xE49B69C19EF14AD2, 0xEFBE4786384F25E3, 0x0FC19DC68B8CD5B5, 0x240CA1CC77AC9C65 ]

/-- Constants of rounds 20 to 39. -/
def shaK1 : List Nat :=
  [ 0x2DE92C6F592B0275, 0x4A7484AA6EA6E483, 0x5CB0A9DCBD41FBD4, 0x76F988DA831153B5,
    0x983E5152EE66DFAB, 0xA831C66D2DB43210, 0xB00327C898FB213F, 0xBF597FC7BEEF0EE4,
    0xC6E00BF33DA88FC2, 0xD5A79147930AA725, 0x06CA6351E003826F, 0x142929670A0E6E70,
    0x27B70A8546D22FFC, 0x2E1B21385C26C926, 0x4D2C6DFC5AC42AED, 0x53380D139D95B3DF,
    0x650A73548BAF63DE, 0x766A0ABB3C77B2A8, 0x81C2C92E47EDAEE6, 0x92722C851482353B ]

/-- Constants of rounds 40 to 59. -/
def shaK2 : List Nat :=
  [ 0xA2BFE8A14CF10364, 0xA81A664BBC423001, 0xC24B8B70D0F89791, 0xC76C51A30654BE30,
    0xD192E819D6EF5218, 0xD69906245565A910, 0xF40E35855771202A, 0x106AA07032BBD1B8,
    0x19A4C116B8D2D0C8, 0x1E376C085141AB53, 0x2748774CDF8EEB99, 0x34B0BCB5E19B48A8,
    0x391C0CB3C5C95A63, 0x4ED8AA4AE3418ACB, 0x5B9CCA4F7763E373, 0x682E6FF3D6B2B8A3,
    0x748F82EE5DEFB2FC, 0x78A5636F43172F60, 0x84C87814A1F0AB72, 0x8CC702081A6439EC ]

/-- Constants of rounds 60 to 79. -/
def shaK3 : List Nat :=
  [ 0x90BEFFFA23631E28, 0xA4506CEBDE82BDE9, 0xBEF9A3F7B2C67915, 0xC67178F2E372532B,
    0xCA273ECEEA26619C, 0xD186B8C721C0C207, 0xEADA7DD6CDE0EB1E, 0xF57D4F7FEE6ED178,
    0x06F067AA72176FBA, 0x0A637DC5A2C898A6, 0x113F9804BEF90DAE, 0x1B710B35131C471B,
    0x28DB77F523047D84, 0x32CAAB7B40C72493, 0x3C9EBE0A15C9BEBC, 0x431D67C49C100D4C,
    0x4CC5D4BECB3E42B6, 0x597F299CFC657E2A, 0x5FCB6FAB3AD6FAEC, 0x6C44198C4A475817 ]

/-- Round constants. -/
def shaK : List Nat := shaK0 ++ shaK1 ++ shaK2 ++ shaK3

/-- The initial hash value of SHA-384. -/
def sha384Init : List Nat :=
  [ 0xCBBB9D5DC1059ED8, 0x629A292A367CD507, 0x9159015A3070DD17, 0x152FECD8F70E5939,
    0x67332667FFC00B31, 0x8EB44A8768581511, 0xDB0C2E0D64F98FA7, 0x47B5481DBEFA4FA4 ]

/-- Rotation of a 64-bit word to the right. -/
def rotr (x k : Nat) : Nat := (x >>> k ||| x <<< (64 - k)) % 2 ^ 64

/-- The message schedule: `n` words from a window of sixteen. -/
def shaWords : Nat → List Nat → List Nat
  | 0, _ => []
  | n + 1, w =>
    let a := w.getD 1 0
    let b := w.getD 14 0
    let s0 := rotr a 1 ^^^ rotr a 8 ^^^ a >>> 7
    let s1 := rotr b 19 ^^^ rotr b 61 ^^^ b >>> 6
    w.getD 0 0 :: shaWords n (w.drop 1 ++ [(w.getD 0 0 + s0 + w.getD 9 0 + s1) % 2 ^ 64])

/-- One round on the eight working variables, with the round's constant and word. -/
def shaRound (v : List Nat) (kw : Nat × Nat) : List Nat :=
  match v with
  | [a, b, c, d, e, f, g, h] =>
    let s1 := rotr e 14 ^^^ rotr e 18 ^^^ rotr e 41
    let ch := (e &&& f) ^^^ ((e ^^^ (2 ^ 64 - 1)) &&& g)
    let t1 := h + s1 + ch + kw.1 + kw.2
    let s0 := rotr a 28 ^^^ rotr a 34 ^^^ rotr a 39
    let maj := (a &&& b) ^^^ (a &&& c) ^^^ (b &&& c)
    [(t1 + s0 + maj) % 2 ^ 64, a, b, c, (d + t1) % 2 ^ 64, e, f, g]
  | v => v

/-- One block of 128 bytes. -/
def shaBlock (h : List Nat) (block : List Byte) : List Nat :=
  let w := (List.range 16).map (fun i => beNat ((block.drop (8 * i)).take 8))
  let v := (shaK.zip (shaWords 80 w)).foldl shaRound h
  h.zipWith (fun a b => (a + b) % 2 ^ 64) v

/-- The padded message. -/
def shaPad (bs : List Byte) : List Byte :=
  bs ++ 0x80 :: List.replicate ((111 + 128 - bs.length % 128) % 128) 0 ++ beBytes 16 (8 * bs.length)

/-- Blocks of `n` bytes, the last one as it is. -/
def blocks (n : Nat) (bs : List Byte) : List (List Byte) := (List.range ((bs.length + n - 1) / n)).map (fun i => (bs.drop (n * i)).take n)

/-- The SHA-384 digest. -/
def sha384 (bs : List Byte) : List Byte := (((blocks 128 (shaPad bs)).foldl shaBlock sha384Init).take 6).flatMap (beBytes 8)

/-! ## AES-256 (FIPS 197) -/

/-- The S-box, byte i at bits [8i+7:8i]. -/
def aesBox : Nat :=
  0x16BB54B00F2D99416842E6BF0D89A18CDF2855CEE9871E9B948ED9691198F8E19E1DC186B95735610EF6034866B53E708A8BBD4B1F74DDE8C6B4A61C2E2578BA08AE7A65EAF4566CA94ED58D6D37C8E779E4959162ACD3C25C2406490A3A32E0DB0B5EDE14B8EE4688902A22DC4F816073195D643D7EA7C41744975FEC130CCDD2F3FF1021DAB6BCF5389D928F40A351A89F3C507F02F94585334D43FBAAEFD0CF584C4A39BECB6A5BB1FC20ED00D153842FE329B3D63B52A05A6E1B1A2C830975B227EBE28012079A059618C323C7041531D871F1E5A534CCF73F362693FDB7C072A49CAFA2D4ADF04759FA7DC982CA76ABD7FE2B670130C56F6BF27B777C63

def aesSub (x : Nat) : Nat := aesBox >>> (8 * x) % 256

/-- Bytes as one number, the first one highest. -/
def packed (l : List Nat) : Nat := l.foldl (fun n b => n * 256 + b) 0

/-- Byte `i` of a block of 16. -/
def blockByte (s i : Nat) : Nat := s >>> (8 * (15 - i)) % 256

/-- The number whose four words of 32 bits are 1. -/
def everyWord : Nat := 0x00000001000000010000000100000001

/-- Multiplication of each byte by x in the field of AES. -/
def aesDouble (s : Nat) : Nat := (s &&& 0x7F7F7F7F * everyWord) <<< 1 ^^^ (s >>> 7 &&& 0x01010101 * everyWord) * 0x1B

/-- Each column with byte i + `k` of it in place of byte i. -/
def aesRotate (s k : Nat) : Nat :=
  (s <<< (8 * k) &&& (2 ^ 32 - 2 ^ (8 * k)) * everyWord) ||| (s >>> (32 - 8 * k) &&& (2 ^ (8 * k) - 1) * everyWord)

/-- SubWord on a word of 32 bits. -/
def aesSubWord (w : Nat) : Nat := packed ((List.range 4).map (fun i => aesSub (w >>> (8 * (3 - i)) % 256)))

/-- The key schedule: `n` more words, after `i` words of which `w` are the last eight, with the round constant `rcon`. -/
def aesKeys : Nat → Nat → Nat → List Nat → List Nat
  | 0, _, _, _ => []
  | n + 1, i, rcon, w =>
    let last := w.getD 7 0
    let t :=
      if i % 8 = 0 then aesSubWord ((last <<< 8 ||| last >>> 24) % 2 ^ 32) ^^^ rcon <<< 24
      else if i % 8 = 4 then aesSubWord last
      else last
    let x := w.getD 0 0 ^^^ t
    x :: aesKeys n (i + 1) (if i % 8 = 0 then 2 * rcon else rcon) (w.drop 1 ++ [x])

/-- The fifteen round keys of a key of 32 bytes. -/
def aesRounds (key : List Byte) : List Nat :=
  let k := (List.range 8).map (fun i => beNat ((key.drop (4 * i)).take 4))
  let w := k ++ aesKeys 52 8 1 k
  (List.range 15).map (fun r => ((w.drop (4 * r)).take 4).foldl (fun n x => n * 2 ^ 32 + x) 0)

/-- SubBytes and ShiftRows on a state, a block of 16 bytes in column order. -/
def aesShift (s : Nat) : Nat := packed ((List.range 16).map (fun i => aesSub (blockByte s ((i + 4 * (i % 4)) % 16))))

/-- MixColumns. -/
def aesMix (s : Nat) : Nat := aesDouble s ^^^ aesRotate (aesDouble s ^^^ s) 1 ^^^ aesRotate s 2 ^^^ aesRotate s 3

/-- The cipher on one block, as a big-endian number, with its round keys. -/
def aesBlock (rounds : List Nat) (x : Nat) : Nat :=
  let s := ((rounds.drop 1).take 13).foldl (fun s k => aesMix (aesShift s) ^^^ k) (x ^^^ rounds.getD 0 0)
  aesShift s ^^^ rounds.getD 14 0

/-! ## GCM (SP 800-38D) -/

/-- The product in the field of GCM: `n` bits of `x` are left, `v` is `y` shifted so far. -/
def gcmMul : Nat → Nat → Nat → Nat → Nat
  | 0, _, _, z => z
  | n + 1, x, v, z =>
    gcmMul n x (if v % 2 = 1 then v >>> 1 ^^^ 0xE1 <<< 120 else v >>> 1) (if x.testBit n then z ^^^ v else z)

/-- A string as blocks of 16 bytes, zeros after its end. -/
def gcmBlocks (bs : List Byte) : List Nat := (blocks 16 bs).map (fun b => beNat b * 256 ^ (16 - b.length))

/-- GHASH over blocks. -/
def ghash (h : Nat) (l : List Nat) : Nat := l.foldl (fun y x => gcmMul 128 (y ^^^ x) h 0) 0

/-- The tag of a ciphertext with a nonce of 12 bytes. -/
def gcmTag (rounds : List Nat) (nonce aad ct : List Byte) : List Byte :=
  let lens := 8 * aad.length * 2 ^ 64 + 8 * ct.length
  beBytes 16 (ghash (aesBlock rounds 0) (gcmBlocks aad ++ gcmBlocks ct ++ [lens]) ^^^ aesBlock rounds (beNat nonce * 2 ^ 32 + 1))

/-- Encryption and decryption by the counter. -/
def gcmCrypt (rounds : List Nat) (nonce bs : List Byte) : List Byte :=
  ((blocks 16 bs).zip (List.range ((bs.length + 15) / 16))).flatMap (fun b =>
    b.1.zipWith (· ^^^ ·) (beBytes 16 (aesBlock rounds (beNat nonce * 2 ^ 32 + b.2 + 2))))

/-- The plaintext of a sealed message, where its tag holds. -/
def gcmOpen (key nonce aad ct tag : List Byte) : Option (List Byte) :=
  let r := aesRounds key
  if gcmTag r nonce aad ct = tag then some (gcmCrypt r nonce ct) else none

/-- A sealed message: the ciphertext and its tag. -/
def gcmSeal (key nonce aad plain : List Byte) : List Byte :=
  let r := aesRounds key
  let ct := gcmCrypt r nonce plain
  ct ++ gcmTag r nonce aad ct

end Sys2Proof.Machine
end

