-- ==== Sys2Proof/Machine/Host.lean ====
section
/-! DEFINITION. What the Husk reads: policies, tenant blocks, range tables, windows and images (03 R75–R80, 09 R194, 15 R286–R295), and
how it takes a command. -/

namespace Sys2Proof.Machine

/-! ## Result codes (15 R286) -/

namespace HRes
def ok : Int := 0
def malformed : Int := -1
def handle : Int := -2
def policy : Int := -3
def state : Int := -4
def resource : Int := -5
def image : Int := -6
def integrity : Int := -7
def source : Int := -8
end HRes

/-- A field of a little-endian block. -/
def field (bs : List Byte) (off n : Nat) : Nat := leNat ((bs.drop off).take n)

/-- Bytes of a block are zero. -/
def zeros (bs : List Byte) (off n : Nat) : Bool := ((bs.drop off).take n).all (· = 0)

/-! ## Policies (15 R289) -/

def policyBytes : Nat := 9056

/-- Member map of group g. -/
def policyGroup (bs : List Byte) (g : Nat) : Nat := field bs (0x50 + 24 * g) 24

/-- The bytes of a policy that are signed and measured (15 R289, R299). -/
def policySigned (bs : List Byte) : List Byte := bs.take 0x10E0

/-- Both signatures of a policy verify under the keys it carries. -/
def policySigs (bs : List Byte) : Bool :=
  Config.mldsaVerify ((bs.drop 0x650).take 2592) (policySigned bs) ((bs.drop 0x10E0).take 4627) &&
  Config.ecdsaVerify ((bs.drop 0x1070).take 97) (sha384 (policySigned bs)) ((bs.drop 0x2300).take 96)

/-- The policy of a block whose every field is in range and every reserved byte zero, for a package with chip number `chip`. -/
def policyOf (bs : List Byte) (chip : Nat) : Option Policy :=
  let f := field bs
  let ngrp := f 0x1E 1
  let smin := f 0x20 4
  let smax := f 0x24 4
  let qmin := f 0x28 2
  let qmax := f 0x2A 2
  let recov := f 0x1B 1
  let good := bs.length = policyBytes && f 0 4 = 0x4C505947 && f 4 2 = 1 && zeros bs 6 2 && 1 ≤ f 0x18 1 && f 0x18 1 ≤ 24 &&
    1 ≤ f 0x19 1 && f 0x19 1 ≤ 128 && f 0x1A 1 ≤ 1 && 1 ≤ recov && recov ≤ 3 && f 0x1C 1 ≤ 1 && 1 ≤ f 0x1D 1 && ngrp ≤ 64 &&
    zeros bs 0x1F 1 && 100 ≤ smin && smin ≤ 1000000 && smin ≤ smax && smax ≤ 1000000 && qmin ≤ 2048 && qmin ≤ qmax && qmax ≤ 2048 &&
    1 ≤ f 0x2C 4 && f 0x2C 4 ≤ 372 && zeros bs 0x48 8 && f 0x1070 1 = 4 && zeros bs 0x10D1 15 && zeros bs 0x22F3 13 &&
    (List.range 64).all (fun g => if g < ngrp then (policyGroup bs g).testBit chip else policyGroup bs g = 0)
  if good then
    some { tenant := .ofNat 128 (f 8 16), podMax := f 0x18 1, clMax := f 0x19 1, fence := f 0x1A 1 = 1, reportOk := recov % 2 = 1,
           fullOk := 2 ≤ recov, detReq := f 0x1C 1 = 1, powShare := f 0x1D 1, groups := (List.range ngrp).map (policyGroup bs),
           sliceMin := smin, sliceMax := smax, quotaMin := qmin, quotaMax := qmax, memGib := f 0x2C 4, peers := f 0x30 24, digest := sha384 (policySigned bs) }
  else none

/-! ## The block of `ALLOC_POD` (09 R194, 15 R293) -/

/-- One entry of a range table; none where it breaks 09 R194, `some none` where it is unused. What BASE, OPR and RFMT of an unused entry
hold counts for nothing (log 105). -/
def rangeOf (bs : List Byte) (i : Nat) : Option (Option RedRange) :=
  let base := field bs (16 * i) 8
  let w := field bs (16 * i + 8) 8
  let size := bits w 32 32
  if bits w 6 26 ≠ 0 || bits w 2 2 ≠ 0 then none
  else if size = 0 then some none
  else if base % 65536 ≠ 0 || 2 ^ 48 < base + size * 65536 || 65536 < size || bits w 4 2 = 3 then none
  else match bits w 0 2 with
    | 0 => some (some ⟨base, size * 65536, bits w 4 2, .fp32⟩)
    | 1 => some (some ⟨base, size * 65536, bits w 4 2, .bf16⟩)
    | 2 => some (some ⟨base, size * 65536, bits w 4 2, .i32⟩)
    | _ => none

/-- Two ranges meet. An empty one strictly inside another meets it (log 109). -/
def overlaps (a n b m : Nat) : Bool := a < b + m && b < a + n

/-- No two of some ranges overlap. -/
def disjoint : List (Nat × Nat) → Bool
  | [] => true
  | x :: l => l.all (fun y => !overlaps x.1 x.2 y.1 y.2) && disjoint l

/-- The range table of a block. -/
def rangesOf (bs : List Byte) : Option (List RedRange) :=
  match (List.range 16).mapM (rangeOf bs) with
  | none => none
  | some l =>
    let rs := l.filterMap id
    if disjoint (rs.map (fun r => (r.base, r.size))) then some rs else none

structure AllocBlock where
  ranges : List RedRange
  heapBase : Nat
  root1 : Nat
  deriving DecidableEq, Repr

def allocBlock (bs : List Byte) : Option AllocBlock :=
  match rangesOf bs with
  | none => none
  | some rs =>
    let heap := field bs 0x100 8
    let root := field bs 0x108 8
    if heap % 65536 = 0 && heap < 2 ^ 48 && root % 4096 = 0 && zeros bs 0x110 16 then some ⟨rs, heap, root⟩ else none

/-! ## Windows (15 R295) -/

/-- The window of a block, its handle still to come; none where a field is out of range. -/
def windowOf (bs : List Byte) : Option Window :=
  let va := field bs 0 8
  let size := field bs 8 8
  let tgt := field bs 16 8
  let w := field bs 24 8
  let kind := bits w 0 2
  let rights := bits w 2 2
  let good := va % 65536 = 0 && size % 65536 = 0 && 65536 ≤ size && va + size ≤ 2 ^ 48 && bits w 4 60 = 0 &&
    (match kind with
     | 0 => tgt % 65536 = 0 && tgt + size ≤ 2 ^ 44
     | 1 => true
     | 2 => tgt = 0 && size = 65536 && rights = 0
     | _ => false)
  if good then some ⟨va, size, tgt, rights % 2 = 1, 2 ≤ rights, kind, 0⟩ else none

/-- Windows of one device overlap in no address, and its link windows in no offset. -/
def Vf.windowFits (v : Vf) (w : Window) : Bool :=
  v.windows.all (fun x => !overlaps x.2.va x.2.size w.va w.size &&
    !(x.2.kind = 0 && w.kind = 0 && overlaps x.2.tgt x.2.size w.tgt w.size))

/-! ## Images (03 R75–R80) -/

/-- A section-table entry (03 R76). A placed section that ends above 2^48 is malformed (log 108). -/
structure Sect where
  ty : Nat
  off : Nat
  size : Nat
  va : Nat
  deriving DecidableEq, Repr

/-- A section (03 R76); none where its entry is malformed. Every section but a zero-filled one lies inside the image, an ignored one of
type 7 too, and a placed one below 2^48 (log 108). -/
def sectOf (bs : List Byte) (o : Nat) : Option Sect :=
  let ty := field bs o 4
  let s : Sect := ⟨ty, field bs (o + 8) 8, field bs (o + 16) 8, field bs (o + 24) 8⟩
  let placed := ty = 2 || ty = 3 || ty = 4
  let good := 1 ≤ ty && ty ≤ 7 && field bs (o + 4) 4 = 0 && (ty = 4 || s.off + s.size ≤ bs.length) &&
    (if placed then s.va % 65536 = 0 && s.va + s.size ≤ 2 ^ 48 else s.va = 0)
  if good then some s else none

/-- Bytes of a section to the end of its last page. -/
def Sect.span (s : Sect) : Nat := (s.size + 65535) / 65536 * 65536

def Sect.bytes (s : Sect) (bs : List Byte) : List Byte := (bs.drop s.off).take s.size

/-- A role (03 R77); none where it breaks its table, or where code of it would start off a multiple of 4 (02 R44; log 75). -/
def roleOf (sects : List Sect) (bs : List Byte) : Option Role :=
  let cls := field bs 0 1
  let entry := field bs 24 8
  let code := match sects[field bs 1 1]? with | some s => s.ty = 2 | none => false
  if cls ≤ 2 && code && zeros bs 2 6 && field bs 8 8 < 2 ^ 48 && field bs 16 8 < 2 ^ 48 && entry < 2 ^ 48 && (cls ≠ 1 || entry = 0) &&
      field bs 8 8 % 4 = 0 && entry % 4 = 0 then
    some ⟨cls, field bs 8 8, field bs 16 8, entry⟩
  else none

/-- A placement (03 R78) in a pod of `n` clusters; none where it is malformed. -/
def placementOf (roles : List Role) (n : Nat) (bs : List Byte) : Option Placement :=
  let w := field bs 0 8
  let p : Placement := ⟨bits w 0 8, bits w 8 8, bits w 16 2, bits w 20 8, bits w 31 1 = 1⟩
  let one : Bool := (bitList p.cores 8).length = 1
  match roles[p.role]? with
  | none => none
  | some r =>
    if bits w 18 2 = 0 && bits w 28 3 = 0 && bits w 32 32 = 0 && (p.cls = 0 || p.cls = 2) && r.cls = p.cls &&
        (p.cluster = 0xFF || p.cluster < n) && (!p.svc || (p.cls = 0 && p.cluster ≠ 0xFF && one)) then some p else none

/-- The boot tree used by a pod of `n` clusters (03 R79): each cluster's parent, 0xFF for the root. -/
def defaultTree (n : Nat) : List Nat := (List.range n).map (fun i => if i = 0 then 0xFF else (i - 1) / 2)

/-- The depth of a cluster under the root, within `f` steps. -/
def underRoot (t : List Nat) : Nat → Nat → Bool
  | 0, _ => false
  | f + 1, i => match t[i]? with
    | none => false
    | some p => p = 0xFF || underRoot t f p

/-- One root, no cycle, no parent beyond the pod. -/
def treeOk (t : List Nat) : Bool :=
  (t.filter (· = 0xFF)).length = 1 && (List.range t.length).all (underRoot t (t.length + 1))

/-- Chunks of `n` bytes. -/
def records (n : Nat) (bs : List Byte) : List (List Byte) := (List.range (bs.length / n)).map (fun i => (bs.drop (n * i)).take n)

/-- The SHA-384 of an image with its DIGEST field zero (03 R75). -/
def imageDigest (bs : List Byte) : List Byte := sha384 (bs.take 0x20 ++ List.replicate 48 0 ++ bs.drop 0x50)

/-- What an image holds: what stays in the reserve, and its sections (03 R75–R79). A role or placement table whose SIZE is no multiple of
its entries' is malformed (log 108). -/
def imageOf (bs : List Byte) (n : Nat) : Option (Image × List Sect) :=
  let digest := (bs.drop 0x20).take 48
  let nsect := field bs 6 2
  let tab := field bs 0x10 8
  let head := field bs 0 4 = 0x49535947 && field bs 4 2 = 1 && 1 ≤ nsect && nsect ≤ 256 && field bs 8 8 = bs.length && 128 ≤ bs.length &&
    tab % 32 = 0 && tab + 32 * nsect ≤ bs.length && zeros bs 0x18 8 && zeros bs 0x50 48 && imageDigest bs = digest
  if !head then none
  else match (List.range nsect).mapM (fun i => sectOf bs (tab + 32 * i)) with
    | none => none
    | some ss =>
      let placed := ss.filter (fun s => s.ty = 2 || s.ty = 3 || s.ty = 4)
      match ss.filter (·.ty = 1), ss.filter (·.ty = 5), ss.filter (·.ty = 6) with
      | [rt], [pt], trees =>
        if 1 < trees.length || rt.size % 32 ≠ 0 || pt.size % 8 ≠ 0 || !disjoint (placed.map (fun s => (s.va, s.span))) then none
        else match (records 32 (rt.bytes bs)).mapM (roleOf ss) with
          | none => none
          | some roles => match (records 8 (pt.bytes bs)).mapM (placementOf roles n) with
            | none => none
            | some ps =>
              let given := match trees with | t :: _ => (t.bytes bs).map BitVec.toNat | [] => []
              let tree := if given.length = n then given else defaultTree n
              if (ps.filter (·.svc)).length = 1 && treeOk tree then some (⟨roles, ps, tree, digest⟩, placed) else none
      | _, _, _ => none

/-! ## Starting the roles of an image (03 R79 steps 3 and 4) -/

/-- Puts a role on a core of an image of a pod. -/
def PodImage.place (m : PodImage) (core : Nat) (cls : Nat) (r : Role) : PodImage :=
  let k := aget {} m.cores core
  let pl : Place := ⟨r.codebase, r.codelim, r.entry⟩
  let k := if cls = 0 then { k with sup := some pl } else { k with courier := some pl }
  let c := core * 16 + (if cls = 0 then 0 else 15)
  let x : Ctx := { p := { Priv.placed with pc := .ofNat 48 r.entry, codelim := .ofNat 48 r.codelim }, status := .runnable }
  { m with cores := aput m.cores core k, ctxs := aput m.ctxs c x }

/-- The clusters that a placement names, in a pod of `n`. -/
def Placement.clusters (p : Placement) (n : Nat) : List Nat := if p.cluster = 0xFF then List.range n else [p.cluster]

/-- The state in which the placed supervisors and couriers of an image start, by pod-relative numbers. -/
def Image.started (i : Image) (n : Nat) : PodImage :=
  i.places.foldl (fun m p =>
    match i.roles[p.role]? with
    | none => m
    | some r => (p.clusters n).foldl (fun m cl => (bitList p.cores 8).foldl (fun m k => m.place (cl * 8 + k) p.cls r) m) m) {}

/-- The service target that the SVC entry names, in a pod on some clusters. -/
def Image.target (i : Image) (cls : List Nat) : Nat :=
  match i.places.find? (·.svc) with
  | some p => cls.getD p.cluster 0 * 128 + (bitList p.cores 8).getD 0 0 * 16
  | none => 0

/-! ## Memory the Husk gives out (15 R304) -/

/-- Units of 2 MiB in the package and in the recovery reserve. -/
def unitsTotal : Nat := 196608
def unitsReserve : Nat := 6144

/-- A unit that the Husk may map: in the package, outside the reserve, mapped by no device. -/
def State.unitFree (s : State) (u : Nat) : Bool :=
  u < unitsTotal && !(s.reserveAt ≤ u && u < s.reserveAt + unitsReserve) && s.vfs.all (fun v => v.2.stage2.all (fun m => m.2 ≠ u))

/-- Maps the unit of an intermediate address. -/
def State.mapUnit (s : State) (v ipa u : Nat) : State :=
  s.setVf v { s.vf v with stage2 := aput (s.vf v).stage2 (ipa / unitBytes) u }

/-- Maps the units of a range that are not mapped, from frames chosen outside; none where these do not serve. -/
def State.mapUnits (s : State) (v : Nat) : List Nat → List Nat → Option State
  | [], _ => some s
  | i :: is, fs =>
    if (afind? (s.vf v).stage2 i).isSome then s.mapUnits v is fs
    else match fs with
      | [] => none
      | f :: fs => if s.unitFree f && i < (s.vf v).grant * 512 then (s.mapUnit v (i * unitBytes) f).mapUnits v is fs else none

/-- Units that a section covers. -/
def Sect.units (s : Sect) : List Nat :=
  if s.size = 0 then [] else (List.range ((s.va + s.span - 1) / unitBytes + 1 - s.va / unitBytes)).map (· + s.va / unitBytes)

/-- The pages of a section with their physical addresses: its contents, then zeros to the end of its last page, at intermediate
addresses equal to its own (log 4). -/
def State.sectPages (s : State) (v : Nat) (bs : List Byte) (x : Sect) : List (Nat × List Byte) :=
  let data := if x.ty = 4 then [] else x.bytes bs
  (List.range (x.span / 65536)).filterMap (fun i =>
    match (s.vf v).stage2? (x.va + 65536 * i) with
    | .ok pa => some (pa, (List.range 65536).map (fun k => data.getD (65536 * i + k) 0))
    | .error _ => none)

/-- The Husk writes pages: open chunks that have read them squash (09 R181). -/
def State.writePages (s : State) (ps : List (Nat × List Byte)) : State :=
  let hit (x : Loc) : Bool := match x with | .line n | .fetch n => ps.any (fun p => p.1 / 65536 = n / 1024) | _ => false
  let s := ps.foldl (fun s p => s.commitBytes ((List.range 65536).map (fun k => (p.1 + k, p.2.getD k 0)))) s
  if ps.isEmpty then s else s.squashHits Config.contexts hit exactCause

/-! ## Taking a command (15 R286–R288) -/

/-- A command as taken: its entry, and the virtual device whose queue it came from, 0 for the physical function's. -/
structure Taken where
  e : Entry
  fn : Nat
  deriving DecidableEq, Repr

/-- Result, output and state of a command. -/
abbrev Done := Int × Word × State

/-- A command that fails a check changes nothing. -/
def refuse (s : State) (r : Int) (out : Word := 0) : Done := (r, out, s)

/-- The queue served next, round-robin (15 R286). -/
def State.nextQueue (s : State) : Option Nat :=
  let qs := (s.queues.filter (fun q => q.2.en && q.2.pending ≠ 0)).map (·.1)
  match qs.find? (s.rrQueue ≤ ·) with
  | some q => some q
  | none => qs.head?

/-- Commands that close the interval before they act: FREE_POD, UNBIND_VF, RESUME, EVICT, RESET_VF (16 R325). -/
def cutsFirst (opc : Nat) : Bool := [2, 4, 8, 9, 18].contains opc

/-- The Husk may take the command with opcode `opc` at the head of queue `q` now. It leaves windows alone while a replay sees those of
its own time (log 42), and a command that closes the interval waits until the cut can fall. -/
def State.mayTakeCmd (s : State) (q opc : Nat) : Bool :=
  s.ready && (!cutsFirst opc || s.mayCut) && !s.huskBusy && !((opc = 11 || opc = 12) && s.pods.any (fun p => p.2.replay.isSome)) && s.nextQueue = some q && (s.nextEntry q).opc = opc

/-- The checks of every command: reserved fields, the queue, CLEAR. -/
def Taken.check (t : Taken) (s : State) (pf vf : Bool) : Option Int :=
  if !t.e.rsvZero then some HRes.malformed
  else if (t.fn = 0 && !pf) || (t.fn ≠ 0 && !vf) then some HRes.source
  else if t.e.clear && (t.fn = 0 || (s.vf t.fn).tdi ≠ .run) then some HRes.source
  else none

/-- A command of the Husk: taken, checked, performed whole, and completed; `body` makes the command's own checks and effect. -/
def husk (opc : Nat) (pf vf : Bool) (h : HostIn) (body : State → Taken → Done) (s : State) : Host.Outcome State Fault Refusal :=
  if !s.mayTakeCmd h.q opc then .next s
  else
    let t : Taken := ⟨s.nextEntry h.q, queueFn h.q⟩
    let s1 := s.takeEntry h.q
    match t.check s1 pf vf with
    | some r => happens s (s1.complete h.q t.e.tag r 0)
    | none =>
      let (r, out, s2) := body s1 t
      happens s (s2.complete h.q t.e.tag r out)

/-- The virtual device that a command names by H0 (15 R287, R291). -/
def Taken.vf (t : Taken) (s : State) : Option Nat :=
  match s.vfByHandle t.e.h0 with
  | some v => if t.fn = 0 || t.fn = v then some v else none
  | none => none

/-- The pod that a command names by H0. -/
def Taken.pod (t : Taken) (s : State) : Option Nat :=
  match s.pods.find? (fun p => p.2.handle = t.e.h0 && (t.fn = 0 || p.2.vf = t.fn)) with
  | some p => some p.1
  | none => none

/-- The plaintext of a sealed tenant block of a command, under a command key: SEQ, NONCE, reserved bytes, ciphertext and tag, with the
command's first 48 bytes and SEQ authenticated (15 R288). -/
def Taken.unseal (t : Taken) (key raw : List Byte) : Option (List Byte) :=
  gcmOpen key ((raw.drop 8).take 12) (t.e.head ++ raw.take 8) ((raw.drop 32).take (t.e.len - 48)) (raw.drop (t.e.len - 16))

/-- The tenant block of a command on virtual device `v`, of `len` bytes where that is fixed: the plaintext, and the state with the SEQ
it carried accepted (15 R288). -/
def Taken.block (t : Taken) (s : State) (v : Nat) (len : Option Nat) : Except Int (List Byte × State) :=
  let raw := s.hostMem.readBytes t.e.blk t.e.len
  let want := len.getD (t.e.len - (if t.e.clear then 0 else 48))
  if t.e.blk = 0 then .error HRes.malformed
  else if t.e.clear then
    if t.e.len ≠ want then .error HRes.malformed else .ok (raw, s)
  else if t.e.len ≠ want + 48 || !zeros raw 20 12 then .error HRes.malformed
  else
    let x := s.vf v
    match x.cmdKey.bind (fun k => t.unseal k raw) with
    | none => .error HRes.integrity
    | some bs => if field raw 0 8 ≤ x.seq then .error HRes.integrity else .ok (bs, s.setVf v { x with seq := field raw 0 8 })

end Sys2Proof.Machine
end

