-- ==== Sys2Proof/Machine/HostRegs.lean ====
section
/-! DEFINITION. The registers of the host port: the layout of BAR0 and BAR2, what a write does and what a read shows (18 R344–R348). -/

namespace Sys2Proof.Machine

/-- The host's accesses reach no register: the package is off, or its partner has no flit mode (18 R344; fault code 3 of R353). -/
def State.linkDown (s : State) : Bool := !s.powered || s.faultCode = 3

/-! ## Queues (18 R346) -/

/-- Queues of the physical function and of 512 virtual ones. -/
def queueCount : Nat := 2064

/-- A write of TAIL. -/
def State.writeTail (s : State) (q : Nat) (tail : BitVec 32) : State :=
  if queueCount ≤ q then s else s.setQueue q { s.queue q with tail := tail.toNat % 2 ^ (s.queue q).logn }

/-- A write of EN and LOGN: LOGN counts only while EN was 0, and within 4–16. -/
def State.writeEnable (s : State) (q : Nat) (en : Bool) (logn : BitVec 5) : State :=
  let x := s.queue q
  if queueCount ≤ q then s
  else if x.en then (if en then s else s.setQueue q { x with en := false, tail := x.head })
  else
    let n := if 4 ≤ logn.toNat && logn.toNat ≤ 16 then logn.toNat else x.logn
    s.setQueue q (if en then { x with en := true, logn := n, head := 0, tail := 0, cpi := 0, phase := true } else { x with logn := n })

/-- A write in the block of queue `q`; HEAD is read only. -/
def State.writeQueue (s : State) (q off : Nat) (v : Word) : State :=
  let x := s.queue q
  if queueCount ≤ q then s
  else if off = 0x00 then (if x.en || v.toNat % 64 ≠ 0 then s else s.setQueue q { x with cbase := v })
  else if off = 0x08 then (if x.en || v.toNat % 16 ≠ 0 then s else s.setQueue q { x with cpbase := v })
  else if off = 0x10 then s.writeEnable q (v.getLsbD 31) (.ofNat 5 v.toNat)
  else if off = 0x18 then s.writeTail q (.ofNat 32 v.toNat)
  else s

/-- What a read in the block of queue `q` shows. -/
def HQueue.read (x : HQueue) (off : Nat) : Word :=
  if off = 0x00 then x.cbase
  else if off = 0x08 then x.cpbase
  else if off = 0x10 then word (x.logn + x.en.toNat * 2 ^ 31)
  else if off = 0x14 then word x.head
  else if off = 0x18 then word x.tail
  else 0

/-- The queue whose block holds an offset of BAR0: 16 blocks of the physical function, 4 of each virtual one (18 R345). -/
def queueOf (fn off : Nat) : Option Nat :=
  if fn = 0 then (if off < 0x400 then some (off / 64) else none)
  else if fn ≤ 512 && off < 0x100 then some (16 + (fn - 1) * 4 + off / 64) else none

/-! ## Package control (18 R347) -/

/-- A write within a register's range; any other is ignored. -/
def State.writeControl (s : State) (off : Nat) (v : Word) : State :=
  let g := (off - 0x100) / 4
  if off = 0x010 then (if 800 ≤ v.toNat && v.toNat ≤ 3200 then { s with pwrcap := v.toNat } else s)
  else if off = 0x018 then (if 1 ≤ v.toNat && v.toNat ≤ 720 then { s with scrubh := v.toNat } else s)
  else if 0x100 ≤ off && off % 4 = 0 && g < 24 && 10 ≤ v.toNat && v.toNat ≤ 500 then s.setGroup g { s.group g with deadline := v.toNat }
  else s

def State.readControl (s : State) (off : Nat) : Word :=
  let g := (off - 0x100) / 4
  if off = 0x000 then word (s.ready.toNat + s.bring * 16)
  else if off = 0x008 then zext (s.chip.getD 0)
  else if off = 0x010 then word s.pwrcap
  else if off = 0x018 then word s.scrubh
  else if 0x100 ≤ off && off % 4 = 0 && g < 24 then word (s.group g).deadline
  else 0

/-! ## Counter windows (18 R348) -/

/-- The counter window of the physical function: switches of the share groups, then the link ports. -/
def State.readPfCounter (s : State) (off : Nat) : Word :=
  let n := off % 0x100 / 8
  if off % 8 ≠ 0 then 0
  else if off < 0x100 then (if n < 24 then zext (s.group n).swmiss else 0)
  else if off < 0x200 then (if n < 24 then zext (s.group n).swforce else 0)
  else if 12 ≤ n then 0
  else if off < 0x300 then word (s.port n).replays
  else if off < 0x400 then word (s.port n).fec
  else if off < 0x500 then word (s.port n).dups
  else 0

/-- Core `k` of a pod, counted from its first, where it is resident or as it was saved. -/
def State.podCore (s : State) (pid k : Nat) : Core :=
  let p := s.pod pid
  if p.resident then s.core (p.clusters.getD (k / 8) 0 * 8 + k % 8)
  else match p.saved with
    | some m => aget {} m.cores k
    | none => {}

/-- The counter window of a virtual device: the cores of its pods. -/
def State.readVfCounter (s : State) (fn off : Nat) : Word :=
  let pid := podKey fn (off / 0x20000)
  let k := off % 0x20000 / 0x80
  let i := off % 0x80 / 8
  if off % 8 ≠ 0 || (s.pod pid).clusters.length * 8 ≤ k then 0
  else word (((s.podCore pid k).pf.toList ++ (s.podCore pid k).sq.toList).getD i 0)

/-! ## The MSI-X table and its PBA (18 R345; log 116) -/

/-- Where the PBA begins in BAR2; the table lies before it. -/
def pbaBase : Nat := 0x1000

/-- A write of a word of the table; a vector that its write unmasks is pending no longer. -/
def State.writeMsix (s : State) (fn off : Nat) (v : Word) : State :=
  if off % 4 ≠ 0 || pbaBase ≤ off then s
  else
    let x := s.vf fn
    let y := { x with msix := aput x.msix (off / 4) (v.toNat % 2 ^ 32) }
    s.setVf fn (if y.masked (off / 16) then y else { y with pba := y.pba.filter (· ≠ off / 16) })

def State.readMsix (s : State) (fn off : Nat) : Word :=
  let x := s.vf fn
  if off % 4 ≠ 0 || 0x2000 ≤ off then 0
  else if off < pbaBase then word (x.msixWord (off / 4))
  else word ((((List.range 32).filter (fun i => x.pba.contains ((off - pbaBase) * 8 + i))).map (2 ^ ·)).sum)

/-! ## Accesses (18 R345) -/

/-- A write of the host. All offsets that no table gives ignore it. -/
def State.hostWrite (s : State) (r : HostReg) (v : Word) : State :=
  if s.linkDown || 512 < r.fn then s
  else if r.bar = 2 then s.writeMsix r.fn r.off v
  else if r.bar ≠ 0 then s
  else match queueOf r.fn r.off with
    | some q => s.writeQueue q (r.off % 64) v
    | none => if r.fn = 0 && 0x10000 ≤ r.off && r.off < 0x11000 then s.writeControl (r.off - 0x10000) v else s

/-- What a read of the host shows; it changes nothing, and is no step (log 93). All offsets that no table gives read as zero. -/
def State.hostRead (s : State) (r : HostReg) : Word :=
  if s.linkDown || 512 < r.fn then 0
  else if r.bar = 2 then s.readMsix r.fn r.off
  else if r.bar ≠ 0 then 0
  else match queueOf r.fn r.off with
    | some q => (s.queue q).read (r.off % 64)
    | none =>
      if r.fn = 0 then
        (if 0x10000 ≤ r.off && r.off < 0x11000 then s.readControl (r.off - 0x10000)
         else if 0x20000 ≤ r.off && r.off < 0x21000 then s.readPfCounter (r.off - 0x20000) else 0)
      else if 0x100000 ≤ r.off && r.off < 0x400000 then s.readVfCounter r.fn (r.off - 0x100000) else 0

def execRegisterWrite (r : HostReg) (v : Word) (s : State) : Host.Outcome State Fault Refusal := .next (s.hostWrite r v)

def execDoorbell (q : Nat) (tail : BitVec 32) (s : State) : Host.Outcome State Fault Refusal :=
  .next (if s.linkDown then s else s.writeTail q tail)

def execQueueEnable (q : Nat) (en : Bool) (logn : BitVec 5) (s : State) : Host.Outcome State Fault Refusal :=
  .next (if s.linkDown then s else s.writeEnable q en logn)

end Sys2Proof.Machine
end

