-- ==== Sys2Proof/Machine/Service.lean ====
section
/-! DEFINITION. Service instructions: how a pod deals with traps (04 R101–R107). -/

namespace Sys2Proof.Machine

/-- PERM with word 2 = 0 unless the executing context is of a class that may (04 R101, 13 R259). -/
def State.onlyFor (s : State) (ok : CtxClass → Bool) : Except Stop Unit :=
  if ok (classOf s.cur) then .ok () else .error (trapWith Code.perm)

def isSup : CtxClass → Bool
  | .supervisor => true
  | _ => false

/-! ## svc.recv (04 R102) -/

def svcRecvRes (d : SReg) (s : State) : Res :=
  let k := s.core s.myCore
  match k.first .trap s.cur with
  | none => .error (s.mayBlock .svcRecv (word s.cur))
  | some m =>
    let t := bits (m.words.getD 0 0).toNat 8 14
    let s := s.setCore s.myCore (k.takeMsg m)
    let s := s.setCtx t { s.ctx t with holder := some s.cur }
    let s := s.setP { s.me.p with msg := Vector.ofFn (fun i => m.words.getD i.val 0) }
    .ok (s.putS d (m.words.getD 0 0))

def execSvcRecv (d : SReg) (s : State) : Host.Outcome State Fault Refusal :=
  single s [.s d] (fun s => (s.onlyFor isSup).map (fun _ => s)) (svcRecvRes d)

/-! ## The held context (04 R101) -/

/-- The trapped context that `a` names, if the executing supervisor holds its trap. A reply already in the chunk ends the hold. -/
def State.heldBy (s : State) (a : Word) : Except Stop Nat :=
  let c := a.toNat
  if c < Config.contexts && s.podOf c = s.podOf s.cur && (s.ctx c).holder = some s.cur &&
      !s.laterFx.any (fun f => match f with | .reply d _ _ => d = c | _ => false) then .ok c
  else .error (trapWith Code.perm)

/-- Private registers of a held context with what the executing supervisor has written to it (04 R103). -/
def State.heldPriv (s : State) (c : Nat) : Priv :=
  s.laterFx.foldl (fun p f => match f with
    | .svcReg d n v => if d = c then { p with regs := p.regs.setIfInBounds n v } else p
    | .svcSr d n v => if d = c then (match srOf n.toNat with | some r => p.putSr true r v | none => p) else p
    | _ => p) (s.ctx c).p

/-- A held context whose unit has ended (04 R103, R107). -/
def State.heldEnded (s : State) (c : Nat) : Bool := (s.ctx c).status ≠ .trapped

/-- The chunk of the reader whose commit is pending, where it runs on the held context's core: what it leaves in shared registers is
committed before the reader's chunk (09 R182). -/
def State.heldPending (s : State) (c : Nat) : Option Chunk := if coreOf c = s.myCore then s.me.pending else none

/-- A special register of a held context: as that context would read it, a shared one with its last committed value (04 R103, 01 R14). -/
def State.heldSr (s : State) (c : Nat) : SrName → Word
  | .hshape n => zext (((s.heldPending c).bind (fun k => afind? k.hs n.val)).getD (s.core (coreOf c)).h[n]).shape
  | .svctgt => word ((s.me.pending.bind (·.svctgt)).getD s.myPod.svctgt)
  | r => s.srRead c (s.heldPriv c) r

/-- A scalar of a held context, a shared one with its last committed value. -/
def State.heldScalar (s : State) (c n : Nat) : Word :=
  if n < 32 then (if n = 0 then 0 else (s.heldPriv c).regs.getD n 0)
  else ((s.heldPending c).bind (fun k => afind? k.gs (n - 32))).getD ((s.core (coreOf c)).g.getD (n - 32) 0)

/-! ## svc.rd, svc.wr, svc.reply (04 R103–R105) -/

/-- `svc.rd`: the ILLEGAL checks come first. SPACE 0 names no context, and is a supervisor’s as the other spaces are (04 R101, R103; log
112). -/
def svcRdRes (d a : SReg) (space : BitVec 2) (n : BitVec 10) (s : State) : Res := do
  let i := n.toNat
  match space.toNat with
  | 0 =>
    if 8 ≤ i then .error (trapWith Code.illegal)
    else
      s.onlyFor isSup
      pure (s.putS d (s.me.p.msg.getD i 0))
  | 1 =>
    match srOf i with
    | none => .error (trapWith Code.illegal)
    | some r =>
      s.onlyFor isSup
      let c ← s.heldBy (s.val a)
      pure (((s.noteS [a]).note (s.srLocs c r)).putS d (if s.heldEnded c then 0 else s.heldSr c r))
  | 2 =>
    if 64 ≤ i then .error (trapWith Code.illegal)
    else
      s.onlyFor isSup
      let c ← s.heldBy (s.val a)
      let s1 := (s.noteS [a]).note (if 32 ≤ i then [.g (coreOf c) (i - 32)] else [])
      pure (s1.putS d (if s.heldEnded c then 0 else s.heldScalar c i))
  | _ => .error (trapWith Code.illegal)

def execSvcRd (d a : SReg) (space : BitVec 2) (n : BitVec 10) (s : State) : Host.Outcome State Fault Refusal :=
  perform s [.s d, .s a] 8 (svcRdRes d a space n)

def svcWrRes (a b : SReg) (space : BitVec 2) (n : BitVec 10) (s : State) : Res := do
  let i := n.toNat
  match space.toNat with
  | 1 =>
    match srOf i with
    | none => .error (trapWith Code.illegal)
    | some r =>
      s.onlyFor isSup
      let c ← s.heldBy (s.val a)
      if !svcWritable r then .error (trapWith Code.perm (zext n))
      else
        srCheck r (s.val b)
        pure ((s.noteS [a, b]).defer (.svcSr c n (s.val b)))
  | 2 =>
    if 32 ≤ i then .error (trapWith Code.illegal)
    else
      s.onlyFor isSup
      let c ← s.heldBy (s.val a)
      pure ((s.noteS [a, b]).defer (.svcReg c i (s.val b)))
  | _ => .error (trapWith Code.illegal)

def execSvcWr (a b : SReg) (space : BitVec 2) (n : BitVec 10) (s : State) : Host.Outcome State Fault Refusal :=
  perform s [.none, .s a, .s b] 8 (svcWrRes a b space n)

def svcReplyRes (a b : SReg) (r : Reply) (s : State) : Res := do
  s.onlyFor isSup
  let c ← s.heldBy (s.val a)
  pure ((s.noteS (if r = .redirect then [a, b] else [a])).defer (.reply c r (s.val b)))

def execSvcReply (a b : SReg) (r : Reply) (s : State) : Host.Outcome State Fault Refusal :=
  perform s [.none, .s a, .s b] 8 (svcReplyRes a b r)

end Sys2Proof.Machine
end

