-- ==== Sys2Proof/Machine/Progress.lean ====
section
/-! DEFINITION. Launch, suspension, ending, context control, messages, gangs, cancels and counters (13 R259–R277). -/

namespace Sys2Proof.Machine

/-- A status or count as an operand word. -/
def statusWord (i : Int) : Word := BitVec.ofInt 64 i

/-! ## Launch (13 R260) -/

/-- What the commit before this `launch` has read, or what stands there now, at its own place in the commit order: at a `launch` with no
chunk before it, and where a page of the extension block had still to be mapped (03 R73; log 41). -/
def State.launchRead (s : State) (x : Word) : Except Stop (LaunchRead × State) :=
  match s.me.launching with
  | some r => .ok (r, s)
  | none => s.readLaunch x

def launchRes (d a : SReg) (s : State) : Res := do
  let (r, s1) ← (s.noteS [a]).launchRead (s.val a)
  match r.poison with
  | some pa => .error (trapWith Code.poison (word pa))
  | none =>
    let (ext, s1) ← match r.ext with
      | some e => pure (e, s1)
      | none => s1.extBlock (word (blockWord r.block 0x78))
    let s1 := s1.setMe { s1.me with launching := none }
    match s1.checkLaunch s.myPodId r.block ext with
    | .error i => pure (s1.putS d (statusWord i))
    | .ok l =>
      let (t, slot) := s1.accept s.myPodId (s.me.clock + 1) s.cur l
      pure (t.putS d (word slot))

/-- The checks of the address. A page beyond the grant has no stage-2 translation, which raises XLATE here (03 R74, 13 R260). -/
def launchPre (a : SReg) (s : State) : Res := do
  misalign (s.val a) 128
  match s.range .read (s.val a) 128 with
  | .error (.out why) => if s.beyondGrant s.myVf (s.val a) 128 then .error (trapWith Code.xlate (s.val a)) else .error (.out why)
  | r => r.map (·.2)

def execLaunch (d a : SReg) (s : State) : Host.Outcome State Fault Refusal :=
  let x := s.val a
  -- the Husk logs the stage-2 failure (15 R305)
  let s := if x.toNat % 128 = 0 && s.openChunk.beyondGrant s.myVf x 128 then
      s.logError 3 (some s.myPodId) s.myPod.vf (Config.errDetail s.moment) else s
  single s [.s d, .s a] (launchPre a) (launchRes d a) (why := .launch x)

/-! ## Suspension (13 R261–R264) -/

/-- The checks that come first at a suspension: the class, then the call depth. -/
def suspendPre (s : State) : Except Stop Unit := do
  s.onlyFor (fun c => c = .unit)
  if s.me.p.retdepth ≠ 0 then .error (.trap { code := Code.callDepth, own := some [word s.me.p.retdepth, 0, 0, 0] })

/-- The record of context `c`, whose `PC` is already that of the next instruction, as it is stored. -/
def State.suspended (s : State) (c clk cluster : Nat) (reserved : Bool) : Stored :=
  s.stored ((s.podOf c).getD 0) cluster ((s.ctx c).p.record (s.ctx c).p.pc) clk c reserved

/-- The record enters the queue of a cluster and the context becomes IDLE; for its own cluster there is always room (12 R248; log 113). -/
def State.suspendTo (s : State) (c clk cluster : Nat) : State :=
  (s.enqueue cluster (s.suspended c clk cluster (cluster = clusterOf c))).idleCtx c

def execYield (s : State) : Host.Outcome State Fault Refusal :=
  let c := s.cur
  single s [] (fun s => (suspendPre s).map (fun _ => s)) (fun s => .ok s) (fin := fun s clk => s.suspendTo c clk (clusterOf c))

def execPark (a : SReg) (z : Bool) (woff : BitVec 27) (s : State) : Host.Outcome State Fault Refusal :=
  let c := s.cur
  let x := s.val a + (sext woff <<< 3)
  let key := match s.openChunk.waitWord x with | .ok (k, _) => k | .error _ => 0
  single s [.none, .s a] (fun s => do
      suspendPre s
      let (_, t) ← s.waitWord x
      pure t)
    (fun s => (s.waitWord x).map (·.2.noteS [a]))
    (fin := fun s clk =>
      if (s.committedWord key = 0) = z then s.suspendTo c clk (clusterOf c)
      else
        let k := s.cluster (clusterOf c)
        let r := { s.suspended c clk (clusterOf c) true with parked := some ⟨key, z⟩, since := s.refTime }
        (s.setCluster (clusterOf c) { k with parked := k.parked ++ [r] }).idleCtx c)

/-- The cluster a `hop` names, the issuing one where it may not go there (13 R264), and the state with the walk's lines. -/
def State.hopTarget (s : State) (a : SReg) (dir : Bool) : Except Stop (Nat × State) :=
  let here := s.myCluster
  let p := s.myPod
  let named (t : Nat) : Nat := match p.relCluster? t, s.launchOf s.cur with
    | some rel, some l => if l.clusters.contains rel then t else here
    | _, _ => here
  if dir then .ok (match p.clusters[(s.val a).toNat % 128]? with | some t => named t | none => here, s)
  else match s.xlate (s.val a) .query with
    | .error e => .error e
    | .ok (.mem pa, t) => .ok (named (homeCluster pa), t)
    | .ok (.host h, t) => .ok (named (homeCluster h), t)
    | .ok (.mmio _, t) => .ok (here, t)

def execHop (a : SReg) (dir : Bool) (s : State) : Host.Outcome State Fault Refusal :=
  let c := s.cur
  let pc := s.me.p.pc
  let w := s.val a
  let det := s.detMode c
  let target := match s.openChunk.hopTarget a dir with | .ok (t, _) => t | .error _ => s.myCluster
  single s [.none, .s a] (fun s => do
      suspendPre s
      let (_, t) ← s.hopTarget a dir
      pure t)
    (fun s => (s.hopTarget a dir).map (·.2.noteS [a]))
    (fin := fun s clk =>
      if target = clusterOf c || (s.cluster target).storeFree then s.suspendTo c clk target
      else
        let r := s.suspended c clk target false
        let core := target * 8 + r.core
        let x := s.ctx c
        s.setCtx c { x with p := { x.p with pc := pc }, status := .blocked, heldRec := some (target, r), ceased := s.refTime, gang := s.detached c,
                            wait := some { on := .hop core, w2 := word core, ops := [0, w], start := s.refTime, clock := x.clock,
                                           limit := x.p.waitlim, det := det } })

/-! ## Ending and committing (13 R265, R266) -/

/-- The end of a context's current work at the commit of its `exit`. -/
def State.exitCtx (s : State) (c : Nat) : State :=
  match classOf c with
  | .unit => s.finishUnit c
  | .courier => (s.setCtx c { (s.ctx c).abandon with status := .idle, handler := false, chunk := none, ceased := s.refTime }).dropTicket c
  | .supervisor => (s.setCtx c { (s.ctx c).abandon with status := .stopped .exited, chunk := none, ceased := s.refTime }).dropTicket c

def execExit (s : State) : Host.Outcome State Fault Refusal :=
  let c := s.cur
  single s [] (fun s => .ok s) (fun s => .ok s) (fin := fun s _ => s.exitCtx c)

def execCommit (s : State) : Host.Outcome State Fault Refusal := single s [] (fun s => .ok s) (fun s => .ok s)

/-! ## Home query (13 R267) -/

def hmqWord (s : State) (home : Nat) : Word :=
  let rel := s.myPod.relCluster? home
  let nl : Bool := match classOf s.cur, s.launchOf s.cur with
    | .unit, some l => (match rel with | some r => !l.clusters.contains r | none => true)
    | _, _ => false
  word (nl.toNat * 2 ^ 16 + rel.isNone.toNat * 2 ^ 15 + (rel.getD 0) * 2 ^ 8 + home)

def execHmq (d a : SReg) (s : State) : Host.Outcome State Fault Refusal :=
  perform s [.s d, .s a] 8 (fun s =>
    match s.xlate (s.val a) .query with
    | .error e => .error e
    | .ok (.mmio _, t) => .ok ((t.noteS [a]).putS d 0xFFFFFFFFFFFFFFFF)
    | .ok (.mem pa, t) => .ok ((t.noteS [a]).putS d (hmqWord s (homeCluster pa)))
    | .ok (.host h, t) => .ok ((t.noteS [a]).putS d (hmqWord s (homeCluster h))))

/-! ## Context control (13 R268–R271) -/

/-- The target of a context-control form. -/
def State.ctlTarget (s : State) (a : Word) : Except Stop Nat := do
  s.onlyFor isSup
  if 1 ≤ a.toNat && a.toNat ≤ 14 then pure (s.myCore * 16 + a.toNat) else .error (trapWith Code.perm)

/-- The package as it would stand once the executing context's pending chunk has committed, which that context sees (09 R182). -/
def State.afterPending (s : State) : State :=
  match s.me.pending with
  | some _ => { s.commitEnded s.cur [] with cur := s.cur }
  | none => s

/-- Enters places that events change into the read set; while a commit is pending, with what is expected there after it. -/
def State.notePlaces (s : State) (ls : List Loc) : State :=
  let s1 := s.note ls
  if s.me.pending.isSome then s1.setChunk { s1.chunk with seen := ls.map (fun x => (x, s.afterPending.place x)) ++ s1.chunk.seen } else s1

/-- Effects that other effects of a supervisor's chunk build on. -/
def Fx.isControl : Fx → Bool
  | .cancel .. | .startRec .. | .startNext _ | .mode _ | .resume _ | .stop _ | .reap .. | .reply .. => true
  | _ => false

/-- The package as the executing supervisor sees it for context control: with what its own uncommitted chunks start, stop, resume,
reap, cancel and reply to, in program order (log 32). -/
def State.foreseen (s : State) : State :=
  s.chunk.fx.foldl (fun u f => if f.isControl then u.applyFx s.cur (s.me.clock + s.chunk.count) s.chunk.det f else u) s.afterPending

/-- The control state as the executing supervisor reads it. -/
def State.ctlOf (s : State) (c : Nat) : Ctl := (s.foreseen.ctx c).status.ctl

/-- A unit context that may pick up a unit: IDLE, with no trap of an ended unit still to be answered and no commit of it pending (04 R107;
log 21). -/
def State.ctlFree (s : State) (c : Nat) : Bool := (s.foreseen.ctx c).status = .idle && !(s.foreseen.ctx c).owed

/-- A form that writes a status: `f` gives the status and the state, in which the read set holds what it has read of control state. -/
def ctlOp (d a : SReg) (reads : List SReg) (s : State) (f : Nat → State → Except Stop (Int × State)) : Res := do
  let c ← s.ctlTarget (s.val a)
  let (i, t) ← f c ((s.noteS (a :: reads)).notePlaces [.ctl c])
  pure (t.putS d (statusWord i))

/-- The checks of a record for status −2 (13 R268). -/
def State.recordOk (s : State) (r : Record) : Bool :=
  match afind? s.foreseen.myPod.launches r.slot with
  | some l => (match s.myPod.relCluster? s.myCluster with | some rel => l.clusters.contains rel | none => false) &&
      r.unit.toNat < l.units && r.pc.toNat % 4 = 0 && r.pc.toNat < l.codelim.toNat
  | none => false

def startRecordRes (d a b : SReg) (s : State) : Res :=
  ctlOp d a [b] s (fun c s => do
    misalign (s.val b) 64
    if !s.ctlFree c then pure (-1, s)
    else
      let (bs, t) ← s.load (s.val b) 64
      let r := recordOf bs
      let t := t.notePlaces [.launch s.myPodId r.slot]
      if s.recordOk r then pure (0, t.defer (.startRec (c % 16) r)) else pure (-2, t))

def execCtxStartRecord (d a b : SReg) (s : State) : Host.Outcome State Fault Refusal :=
  performOut s [.s d, .s a, .s b] 8 (startRecordRes d a b)

/-- The items that the executing chunk's own `ctx.start` forms take from the queue. -/
def State.ownNext (s : State) : Nat := s.chunk.fx.countP (fun f => match f with | .startNext _ => true | _ => false)

/-- The records that its own `ctx.reap` forms queue. -/
def State.ownReaps (s : State) : Nat := s.chunk.fx.countP (fun f => match f with | .reap _ q => q | _ => false)

def startNextRes (d a : SReg) (s : State) : Res :=
  ctlOp d a [] s (fun c s =>
    let s := s.notePlaces ((List.range (s.ownNext + 1)).map (fun i => .ready s.myCore (i + 1)))
    if !s.ctlFree c then .ok (-1, s)
    else if (s.foreseen.choosePlaced s.myPodId s.myCluster (s.myCore % 8) s.me.clock).isNone then .ok (-3, s)
    else .ok (0, s.defer (.startNext (c % 16))))

def execCtxStartNext (d a : SReg) (s : State) : Host.Outcome State Fault Refusal :=
  perform s [.s d, .s a] 8 (startNextRes d a)

/-- The dispatch mode as the supervisor reads it: its own pending value, else the core's (12 R251). -/
def State.modeAuto (s : State) : Bool :=
  s.laterFx.foldl (fun x f => match f with | .mode m => m | _ => x) (s.core s.myCore).auto

def startModeRes (d b : SReg) (s : State) : Res := do
  s.onlyFor isSup
  pure (((s.noteS [b]).defer (.mode (!(s.val b).getLsbD 0))).putS d (boolWord (!s.modeAuto)))

def execCtxStartMode (d b : SReg) (s : State) : Host.Outcome State Fault Refusal :=
  perform s [.s d, .none, .s b] 8 (startModeRes d b)

def startResumeRes (d a : SReg) (s : State) : Res :=
  ctlOp d a [] s (fun c s =>
    if (s.foreseen.ctx c).status = .stopped .byStop then .ok (0, s.defer (.resume (c % 16))) else .ok (-1, s))

def execCtxStartResume (d a : SReg) (s : State) : Host.Outcome State Fault Refusal :=
  perform s [.s d, .s a] 8 (startResumeRes d a)

def ctxStopRes (d a : SReg) (s : State) : Res :=
  ctlOp d a [] s (fun c s =>
    match s.ctlOf c with
    | .active => .ok (0, s.defer (.stop (c % 16)))
    | .stopped => .ok (0, s)
    | _ => .ok (-1, s))

def execCtxStop (d a : SReg) (s : State) : Host.Outcome State Fault Refusal := perform s [.s d, .s a] 8 (ctxStopRes d a)

def ctxReapRes (d a b : SReg) (rq : Bool) (s : State) : Res :=
  ctlOp d a [b] s (fun c s => do
    let p := (s.foreseen.ctx c).p
    if !rq then misalign (s.val b) 64
    if s.ctlOf c ≠ .stopped then pure (-1, s)
    else if p.retdepth ≠ 0 || p.tstat.pp || p.tstat.rv then pure (-4, s)
    else if rq then
      let s1 := s.notePlaces ((List.range (s.ownReaps + 1)).map (fun i => .store s.myCluster (i + 1)))
      if (s.foreseen.cluster s.myCluster).storeFree then pure (0, s1.defer (.reap (c % 16) true)) else pure (-5, s1)
    else
      let t ← s.store (s.val b) (p.record p.pc).bytes
      pure (0, t.defer (.reap (c % 16) false)))

def execCtxReap (d a b : SReg) (rq : Bool) (s : State) : Host.Outcome State Fault Refusal :=
  performOut s [.s d, .s a, .s b] 8 (ctxReapRes d a b rq)

/-! ## Messages (13 R272–R274) -/

def sendRes (a b : SReg) (tag : BitVec 10) (s : State) : Res := do
  s.onlyFor (fun c => c ≠ .courier)
  let t := (s.val a).toNat
  if Config.contexts ≤ t || !s.myPod.clusters.contains (clusterOf t) || classOf t = .courier then .error (trapWith Code.perm)
  else
    let r := (s.noteS [a, b]).spLoad (s.val b) 64
    pure (r.2.defer (.send t tag ((List.range 8).map (fun i => word (blockWord r.1 (8 * i))))))

def execSend (a b : SReg) (tag : BitVec 10) (s : State) : Host.Outcome State Fault Refusal :=
  performOut s [.none, .s a, .s b] 8 (sendRes a b tag)

def recvRes (d a : SReg) (off : BitVec 30) (s : State) : Res :=
  let k := s.core s.myCore
  match k.first .ordinary s.cur with
  | none => .error (s.mayBlock .recv (word s.cur))
  | some m =>
    let s1 := (s.noteS [a]).setCore s.myCore (k.takeMsg m)
    (s1.spStore (s.ea a off) (m.words.flatMap (fun w => leBytes 8 w.toNat))).map (·.putS d m.hdr)

def execRecv (d a : SReg) (off : BitVec 30) (s : State) : Host.Outcome State Fault Refusal :=
  single s [.s d, .s a] (fun s => .ok s) (recvRes d a off)

/-! ## Gangs (12 R252, 13 R275) -/

def gangFormRes (a : SReg) (tag : BitVec 16) (s : State) : Res :=
  let v := (s.val a).toNat
  let first := bits v 0 3
  let last := bits v 4 3
  let own := s.myCore % 8
  if v / 128 ≠ 0 || bits v 3 1 ≠ 0 || last ≤ first || own < first || last < own then .ok (s.noteS [a])
  else .ok ((s.noteS [a]).gangStep (.form first last tag))

def execGangForm (a : SReg) (tag : BitVec 16) (s : State) : Host.Outcome State Fault Refusal :=
  perform s [.none, .s a] 8 (gangFormRes a tag)

def execGangJoin (tag : BitVec 16) (s : State) : Host.Outcome State Fault Refusal :=
  perform s [] 8 (fun s => .ok (s.gangStep (.join tag s.me.p.pc)))

def execGangLeave (s : State) : Host.Outcome State Fault Refusal := perform s [] 8 (fun s => .ok (s.gangStep .leave))

/-! ## Cancels and counters (13 R276, R277) -/

def cancelOp (level : Nat) (a : SReg) (c : BitVec 8) (s : State) : Host.Outcome State Fault Refusal :=
  perform s [.none, .s a] 8 (fun s => .ok ((s.noteS [a]).defer (.cancel level (((s.val a).toNat + c.toNat) % 256))))

def execCancelLaunch (a : SReg) (c : BitVec 8) (s : State) : Host.Outcome State Fault Refusal := cancelOp 0 a c s
def execCancelGraph (a : SReg) (c : BitVec 8) (s : State) : Host.Outcome State Fault Refusal := cancelOp 1 a c s
def execCancelPhase (a : SReg) (c : BitVec 8) (s : State) : Host.Outcome State Fault Refusal := cancelOp 2 a c s
def execCancelJob (a : SReg) (c : BitVec 8) (s : State) : Host.Outcome State Fault Refusal := cancelOp 3 a c s

/-- The counter at the chunk's place in the commit order: a cancel of the chunk whose commit is pending comes before it (13 R277). -/
def execCntRead (d a : SReg) (s : State) : Host.Outcome State Fault Refusal :=
  perform s [.s d, .s a] 8 (fun s =>
    let n := (s.val a).toNat % 256
    .ok (((s.noteS [a]).notePlaces [.cnt s.myPodId n]).putS d ((s.afterPending.pod s.myPodId).cntWord n)))

end Sys2Proof.Machine
end

