-- ==== Sys2Proof/Machine/HostCmds.lean ====
section
/-! DEFINITION. The commands of the Husk (15 R289–R296, R308, R310, 03 R79). -/

namespace Sys2Proof.Machine

/-! ## Clearing and residency -/

/-- Takes every frame of a virtual device (15 R302): its units leave stage 2, their frames read as zero. -/
def State.clearFrames (s : State) (v : Nat) : State :=
  let x := s.vf v
  let mine (line : Nat) : Bool := x.stage2.any (fun m => m.2 = line * 64 / unitBytes)
  let mem := x.stage2.foldl (fun (m : Memory) u => m.clear (u.2 * unitBytes) ((u.2 + 1) * unitBytes)) s.mem
  let iv := { s.ivals with undo := s.ivals.undo.filter (fun u => !mine u.line) }
  { s with mem := mem, clean := s.clean.filter (fun f => !mine (f * 1024)), poison := s.poison.filter (fun l => !mine l), ivals := iv }.setVf v
    { x with stage2 := [] }

/-- A pod leaves its clusters: they are zeroed, a switch of its group ends, and another pod of the group may follow. -/
def State.vacate (s : State) (pid : Nat) : State :=
  let p := s.pod pid
  if p.resident then
    let s := (s.podCtxs p).foldl (fun s c => (s.leaveTokenq c).dropTicket c) s
    let s := (s.setPod pid { p with resident := false }).zero p.clusters
    s.setGroup p.group { (s.group p.group).ended with resident := none }
  else s

/-- A share group with no pod left has no clusters. -/
def State.dropGroup (s : State) (g : Nat) : State :=
  if (s.podsOf g).isEmpty then s.setGroup g { (s.group g).ended with clusters := [], resident := none, misses := 0 } else s

/-! ## Virtual devices (15 R289, R291) -/

/-- `BIND_VF` (15 R289). -/
def bindBody (s : State) (t : Taken) : Done :=
  let v := t.e.a0
  let x := s.vf v
  if v < 1 || 512 < v then refuse s HRes.malformed
  else if x.policy.isSome then refuse s HRes.state
  else if t.e.len ≠ policyBytes || t.e.blk = 0 then refuse s HRes.malformed
  else match policyOf (s.hostMem.readBytes t.e.blk policyBytes) s.chipNum with
    | none => refuse s HRes.malformed
    | some p =>
      if !policySigs (s.hostMem.readBytes t.e.blk policyBytes) then refuse s HRes.integrity
      else if p.memGib < t.e.a1 then refuse s HRes.policy
      else
        let y : Vf := { x with policy := some p, gen := x.gen + 1, grant := t.e.a1, cmdKey := none, seq := 0, windows := [], root1 := none,
                               stage2 := [], pri := [], atc := [] }
        let s := s.setVf v y
        let hd := s.vfHandle v
        (HRes.ok, hd, s.setVf v { y with handle := hd })

def execBindVf (h : HostIn) (s : State) : Host.Outcome State Fault Refusal := husk 3 true false h bindBody s

/-- `UNBIND_VF` (15 R291, R302): the interval closes first (16 R325). -/
def unbindBody (s : State) (t : Taken) : Done :=
  match t.vf s with
  | none => refuse s HRes.handle
  | some v =>
    if s.pods.any (fun p => p.2.vf = v) || !(s.vf v).windows.isEmpty then refuse s HRes.state
    else
      let s := s.closeFirst.clearFrames v
      (HRes.ok, 0, s.setVf v { s.vf v with policy := none, cmdKey := none, seq := 0, root1 := none, pri := [], atc := [] })

def execUnbindVf (h : HostIn) (s : State) : Host.Outcome State Fault Refusal := husk 4 true false h unbindBody s

/-! ## Pods (15 R282, R290–R294, 16 R314) -/

/-- The share group of a cluster map: one with exactly these clusters and room, or a new one that no other meets. -/
def State.mapGroup (s : State) (cls : List Nat) : Option Nat :=
  let live := s.groups.filter (fun g => !g.2.clusters.isEmpty)
  match live.find? (fun g => g.2.clusters = cls) with
  | some g => if (s.podsOf g.1).length < 64 then some g.1 else none
  | none =>
    if live.all (fun g => g.2.clusters.all (fun c => !cls.contains c)) && live.length ≤ 23 then
      (List.range 24).find? (fun n => (s.group n).clusters.isEmpty)
    else none

/-- Save units in use (16 R314). -/
def State.saveUnits (s : State) : Nat := ((s.pods.filter (fun p => p.2.state ≠ .evicted)).map (fun p => p.2.clusters.length)).sum

/-- A group takes the clusters it is given. -/
def State.openGroup (s : State) (g : Nat) (cls : List Nat) : State :=
  if (s.group g).clusters.isEmpty then s.setGroup g { s.group g with clusters := cls, lastTick := s.refTime } else s

def clusterMap (a0 a1 : Nat) : List Nat := bitList (a0 % 2 ^ 64 + a1 % 2 ^ 64 * 2 ^ 64) 128

/-- The pod that `ALLOC_POD` makes. -/
def newPod (p : Policy) (v idx g : Nat) (cls : List Nat) (b : AllocBlock) : Pod :=
  { vf := v, idx := idx, clusters := cls, group := g, ranges := b.ranges, heapBase := b.heapBase, full := !p.reportOk, quota := p.quotaMin,
    slice := p.sliceMin, power := p.powShare, svctgt := cls.getD 0 0 * 128 }

/-- `ALLOC_POD` (15 R293). -/
def allocBody (s : State) (t : Taken) : Done :=
  match t.vf s with
  | none => refuse s HRes.handle
  | some v => match t.block s v (some 288) with
    | .error r => refuse s r
    | .ok (bs, s1) => match allocBlock bs, (s.vf v).policy with
      | some b, some p =>
        let cls := clusterMap t.e.a0 t.e.a1
        let mine := s.pods.filter (fun x => x.2.vf = v)
        if p.podMax ≤ mine.length || cls.isEmpty || p.clMax < cls.length then refuse s HRes.policy
        else match s.mapGroup cls, (List.range 24).find? (fun i => mine.all (fun x => x.2.idx ≠ i)) with
          | some g, some idx =>
            if 512 < s.saveUnits + cls.length || 512 ≤ s.pods.length then refuse s HRes.resource
            else if !mine.isEmpty && (s.vf v).root1 ≠ some b.root1 then refuse s HRes.state
            else
              let s := s1.setVf v { s1.vf v with root1 := some b.root1 }
              let pid := podKey v idx
              let s := (s.setPod pid (newPod p v idx g cls b)).openGroup g cls
              let hd := s.podHandle pid
              (HRes.ok, hd, s.setPod pid { s.pod pid with handle := hd })
          | _, _ => refuse s HRes.resource
      | _, _ => refuse s HRes.malformed

def execAllocPod (h : HostIn) (s : State) : Host.Outcome State Fault Refusal := husk 1 true false h allocBody s

/-- `FREE_POD`: the interval closes first (16 R325). -/
def freeBody (s : State) (t : Taken) : Done :=
  match t.pod s with
  | none => refuse s HRes.handle
  | some pid =>
    if (s.pod pid).state = .active then refuse s HRes.state
    else
      let s := s.closeFirst.vacate pid
      let g := (s.pod pid).group
      (HRes.ok, 0, ({ s with pods := adel s.pods pid }.dropGroup g).carryPod pid)

def execFreePod (h : HostIn) (s : State) : Host.Outcome State Fault Refusal := husk 2 true true h freeBody s

/-- A record of a command for replay (16 R330). -/
def State.record (s : State) (pid : Nat) (x : Logged) : State :=
  if (s.pod pid).replay.isNone then s.setPod pid { s.pod pid with log := (s.pod pid).log ++ [x] } else s

/-- The roles of an image start, in the reserve until the pod is resident (03 R79). -/
def State.startImage (s : State) (pid : Nat) (i : Image) : State :=
  let p := s.pod pid
  let s := s.setPod pid { p with image := some i, state := .active, saved := some (i.started p.clusters.length), svctgt := i.target p.clusters,
                                 errored := false }
  s.fillGroup p.group pid

/-- `LOAD_IMAGE` (03 R75–R80). -/
def loadBody (h : HostIn) (s : State) (t : Taken) : Done :=
  match t.pod s with
  | none => refuse s HRes.handle
  | some pid => match t.block s (s.pod pid).vf none with
    | .error r => refuse s r
    | .ok (bs, s1) =>
      let p := s.pod pid
      if p.state ≠ .empty then refuse s HRes.state
      else match imageOf bs p.clusters.length with
        | none => refuse s HRes.image
        | some (i, ss) => match s1.mapUnits p.vf (ss.flatMap Sect.units) h.frames with
          | none => refuse s HRes.resource
          | some s2 =>
            let ps := ss.flatMap (s2.sectPages p.vf bs)
            (HRes.ok, 0, ((s2.writePages ps).record pid (.loaded i ps)).startImage pid i)

def execLoadImage (h : HostIn) (s : State) : Host.Outcome State Fault Refusal := husk 5 true true h (loadBody h) s

/-- Does `f` with a pod on its clusters, where another may be resident. -/
def State.asResident {α : Type} (s : State) (pid : Nat) (f : State → State × α) : State × α :=
  let p := s.pod pid
  if p.resident then f s
  else
    let there := s.imageOf p.clusters
    let other := (s.group p.group).resident
    let s0 := s.zero p.clusters
    let s0 := match other with | some o => s0.setPod o { s0.pod o with resident := false } | none => s0
    let s1 := (s0.setPod pid { p with resident := true }).putImage p.clusters (p.saved.getD {})
    let (s2, a) := f s1
    let s3 := (s2.setPod pid { s2.pod pid with resident := false, saved := some (s2.imageOf p.clusters) }).zero p.clusters
    let s4 : State := { s3 with ctxs := there.ctxs.foldl (fun l x => aput l (absNum p.clusters 128 x.1) x.2) s3.ctxs,
                                cores := there.cores.foldl (fun l x => aput l (absNum p.clusters 8 x.1) x.2) s3.cores,
                                clusters := there.clusters.foldl (fun l x => aput l (absNum p.clusters 1 x.1) x.2) s3.clusters }
    (match other with | some o => s4.setPod o { s4.pod o with resident := true } | none => s4, a)

/-- A virtual device whose host windows are translated as far as its function may reach them (15 R295, R311): the Husk's own reads wait
for no unit. -/
def Vf.reached (v : Vf) (busOk : Bool) : Vf :=
  if busOk then { v with atc := v.windows.flatMap (fun w =>
    if w.2.kind = 1 then (List.range (w.2.size / 65536 + 1)).map (· + w.2.tgt / 65536) else []) } else v

/-- A block of memory that the Husk reads for a virtual device; none where it cannot (15 R291, 03 R74). `busOk` says whether the function
may reach the host memory among it. -/
def State.huskRead (s : State) (v : Nat) (busOk : Bool) (va : Word) (n : Nat) : Option (List Byte) :=
  if va.toNat % n ≠ 0 && n = 128 then none
  else
    (pieces 3 va n).foldl (fun (acc : Option (List Byte)) p =>
      match acc, translate s ((s.vf v).reached busOk) p.1 .read with
      | some bs, .ok (.mem pa, _) =>
        if (linesOf pa p.2).any s.poison.contains then none else some (bs ++ (List.range p.2).map (fun i => s.committed (pa + i)))
      | some bs, .ok (.host a, _) => some (bs ++ (List.range p.2).map (fun i => s.committed (hostBase + a + i)))
      -- the Husk maps a frame, which reads as zeros (15 R302, R305)
      | some bs, .error (.stage2 ipa) => if ipa < (s.vf v).grant * 2 ^ 30 then some (bs ++ List.replicate p.2 0) else none
      | _, _ => none) (some [])

/-- The acceptance of a launch from the host, at clock 0 (09 R187, 12 R243). -/
def State.hostLaunch (s : State) (pid : Nat) (l : Launch) : State × Nat :=
  s.asResident pid (fun s =>
    let r := s.accept pid 0 0 l
    (r.1.afterCommit pid 0 0, r.2))

/-- A stage-2 failure of what the Husk reads is logged (15 R305, log 41). -/
def State.logUnread (s : State) (pid : Nat) (va : Word) (n : Nat) : State :=
  if s.beyondGrant (s.vf (s.pod pid).vf) va n then s.logError 3 (some pid) (s.pod pid).vf (Config.errDetail s.moment) else s

/-- `LAUNCH` (12 R243, 03 R74). -/
def launchBody (h : HostIn) (s : State) (t : Taken) : Done :=
  match t.pod s with
  | none => refuse s HRes.handle
  | some pid => match t.block s (s.pod pid).vf (some 8) with
    | .error r => refuse s r
    | .ok (bs, s1) =>
      let p := s.pod pid
      if p.state ≠ .active && p.state ≠ .paused then refuse s HRes.state
      else match s1.huskRead p.vf h.busOk (word (field bs 0 8)) 128 with
        | none => (HRes.ok, statusWord (-10), s1.logUnread pid (word (field bs 0 8)) 128)
        | some d =>
          let at_ := word (blockWord d 0x78)
          let ext := if at_ = 0 then some (List.replicate 192 0) else if at_.toNat % 64 ≠ 0 then none else s1.huskRead p.vf h.busOk at_ 192
          let checked := (s1.asResident pid (fun s => (s, s.checkLaunch pid d ext))).2
          match checked with
          | .error i => (HRes.ok, statusWord i, if ext.isNone && at_.toNat % 64 = 0 then s1.logUnread pid at_ 192 else s1)
          | .ok l =>
            let (s2, slot) := s1.hostLaunch pid l
            (HRes.ok, word slot, s2.record pid (.launch l))

def execLaunchCommand (h : HostIn) (s : State) : Host.Outcome State Fault Refusal := husk 6 true true h (launchBody h) s

/-- `PAUSE`: of a resident pod it takes effect, and completes, at the switch-out (15 R291, R292). -/
def execPause (h : HostIn) (s : State) : Host.Outcome State Fault Refusal :=
  if !s.mayTakeCmd h.q 7 then .next s
  else
    let t : Taken := ⟨s.nextEntry h.q, queueFn h.q⟩
    let s1 := s.takeEntry h.q
    match t.check s1 true false, t.pod s1 with
    | some r, _ => happens s (s1.complete h.q t.e.tag r 0)
    | none, none => happens s (s1.complete h.q t.e.tag HRes.handle 0)
    | none, some pid =>
      let p := s1.pod pid
      if p.state ≠ .active then happens s (s1.complete h.q t.e.tag HRes.state 0)
      else if p.resident then .next (s1.setPod pid { p with pausing := some (h.q, t.e.tag) })
      else happens s (((s1.setPod pid { p with state := .paused }).record pid (.command 7 0)).complete h.q t.e.tag HRes.ok 0)

/-- The clusters that `RESUME` and `RESTORE` give an evicted pod, with their group. -/
def State.newPlace (s : State) (pid : Nat) (t : Taken) : Option (Nat × List Nat) :=
  let p := s.pod pid
  let cls := clusterMap t.e.a0 t.e.a1
  if p.state ≠ .evicted then some (p.group, p.clusters)
  else if cls.length ≠ p.clusters.length || 512 < s.saveUnits + cls.length then none
  else (s.mapGroup cls).map (fun g => (g, cls))

/-- A pod takes its place on other clusters, with everything that names them (15 R294). -/
def State.movePod (s : State) (pid g : Nat) (cls : List Nat) : State :=
  let p := s.pod pid
  if p.clusters = cls then (s.setPod pid { p with group := g }).openGroup g cls
  else
    let a := p.clusters
    let s := s.setPod pid { p with
      clusters := cls, group := g, saved := p.saved.map (PodImage.move a cls), svctgt := moveCtx a cls p.svctgt,
      partials := p.partials.map (fun x => { x with core := moveCore a cls x.core }) }
    -- what it has posted to other pods' agents keeps its sender
    let sent (o : RemoteOp) : RemoteOp := if o.pod = pid then o.move a cls else o
    let s : State := { s with cores := s.cores.map (fun k => (k.1, { k.2 with agent := k.2.agent.map sent })) }
    s.openGroup g cls

/-- `RESUME`: the interval closes first (16 R325). Of an evicted pod it takes the blob of the latest `EVICT` and no other byte
sequence (15 R294; log 11). -/
def resumeBody (s : State) (t : Taken) : Done :=
  match t.pod s with
  | none => refuse s HRes.handle
  | some pid =>
    let p := s.pod pid
    if p.state ≠ .paused && p.state ≠ .evicted then refuse s HRes.state
    else match s.newPlace pid t with
      | none => refuse s HRes.resource
      | some (g, cls) =>
        if p.state = .evicted && !(t.e.len = p.blob.length && s.hostMem.readBytes t.e.blk t.e.len = p.blob) then refuse s HRes.integrity
        else
          let s := s.closeFirst.movePod pid g cls
          (HRes.ok, 0, ((s.setPod pid { s.pod pid with state := .active, blob := [] }).fillGroup g pid).carryPod pid)

def execResume (h : HostIn) (s : State) : Host.Outcome State Fault Refusal := husk 8 true false h resumeBody s

/-- `EVICT`: the blob goes to the host, and holds what the model keeps as the pod's saved state (15 R294). -/
def evictBody (s : State) (t : Taken) : Done :=
  match t.pod s with
  | none => refuse s HRes.handle
  | some pid =>
    let n := (s.pod pid).evictions + 1
    let blob := Config.evictBlob (s.pod pid).vf (s.vf (s.pod pid).vf).gen.toNat n s.moment
    if (s.pod pid).state ≠ .paused then refuse s HRes.state
    else if t.e.len < blob.length || t.e.blk = 0 then refuse s HRes.resource (word blob.length)
    else
      let s := s.closeFirst
      let p := s.pod pid
      let s := { s with hostMem := s.hostMem.writeBytes t.e.blk blob }.setPod pid { p with state := .evicted, evictions := n, blob := blob }
      (HRes.ok, word blob.length, s.dropGroup p.group)

def execEvict (h : HostIn) (s : State) : Host.Outcome State Fault Refusal := husk 9 true false h evictBody s

/-- `RESTORE`: the image starts again on zeroed state (15 R291, 12 R238). -/
def State.restorePod (s : State) (pid : Nat) : State :=
  let s := (s.cleanRecords pid (fun x => { x with recs := voidFrom 0 x.recs })).vacate pid
  let p := s.pod pid
  let s := s.setPod pid { p with cnts := [], launches := [], partials := [], saved := none, blob := [], probe := none }
  match p.image with
  | some i => s.startImage pid i
  | none => s

def restoreBody (s : State) (t : Taken) : Done :=
  match t.pod s with
  | none => refuse s HRes.handle
  | some pid =>
    if (s.pod pid).state = .empty then refuse s HRes.state
    else match s.newPlace pid t with
      | none => refuse s HRes.resource
      | some (g, cls) =>
        -- a replay in progress ends with the state it was to make
        let s := s.setPod pid { s.pod pid with replay := none, interval := none, owed := [], asked := [] }
        (HRes.ok, 0, ((s.movePod pid g cls).record pid (.restored g cls)).restorePod pid)

def execRestore (h : HostIn) (s : State) : Host.Outcome State Fault Refusal := husk 10 true true h restoreBody s

/-! ## Windows (15 R295, R306) -/

/-- Squashes the open chunks that read or wrote any of some 64 KiB pages, or whose walks read any of some page-table lines (15 R306). -/
def State.squashPages (s : State) (pages walks : List Nat) : State :=
  (s.ctxs.map (·.1)).foldl (fun s c =>
    let hits (k : Option Chunk) : Bool := match k with
      | some k => k.memLines.any (fun n => pages.contains (n / 1024) || walks.contains n)
      | none => false
    let x := s.ctx c
    if hits x.pending then s.squash c true 1 else if hits x.chunk then s.squash c false 1 else s) s

/-- The lines of the stage-1 entries of a window's pages: what a translation of them has read last. A link window changes no
translation. -/
def State.windowWalks (s : State) (v : Nat) (w : Window) : List Nat :=
  if w.kind = 0 then []
  else (List.range (w.size / 65536)).filterMap (fun i =>
    match (s.vf v).root1 with
    | none => none
    | some root => match walk s (s.vf v) (w.va + 65536 * i) walkLevels root [] with
      | .ok (_, .line n :: _) => some n
      | _ => none)

/-- The pages that a window's addresses reach now. -/
def State.windowPages (s : State) (v : Nat) (w : Window) : List Nat :=
  if w.kind = 0 then []
  else (List.range (w.size / 65536)).filterMap (fun i => match translate s (s.vf v) (word (w.va + 65536 * i)) .query with
    | .ok (.mem pa, _) => some (pa / 65536)
    | .ok (.host a, _) => some ((hostBase + a) / 65536)
    | _ => none)

/-- A change of windows recorded in the log of every pod of a virtual device; one without pods has it in the checkpoint. -/
def State.recordVf (s : State) (v : Nat) (x : Logged) : State :=
  match (s.pods.filter (fun p => p.2.vf = v)).map (·.1) with
  | [] => s.carryWindows v
  | ps => ps.foldl (fun s p => s.record p x) s

/-- A window comes into force. -/
def State.addWindow (s : State) (v n : Nat) (w : Window) : State :=
  let s := s.squashPages (s.windowPages v w) (s.windowWalks v w)
  s.setVf v { s.vf v with windows := aput (s.vf v).windows n w }

/-- A window goes: its pages return to ordinary memory, and cached translations through it are dropped. -/
def State.dropWindow (s : State) (v n : Nat) (w : Window) : State :=
  let s := s.squashPages (s.windowPages v w) (s.windowWalks v w)
  let x := s.vf v
  let gone (p : Nat) : Bool := w.kind = 1 && w.tgt ≤ p * 65536 && p * 65536 < w.tgt + w.size
  s.setVf v { x with windows := adel x.windows n, atc := x.atc.filter (fun p => !gone p) }

/-- `MAP_WINDOW`. -/
def mapBody (h : HostIn) (s : State) (t : Taken) : Done :=
  match t.vf s with
  | none => refuse s HRes.handle
  | some v => match t.block s v (some 32) with
    | .error r => refuse s r
    | .ok (bs, s1) => match windowOf bs with
      | none => refuse s HRes.malformed
      | some w =>
        let peers := match (s.vf v).policy with | some p => p.peers | none => 0
        if !(s.vf v).windowFits w then refuse s HRes.malformed
        else if w.kind ≠ 2 && peers = 0 then refuse s HRes.policy
        else if w.kind = 1 && !h.busOk then refuse s HRes.policy
        else match (List.range 16).find? (fun n => (afind? (s.vf v).windows n).isNone) with
          | none => refuse s HRes.resource
          | some n =>
            let hd := s1.winHandle v n
            (HRes.ok, hd, (s1.addWindow v n { w with handle := hd }).recordVf v (.mapped n { w with handle := hd }))

def execMapWindow (h : HostIn) (s : State) : Host.Outcome State Fault Refusal := husk 11 true true h (mapBody h) s

/-- `UNMAP_WINDOW`, one event among the pods' commits (15 R292). -/
def unmapBody (s : State) (t : Taken) : Done :=
  match s.vfs.findSome? (fun v => if t.fn = 0 || t.fn = v.1 then (v.2.windows.find? (fun w => w.2.handle = t.e.h0)).map (fun w => (v.1, w)) else none) with
  | none => refuse s HRes.handle
  | some (v, n, w) => (HRes.ok, 0, (s.dropWindow v n w).recordVf v (.command 12 t.e.h0))

def execUnmapWindow (h : HostIn) (s : State) : Host.Outcome State Fault Refusal := husk 12 true true h unmapBody s

/-! ## Quotas, slices, recovery (15 R291, R308) -/

def State.policyOf (s : State) (pid : Nat) : Option Policy := (s.vf (s.pod pid).vf).policy

def quotaBody (s : State) (t : Taken) : Done :=
  match t.pod s with
  | none => refuse s HRes.handle
  | some pid => match s.policyOf pid with
    | some p =>
      if t.e.a0 < p.quotaMin || p.quotaMax < t.e.a0 then refuse s HRes.policy
      else (HRes.ok, 0, (s.setPod pid { s.pod pid with quota := t.e.a0 }).record pid (.command 13 (word t.e.a0)))
    | none => refuse s HRes.handle

def execSetQuota (h : HostIn) (s : State) : Host.Outcome State Fault Refusal := husk 13 true false h quotaBody s

/-- A slice and a power share that come into force at the next tick. -/
def Pod.sliced (p : Pod) (slice power : Nat) : Pod :=
  { p with nextSlice := some slice, nextPower := if power = 0 then p.nextPower else some power }

def sliceBody (s : State) (t : Taken) : Done :=
  match t.pod s with
  | none => refuse s HRes.handle
  | some pid => match s.policyOf pid with
    | some p =>
      if t.e.a0 < p.sliceMin || p.sliceMax < t.e.a0 || p.powShare < t.e.a1 then refuse s HRes.policy
      else
        let x := s.pod pid
        (HRes.ok, 0, (s.setPod pid (x.sliced t.e.a0 t.e.a1)).record pid (.command 14 (word (t.e.a0 + t.e.a1 * 2 ^ 32))))
    | none => refuse s HRes.handle

def execSetSlice (h : HostIn) (s : State) : Host.Outcome State Fault Refusal := husk 14 true false h sliceBody s

def recoveryBody (s : State) (t : Taken) : Done :=
  match t.pod s with
  | none => refuse s HRes.handle
  | some pid => match s.policyOf pid with
    | some p =>
      if 1 < t.e.a0 then refuse s HRes.malformed
      else if (t.e.a0 = 0 && !p.reportOk) || (t.e.a0 = 1 && !p.fullOk) then refuse s HRes.policy
      else (HRes.ok, 0, (s.setPod pid { s.pod pid with fullNext := some (t.e.a0 = 1) }).record pid (.command 15 (word t.e.a0)))
    | none => refuse s HRes.handle

def execSetRecovery (h : HostIn) (s : State) : Host.Outcome State Fault Refusal := husk 15 true true h recoveryBody s

/-! ## Attestation and the error log (15 R296, R299) -/

/-- The measurements of a function: over the physical one's mailbox, the first two alone (15 R299). -/
def State.measurements (s : State) (fn : Nat) : List (Nat × List Byte) :=
  let both := [(1, Config.romDigest), (2, Config.deviceDigest s.chipNum)]
  if fn = 0 then both
  else match (s.vf fn).policy with
    | none => both
    | some p => both ++ [(3, p.digest), (4, Config.vfDigest fn (s.vf fn).gen.toNat)] ++
        ((s.pods.filter (fun q => q.2.vf = fn)).filterMap (fun q => q.2.image.map (fun i => (5 + q.2.idx, i.digest))))

/-- The report that an `ATTEST` of a virtual device signs: its measurements, after the nonce in the first 32 bytes of the block; how it
is laid out is the Husk's (log 9). -/
def State.report (s : State) (v : Nat) (t : Taken) : List Byte :=
  Config.report (s.hostMem.readBytes t.e.blk 32) (s.measurements v) s.moment

/-- `ATTEST`: the signed report follows the nonce. -/
def attestBody (s : State) (t : Taken) : Done :=
  match t.vf s with
  | none => refuse s HRes.handle
  | some v =>
    let out := s.report v t
    if t.e.len < 32 + out.length || t.e.blk = 0 then refuse s HRes.resource (word (32 + out.length))
    else (HRes.ok, word out.length, { s with hostMem := s.hostMem.writeBytes (t.e.blk + 32) out })

def execAttest (h : HostIn) (s : State) : Host.Outcome State Fault Refusal := husk 16 true true h attestBody s

/-- The 64 bytes of an entry; `hide` zeroes the details of kinds 1 and 3. -/
def ErrEntry.bytes (e : ErrEntry) (hide : Bool) : List Byte :=
  let w1 := e.kind + e.vf * 2 ^ 8 + e.group * 2 ^ 18 + e.idx * 2 ^ 23
  let covered : Bool := hide && e.vf ≠ 0 && (e.kind = 1 || e.kind = 3)
  leBytes 8 e.time ++ leBytes 8 w1 ++ (List.range 6).flatMap (fun i => leBytes 8 (if covered then 0 else (e.words.getD i 0).toNat))

/-- The error history as entries of kind 5 (16 R338). -/
def State.historyEntries (s : State) : List ErrEntry :=
  s.history.flatMap (fun h => h.2.map (fun r =>
    { time := s.refTime, kind := 5, words := [word h.1, word r.row, word r.count, word r.first, word r.last] }))

/-- `READ_ERRLOG`. -/
def errlogBody (s : State) (t : Taken) : Done :=
  let all : Option (List ErrEntry) :=
    if t.e.h0 = 0 then (if t.fn = 0 then some (s.errlog ++ s.historyEntries) else none)
    else (t.vf s).map (fun v => s.errlog.filter (·.vf = v))
  match all with
  | none => refuse s HRes.handle
  | some l =>
    let out := (l.drop t.e.a0).take (if t.e.blk = 0 then 0 else t.e.len / 64)
    (HRes.ok, word out.length, { s with hostMem := s.hostMem.writeBytes t.e.blk (out.flatMap (fun e => e.bytes (t.fn = 0))) })

def execReadErrlog (h : HostIn) (s : State) : Host.Outcome State Fault Refusal := husk 17 true true h errlogBody s

/-! ## Resets (15 R310) -/

/-- Commands of a virtual device's queues that have not been taken complete with STATE. -/
def State.flushQueue (s : State) (q : Nat) : Nat → State
  | 0 => s
  | f + 1 =>
    let x := s.queue q
    if x.en && x.pending ≠ 0 then
      let e := s.nextEntry q
      ((s.setQueue q { x with head := (x.head + 1) % 2 ^ x.logn }).complete q e.tag HRes.state 0).flushQueue q f
    else s

/-- Ids and groups of a pod's collectives in flight. -/
def State.collsOf (s : State) (pid : Nat) : List (BitVec 32 × Nat) :=
  let p := s.pod pid
  let ks := if p.resident then p.clusters.map s.cluster else match p.saved with | some m => m.clusters.map (·.2) | none => []
  let ids (c : Cmd) : List (BitVec 32 × Nat) := match c.kind with | .coll _ _ g _ i _ _ => [(i, g)] | _ => []
  ks.flatMap (fun k => k.engines.flatMap (fun e => e.2.store.flatMap ids ++ (match e.2.run with | some r => ids r.cmd | none => [])))

/-- Abort flits to the other members of a group. -/
def State.sendAborts (s : State) (v : Nat) (x : BitVec 32 × Nat) : State :=
  (((s.vf v).members x.2).filter (· ≠ s.chipNum)).foldl (fun s c => s.sendFlit (s.portOf 0 c) c (.abort x.1 x.2)) s

/-- A pod becomes EMPTY and keeps its INDEX, its tables and its clusters; one that `EVICT` has taken off its clusters holds none
(log 107). A `PAUSE` of it that the Husk has in hand finds it so. -/
def State.emptyPod (s : State) (pid : Nat) : State :=
  let s := s.vacate pid
  let p := s.pod pid
  let s := match p.pausing with
    | some (q, tag) => s.complete q tag HRes.state 0
    | none => s
  s.setPod pid { p with clusters := if p.state = .evicted then [] else p.clusters, state := .empty, blob := [], cnts := [], launches := [], partials := [], image := none, saved := none, errored := false,
                        probe := none, replay := none, owed := [], asked := [], interval := none, log := [], pausing := none }

/-- Handles in entries of kind 7, five each. -/
def State.logHandles (s : State) (v : Nat) (hs : List Word) : State :=
  (List.range ((hs.length + 4) / 5)).foldl (fun s i => s.logError 7 none v (word i :: (hs.drop (5 * i)).take 5)) s

/-- The queues of a virtual device. -/
def vfQueues (v : Nat) : List Nat := (List.range 4).map (· + (16 + (v - 1) * 4))

/-- The reset of a virtual device, with the handles it makes. The interval closes first (16 R325). `own` is the queue that the command
came from, whose commands complete after it. -/
def State.resetVf (s : State) (v : Nat) (own : Option Nat) : State × List Word :=
  let s := s.closeFirst
  let s := ((vfQueues v).filter (fun q => own ≠ some q)).foldl (fun s q => s.flushQueue q 65536) s
  let ps := (s.pods.filter (fun p => p.2.vf = v)).map (·.1)
  let s := ps.foldl (fun s p => (s.collsOf p).foldl (fun s x => s.sendAborts v x) s) s
  let gs := ps.map (fun p => (s.pod p).group)
  let s := ps.foldl State.emptyPod s
  let s := gs.foldl (fun s g => s.fillGroup g 0) s
  let s := s.clearFrames v
  let x := s.vf v
  let s := s.setVf v { x with gen := x.gen + 1, cmdKey := none, seq := 0, windows := [], pri := [], atc := [] }
  let hv := s.vfHandle v
  let s := s.setVf v { s.vf v with handle := hv }
  let s := ps.foldl (fun s p => s.setPod p { s.pod p with handle := s.podHandle p }) s
  let hs := hv :: ps.map (fun p => (s.pod p).handle)
  let s := (ps.foldl State.carryPod s).carryWindows v
  (s.logHandles v hs, hs)

/-- `RESET_VF` of virtual device `v` by a command from queue `q`: OUT and the state. -/
def resetBody (v q : Nat) (s : State) (t : Taken) : Word × State :=
  let (s1, hs) := s.resetVf v (some q)
  let bs := (hs.take (t.e.len / 8)).flatMap (fun h => leBytes 8 h.toNat)
  (word hs.length, if t.e.blk = 0 then s1 else { s1 with hostMem := s1.hostMem.writeBytes t.e.blk bs })

/-- What is queued behind a `RESET_VF` on a queue of its virtual device completes after it (15 R286, R310). -/
def execResetVf (h : HostIn) (s : State) : Host.Outcome State Fault Refusal :=
  if !s.mayTakeCmd h.q 18 then .next s
  else
    let t : Taken := ⟨s.nextEntry h.q, queueFn h.q⟩
    let s1 := s.takeEntry h.q
    match t.check s1 true true, t.vf s1 with
    | some r, _ => happens s (s1.complete h.q t.e.tag r 0)
    | none, none => happens s (s1.complete h.q t.e.tag HRes.handle 0)
    | none, some v =>
      let (out, s2) := resetBody v h.q s1 t
      let s3 := s2.complete h.q t.e.tag HRes.ok out
      happens s (if (vfQueues v).contains h.q then s3.flushQueue h.q 65536 else s3)

/-- An OPC that the table does not assign. -/
def execUnassignedOpc (h : HostIn) (s : State) : Host.Outcome State Fault Refusal :=
  let e := s.nextEntry h.q
  if (1 ≤ e.opc && e.opc ≤ 18) || !s.mayTakeCmd h.q e.opc then .next s
  else happens s ((s.takeEntry h.q).complete h.q e.tag HRes.malformed 0)

/-! ## Replay to its end (16 R329, R330, 16 R333) -/

/-- One record performed at its place (16 R330). -/
def State.perform1 (s : State) (pid : Nat) (x : Logged) : State :=
  let p := s.pod pid
  match x with
  | .cut n =>
    let s := s.setPod pid { p with interval := some n, fullNext := none }
    { s with ctxs := s.ctxs.map (fun c => if p.resident && p.clusters.contains (clusterOf c.1) then (c.1, { c.2 with sent := [] }) else c),
             clusters := s.clusters.map (fun k => if p.resident && p.clusters.contains k.1 then
               (k.1, { k.2 with engines := k.2.engines.map (fun e => (e.1, { e.2 with seqs := [] })) }) else k) }
  | .inbound core o => s.deliver core { kind := .active, consumer := core * 16 + 15, words := match o.kind with | .am ws => ws | _ => [] }
  | .coll m => { s with colls := s.colls ++ [m] }
  | .refusal c g => s.refuseIn pid c g
  | .launch l => (s.hostLaunch pid l).1
  | .loaded i ps => (s.writePages ps).startImage pid i
  | .restored g cls => (s.movePod pid g cls).restorePod pid
  | .mapped n w => s.addWindow p.vf n w
  | .command 12 h => match (s.vf p.vf).windows.find? (fun w => w.2.handle = h) with
    | some (n, w) => s.dropWindow p.vf n w
    | none => s
  | .leave =>
    if p.resident then
      let s := (coresOf p.clusters).foldl (fun s k => s.preempt k []) s
      let s := (s.switchOut p.group).tickPods p.group
      let next := (s.podsOf p.group).filter (fun q => q.2.state = .active && q.1 ≠ pid && (match q.2.replay with | some (_ :: _) => true | _ => false))
      match next.find? (fun q => pid < q.1), next.head? with
      | some q, _ => s.fillGroup p.group q.1
      | none, some q => s.fillGroup p.group q.1
      | none, none => s.fillGroup p.group ((s.nextPod p.group pid).getD pid)
    else s
  | .command 7 _ => s.setPod pid { p with state := .paused }
  | .command 13 a => s.setPod pid { p with quota := a.toNat }
  | .command 14 a => s.setPod pid (p.sliced (a.toNat % 2 ^ 32) (a.toNat / 2 ^ 32))
  | .command 15 a => s.setPod pid { p with fullNext := some (a = 1) }
  | .command .. | .commit .. | .end_ .. | .value .. | .refused .. | .host .. | .translation .. => s

/-- The record that a replay performs before the next commit. -/
def nextAct (l : List Logged) : Option Logged := (l.takeWhile (fun x => !x.isCommit)).find? Logged.acts

/-- A change of windows of a virtual device. -/
def Logged.isWindow : Logged → Bool
  | .mapped .. | .command 12 _ => true
  | _ => false

/-- Every FULL pod of a virtual device that replays has come to a change of windows, which is one event for all of them (15 R292). -/
def State.windowTurn (s : State) (v : Nat) (x : Logged) : Bool :=
  s.pods.all (fun p => p.2.vf ≠ v || !p.2.full || (match p.2.replay with | some l => nextAct l = some x | none => true))

/-- A record that some later read from outside takes: an answer, or a line of host memory. -/
def Logged.isAnswer : Logged → Bool
  | .value .. | .refused .. | .host .. => true
  | _ => false

/-- A replay is over: the pod continues live, with the sequence numbers of the open interval and the answers that its uncommitted work has
still to take (16 R333, R334). -/
def State.endReplay (s : State) (pid : Nat) : State :=
  let s := match (s.pod pid).interval with
    | some n => if n = s.ivals.num then s else s.perform1 pid (.cut s.ivals.num)
    | none => s
  let left := ((s.pod pid).replay.getD []).filter Logged.isAnswer
  s.setPod pid { s.pod pid with replay := none, interval := none, owed := (s.pod pid).owed ++ left }

/-- Performs the records that come before the next commit, and ends the replay when nothing is left but the ends of chunks and
what work that has not committed takes. -/
def State.replayOn (s : State) (pid : Nat) : State :=
  let v := (s.pod pid).vf
  match (s.pod pid).replay with
  | none => s
  | some l =>
    match nextAct l with
    | some x =>
      if !x.isWindow then (s.setPod pid { s.pod pid with replay := some (l.erase x) }).perform1 pid x
      else if s.windowTurn v x then
        let used (p : Pod) : Pod := if p.vf = v then { p with replay := p.replay.map (fun l => l.erase x) } else p
        State.perform1 { s with pods := s.pods.map (fun p => (p.1, used p.2)) } pid x
      else s
    | none => if l.all (fun x => x.isAnswer || (match x with | .end_ .. | .translation .. => true | _ => false)) then s.endReplay pid else s

def execReplayComplete (vf pod : Nat) (s : State) : Host.Outcome State Fault Refusal := happens s (s.replayOn (podKey vf pod))

end Sys2Proof.Machine
end

