-- ==== Sys2Proof/Machine/Stage2.lean ====
section
/-! DEFINITION. What the Husk does for accesses that wait: stage-2 faults, ATS and PRI responses, and the clearer (15 R302, R305,
R311). -/

namespace Sys2Proof.Machine

/-! ## Who waits -/

/-- What an engine context's next line waits for, with the address that would fail. -/
def State.engineNeed (s : State) (cl e : Nat) : Option (Need × Word) :=
  match (s.engine cl e).run with
  | none => none
  | some r =>
    match r.jobs, r.cmd.kind with
    | j :: _, _ =>
      match s.jobBytes cl r j.bytes with
      | .error (.wait n va) => some (n, va)
      | .error _ => none
      | .ok bs => match j.dest with
        | .spm _ => none
        | .mem va =>
          match s.engXlate cl r.cmd (r.cmd.kind.elemOf (va + word ((bs.map (·.1)).min?.getD 0))) .write with
          | .error (.wait n va) => some (n, va)
          | _ => none
        | .glob g =>
          if (globOf g).chip ≠ s.chipNum then none
          else match s.remoteTarget s.chipNum (s.cmdVfId cl) 0 g true with
            | .ok (.wait n) => some (n, g)
            | _ => none
    | [], .coll _ bf _ n _ a _ =>
      if r.foDone then none
      else (List.range n).findSome? (fun j => match s.collElem cl r a bf j with
        | .error (.wait n va) => some (n, va)
        | _ => none)
    | [], _ => none

/-- What the first operation at a core's agent that waits for a translation waits for, with its virtual device. -/
def State.agentNeed (s : State) (core : Nat) : Option (Need × Nat × RemoteOp) :=
  (s.core core).agent.findSome? (fun o =>
    match o.kind with
    | .am _ => none
    | k =>
      let write : Bool := match k with | .rld => false | _ => true
      match s.remoteTarget o.srcChip o.vf o.tenant o.addr write, s.remoteVf o.srcChip o.vf o.tenant with
      | .ok (.wait n), some v => some (n, v, o)
      | _, _ => none)

/-! ## Ending an access (15 R305) -/

/-- An access of a context ends: a unit or courier as by a KILL, a supervisor STOPPED, with the error interrupt if it is the service
target. -/
def State.endAccess (s : State) (c : Nat) : State :=
  let s1 := s.logError 3 (s.podOf c) (s.vfOf c) (Config.errDetail s.moment)
  match classOf c with
  | .unit =>
    -- a counter that it cancels tells at once on what depends on it (12 R240)
    match s1.podOf c with
    | some p => (s1.removeUnit c).settleDeps p (s1.ctx c).clock c
    | none => s1.removeUnit c
  | cls =>
    let x := s1.ctx c
    let s2 := if (x.chunk).isSome || (x.pending).isSome then s1.squash c true 3 else s1
    let s3 := (s2.setCtx c { (s2.ctx c).abandon with status := .stopped .killed, ceased := s.refTime }).dropTicket c
    match cls, s3.podOf c with
    | .supervisor, some p => if (s3.pod p).svctgt = c then s3.raiseVector (s3.pod p).vf 0 else s3
    | _, _ => s3

/-- An operation at an agent is refused. -/
def State.endRemote (s : State) (core v : Nat) (o : RemoteOp) : State :=
  let s1 := s.logError 3 none v (Config.errDetail s.moment)
  let k := s1.core core
  (s1.setCore core { k with agent := k.agent.erase o }).respond o (.refused 2)

/-- An engine command fails with XLATE. -/
def State.endEngine (s : State) (cl e : Nat) (va : Word) : State :=
  match (s.engine cl e).run with
  | some r => (s.logError 3 (s.podAt cl) (s.cmdVfId cl) (Config.errDetail s.moment)).failCmd cl e r EngErr.xlate va
  | none => s

/-- A context that waited runs again. -/
def State.resumeOut (s : State) (c : Nat) : State := s.setCtx c { s.ctx c with status := .runnable }

/-- A translation that the host or the Husk has given, recorded by the FULL pods of a virtual device (16 R329). -/
def State.logTranslation (s : State) (v : Nat) (host : Bool) (at_ frame : Nat) : State :=
  ((s.pods.filter (fun p => p.2.vf = v)).map (·.1)).foldl (fun s p => s.logFor (some p) (.translation host at_ frame)) s

/-- Serves the fault at an intermediate address: below the grant the chosen unit is mapped, and none where it may not be; above it the
access ends. -/
def State.serveFrame (s : State) (v ipa unit : Nat) (more : State → State) (fin : State) : State :=
  if ipa < (s.vf v).grant * 2 ^ 30 then
    if ((afind? (s.vf v).stage2 (ipa / unitBytes)).isSome) then more s
    else if s.unitFree unit then more ((s.mapUnit v ipa unit).logTranslation v false (ipa / unitBytes) unit)
    else s
  else fin

/-- The Husk serves the access of context `c`, of the agent of core `c` − 16384, or of an engine context, from 32768 on. -/
def execStage2Fault (c : Nat) (frame : Nat) (s : State) : Host.Outcome State Fault Refusal :=
  if c < 16384 then
    match (s.ctx c).status with
    | .out (.stage2 ipa) => happens s (s.serveFrame (s.vfOf c) ipa frame (fun t => t.resumeOut c) (s.endAccess c))
    | _ => .next s
  else if c < 32768 then
    match s.agentNeed (c - 16384) with
    | some (.frame ipa, v, o) => happens s (s.serveFrame v ipa frame id (s.endRemote (c - 16384) v o))
    | _ => .next s
  else
    let cl := (c - 32768) / 16
    let e := (c - 32768) % 16
    match s.engineNeed cl e with
    | some (.frame ipa, va) => happens s (s.serveFrame (s.cmdVfId cl) ipa frame id (s.endEngine cl e va))
    | _ => .next s

/-! ## ATS and PRI (15 R311) -/

/-- Contexts of a virtual device that wait for a page of host memory. -/
def State.waitPage (s : State) (v page : Nat) : List Nat :=
  (s.ctxs.filter (fun x => x.2.status = .out (.ats page) && s.vfOf x.1 = v)).map (·.1)

/-- A host window of the device covers the page. -/
def Vf.hostPage (v : Vf) (page : Nat) : Bool :=
  v.windows.any (fun w => w.2.kind = 1 && w.2.tgt < (page + 1) * 65536 && page * 65536 < w.2.tgt + w.2.size)

/-- A response of another generation: dropped, and counted in the error log. -/
def State.staleResponse (s : State) (v : Nat) : State := s.logError 4 none v (Config.errDetail s.moment)

/-- Page requests that a function may have outstanding (18 R344). -/
def pageRequests : Nat := 512

/-- A translation response for the page that its tag names: installed, or followed by a page request, where one more may be outstanding;
else the accesses ask for the translation again. -/
def execAtsResponse (vf tag : Nat) (gen : BitVec 8) (ok : Bool) (s : State) : Host.Outcome State Fault Refusal :=
  let x := s.vf vf
  if gen ≠ x.gen then .next (s.staleResponse vf)
  else if !x.hostPage tag then .next s
  else if ok then
    let s1 := (s.setVf vf { x with atc := nput x.atc tag, pri := x.pri.filter (· ≠ tag) }).logTranslation vf true tag tag
    happens s ((s.waitPage vf tag).foldl State.resumeOut s1)
  else if x.pri.length < pageRequests then .next (s.setVf vf { x with pri := nput x.pri tag })
  else .next s

/-- Every access that waits for a page ends. -/
def State.endPage (s : State) (v page : Nat) : State :=
  let s := (s.waitPage v page).foldl State.endAccess s
  let s := (s.cores.map (·.1)).foldl (fun s k => match s.agentNeed k with
    | some (.page p, w, o) => if p = page && w = v then s.endRemote k v o else s
    | _ => s) s
  (s.clusters.map (·.1)).foldl (fun s cl => ((s.cluster cl).engines.map (·.1)).foldl (fun s e => match s.engineNeed cl e with
    | some (.page p, va) => if p = page && s.cmdVfId cl = v then s.endEngine cl e va else s
    | _ => s) s) s

/-- A page-request group response: the accesses ask again, or end where the page cannot be had. -/
def execPriResponse (vf tag : Nat) (gen : BitVec 8) (ok : Bool) (s : State) : Host.Outcome State Fault Refusal :=
  let x := s.vf vf
  if gen ≠ x.gen then .next (s.staleResponse vf)
  else if !x.pri.contains tag then .next s
  else
    let s1 := s.setVf vf { x with pri := x.pri.filter (· ≠ tag) }
    happens s (if ok then (s1.waitPage vf tag).foldl State.resumeOut s1 else s1.endPage vf tag)

/-- The background clearer has rewritten a frame as zeros (15 R302). -/
def execClearerRewrite (frame : Nat) (s : State) : Host.Outcome State Fault Refusal :=
  if frame * 65536 < Config.physBytes && !s.clean.contains frame then .next { s with clean := nput s.clean frame } else .next s

end Sys2Proof.Machine
end

