-- ==== Sys2Proof/Machine/Package.lean ====
section
/-! DEFINITION. SPDM and the device interfaces (15 R297–R299), bring-up, the I3C target and power (18 R351–R355). -/

namespace Sys2Proof.Machine

/-! ## SPDM (15 R297, R298) -/

/-- The DOE mailboxes answer (18 R352 step 1), unless the link is down (18 R344). -/
def State.mailboxes (s : State) : Bool := !s.linkDown && 1 ≤ s.bring

/-- Types of DOE objects: discovery, CMA-SPDM, secured CMA-SPDM (15 R298; log 37). -/
def doeTypes : List Nat := [0, 1, 2]

/-- The largest object: 64 KiB (15 R298). A larger message would need a CHUNK transfer, which is not supported (15 R297). -/
def doeBytes : Nat := 65536

/-- What a mailbox answers to discovery: the type at an index, and the next index, 0 after the last. -/
def doeFound (i : Nat) : DoeOut :=
  match doeTypes[i]? with
  | some t => .object t (if i + 1 < doeTypes.length then i + 1 else 0)
  | none => .error

/-- A request belongs to a session, and so comes secured, or does not; or it may come either way (15 R297). -/
inductive SpdmPhase where
  | plain | secured | either
  deriving DecidableEq, Repr

/-- A request in an object of the type that its phase needs. -/
def SpdmPhase.fits (p : SpdmPhase) (m : SpdmIn) : Bool :=
  match p, m.obj with
  | .plain, .cmaSpdm | .secured, .securedSpdm | .either, .cmaSpdm | .either, .securedSpdm => true
  | _, _ => false

/-- Algorithms are agreed, and an object of a session comes in a session that has finished its handshake. -/
def Spdm.agreed (m : SpdmIn) (x : Spdm) : Bool := x.algs && (match m.obj with | .securedSpdm => x.finished | _ => true)

/-- An object in a mailbox: discovery is answered; a request has its effect, and the answer `out`, where its object is no longer than 64
KiB and of its type and the connection admits it (log 37), and is answered with an error otherwise. -/
def spdm (m : SpdmIn) (phase : SpdmPhase) (admits : Spdm → Bool) (f : State → Spdm → State × Spdm) (s : State)
    (out : DoeOut := .message (Config.spdmBytes s.moment)) : Host.Outcome State Fault Refusal :=
  if !s.mailboxes || 512 < m.fn || doeBytes < m.len then .next s
  else
    let x := aget {} s.spdm m.fn
    let put (t : State) (y : Spdm) (o : DoeOut) : State := { t with spdm := aput t.spdm m.fn { y with outbox := y.outbox ++ [o] } }
    match m.obj with
    | .discovery i => .next (put s x (doeFound i))
    | _ =>
      if phase.fits m && m.ok && admits x then
        let r := f s x
        .next (put r.1 r.2 out)
      else .next (put s x .error)

/-- A request has no effect on the connection. -/
def spdmRead (s : State) (x : Spdm) : State × Spdm := (s, x)

def execGetVersion (m : SpdmIn) (s : State) : Host.Outcome State Fault Refusal :=
  spdm m .plain (fun _ => true) (fun s x => (s, { version := true, keyGen := x.keyGen, outbox := x.outbox })) s
def execGetCapabilities (m : SpdmIn) (s : State) : Host.Outcome State Fault Refusal :=
  spdm m .plain (·.version) (fun s x => (s, { x with caps := true })) s

/-- Algorithms are agreed where the request offers those of 15 R297. -/
def execNegotiateAlgorithms (m : SpdmIn) (s : State) : Host.Outcome State Fault Refusal :=
  spdm m .plain (fun x => x.caps && m.algs.ecdsaP384 && m.algs.sha384 && m.algs.secp384r1 && m.algs.aes256gcm)
    (fun s x => (s, { x with algs := true })) s
def execGetDigests (m : SpdmIn) (s : State) : Host.Outcome State Fault Refusal := spdm m .either (Spdm.agreed m) spdmRead s

/-- Slot 0 alone holds a certificate chain (15 R297). -/
def execGetCertificate (m : SpdmIn) (s : State) : Host.Outcome State Fault Refusal :=
  spdm m .either (fun x => Spdm.agreed m x && m.slot = 0) spdmRead s
def execChallenge (m : SpdmIn) (s : State) : Host.Outcome State Fault Refusal := spdm m .plain (fun x => x.algs && m.slot = 0) spdmRead s

/-- The measurements of the mailbox's function (15 R299). -/
def execGetMeasurements (m : SpdmIn) (s : State) : Host.Outcome State Fault Refusal :=
  spdm m .either (Spdm.agreed m) spdmRead s (.measurements (s.measurements m.fn) (Config.spdmBytes s.moment))

/-- The key exchange under the chain of slot 0, without mutual authentication (15 R297). -/
def execKeyExchange (m : SpdmIn) (s : State) : Host.Outcome State Fault Refusal :=
  spdm m .plain (fun x => x.algs && m.slot = 0 && !m.mutual_) (fun s x => (s, { x with session := true, finished := false, keyGen := 0 })) s
def execFinish (m : SpdmIn) (s : State) : Host.Outcome State Fault Refusal :=
  spdm m .secured (fun x => x.session && !m.mutual_) (fun s x => (s, { x with finished := true })) s
def execKeyUpdate (m : SpdmIn) (s : State) : Host.Outcome State Fault Refusal :=
  spdm m .secured (·.finished) (fun s x => (s, { x with keyGen := x.keyGen + 1 })) s
def execHeartbeat (m : SpdmIn) (s : State) : Host.Outcome State Fault Refusal := spdm m .secured (·.finished) spdmRead s
def execEndSession (m : SpdmIn) (s : State) : Host.Outcome State Fault Refusal :=
  spdm m .secured (·.finished) (fun s x => (s, { x with session := false, finished := false })) s

/-- SET_CMDKEY: the 32-byte command key of a bound virtual device; the accepted SEQ becomes 0 (15 R299). -/
def execSetCmdkey (m : SpdmIn) (s : State) : Host.Outcome State Fault Refusal :=
  spdm m .secured (fun x => x.finished && m.fn ≠ 0 && (s.vf m.fn).policy.isSome && m.body.length = 32)
    (fun s x => (s.setVf m.fn { s.vf m.fn with cmdKey := some m.body, seq := 0 }, x)) s

/-- IDE_KM programs the keys of a selective stream, of which there are 64; the first byte of the body names it (log 37). -/
def execIdeKm (m : SpdmIn) (s : State) : Host.Outcome State Fault Refusal :=
  let stream := (m.body.getD 0 0).toNat
  spdm m .secured (fun x => x.finished && stream < 64) (fun s x => ({ s with ide := nput s.ide stream }, x)) s

/-! ## Device interfaces (15 R298) -/

def State.setTdi (s : State) (vf : Nat) (t : Tdi) : State := s.setVf vf { s.vf vf with tdi := t }

def isVf (vf : Nat) : Bool := 1 ≤ vf && vf ≤ 512

def execLockInterface (vf : Nat) (s : State) : Host.Outcome State Fault Refusal :=
  if s.mailboxes && isVf vf && (s.vf vf).tdi = .configUnlocked then .next (s.setTdi vf .configLocked) else .next s

def execStartInterface (vf : Nat) (s : State) : Host.Outcome State Fault Refusal :=
  if s.mailboxes && isVf vf && (s.vf vf).tdi = .configLocked then .next (s.setTdi vf .run) else .next s

/-- A move out of RUN performs `RESET_VF` first. -/
def State.leaveRun (s : State) (vf : Nat) (t : Tdi) : State :=
  if (s.vf vf).tdi = .run then (s.resetVf vf none).1.setTdi vf t else s.setTdi vf t

/-- The reset that a move out of RUN performs waits until the cut of its interval can fall (16 R325, R326). -/
def State.mayLeave (s : State) (vf : Nat) : Bool := (s.vf vf).tdi ≠ .run || s.mayCut

def execStopInterface (vf : Nat) (s : State) : Host.Outcome State Fault Refusal :=
  if s.mailboxes && isVf vf && s.mayLeave vf then arrives s (s.leaveRun vf .configUnlocked) else .next s

def execTdiError (vf : Nat) (s : State) : Host.Outcome State Fault Refusal :=
  if s.mailboxes && isVf vf && (s.vf vf).tdi = .run && s.mayLeave vf then arrives s (s.leaveRun vf .error) else .next s

/-- The state that the interface reports. -/
def execGetDeviceInterfaceState (vf : Nat) (s : State) : Host.Outcome State Fault Refusal :=
  if s.mailboxes && isVf vf then .next (s.setVf vf { s.vf vf with reported := some (s.vf vf).tdi }) else .next s

/-- The report of a locked or running interface. -/
def execGetDeviceInterfaceReport (vf : Nat) (s : State) : Host.Outcome State Fault Refusal :=
  if s.mailboxes && isVf vf && ((s.vf vf).tdi = .configLocked || (s.vf vf).tdi = .run) then
    .next (s.setVf vf { s.vf vf with reported := some (s.vf vf).tdi })
  else .next s

/-! ## Bring-up and power (18 R352, R353, R355) -/

/-- The fault code changes: an in-band interrupt when it changes from 0 (18 R354). -/
def State.setFault (s : State) (code : Nat) : State :=
  if code = 0 || s.faultCode ≠ 0 then s
  else { s with faultCode := code, i3c := { s.i3c with ibis := s.i3c.ibis ++ [code] } }

/-- The fault code of a bring-up step that fails (18 R353). -/
def stepFault (step : Nat) : Nat := if step = 1 then 3 else if step = 2 then 1 else if step = 3 then 2 else 0

/-- The package without state: only what lies outside it stays. -/
def State.blank (s : State) : State :=
  { State.reset with hostMem := s.hostMem, agenda := s.agenda, cur := s.cur, moment := s.moment,
                     reserveAt := s.reserveAt, sensors := s.sensors }

/-- Package power-good is a package reset: bring-up runs to step 4, or stops at the step that fails; a failure of step 5 shows after
CHIPNUM. -/
def execPowerGood (ok : Bool) (failAt : Nat) (s : State) : Host.Outcome State Fault Refusal :=
  let t := s.blank
  if ok || failAt = 5 then .next { t with bring := 4, failStep := if ok then 0 else 5 }
  else if 1 ≤ failAt && failAt ≤ 3 then .next ({ t with bring := failAt, failStep := failAt }.setFault (stepFault failAt))
  else .next s

/-- CHIPNUM is written: link training, then READY (18 R351, R352). -/
def State.writeChip (s : State) (n : BitVec 8) : State :=
  if s.powered && s.bring = 4 && s.chip.isNone && n.toNat ≤ 191 then
    if s.failStep = 5 then { s with chip := some n, bring := 5 }
    else { s with chip := some n, bring := 6, ready := true, ivals := { s.ivals with opened := s.refTime } }
  else s

def execChipnumWrite (n : BitVec 8) (s : State) : Host.Outcome State Fault Refusal := .next (s.writeChip n)

/-- The package powers off: its state is lost, its fault code is reported. -/
def State.powerOff (s : State) (code : Nat) : State :=
  { s.blank with powered := false, i3c := s.i3c, faultCode := s.faultCode }.setFault code

/-- A hotspot as measured: at 110 °C the package powers off. -/
def execThermalShutdown (die : Nat) (temp : BitVec 16) (s : State) : Host.Outcome State Fault Refusal :=
  if 4 ≤ die || !s.powered then .next s
  else
    let s1 := { s with sensors := { s.sensors with hot := s.sensors.hot.setIfInBounds die temp } }
    .next (if 1100 ≤ tempOf temp then s1.powerOff 4 else s1)

/-- Coolant as measured: below 1.0 L/min the package powers off. -/
def execCoolantFault (inlet flow : BitVec 16) (s : State) : Host.Outcome State Fault Refusal :=
  if !s.powered then .next s
  else
    let s1 := { s with sensors := { s.sensors with inlet := inlet, flow := flow } }
    .next (if flow.toNat < 100 then s1.powerOff 5 else s1)

/-! ## I3C (18 R354) -/

/-- The bytes of the I3C registers. -/
def State.i3cByte (s : State) (p : Nat) : Byte :=
  let half (w : BitVec 16) (i : Nat) : Byte := .ofNat 8 (w.toNat / 2 ^ (8 * i))
  match p with
  | 0 => .ofNat 8 (s.ready.toNat + s.bring * 16)
  | 1 => .ofNat 8 s.faultCode
  | 2 => s.chip.getD 0
  | 4 => .ofNat 8 s.pwrcap
  | 5 => .ofNat 8 (s.pwrcap / 256)
  | 6 => half s.sensors.modpwr 0
  | 7 => half s.sensors.modpwr 1
  | 16 => half s.sensors.inlet 0
  | 17 => half s.sensors.inlet 1
  | 18 => half s.sensors.flow 0
  | 19 => half s.sensors.flow 1
  | n => if 8 ≤ n && n < 16 then half (s.sensors.hot.getD ((n - 8) / 2) 0) (n % 2) else 0

/-- The target takes a dynamic address where it has none. -/
def execI3cEntdaa (addr : BitVec 7) (s : State) : Host.Outcome State Fault Refusal :=
  if s.i3c.addr.isSome then .next s else .next { s with i3c := { s.i3c with addr := some addr } }

/-- Bytes written from a pointer upward: CHIPNUM, and PWRCAP as the two bytes leave it, within its range. -/
def State.i3cWrite (s : State) (ptr : Nat) (bs : List Byte) : State :=
  let got (p : Nat) : Option Byte := if ptr ≤ p then bs[p - ptr]? else none
  let s := match got 2 with | some b => s.writeChip b | none => s
  let cap := ((got 4).getD (s.i3cByte 4)).toNat + 256 * ((got 5).getD (s.i3cByte 5)).toNat
  if ((got 4).isSome || (got 5).isSome) && 800 ≤ cap && cap ≤ 3200 then { s with pwrcap := cap } else s

def execI3cPrivateWrite (bytes : List Byte) (s : State) : Host.Outcome State Fault Refusal :=
  match s.i3c.addr, bytes with
  | some _, p :: bs =>
    let t := s.i3cWrite p.toNat bs
    .next { t with i3c := { t.i3c with ptr := p.toNat } }
  | _, _ => .next s

def execI3cPrivateRead (n : Nat) (s : State) : Host.Outcome State Fault Refusal :=
  if s.i3c.addr.isNone then .next s
  else
    let bs := (List.range n).map (fun i => s.i3cByte ((s.i3c.ptr + i) % 256))
    .next { s with i3c := { s.i3c with lastRead := bs, ptr := (s.i3c.ptr + n) % 256 } }

end Sys2Proof.Machine
end

