-- ==== Sys2Proof/Machine/Auto.lean ====
section
/-! DEFINITION. What happens next when nothing has been chosen from outside (log 2), and an instruction placed where the next step
fetches (log 18). -/

namespace Sys2Proof.Machine

/-! ## Events of the package itself (00 R3, 95) -/

/-- What an arbiter may see at this moment besides the state (09 R180, 17 R341). -/
def State.freeObs (s : State) : CommitObs := ⟨Config.falseHits s.moment, Config.parityAt s.moment⟩

/-- Events of one context that are due. -/
def State.ctxEvents (s : State) (c : Nat) : List Instr :=
  let x := s.ctx c
  (if (x.candidate).isSome || x.status = .out .commit then [.chunkCommit c s.freeObs] else []) ++
  (match x.status with
    | .out .operation | .out .refill => [.operationCompletion c]
    | .out (.stage2 _) => [.stage2Fault c (Config.pick s.moment)]
    | _ => []) ++
  (if (s.limitReached c).isSome then [.waitLimit c] else []) ++
  (match x.wait with
    | some w => if x.status = .blocked && !w.probed && w.start + 4000 ≤ s.refTime then [.portProbe c] else []
    | none => []) ++
  (match x.request with
    | some r => [.linkTimeout r.rid]
    | none => [])

/-- Events of one core that are due. -/
def State.coreEvents (s : State) (k : Nat) : List Instr :=
  let x := s.core k
  (if (s.pickupNow k).isSome then [.pickup k] else []) ++
  (if x.port.isEmpty then [] else [.messageArrival k]) ++
  (if x.heap.isEmpty then [] else [.heapReplay k]) ++
  (if (x.first .active (k * 16 + 15)).isSome then [.courierHandlerStart k] else []) ++
  (if x.agent.isEmpty then [] else [.remoteAgentPerform k, .stage2Fault (16384 + k) (Config.pick s.moment)]) ++
  (if x.stopped then [.coreRestore k] else [])

/-- Events of one cluster that are due. -/
def State.clusterEvents (s : State) (cl : Nat) : List Instr :=
  let x := s.cluster cl
  (if x.queue.isEmpty then [] else [.aging cl]) ++
  ((List.range Config.clusters).filter (fun v => (s.stealable cl v).isSome)).map (fun v => .workStealing cl v) ++
  x.engines.flatMap (fun e => if e.2.run.isSome || !e.2.store.isEmpty then
    [.engineCommandStart cl e.1, .cbufSlotClaim cl e.1, .engineLineEvent cl e.1, .engineCommandComplete cl e.1, .followOnStart cl e.1,
     .followOnInstall cl e.1, .stage2Fault (32768 + cl * 16 + e.1) (Config.pick s.moment)] else []) ++
  [.burstEnd cl]

/-- Events of one die that are due. -/
def State.dieEvents (s : State) (d : Nat) : List Instr :=
  ((s.die d).tokens.map (fun t => .tokenArrival (d * 32 + t))) ++ (if ((s.die d).relock).isSome then [.relockEnd d] else [])

/-- Events of one share group that are due. -/
def State.groupEvents (s : State) (g : Nat) : List Instr :=
  (if s.tickDue g then [.sliceTick g] else []) ++
  (match (s.group g).ticking with
    | some _ => .switchDeadline g :: (s.group g).dies.map (fun d => .dieSaved g d)
    | none => [])

/-- Events of the package that are due. -/
def State.packageEvents (s : State) : List Instr :=
  (match s.ticketQueue with
    | c :: _ => [.commitTicket (clusterOf c)]
    | [] => []) ++
  s.pods.flatMap (fun p => if p.2.resident then [.probeRound p.2.vf p.2.idx] else []) ++
  s.pods.flatMap (fun p => if (p.2.replay).isSome then [.replayComplete p.2.vf p.2.idx] else []) ++
  (if s.ivals.filling.isSome then [.checkpointComplete] else if s.intervalDue then [.intervalClose] else []) ++
  [.clearerRewrite (Config.pick s.moment), .scrubPass (Config.pick s.moment % 8)]

/-- A core has a context that runs, or a drain (12 R236, R255). -/
def State.coreRuns (s : State) (k : Nat) : Bool :=
  !(s.core k).stopped && (0 < (s.core k).draining || (s.coreCtxs k).any (fun c => (s.ctx c).status = .runnable))

/-- Clusters that a resident pod has. -/
def State.busyClusters (s : State) : List Nat := s.pods.flatMap (fun p => if p.2.resident then p.2.clusters else [])

/-- Everything that may happen next without an input: a cycle of a core with a context that runs, or an event. What depends on the world
outside the package (host, link peers, sensors, errors in stored bits) is chosen through the agenda alone. -/
def State.possible (s : State) : List Due :=
  ((List.range Config.cores).filter s.coreRuns).map .issueCore ++
  ((s.ctxs.map (·.1)).flatMap s.ctxEvents ++ (coresOf s.busyClusters).flatMap s.coreEvents ++
   s.busyClusters.flatMap s.clusterEvents ++ (List.range 4).flatMap s.dieEvents ++
   (s.groups.map (·.1)).flatMap s.groupEvents ++ s.packageEvents).map .event

/-- What happens where nothing is chosen from outside: any of what is possible, which one is free (log 2). Nothing happens while the
package is not in service. -/
def State.auto (s : State) : Option Due :=
  if s.powered && s.ready then
    let l := s.possible
    l[Config.pick s.moment % l.length]?
  else none

/-! ## What a step does -/

/-- What a step comes to: an instruction or event that is performed in a state, or an outcome at once. -/
inductive Doing where
  | run (i : Instr) (s : State)
  | rest (o : Host.Outcome State Fault Refusal)

/-- The row at which the end trace of a replay says that a pre-emption has stopped the tile load or store that context `c` is about to issue
(06 R151, 16 R333). -/
def State.recordedCut (s : State) (c : Nat) : Option Nat := ({ s with cur := c }.openChunk).traceEnd?.filter (0 < ·)

/-- A context issues the instruction at its `PC` (02 R61). -/
def State.issue (s : State) (c : Nat) : Doing :=
  match s.recordedCut c with
  | some r => .rest (.next ({ (s.startIssue c).cutRow c r with cur := c }.endChunk .preempt))
  | none => match (s.startIssue c).fetch with
  | .fault f => .run (.fetchFault f) (s.startIssue c)
  | .stall e => .rest (settle (s.startIssue c) [] (.error e))
  | .instr i t => .run i t

/-- A cycle of a core: it issues the context that 12 R236 chooses, or drains its inbox in the courier's slot, if its die runs (01
R42). -/
def State.coreCycle (s : State) (k : Nat) : Doing :=
  if ((s.die (dieOf (k * 16))).relock).isSome then .rest (.next s)
  else
    let s := s.setCore k { s.core k with cycle := (s.core k).cycle + 1 }
    match s.choose k with
    | some c => if s.drains c then .run (.inboxDrain k) (s.markIssue c) else s.issue c
    | none => .rest (.next s)

/-- What is due happens. -/
def State.due (s : State) : Due → Doing
  | .event i => .run i s
  | .issueCore k => s.coreCycle k

/-- What a step does: time passes, then the oldest entry of the agenda, or where it is empty what `State.auto` picks. -/
def State.now (s : State) : Doing :=
  match s.agenda with
  | d :: rest => State.due { s.tick with agenda := rest } d
  | [] => match s.tick.auto with
    | some d => s.tick.due d
    | none => .rest (.next s.tick)

/-! ## An instruction placed for the next step (log 18) -/

/-- Where the placed pod keeps its stage-1 tables: the tables of levels 39 and 30, the second with one 1 GiB page that allows
everything (15 R303). -/
def placedRoot : Nat := 0x100000
def placedTable : Nat := 0x101000

/-- The bytes of a word of `nbits` bits, as stored (02 R44), with zeros up to 16 bytes. -/
def placedBytes (nbits w : Nat) : List Byte := leBytes 16 (w % 2 ^ nbits)

/-- The memory that a fetch at virtual address 0 of the placed pod needs. -/
def Memory.placed (m : Memory) (nbits w : Nat) : Memory :=
  ((m.writeBytes 0 (placedBytes nbits w)).writeBytes placedRoot (leBytes 8 (placedTable + 3))).writeBytes placedTable (leBytes 8 0x1D)

/-- A supervisor about to issue at address 0. -/
def placedCtx : Ctx := { p := { Priv.placed with codelim := 0x10000 }, status := .runnable }

/-- The pod that runs it: index 0 of virtual device 1 on cluster 0. -/
def placedPod (p : Pod) : Pod := { p with vf := 1, idx := 0, clusters := [0], state := .active, resident := true, replay := none }

/-- `s` with the instruction at address 0 of a pod resident on cluster 0, whose supervisor of core 0 issues next (log 18). -/
def State.placeWord (s : State) (nbits w : Nat) : State :=
  let s : State := { s with
    mem := s.mem.placed nbits w, powered := true, bring := 6, ready := true, cur := 0, agenda := [.issueCore 0],
    pods := s.pods.map (fun x => (x.1, if x.2.clusters.contains 0 then { x.2 with resident := false } else x.2)),
    ctxs := aput s.ctxs 0 placedCtx }
  let s := s.setCore 0 { s.core 0 with stopped := false, ptr := 15 }
  let s := s.setDie 0 { s.die 0 with relock := none }
  let s := s.setVf 1 { s.vf 1 with root1 := some placedRoot, stage2 := aput (s.vf 1).stage2 0 0, windows := [] }
  s.setPod 32 (placedPod (s.pod 32))

end Sys2Proof.Machine
end

