-- ==== Sys2Proof/Machine/Scalar.lean ====
section
/-! DEFINITION. Integer arithmetic and logic (04 R81–R91). -/

namespace Sys2Proof.Machine

/-- A result of two scalars (04 R82). -/
def aluRes (d a b : SReg) (f : Word → Word → Word) (s : State) : Res :=
  .ok ((s.noteS [a, b]).putS d (f (s.val a) (s.val b)))

def alu (d a b : SReg) (f : Word → Word → Word) (s : State) : Host.Outcome State Fault Refusal :=
  perform s [.s d, .s a, .s b] 8 (aluRes d a b f)

/-- As `alu`, of an operation that keeps its context out of rotation (04 R83). -/
def aluOut (d a b : SReg) (f : Word → Word → Word) (s : State) : Host.Outcome State Fault Refusal :=
  performOut s [.s d, .s a, .s b] 8 (aluRes d a b f)

/-- A result of one scalar (04 R85, R86). -/
def unaryRes (d a : SReg) (f : Word → Word) (s : State) : Res := .ok ((s.noteS [a]).putS d (f (s.val a)))

def unary (d a : SReg) (f : Word → Word) (s : State) : Host.Outcome State Fault Refusal :=
  perform s [.s d, .s a] 8 (unaryRes d a f)

/-- The exact signed result `r` placed under SAT (04 R84). -/
def satWord (sat : Bool) (r : Int) : Word × Flags :=
  if sat then
    if (2 : Int) ^ 63 - 1 < r then (0x7FFFFFFFFFFFFFFF, SAT)
    else if r < -(2 : Int) ^ 63 then (0x8000000000000000, SAT)
    else (BitVec.ofInt 64 r, 0)
  else (BitVec.ofInt 64 r, 0)

/-- A saturating operation on two words (04 R84): the flag is set though `s0` discards the result. -/
def satRes (d : SReg) (reads : List SReg) (r : State → Int) (s : State) : Res :=
  let x := satWord s.pfxSat (r s)
  .ok (((s.noteS reads).orFlags x.2).putS d x.1)

def execAdd (d a b : SReg) (s : State) : Host.Outcome State Fault Refusal :=
  perform s [.s d, .s a, .s b] 8 (satRes d [a, b] (fun s => (s.val a).toInt + (s.val b).toInt))
def execSub (d a b : SReg) (s : State) : Host.Outcome State Fault Refusal :=
  perform s [.s d, .s a, .s b] 8 (satRes d [a, b] (fun s => (s.val a).toInt - (s.val b).toInt))
def execMul (d a b : SReg) (s : State) : Host.Outcome State Fault Refusal :=
  performOut s [.s d, .s a, .s b] 8 (satRes d [a, b] (fun s => (s.val a).toInt * (s.val b).toInt))

/-- floor(as(a) × as(b) / 2^64) (04 R82). -/
def mulhWord (a b : Word) : Word := .ofInt 64 (a.toInt * b.toInt / 2 ^ 64)
/-- floor(a × b / 2^64), unsigned. -/
def mulhuWord (a b : Word) : Word := word (a.toNat * b.toNat / 2 ^ 64)
/-- Signed quotient toward zero (04 R83). -/
def divWord (a b : Word) : Word := if b = 0 then 0xFFFFFFFFFFFFFFFF else .ofInt 64 (a.toInt.tdiv b.toInt)
/-- Signed remainder (04 R83). -/
def remWord (a b : Word) : Word := if b = 0 then a else .ofInt 64 (a.toInt - b.toInt * a.toInt.tdiv b.toInt)
def divuWord (a b : Word) : Word := if b = 0 then 0xFFFFFFFFFFFFFFFF else word (a.toNat / b.toNat)
def remuWord (a b : Word) : Word := if b = 0 then a else word (a.toNat - b.toNat * (a.toNat / b.toNat))

/-- The shift amount b[5:0] (04 R82). -/
def sh6 (b : Word) : Nat := b.toNat % 64

/-- floor(as(a) / 2^n). -/
def sarWord (a b : Word) : Word := .ofInt 64 (a.toInt / 2 ^ sh6 b)

def execMulh (d a b : SReg) (s : State) : Host.Outcome State Fault Refusal := aluOut d a b mulhWord s
def execMulhu (d a b : SReg) (s : State) : Host.Outcome State Fault Refusal := aluOut d a b mulhuWord s
def execDiv (d a b : SReg) (s : State) : Host.Outcome State Fault Refusal := aluOut d a b divWord s
def execDivu (d a b : SReg) (s : State) : Host.Outcome State Fault Refusal := aluOut d a b divuWord s
def execRem (d a b : SReg) (s : State) : Host.Outcome State Fault Refusal := aluOut d a b remWord s
def execRemu (d a b : SReg) (s : State) : Host.Outcome State Fault Refusal := aluOut d a b remuWord s
def execAnd (d a b : SReg) (s : State) : Host.Outcome State Fault Refusal := alu d a b (fun a b => a &&& b) s
def execOr (d a b : SReg) (s : State) : Host.Outcome State Fault Refusal := alu d a b (fun a b => a ||| b) s
def execXor (d a b : SReg) (s : State) : Host.Outcome State Fault Refusal := alu d a b (fun a b => a ^^^ b) s
def execAndn (d a b : SReg) (s : State) : Host.Outcome State Fault Refusal := alu d a b (fun a b => a &&& ~~~b) s
def execShl (d a b : SReg) (s : State) : Host.Outcome State Fault Refusal := alu d a b (fun a b => a <<< sh6 b) s
def execShr (d a b : SReg) (s : State) : Host.Outcome State Fault Refusal := alu d a b (fun a b => a >>> sh6 b) s
def execSar (d a b : SReg) (s : State) : Host.Outcome State Fault Refusal := alu d a b sarWord s
def execRotl (d a b : SReg) (s : State) : Host.Outcome State Fault Refusal := alu d a b (fun a b => a.rotateLeft (sh6 b)) s
def execMin (d a b : SReg) (s : State) : Host.Outcome State Fault Refusal :=
  alu d a b (fun a b => if a.toInt ≤ b.toInt then a else b) s
def execMax (d a b : SReg) (s : State) : Host.Outcome State Fault Refusal :=
  alu d a b (fun a b => if a.toInt ≤ b.toInt then b else a) s
def execMinu (d a b : SReg) (s : State) : Host.Outcome State Fault Refusal :=
  alu d a b (fun a b => if a.toNat ≤ b.toNat then a else b) s
def execMaxu (d a b : SReg) (s : State) : Host.Outcome State Fault Refusal :=
  alu d a b (fun a b => if a.toNat ≤ b.toNat then b else a) s

def execClz (d a : SReg) (s : State) : Host.Outcome State Fault Refusal := unary d a (fun a => word (clzFrom 64 a.toNat)) s
def execCtz (d a : SReg) (s : State) : Host.Outcome State Fault Refusal := unary d a (fun a => word (ctzFrom 64 a.toNat)) s
def execPopc (d a : SReg) (s : State) : Host.Outcome State Fault Refusal := unary d a (fun a => word (popFrom 64 a.toNat)) s
def execMov (d a : SReg) (s : State) : Host.Outcome State Fault Refusal := unary d a id s

def execAddi (d a : SReg) (imm : BitVec 30) (s : State) : Host.Outcome State Fault Refusal :=
  perform s [.s d, .s a] 8 (satRes d [a] (fun s => (s.val a).toInt + imm.toInt))
def execAndi (d a : SReg) (imm : BitVec 30) (s : State) : Host.Outcome State Fault Refusal :=
  unary d a (fun a => a &&& sext imm) s
def execOri (d a : SReg) (imm : BitVec 30) (s : State) : Host.Outcome State Fault Refusal :=
  unary d a (fun a => a ||| sext imm) s
def execXori (d a : SReg) (imm : BitVec 30) (s : State) : Host.Outcome State Fault Refusal :=
  unary d a (fun a => a ^^^ sext imm) s
def execShli (d a : SReg) (sh : BitVec 6) (s : State) : Host.Outcome State Fault Refusal :=
  unary d a (fun a => a <<< sh.toNat) s

/-- `ext` (04 R87). -/
def extWord (a : Word) (pos w : Nat) (sx : Bool) : Word :=
  let f := a.toNat / 2 ^ pos % 2 ^ w
  if sx then .ofInt 64 (sextNat f w) else word f

/-- `ins` (04 R87). -/
def insWord (d a : Word) (pos w : Nat) : Word :=
  let m := word ((2 ^ w - 1) * 2 ^ pos)
  (d &&& ~~~m) ||| ((a <<< pos) &&& m)

def execExt (d a : SReg) (pos wm1 : BitVec 6) (sx : Bool) (s : State) : Host.Outcome State Fault Refusal :=
  unary d a (fun a => extWord a pos.toNat (wm1.toNat + 1) sx) s
def execIns (d a : SReg) (pos wm1 : BitVec 6) (s : State) : Host.Outcome State Fault Refusal :=
  perform s [.s d, .s a] 8 (fun s =>
    .ok ((s.noteS [d, a]).putS d (insWord (s.val d) (s.val a) pos.toNat (wm1.toNat + 1))))

def execCmpEq (d a b : SReg) (s : State) : Host.Outcome State Fault Refusal := alu d a b (fun a b => boolWord (a = b)) s
def execCmpNe (d a b : SReg) (s : State) : Host.Outcome State Fault Refusal := alu d a b (fun a b => boolWord (a ≠ b)) s
def execCmpLt (d a b : SReg) (s : State) : Host.Outcome State Fault Refusal :=
  alu d a b (fun a b => boolWord (a.toInt < b.toInt)) s
def execCmpLtu (d a b : SReg) (s : State) : Host.Outcome State Fault Refusal :=
  alu d a b (fun a b => boolWord (a.toNat < b.toNat)) s
def execCmpLe (d a b : SReg) (s : State) : Host.Outcome State Fault Refusal :=
  alu d a b (fun a b => boolWord (a.toInt ≤ b.toInt)) s
def execCmpLeu (d a b : SReg) (s : State) : Host.Outcome State Fault Refusal :=
  alu d a b (fun a b => boolWord (a.toNat ≤ b.toNat)) s

def execLi (d : SReg) (imm : BitVec 62) (s : State) : Host.Outcome State Fault Refusal :=
  perform s [.s d] 12 (fun s => .ok (s.putS d (sext imm)))

/-- `addr` (04 R90). -/
def addrWord (a b : Word) (sh : BitVec 3) (off : BitVec 27) : Word := a + (b <<< sh.toNat) + sext off

def execAddr (d a b : SReg) (sh : BitVec 3) (off : BitVec 27) (s : State) : Host.Outcome State Fault Refusal :=
  alu d a b (fun a b => addrWord a b sh off) s

def execSel (d a b x : SReg) (s : State) : Host.Outcome State Fault Refusal :=
  perform s [.s d, .s a, .s b, .s x] 12 (fun s =>
    .ok ((s.noteS [a, b, x]).putS d (if s.val x ≠ 0 then s.val a else s.val b)))

end Sys2Proof.Machine
end

