-- ==== Sys2Proof/Machine/Tile.lean ====
section
/-! DEFINITION. Tile instructions without memory: configuration, moves, conversion, arithmetic, comparison, reduction and masks
(06 R130–R146). -/

namespace Sys2Proof.Machine

/-! ## Configuration (06 R134–R136) -/

/-- The shape word a `tcfg` writes, or none for an absent preset (06 R134). -/
def State.tcfgShape (s : State) : TCfg → Option (BitVec 32)
  | .imm cb sc f r c =>
    let code := if f = 0 then s.me.p.efmt.code else f.toNat
    some (.ofNat 32 (2 ^ 31 + cb.toNat * 2 ^ 27 + sc.toNat * 2 ^ 26 + code * 2 ^ 21 + r.toNat * 2 ^ 9 + c.toNat))
  | .preset n =>
    match classOf s.cur, s.launchOf s.cur with
    | .unit, some l =>
      let w := l.presets.getD n.toNat 0
      if bits w 31 1 = 1 then some (.ofNat 32 (w % 2 ^ 29 + 2 ^ 31)) else none
    | _, _ => none

/-- Writes a valid shape: data and sidecar become zero (01 R26). A courier's write of an `HSHAPE` with a bad shape raises TILE_SHAPE: the
PERM of 06 R130 comes after (log 100). -/
def State.configure (s : State) (d : TReg) (sh : BitVec 32) : Res := do
  shapeUnless (shapeOk sh)
  s.mayConfigure d
  pure (s.setTile d (Tile.configured sh (s.tile d)))

def execTcfg (d : TReg) (c : TCfg) (s : State) : Host.Outcome State Fault Refusal :=
  performOut s [.t d] 8 (fun s =>
    match s.tcfgShape c with
    | some sh => s.configure d sh
    | none => .error (trapWith Code.tileShape))

def execTzero (d : TReg) (s : State) : Host.Outcome State Fault Refusal :=
  performOut s [.t d] 8 (fun s => do
    s.confTiles [d]
    s.filled [d]
    let t := s.tile d
    pure ((s.note (tShapeLocs s.myCore d)).setTile d (t.withData (t.elems.map (fun _ => 0)) (t.side.map (fun _ => 0)))))

def execTfill (d : TReg) (a : SReg) (s : State) : Host.Outcome State Fault Refusal :=
  performOut s [.t d, .s a] 8 (fun s => do
    s.confTiles [d]
    s.confMask
    let t := s.tile d
    shapeUnless (s.maskFits t.rows t.cols && !(t.scaled && s.pfxMask?.isSome))
    s.filled [d]
    let v := s.val a
    let r := s.fill t (fun _ _ => (v.toNat % 2 ^ t.fmt.width, 0))
    pure (((s.noteDest d).noteS [a]).setTile d (t.withData r.1 (t.side.map (fun _ => bits v.toNat 56 8)))))

/-! ## Moves (06 R137, R138) -/

/-- D and A agree in format and scaling (06 R137). -/
def sameKind (d a : Tile) : Bool := d.fmt = a.fmt && d.scaled = a.scaled

/-- Scale bytes of one row. -/
def Tile.sideRow (t : Tile) (i : Nat) : List Nat := if t.scaled then (t.side.drop (i * (t.cols / 32))).take (t.cols / 32) else []

/-- The elements of a shape computed position by position. -/
def build (r c : Nat) (f : Nat → Nat → Nat) : List Nat := (positions r c).map (fun p => f p.1 p.2)

/-- The common part of the moves: checks, the new contents, and the places read. -/
def moveOp (d a : TReg) (s : State) (ok : Tile → Tile → Bool) (elems side : Tile → Tile → List Nat) (merges : Bool) : Res := do
  s.confTiles [d, a]
  s.confMask
  let td := s.tile d
  let ta := s.tile a
  shapeUnless (sameKind td ta && ok td ta)
  s.filled [d, a]
  let s1 := (if merges then s.noteTiles [d] else s.noteDest d).noteTiles [a]
  pure (s1.setTile d (td.withData (elems td ta) (side td ta)))

def execTmov (d a : TReg) (s : State) : Host.Outcome State Fault Refusal :=
  performOut s [.t d, .t a] 8 (fun s =>
    moveOp d a s (fun td ta => td.rows = ta.rows && td.cols = ta.cols && s.maskFits td.rows td.cols && !(td.scaled && s.pfxMask?.isSome))
      (fun td ta => (s.fill td (fun i j => (ta.enc i j, 0))).1) (fun _ ta => ta.side) false)

/-- The slice index (06 R137). -/
def State.sliceIdx (s : State) (b : SReg) (idx : BitVec 9) : Nat := (s.val b + zext idx).toNat

def execTrowGet (d a : TReg) (b : SReg) (idx : BitVec 9) (s : State) : Host.Outcome State Fault Refusal :=
  performOut s [.t d, .t a, .s b] 8 (fun s =>
    let i := s.sliceIdx b idx
    (moveOp d a s (fun td ta => td.rows = 1 && td.cols = ta.cols && i < ta.rows)
      (fun td ta => build 1 td.cols (fun _ j => ta.enc i j)) (fun _ ta => ta.sideRow i) false).map (·.noteS [b]))

def execTrowPut (d a : TReg) (b : SReg) (idx : BitVec 9) (s : State) : Host.Outcome State Fault Refusal :=
  performOut s [.t d, .t a, .s b] 8 (fun s =>
    let i := s.sliceIdx b idx
    (moveOp d a s (fun td ta => ta.rows = 1 && ta.cols = td.cols && i < td.rows)
      (fun td ta => build td.rows td.cols (fun r j => if r = i then ta.enc 0 j else td.enc r j))
      (fun td ta => (List.range td.rows).flatMap (fun r => if r = i then ta.sideRow 0 else td.sideRow r)) true).map (·.noteS [b]))

def execTcolGet (d a : TReg) (b : SReg) (idx : BitVec 9) (s : State) : Host.Outcome State Fault Refusal :=
  performOut s [.t d, .t a, .s b] 8 (fun s =>
    let i := s.sliceIdx b idx
    (moveOp d a s (fun td ta => td.rows = 1 && td.cols = ta.rows && i < ta.cols && !td.scaled)
      (fun td ta => build 1 td.cols (fun _ r => ta.enc r i)) (fun td _ => td.side) false).map (·.noteS [b]))

def execTcolPut (d a : TReg) (b : SReg) (idx : BitVec 9) (s : State) : Host.Outcome State Fault Refusal :=
  performOut s [.t d, .t a, .s b] 8 (fun s =>
    let i := s.sliceIdx b idx
    (moveOp d a s (fun td ta => ta.rows = 1 && ta.cols = td.rows && i < td.cols && !td.scaled)
      (fun td ta => build td.rows td.cols (fun r j => if j = i then ta.enc 0 r else td.enc r j)) (fun td _ => td.side) true).map
      (·.noteS [b]))

def execTtrans (d a : TReg) (s : State) : Host.Outcome State Fault Refusal :=
  performOut s [.t d, .t a] 8 (fun s =>
    moveOp d a s (fun td ta => td.rows = ta.cols && td.cols = ta.rows && !td.scaled)
      (fun td ta => build td.rows td.cols (fun i j => ta.enc j i)) (fun td _ => td.side) false)

def execTbcast (d a : TReg) (s : State) : Host.Outcome State Fault Refusal :=
  performOut s [.t d, .t a] 8 (fun s =>
    moveOp d a s (fun td ta =>
        ((ta.rows = 1 && (ta.cols = 1 || ta.cols = td.cols)) || (ta.rows = td.rows && ta.cols = 1)) &&
        s.maskFits td.rows td.cols && !(td.scaled && s.pfxMask?.isSome))
      (fun td ta => (s.fill td (fun i j => (ta.enc (if ta.rows = 1 then 0 else i) (if ta.cols = 1 then 0 else j), 0))).1)
      (fun td ta => (List.range td.rows).flatMap (fun _ => ta.sideRow 0)) false)

def execTsclGet (d a : TReg) (s : State) : Host.Outcome State Fault Refusal :=
  performOut s [.t d, .t a] 8 (fun s => do
    s.confTiles [d, a]
    let td := s.tile d
    let ta := s.tile a
    shapeUnless (ta.scaled && td.fmt = .u8 && td.rows = ta.rows && td.cols = ta.cols / 32)
    s.filled [d, a]
    pure (((s.noteDest d).noteTiles [a]).setTile d (td.withData (build td.rows td.cols ta.scaleByte) td.side)))

def execTsclPut (d a : TReg) (s : State) : Host.Outcome State Fault Refusal :=
  performOut s [.t d, .t a] 8 (fun s => do
    s.confTiles [d, a]
    let td := s.tile d
    let ta := s.tile a
    shapeUnless (td.scaled && ta.fmt = .u8 && ta.rows = td.rows && ta.cols = td.cols / 32)
    s.filled [d, a]
    pure ((s.noteTiles [d, a]).setTile d (td.withData td.elems (build ta.rows ta.cols ta.enc))))

/-! ## Conversion (06 R139, 05 R125–R128) -/

/-- One element into an unscaled format (05 R128). -/
def State.convert (s : State) (f : Fmt) (e : Nat) (x : Src) (i j : Nat) : Nat × Flags :=
  let draw := if s.effRm = .sr then s.me.p.draw e else 0
  if f.isInt then
    if x.isInt then intoInt f s.pfxSat (x.bint i j) else toInt f s.effRm draw (x.bval i j)
  else match floatFmt f with
    | some l => roundFloat l s.effRm draw false (x.bval i j)
    | none => (0, 0)

/-- emax of a microscaled format (05 R116, table). -/
def mxEmax (f : Fmt) : Int := match floatFmt f with | some l => l.emax | none => 0

/-- One block of a scaled destination (05 R125, R126): its scale byte, the elements of its enabled positions in order, and flags.
`xs` holds, for each enabled position, its column, SR position and exact value. -/
def State.mxBlock (s : State) (f : Fmt) (xs : List (Nat × Nat × Val)) : Nat × List (Nat × Nat) × Flags :=
  if xs.any (fun x => x.2.2.isNan || x.2.2.isInf) then
    (0xFF, xs.map (fun x => (x.1, 0)), if xs.any (fun x => x.2.2.isInf) then NV else 0)
  else
    let logs := (xs.filter (fun x => x.2.2.exp?.isSome)).map (fun x => x.2.2.log2)
    let scale : Int := match logs.max? with
      | none => -127
      | some m => max (-127) (min 127 (m - mxEmax f))
    let r := xs.map (fun x =>
      let draw := if s.effRm = .sr then s.me.p.draw x.2.1 else 0
      let y := x.2.2.scale (-scale)
      (x.1, match floatFmt f with | some l => roundFloat l s.effRm draw true y | none => roundMxInt s.effRm draw y))
    ((scale + 127).toNat, r.map (fun y => (y.1, y.2.1)), r.foldl (fun a y => a ||| y.2.2) 0)

/-- The contents of a scaled destination whose old contents are `d`; `fresh` where the prefix FMT configures it. -/
def State.convertScaled (s : State) (d : Tile) (x : Src) (fresh : Bool) : List Nat × List Nat × Flags :=
  let blocks := positions d.rows (d.cols / 32)
  let out := blocks.map (fun b =>
    let cols := (List.range 32).map (fun k => 32 * b.2 + k)
    let on := cols.filter (fun j => s.enabled b.1 j)
    let keep (j : Nat) : Nat := if fresh || s.pfxMz then 0 else d.enc b.1 j
    if on.isEmpty then
      (cols.map keep, (if fresh || s.pfxMz then 0 else d.scaleByte b.1 b.2), (0 : Flags))
    else
      let r := s.mxBlock d.fmt (on.map (fun j => (j, b.1 * d.cols + j, x.bval b.1 j)))
      (cols.map (fun j => (afind? r.2.1 j).getD (keep j)), r.1, r.2.2))
  (out.flatMap (·.1), out.map (·.2.1), out.foldl (fun a y => a ||| y.2.2) 0)

/-- Converts into tile `d` whose shape is settled. An integer source into scaled I8 is rounded in the mode (05 R126), so it applies SR
(log 98). -/
def State.convertInto (s : State) (d : TReg) (t : Tile) (a : TS) (fresh : Bool) : Res :=
  let x := s.src a
  let s1 := (if fresh then s else s.noteDest d).noteSrcs [a]
  if t.scaled then
    let r := s.convertScaled t x fresh
    .ok (((s1.setTile d (t.withData r.1 r.2.1)).orFlags r.2.2).advanceRng true)
  else
    let r := s.fill t (fun i j => s.convert t.fmt (i * t.cols + j) x i j)
    .ok (((s1.setTile d (t.withData r.1 t.side)).orFlags r.2).advanceRng (!(t.fmt.isInt && x.isInt)))

def execTcvt (d a : TS) (sc : Bool) (s : State) : Host.Outcome State Fault Refusal :=
  performOut s [tsOpnd d, tsOpnd a] 8 (fun s =>
    match d, s.pfxFmt? with
    | .scalar r, _ => do
      s.confTiles (tilesOf [a])
      s.confMask
      let x := s.src a
      shapeUnless (x.rows = 1 && x.cols = 1 && s.maskFits 1 1)
      s.filled (tilesOf [a])
      let y := if s.enabled 0 0 then s.convert .i64 0 x 0 0 else (if s.pfxMz then 0 else (s.val r).toNat, 0)
      let s1 := s.noteSrcs (if s.enabled 0 0 then [a] else [a, d])
      pure (((s1.orFlags y.2).putS r (word y.1)).advanceRng (!x.isInt))
    | .tile d, some f => do
      s.confTiles (tilesOf [a])
      s.confMask
      let x := s.src a
      let sh := mkShape f x.rows x.cols sc 0
      shapeUnless (f ≠ .cb4 && shapeOk sh && s.maskFits x.rows x.cols)
      s.mayConfigure d
      s.filled (tilesOf [a])
      s.convertInto d (Tile.configured sh (s.tile d)) a true
    | .tile d, none => do
      s.confTiles (d :: tilesOf [a])
      s.confMask
      let t := s.tile d
      shapeUnless (t.fmt ≠ .cb4 && (s.src a).fits t.rows t.cols && s.maskFits t.rows t.cols)
      s.filled (d :: tilesOf [a])
      s.convertInto d t a false)

/-! ## Element-wise arithmetic (06 R140–R143) -/

def bin (f : Val → Val → Val × Flags) : List Val → Val × Flags
  | [a, b] => f a b
  | _ => (.nan, 0)

def un (f : Val → Val × Flags) : List Val → Val × Flags
  | [a] => f a
  | _ => (.nan, 0)

def binInt (f : Int → Int → Int) : Fmt → List Int → Int
  | _, [a, b] => f a b
  | _, _ => 0

def unInt (f : Int → Int) : Fmt → List Int → Int
  | _, [a] => f a
  | _, _ => 0

/-- Integer division of tiles (06 R141). -/
def tdivInt : Fmt → List Int → Int
  | f, [a, b] => if b = 0 then (if isSigned f then -1 else 2 ^ f.width - 1) else a.tdiv b
  | _, _ => 0

def binary (d : TReg) (a b : TS) (f : Rm → Val → Val → Val × Flags) (g : Fmt → List Int → Int) (s : State) :
    Host.Outcome State Fault Refusal :=
  performOut s [.t d, tsOpnd a, tsOpnd b] 8 (fun s => s.elementwise d [a, b] true (bin (f s.effRm)) g)

def execTadd (d : TReg) (a b : TS) (s : State) : Host.Outcome State Fault Refusal :=
  binary d a b addVal (binInt (fun x y => x + y)) s
def execTsub (d : TReg) (a b : TS) (s : State) : Host.Outcome State Fault Refusal :=
  binary d a b (fun rm x y => addVal rm x y.negate) (binInt (fun x y => x - y)) s
def execTmul (d : TReg) (a b : TS) (s : State) : Host.Outcome State Fault Refusal :=
  binary d a b (fun _ => mulVal) (binInt (fun x y => x * y)) s
def execTdiv (d : TReg) (a b : TS) (s : State) : Host.Outcome State Fault Refusal :=
  binary d a b (fun _ => divVal) tdivInt s
def execTmax (d : TReg) (a b : TS) (s : State) : Host.Outcome State Fault Refusal :=
  binary d a b (fun _ x y => (maxVal x y, 0)) (binInt max) s
def execTmin (d : TReg) (a b : TS) (s : State) : Host.Outcome State Fault Refusal :=
  binary d a b (fun _ x y => (minVal x y, 0)) (binInt min) s

def execTfma (d : TReg) (a b x : TS) (s : State) : Host.Outcome State Fault Refusal :=
  performOut s [.t d, tsOpnd a, tsOpnd b, tsOpnd x] 12 (fun s =>
    s.elementwise d [a, b, x] true
      (fun l => match l with | [u, v, w] => fmaVal s.effRm u v w | _ => (.nan, 0))
      (fun _ l => match l with | [u, v, w] => u * v + w | _ => 0))

def execTsel (d : TReg) (a b : TS) (k : KReg) (s : State) : Host.Outcome State Fault Refusal :=
  performOut s [.t d, tsOpnd a, tsOpnd b, .k k] 12 (fun s => do
    s.confTiles (d :: tilesOf [a, b])
    match s.mask k with
    | none => .error (trapWith Code.tileUnconf)
    | some m => do
      let t := s.tile d
      let x := s.src a
      let y := s.src b
      shapeUnless (m.rows = t.rows && m.cols = t.cols && !t.scaled && t.fmt ≠ .cb4 && !x.scaled && !y.scaled && x.fmt = t.fmt && y.fmt = t.fmt &&
        x.fits t.rows t.cols && y.fits t.rows t.cols)
      s.filled (d :: tilesOf [a, b])
      let e := build t.rows t.cols (fun i j => if m.bit i j then x.benc i j else y.benc i j)
      pure (((s.note (tShapeLocs s.myCore d)).noteSrcs [a, b]).setTile d (t.withData e t.side)))

def unaryT (d : TReg) (a : TS) (intOk : Bool) (f : Val → Val × Flags) (g : Int → Int) (s : State) :
    Host.Outcome State Fault Refusal :=
  performOut s [.t d, tsOpnd a] 8 (fun s => s.elementwise d [a] intOk (un f) (unInt g))

def execTsqrt (d : TReg) (a : TS) (s : State) : Host.Outcome State Fault Refusal := unaryT d a false sqrtVal id s
def execTrsqrt (d : TReg) (a : TS) (s : State) : Host.Outcome State Fault Refusal := unaryT d a false rsqrtVal id s
def execTrcp (d : TReg) (a : TS) (s : State) : Host.Outcome State Fault Refusal := unaryT d a false rcpVal id s
def execTexp2 (d : TReg) (a : TS) (s : State) : Host.Outcome State Fault Refusal := unaryT d a false exp2Val id s
def execTlog2 (d : TReg) (a : TS) (s : State) : Host.Outcome State Fault Refusal := unaryT d a false log2Val id s
def execTabs (d : TReg) (a : TS) (s : State) : Host.Outcome State Fault Refusal :=
  unaryT d a true (fun v => (v.abs, 0)) (fun i => i.natAbs) s
def execTneg (d : TReg) (a : TS) (s : State) : Host.Outcome State Fault Refusal :=
  unaryT d a true (fun v => (v.negate, 0)) (fun i => -i) s

/-! ## Comparison (06 R144) -/

/-- Bits of a mask computed position by position. -/
def maskBits (r c : Nat) (f : Nat → Nat → Bool) : Nat :=
  (positions r c).foldr (fun p n => (f p.1 p.2).toNat + 2 * n) 0

def compareT (d : KReg) (a b : TS) (rel : Val → Val → Bool) (s : State) : Host.Outcome State Fault Refusal :=
  performOut s [.k d, tsOpnd a, tsOpnd b] 8 (fun s => do
    let merges := s.pfxMask?.isSome && !s.pfxMz
    if merges && (s.mask d).isNone then .error (trapWith Code.tileUnconf)
    s.confTiles (tilesOf [a, b])
    s.confMask
    let x := s.src a
    let y := s.src b
    let r := x.rows
    let c := x.cols
    let old := (s.mask d).getD ⟨r, c, 0⟩
    shapeUnless (y.fits r c && s.maskFits r c && (!merges || (old.rows = r && old.cols = c)))
    s.filled (tilesOf [a, b])
    let n := maskBits r c (fun i j => if s.enabled i j then rel (x.val i j) (y.bval i j) else merges && old.bit i j)
    pure ((s.noteSrcs [a, b]).setMask d ⟨r, c, n⟩))

def execTcmpEq (d : KReg) (a b : TS) (s : State) : Host.Outcome State Fault Refusal := compareT d a b Val.eq s
def execTcmpNe (d : KReg) (a b : TS) (s : State) : Host.Outcome State Fault Refusal := compareT d a b (fun x y => !x.eq y) s
def execTcmpLt (d : KReg) (a b : TS) (s : State) : Host.Outcome State Fault Refusal := compareT d a b Val.lt s
def execTcmpLe (d : KReg) (a b : TS) (s : State) : Host.Outcome State Fault Refusal := compareT d a b Val.le s
def execTcmpGt (d : KReg) (a b : TS) (s : State) : Host.Outcome State Fault Refusal := compareT d a b (fun x y => y.lt x) s
def execTcmpGe (d : KReg) (a b : TS) (s : State) : Host.Outcome State Fault Refusal := compareT d a b (fun x y => y.le x) s

/-! ## Reduction (06 R145) -/

/-- Positions of the set reduced for destination element (i, j). -/
def redSet (ax : Axis) (r c i j : Nat) : List (Nat × Nat) :=
  match ax with
  | .row => (List.range c).map (fun k => (i, k))
  | .col => (List.range r).map (fun k => (k, j))
  | .all => positions r c

/-- Shape of the destination. -/
def redShape (ax : Axis) (r c : Nat) : Nat × Nat :=
  match ax with
  | .row => (r, 1)
  | .col => (1, c)
  | .all => (1, 1)

/-- Reduction operations over the sets of exact values or integers; `none` leaves the element. -/
inductive RedOp where
  | sum | max | min
  deriving DecidableEq, Repr

def RedOp.float (o : RedOp) (rm : Rm) (l : List Val) : Option (Val × Flags) :=
  match o, l with
  | .sum, [] => some (.zero false, 0)
  | .sum, l => some (sumVals rm l)
  | .max, [] | .min, [] => none
  | .max, v :: l => some (l.foldl maxVal v, 0)
  | .min, v :: l => some (l.foldl minVal v, 0)

def RedOp.int (o : RedOp) (l : List Int) : Option Int :=
  match o, l with
  | .sum, l => some (l.foldl (fun a b => a + b) 0)
  | .max, [] | .min, [] => none
  | .max, v :: l => some (l.foldl Max.max v)
  | .min, v :: l => some (l.foldl Min.min v)

/-- One element of the result in format `f`: encoding and flags, or the old encoding. -/
def State.redElem (s : State) (o : RedOp) (ax : Axis) (f : Fmt) (x : Src) (e old i j : Nat) : Nat × Flags :=
  let set := (redSet ax x.rows x.cols i j).filter (fun p => s.enabled p.1 p.2)
  if f.isInt then
    match o.int (set.map (fun p => x.int p.1 p.2)) with
    | some v => s.finInt f v
    | none => (old, 0)
  else
    match o.float s.effRm (set.map (fun p => x.val p.1 p.2)) with
    | some v => s.finFloat f e v
    | none => (old, 0)

def reduceT (o : RedOp) (d : TS) (a : TReg) (ax : Axis) (s : State) : Host.Outcome State Fault Refusal :=
  performOut s [tsOpnd d, .t a] 8 (fun s => do
    s.confTiles (tilesOf [d, .tile a])
    s.confMask
    let x := s.srcTile a
    let sh := redShape ax x.rows x.cols
    match d with
    | .scalar r => do
      shapeUnless (x.isInt && s.maskFits x.rows x.cols)
      s.filled [a]
      let y := s.redElem o ax .i64 x 0 (s.val r).toNat 0 0
      pure (((s.noteSrcs [.tile a, d]).orFlags y.2).putS r (word y.1))
    | .tile d => do
      let t := s.tile d
      shapeUnless (!t.scaled && t.fmt ≠ .cb4 && (!t.fmt.isInt || x.isInt) && t.rows = sh.1 && t.cols = sh.2 &&
        s.maskFits x.rows x.cols)
      s.filled [d, a]
      let es := (positions t.rows t.cols).map (fun p => s.redElem o ax t.fmt x (p.1 * t.cols + p.2) (t.enc p.1 p.2) p.1 p.2)
      let s1 := ((s.noteDest d).noteTiles [a]).setTile d (t.withData (es.map (·.1)) t.side)
      pure ((s1.orFlags (es.foldl (fun f y => f ||| y.2) 0)).advanceRng (!t.fmt.isInt)))

def execTredSum (d : TS) (a : TReg) (axis : Axis) (s : State) : Host.Outcome State Fault Refusal := reduceT .sum d a axis s
def execTredMax (d : TS) (a : TReg) (axis : Axis) (s : State) : Host.Outcome State Fault Refusal := reduceT .max d a axis s
def execTredMin (d : TS) (a : TReg) (axis : Axis) (s : State) : Host.Outcome State Fault Refusal := reduceT .min d a axis s

/-! ## Masks (06 R146) -/

def execKedge (d : KReg) (a b : SReg) (s : State) : Host.Outcome State Fault Refusal :=
  performOut s [.k d, .s a, .s b] 8 (fun s => do
    let x := (s.val a).toNat
    let y := (s.val b).toNat
    let r := bits x 16 16
    let c := bits y 16 16
    shapeUnless (x < 2 ^ 32 && y < 2 ^ 32 && 1 ≤ r && r ≤ 64 && 1 ≤ c && c ≤ 256 && r * c ≤ 2048)
    pure ((s.noteS [a, b]).setMask d ⟨r, c, maskBits r c (fun i j => i < bits x 0 16 && j < bits y 0 16)⟩))

/-- A mask made of two masks of one shape. -/
def combineK (d a b : KReg) (f : Bool → Bool → Bool) (s : State) : Host.Outcome State Fault Refusal :=
  performOut s [.k d, .k a, .k b] 8 (fun s =>
    match s.mask a, s.mask b with
    | some x, some y =>
      if x.rows = y.rows && x.cols = y.cols then
        .ok (s.setMask d ⟨x.rows, x.cols, maskBits x.rows x.cols (fun i j => f (x.bit i j) (y.bit i j))⟩)
      else .error (trapWith Code.tileShape)
    | _, _ => .error (trapWith Code.tileUnconf))

def execKand (d a b : KReg) (s : State) : Host.Outcome State Fault Refusal := combineK d a b (· && ·) s
def execKor (d a b : KReg) (s : State) : Host.Outcome State Fault Refusal := combineK d a b (· || ·) s
def execKxor (d a b : KReg) (s : State) : Host.Outcome State Fault Refusal := combineK d a b (· != ·) s

def execKnot (d a : KReg) (s : State) : Host.Outcome State Fault Refusal :=
  performOut s [.k d, .k a] 8 (fun s =>
    match s.mask a with
    | some x => .ok (s.setMask d ⟨x.rows, x.cols, maskBits x.rows x.cols (fun i j => !x.bit i j)⟩)
    | none => .error (trapWith Code.tileUnconf))

def execKcnt (d : SReg) (a : KReg) (s : State) : Host.Outcome State Fault Refusal :=
  performOut s [.s d, .k a] 8 (fun s =>
    match s.mask a with
    | some x => .ok (s.putS d (word (popFrom (x.rows * x.cols) x.bits)))
    | none => .error (trapWith Code.tileUnconf))

end Sys2Proof.Machine
end

