-- ==== Sys2Proof/Machine/Dispatch.lean ====
section
/-! DEFINITION. One arm per operation or event of the opcode table. -/

namespace Sys2Proof.Machine

def exec (i : Instr) (s : State) : Host.Outcome State Fault Refusal :=
  match i with
  | .stop => Sys2Proof.Machine.execStop s
  | .pad => Sys2Proof.Machine.execPad s
  | .elementPrefix p => Sys2Proof.Machine.execElementPrefix p s
  | .add d a b => Sys2Proof.Machine.execAdd d a b s
  | .sub d a b => Sys2Proof.Machine.execSub d a b s
  | .mul d a b => Sys2Proof.Machine.execMul d a b s
  | .mulh d a b => Sys2Proof.Machine.execMulh d a b s
  | .mulhu d a b => Sys2Proof.Machine.execMulhu d a b s
  | .div d a b => Sys2Proof.Machine.execDiv d a b s
  | .divu d a b => Sys2Proof.Machine.execDivu d a b s
  | .rem d a b => Sys2Proof.Machine.execRem d a b s
  | .remu d a b => Sys2Proof.Machine.execRemu d a b s
  | .and d a b => Sys2Proof.Machine.execAnd d a b s
  | .or d a b => Sys2Proof.Machine.execOr d a b s
  | .xor d a b => Sys2Proof.Machine.execXor d a b s
  | .andn d a b => Sys2Proof.Machine.execAndn d a b s
  | .shl d a b => Sys2Proof.Machine.execShl d a b s
  | .shr d a b => Sys2Proof.Machine.execShr d a b s
  | .sar d a b => Sys2Proof.Machine.execSar d a b s
  | .rotl d a b => Sys2Proof.Machine.execRotl d a b s
  | .min d a b => Sys2Proof.Machine.execMin d a b s
  | .max d a b => Sys2Proof.Machine.execMax d a b s
  | .minu d a b => Sys2Proof.Machine.execMinu d a b s
  | .maxu d a b => Sys2Proof.Machine.execMaxu d a b s
  | .clz d a => Sys2Proof.Machine.execClz d a s
  | .ctz d a => Sys2Proof.Machine.execCtz d a s
  | .popc d a => Sys2Proof.Machine.execPopc d a s
  | .mov d a => Sys2Proof.Machine.execMov d a s
  | .addi d a imm => Sys2Proof.Machine.execAddi d a imm s
  | .andi d a imm => Sys2Proof.Machine.execAndi d a imm s
  | .ori d a imm => Sys2Proof.Machine.execOri d a imm s
  | .xori d a imm => Sys2Proof.Machine.execXori d a imm s
  | .shli d a sh => Sys2Proof.Machine.execShli d a sh s
  | .ext d a pos wm1 sx => Sys2Proof.Machine.execExt d a pos wm1 sx s
  | .ins d a pos wm1 => Sys2Proof.Machine.execIns d a pos wm1 s
  | .cmpEq d a b => Sys2Proof.Machine.execCmpEq d a b s
  | .cmpNe d a b => Sys2Proof.Machine.execCmpNe d a b s
  | .cmpLt d a b => Sys2Proof.Machine.execCmpLt d a b s
  | .cmpLtu d a b => Sys2Proof.Machine.execCmpLtu d a b s
  | .cmpLe d a b => Sys2Proof.Machine.execCmpLe d a b s
  | .cmpLeu d a b => Sys2Proof.Machine.execCmpLeu d a b s
  | .li d imm => Sys2Proof.Machine.execLi d imm s
  | .addr d a b sh off => Sys2Proof.Machine.execAddr d a b sh off s
  | .sel d a b x => Sys2Proof.Machine.execSel d a b x s
  | .bEq a b off => Sys2Proof.Machine.execBEq a b off s
  | .bNe a b off => Sys2Proof.Machine.execBNe a b off s
  | .bLt a b off => Sys2Proof.Machine.execBLt a b off s
  | .bGe a b off => Sys2Proof.Machine.execBGe a b off s
  | .bLtu a b off => Sys2Proof.Machine.execBLtu a b off s
  | .bGeu a b off => Sys2Proof.Machine.execBGeu a b off s
  | .bz a off => Sys2Proof.Machine.execBz a off s
  | .bnz a off => Sys2Proof.Machine.execBnz a off s
  | .br off => Sys2Proof.Machine.execBr off s
  | .call off => Sys2Proof.Machine.execCall off s
  | .jmp a => Sys2Proof.Machine.execJmp a s
  | .calli a => Sys2Proof.Machine.execCalli a s
  | .ret => Sys2Proof.Machine.execRet s
  | .nop => Sys2Proof.Machine.execNop s
  | .loop a off => Sys2Proof.Machine.execLoop a off s
  | .mfs d sr => Sys2Proof.Machine.execMfs d sr s
  | .mts a sr => Sys2Proof.Machine.execMts a sr s
  | .trap imm => Sys2Proof.Machine.execTrap imm s
  | .svcRecv d => Sys2Proof.Machine.execSvcRecv d s
  | .svcReply a b reply => Sys2Proof.Machine.execSvcReply a b reply s
  | .svcRd d a space n => Sys2Proof.Machine.execSvcRd d a space n s
  | .svcWr a b space n => Sys2Proof.Machine.execSvcWr a b space n s
  | .tcfg d c => Sys2Proof.Machine.execTcfg d c s
  | .tzero d => Sys2Proof.Machine.execTzero d s
  | .tfill d a => Sys2Proof.Machine.execTfill d a s
  | .tmov d a => Sys2Proof.Machine.execTmov d a s
  | .trowGet d a b idx => Sys2Proof.Machine.execTrowGet d a b idx s
  | .trowPut d a b idx => Sys2Proof.Machine.execTrowPut d a b idx s
  | .tcolGet d a b idx => Sys2Proof.Machine.execTcolGet d a b idx s
  | .tcolPut d a b idx => Sys2Proof.Machine.execTcolPut d a b idx s
  | .ttrans d a => Sys2Proof.Machine.execTtrans d a s
  | .tbcast d a => Sys2Proof.Machine.execTbcast d a s
  | .tcvt d a sc => Sys2Proof.Machine.execTcvt d a sc s
  | .tsclGet d a => Sys2Proof.Machine.execTsclGet d a s
  | .tsclPut d a => Sys2Proof.Machine.execTsclPut d a s
  | .kedge d a b => Sys2Proof.Machine.execKedge d a b s
  | .kand d a b => Sys2Proof.Machine.execKand d a b s
  | .kor d a b => Sys2Proof.Machine.execKor d a b s
  | .knot d a => Sys2Proof.Machine.execKnot d a s
  | .kxor d a b => Sys2Proof.Machine.execKxor d a b s
  | .kcnt d a => Sys2Proof.Machine.execKcnt d a s
  | .tld d a b x off nt => Sys2Proof.Machine.execTld d a b x off nt s
  | .tst d a b x off nt => Sys2Proof.Machine.execTst d a b x off nt s
  | .tldm d a b x off => Sys2Proof.Machine.execTldm d a b x off s
  | .tstm d a b x off => Sys2Proof.Machine.execTstm d a b x off s
  | .tcbLd n a off => Sys2Proof.Machine.execTcbLd n a off s
  | .tadd d a b => Sys2Proof.Machine.execTadd d a b s
  | .tsub d a b => Sys2Proof.Machine.execTsub d a b s
  | .tmul d a b => Sys2Proof.Machine.execTmul d a b s
  | .tdiv d a b => Sys2Proof.Machine.execTdiv d a b s
  | .tmax d a b => Sys2Proof.Machine.execTmax d a b s
  | .tmin d a b => Sys2Proof.Machine.execTmin d a b s
  | .tfma d a b x => Sys2Proof.Machine.execTfma d a b x s
  | .tsel d a b k => Sys2Proof.Machine.execTsel d a b k s
  | .tsqrt d a => Sys2Proof.Machine.execTsqrt d a s
  | .trsqrt d a => Sys2Proof.Machine.execTrsqrt d a s
  | .trcp d a => Sys2Proof.Machine.execTrcp d a s
  | .texp2 d a => Sys2Proof.Machine.execTexp2 d a s
  | .tlog2 d a => Sys2Proof.Machine.execTlog2 d a s
  | .tabs d a => Sys2Proof.Machine.execTabs d a s
  | .tneg d a => Sys2Proof.Machine.execTneg d a s
  | .tcmpEq d a b => Sys2Proof.Machine.execTcmpEq d a b s
  | .tcmpNe d a b => Sys2Proof.Machine.execTcmpNe d a b s
  | .tcmpLt d a b => Sys2Proof.Machine.execTcmpLt d a b s
  | .tcmpLe d a b => Sys2Proof.Machine.execTcmpLe d a b s
  | .tcmpGt d a b => Sys2Proof.Machine.execTcmpGt d a b s
  | .tcmpGe d a b => Sys2Proof.Machine.execTcmpGe d a b s
  | .tredSum d a axis => Sys2Proof.Machine.execTredSum d a axis s
  | .tredMax d a axis => Sys2Proof.Machine.execTredMax d a axis s
  | .tredMin d a axis => Sys2Proof.Machine.execTredMin d a axis s
  | .mma d a b f => Sys2Proof.Machine.execMma d a b f s
  | .mmaSa d a b f km1 pa => Sys2Proof.Machine.execMmaSa d a b f km1 pa s
  | .mmaSb d a b f km1 pb => Sys2Proof.Machine.execMmaSb d a b f km1 pb s
  | .mmaSs d a b f km1 pa pb => Sys2Proof.Machine.execMmaSs d a b f km1 pa pb s
  | .mmaZ d a b f => Sys2Proof.Machine.execMmaZ d a b f s
  | .ldB d a off => Sys2Proof.Machine.execLdB d a off s
  | .ldBu d a off => Sys2Proof.Machine.execLdBu d a off s
  | .ldH d a off => Sys2Proof.Machine.execLdH d a off s
  | .ldHu d a off => Sys2Proof.Machine.execLdHu d a off s
  | .ldW d a off => Sys2Proof.Machine.execLdW d a off s
  | .ldWu d a off => Sys2Proof.Machine.execLdWu d a off s
  | .ldD d a off => Sys2Proof.Machine.execLdD d a off s
  | .stB a b off => Sys2Proof.Machine.execStB a b off s
  | .stH a b off => Sys2Proof.Machine.execStH a b off s
  | .stW a b off => Sys2Proof.Machine.execStW a b off s
  | .stD a b off => Sys2Proof.Machine.execStD a b off s
  | .sld d a sz sx off => Sys2Proof.Machine.execSld d a sz sx off s
  | .sst a b sz off => Sys2Proof.Machine.execSst a b sz off s
  | .ldbit d a wm1 sx boff => Sys2Proof.Machine.execLdbit d a wm1 sx boff s
  | .stbit a b wm1 boff => Sys2Proof.Machine.execStbit a b wm1 boff s
  | .rld d a off => Sys2Proof.Machine.execRld d a off s
  | .rst a b off => Sys2Proof.Machine.execRst a b off s
  | .amSend a b x y hid => Sys2Proof.Machine.execAmSend a b x y hid s
  | .pfL1 a off => Sys2Proof.Machine.execPfL1 a off s
  | .pfL2 a off => Sys2Proof.Machine.execPfL2 a off s
  | .cbufTake d a m => Sys2Proof.Machine.execCbufTake d a m s
  | .cbufGive a m => Sys2Proof.Machine.execCbufGive a m s
  | .amoAdd d a b off => Sys2Proof.Machine.execAmoAdd d a b off s
  | .amoAnd d a b off => Sys2Proof.Machine.execAmoAnd d a b off s
  | .amoOr d a b off => Sys2Proof.Machine.execAmoOr d a b off s
  | .amoXor d a b off => Sys2Proof.Machine.execAmoXor d a b off s
  | .amoMin d a b off => Sys2Proof.Machine.execAmoMin d a b off s
  | .amoMax d a b off => Sys2Proof.Machine.execAmoMax d a b off s
  | .amoSwap d a b off => Sys2Proof.Machine.execAmoSwap d a b off s
  | .amoCas d a b x off => Sys2Proof.Machine.execAmoCas d a b x off s
  | .redAdd a b rf off => Sys2Proof.Machine.execRedAdd a b rf off s
  | .redMax a b rf off => Sys2Proof.Machine.execRedMax a b rf off s
  | .redMin a b rf off => Sys2Proof.Machine.execRedMin a b rf off s
  | .fePut a b g woff => Sys2Proof.Machine.execFePut a b g woff s
  | .feTake d a g woff => Sys2Proof.Machine.execFeTake d a g woff s
  | .fePeek d a g ps woff => Sys2Proof.Machine.execFePeek d a g ps woff s
  | .fenceCore => Sys2Proof.Machine.execFenceCore s
  | .fenceCluster => Sys2Proof.Machine.execFenceCluster s
  | .fencePod => Sys2Proof.Machine.execFencePod s
  | .fencePackage => Sys2Proof.Machine.execFencePackage s
  | .fenceSystem => Sys2Proof.Machine.execFenceSystem s
  | .waitMem a b cc woff => Sys2Proof.Machine.execWaitMem a b cc woff s
  | .cpyQ d a b f shp => Sys2Proof.Machine.execCpyQ d a b f shp s
  | .cpyQCfg d a b cbn e => Sys2Proof.Machine.execCpyQCfg d a b cbn e s
  | .cpyQClear d e => Sys2Proof.Machine.execCpyQClear d e s
  | .cpyFm d a b f shp fo => Sys2Proof.Machine.execCpyFm d a b f shp fo s
  | .routeQ d a b e km1 t em1 c => Sys2Proof.Machine.execRouteQ d a b e km1 t em1 c s
  | .collQ d a b e ck bf16 g n cid => Sys2Proof.Machine.execCollQ d a b e ck bf16 g n cid s
  | .tlWait a e => Sys2Proof.Machine.execTlWait a e s
  | .tlRead d e sl => Sys2Proof.Machine.execTlRead d e sl s
  | .launch d a => Sys2Proof.Machine.execLaunch d a s
  | .yield => Sys2Proof.Machine.execYield s
  | .park a z woff => Sys2Proof.Machine.execPark a z woff s
  | .hop a dir => Sys2Proof.Machine.execHop a dir s
  | .exit => Sys2Proof.Machine.execExit s
  | .commit => Sys2Proof.Machine.execCommit s
  | .ctxStartRecord d a b => Sys2Proof.Machine.execCtxStartRecord d a b s
  | .ctxStartNext d a => Sys2Proof.Machine.execCtxStartNext d a s
  | .ctxStartMode d b => Sys2Proof.Machine.execCtxStartMode d b s
  | .ctxStartResume d a => Sys2Proof.Machine.execCtxStartResume d a s
  | .ctxStop d a => Sys2Proof.Machine.execCtxStop d a s
  | .ctxReap d a b rq => Sys2Proof.Machine.execCtxReap d a b rq s
  | .send a b tag => Sys2Proof.Machine.execSend a b tag s
  | .recv d a off => Sys2Proof.Machine.execRecv d a off s
  | .gangForm a tag => Sys2Proof.Machine.execGangForm a tag s
  | .gangJoin tag => Sys2Proof.Machine.execGangJoin tag s
  | .gangLeave => Sys2Proof.Machine.execGangLeave s
  | .cancelLaunch a c => Sys2Proof.Machine.execCancelLaunch a c s
  | .cancelGraph a c => Sys2Proof.Machine.execCancelGraph a c s
  | .cancelPhase a c => Sys2Proof.Machine.execCancelPhase a c s
  | .cancelJob a c => Sys2Proof.Machine.execCancelJob a c s
  | .cntRead d a => Sys2Proof.Machine.execCntRead d a s
  | .hmq d a => Sys2Proof.Machine.execHmq d a s
  | .chunkCommit c o => Sys2Proof.Machine.execChunkCommit c o s
  | .commitTicket cluster => Sys2Proof.Machine.execCommitTicket cluster s
  | .operationCompletion c => Sys2Proof.Machine.execOperationCompletion c s
  | .waitLimit c => Sys2Proof.Machine.execWaitLimit c s
  | .pickup core => Sys2Proof.Machine.execPickup core s
  | .aging cluster => Sys2Proof.Machine.execAging cluster s
  | .workStealing cluster victim => Sys2Proof.Machine.execWorkStealing cluster victim s
  | .messageArrival core => Sys2Proof.Machine.execMessageArrival core s
  | .inboxDrain core => Sys2Proof.Machine.execInboxDrain core s
  | .heapReplay core => Sys2Proof.Machine.execHeapReplay core s
  | .courierHandlerStart core => Sys2Proof.Machine.execCourierHandlerStart core s
  | .remoteAgentPerform core => Sys2Proof.Machine.execRemoteAgentPerform core s
  | .portProbe c => Sys2Proof.Machine.execPortProbe c s
  | .probeRound vf pod => Sys2Proof.Machine.execProbeRound vf pod s
  | .tokenArrival cluster => Sys2Proof.Machine.execTokenArrival cluster s
  | .burstEnd cluster => Sys2Proof.Machine.execBurstEnd cluster s
  | .powerArbiterPeriod p => Sys2Proof.Machine.execPowerArbiterPeriod p s
  | .relockEnd die => Sys2Proof.Machine.execRelockEnd die s
  | .engineCommandStart cluster e => Sys2Proof.Machine.execEngineCommandStart cluster e s
  | .cbufSlotClaim cluster e => Sys2Proof.Machine.execCbufSlotClaim cluster e s
  | .engineLineEvent cluster e => Sys2Proof.Machine.execEngineLineEvent cluster e s
  | .engineCommandComplete cluster e => Sys2Proof.Machine.execEngineCommandComplete cluster e s
  | .followOnStart cluster e => Sys2Proof.Machine.execFollowOnStart cluster e s
  | .followOnInstall cluster e => Sys2Proof.Machine.execFollowOnInstall cluster e s
  | .flitIdle l => Sys2Proof.Machine.execFlitIdle l s
  | .flitRld l o => Sys2Proof.Machine.execFlitRld l o s
  | .flitRst l o v => Sys2Proof.Machine.execFlitRst l o v s
  | .flitAm l o body => Sys2Proof.Machine.execFlitAm l o body s
  | .flitFe l o op v => Sys2Proof.Machine.execFlitFe l o op v s
  | .flitReply l o v => Sys2Proof.Machine.execFlitReply l o v s
  | .flitRefuse l o cause => Sys2Proof.Machine.execFlitRefuse l o cause s
  | .flitProbe l o posted => Sys2Proof.Machine.execFlitProbe l o posted s
  | .flitEcho l o posted => Sys2Proof.Machine.execFlitEcho l o posted s
  | .flitColl l m => Sys2Proof.Machine.execFlitColl l m s
  | .flitAbort l cid grp => Sys2Proof.Machine.execFlitAbort l cid grp s
  | .flitNotice l interval => Sys2Proof.Machine.execFlitNotice l interval s
  | .linkTimeout rid => Sys2Proof.Machine.execLinkTimeout rid s
  | .linkPortFailure port => Sys2Proof.Machine.execLinkPortFailure port s
  | .doorbell q tail => Sys2Proof.Machine.execDoorbell q tail s
  | .queueEnable q en logn => Sys2Proof.Machine.execQueueEnable q en logn s
  | .registerWrite r v => Sys2Proof.Machine.execRegisterWrite r v s
  | .allocPod h => Sys2Proof.Machine.execAllocPod h s
  | .freePod h => Sys2Proof.Machine.execFreePod h s
  | .bindVf h => Sys2Proof.Machine.execBindVf h s
  | .unbindVf h => Sys2Proof.Machine.execUnbindVf h s
  | .loadImage h => Sys2Proof.Machine.execLoadImage h s
  | .launchCommand h => Sys2Proof.Machine.execLaunchCommand h s
  | .pause h => Sys2Proof.Machine.execPause h s
  | .resume h => Sys2Proof.Machine.execResume h s
  | .evict h => Sys2Proof.Machine.execEvict h s
  | .restore h => Sys2Proof.Machine.execRestore h s
  | .mapWindow h => Sys2Proof.Machine.execMapWindow h s
  | .unmapWindow h => Sys2Proof.Machine.execUnmapWindow h s
  | .setQuota h => Sys2Proof.Machine.execSetQuota h s
  | .setSlice h => Sys2Proof.Machine.execSetSlice h s
  | .setRecovery h => Sys2Proof.Machine.execSetRecovery h s
  | .attest h => Sys2Proof.Machine.execAttest h s
  | .readErrlog h => Sys2Proof.Machine.execReadErrlog h s
  | .resetVf h => Sys2Proof.Machine.execResetVf h s
  | .getVersion m => Sys2Proof.Machine.execGetVersion m s
  | .getCapabilities m => Sys2Proof.Machine.execGetCapabilities m s
  | .negotiateAlgorithms m => Sys2Proof.Machine.execNegotiateAlgorithms m s
  | .getDigests m => Sys2Proof.Machine.execGetDigests m s
  | .getCertificate m => Sys2Proof.Machine.execGetCertificate m s
  | .challenge m => Sys2Proof.Machine.execChallenge m s
  | .getMeasurements m => Sys2Proof.Machine.execGetMeasurements m s
  | .keyExchange m => Sys2Proof.Machine.execKeyExchange m s
  | .finish m => Sys2Proof.Machine.execFinish m s
  | .keyUpdate m => Sys2Proof.Machine.execKeyUpdate m s
  | .heartbeat m => Sys2Proof.Machine.execHeartbeat m s
  | .endSession m => Sys2Proof.Machine.execEndSession m s
  | .setCmdkey m => Sys2Proof.Machine.execSetCmdkey m s
  | .ideKm m => Sys2Proof.Machine.execIdeKm m s
  | .lockInterface vf => Sys2Proof.Machine.execLockInterface vf s
  | .getDeviceInterfaceReport vf => Sys2Proof.Machine.execGetDeviceInterfaceReport vf s
  | .getDeviceInterfaceState vf => Sys2Proof.Machine.execGetDeviceInterfaceState vf s
  | .startInterface vf => Sys2Proof.Machine.execStartInterface vf s
  | .stopInterface vf => Sys2Proof.Machine.execStopInterface vf s
  | .atsResponse vf tag gen ok => Sys2Proof.Machine.execAtsResponse vf tag gen ok s
  | .priResponse vf tag gen ok => Sys2Proof.Machine.execPriResponse vf tag gen ok s
  | .stage2Fault c frame => Sys2Proof.Machine.execStage2Fault c frame s
  | .clearerRewrite frame => Sys2Proof.Machine.execClearerRewrite frame s
  | .preemptCore core rows => Sys2Proof.Machine.execPreemptCore core rows s
  | .coreRestore core => Sys2Proof.Machine.execCoreRestore core s
  | .sliceTick group => Sys2Proof.Machine.execSliceTick group s
  | .dieSaved group die => Sys2Proof.Machine.execDieSaved group die s
  | .switchDeadline group => Sys2Proof.Machine.execSwitchDeadline group s
  | .hbmRetrain stack on => Sys2Proof.Machine.execHbmRetrain stack on s
  | .intervalClose => Sys2Proof.Machine.execIntervalClose s
  | .checkpointComplete => Sys2Proof.Machine.execCheckpointComplete s
  | .correctableError e => Sys2Proof.Machine.execCorrectableError e s
  | .uncorrectableError e => Sys2Proof.Machine.execUncorrectableError e s
  | .replayComplete vf pod => Sys2Proof.Machine.execReplayComplete vf pod s
  | .scrubPass stack => Sys2Proof.Machine.execScrubPass stack s
  | .powerGood ok failAt => Sys2Proof.Machine.execPowerGood ok failAt s
  | .i3cEntdaa addr => Sys2Proof.Machine.execI3cEntdaa addr s
  | .i3cPrivateWrite bytes => Sys2Proof.Machine.execI3cPrivateWrite bytes s
  | .i3cPrivateRead n => Sys2Proof.Machine.execI3cPrivateRead n s
  | .chipnumWrite n => Sys2Proof.Machine.execChipnumWrite n s
  | .thermalShutdown die temp => Sys2Proof.Machine.execThermalShutdown die temp s
  | .coolantFault inlet flow => Sys2Proof.Machine.execCoolantFault inlet flow s
  | .fetchFault f => Sys2Proof.Machine.execFetchFault f s
  | .unassignedOpc h => Sys2Proof.Machine.execUnassignedOpc h s
  | .reservedTypeFlit l ty => Sys2Proof.Machine.execReservedTypeFlit l ty s
  | .flitCrcFailure l fixed => Sys2Proof.Machine.execFlitCrcFailure l fixed s
  | .tdiError vf => Sys2Proof.Machine.execTdiError vf s

end Sys2Proof.Machine
end

