-- ==== Sys2Proof/Machine/Step.lean ====
section
/-! DEFINITION. One step, and a word placed where the next instruction is fetched. -/

namespace Sys2Proof.Machine

/-- One step of the package: what is due now (log 2). -/
def step (s : State) : Host.Outcome State Fault Refusal :=
  match s.now with
  | .run i t => exec i t
  | .rest o => o

/-- `s` with the instruction placed where the next step fetches (log 18). -/
def State.withFetchWord (s : State) (nbits w : Nat) : State := s.placeWord nbits w

end Sys2Proof.Machine
end

