-- ==== Sys2Proof/Safety.lean ====
section
/-! DEFINITION. What statements call a well-kept state, and what they call an instruction that has retired: who changed, what the
executing context holds and sees afterwards. -/

namespace Sys2Proof

open Machine

/-- The byte at `a` as the executing context's chunks leave it, folds apart, which they defer: as they have written it last, else as
memory has it. -/
def Machine.State.left (s : State) (a : Nat) : Byte := (s.own? a).getD (s.committed a)

/-- What every step keeps (see the obligations): both memories in their canonical form. -/
def Kept (s : State) : Prop := s.mem.wf = true ∧ s.hostMem.wf = true

/-! ## Instructions inside a chunk -/

/-- Nothing but the executing context's entry differs, and of that only its private registers, its chunks, and whether it is in
rotation. -/
def Own (s t : State) : Prop :=
  t = { s with ctxs := t.ctxs } ∧ (∀ c, c ≠ s.cur → t.ctx c = s.ctx c) ∧
  t.me = { s.me with p := t.me.p, chunk := t.me.chunk, pending := t.me.pending, status := t.me.status }

/-- The executing context sees the same shared scalars. -/
def SameG (s t : State) : Prop := ∀ n, t.val (.g n) = s.val (.g n)

/-- It sees the same shared tiles. -/
def SameH (s t : State) : Prop := ∀ n, t.tile (.h n) = s.tile (.h n)

/-- Its chunks leave the same bytes of memory, host memory and scratchpad. -/
def SameMem (s t : State) : Prop := (∀ a, t.left a = s.left a) ∧ ∀ o, t.spByteAt o = s.spByteAt o

/-- What the executing context's uncommitted chunks have done that gangs follow, in program order (12 R252). -/
def Machine.State.laterGangs (s : State) : List GangStep := (match s.me.pending with | some k => k.gangs | none => []) ++ s.chunk.gangs

/-- Its chunks hold the same deferred effects and the same service target. -/
def SameFx (s t : State) : Prop := t.laterFx = s.laterFx ∧ t.svctgtOf t.cur = s.svctgtOf s.cur

/-- An instruction of `len` bytes has retired with private registers `q`: the prefix and restart state are clear and the `PC` is past it
(01 R17, 02 R44), and one more instruction counts toward its chunk (09 R177). -/
def Retired (s t : State) (q : Priv) (len : Nat) : Prop :=
  Own s t ∧ t.me.p = { q.clearRestart with pc := s.me.p.pc + BitVec.ofNat 48 len } ∧ t.me.uncommitted = s.me.uncommitted + 1

/-- It has written `v` to scalar `d`, where `s0` discards, ORed `f` into `FLAGS`, and changed nothing else. -/
def ScalarDone (s t : State) (d : SReg) (v : Word) (f : BitVec 5) (len : Nat) : Prop :=
  Retired s t { s.me.p with regs := t.me.p.regs, flags := s.me.p.flags ||| f } len ∧
  (∀ r, t.val r = if r = d ∧ r ≠ .s 0 then v else s.val r) ∧ SameH s t ∧ SameMem s t ∧ SameFx s t

/-- It has written no scalar, tile, mask or byte; its private registers are `q` but for what retirement changes. -/
def PlainDone (s t : State) (q : Priv) (len : Nat) : Prop :=
  Retired s t q len ∧ SameG s t ∧ SameH s t ∧ SameMem s t ∧ SameFx s t

/-- It has continued at `pc` instead. -/
def JumpDone (s t : State) (pc : BitVec 48) : Prop :=
  Own s t ∧ t.me.p = { s.me.p.clearRestart with pc := pc } ∧ t.me.uncommitted = s.me.uncommitted + 1 ∧ SameG s t ∧ SameH s t ∧
  SameMem s t ∧ SameFx s t

/-- It has left tile `d` as `x`, ORed `f` into `FLAGS`, advanced `RNGCTR` by `n`, and changed nothing else. -/
def TileDone (s t : State) (d : TReg) (x : Tile) (f : BitVec 5) (n : Nat) (len : Nat) : Prop :=
  Retired s t { s.me.p with tiles := t.me.p.tiles, flags := s.me.p.flags ||| f, rngCtr := s.me.p.rngCtr + BitVec.ofNat 32 n } len ∧
  (∀ r, t.tile r = if r = d then x else s.tile r) ∧ SameG s t ∧ SameMem s t ∧ SameFx s t

/-- It has left mask `d` as `m`, ORed `f` into `FLAGS`, and changed nothing else. -/
def MaskDone (s t : State) (d : KReg) (m : Mask) (f : BitVec 5) (len : Nat) : Prop :=
  PlainDone s t { s.me.p with masks := s.me.p.masks.set d (some m), flags := s.me.p.flags ||| f } len

/-- It has deferred the effects `fx` to its chunk's commit; its private registers are `q` but for what retirement changes. -/
def FxDone (s t : State) (q : Priv) (fx : List Fx) (len : Nat) : Prop :=
  Retired s t q len ∧ SameG s t ∧ SameH s t ∧ SameMem s t ∧ t.laterFx = s.laterFx ++ fx ∧ t.svctgtOf t.cur = s.svctgtOf s.cur

/-- It has written `v` to scalar `d` and deferred the effects `fx`. -/
def ScalarFxDone (s t : State) (d : SReg) (v : Word) (fx : List Fx) (len : Nat) : Prop :=
  Retired s t { s.me.p with regs := t.me.p.regs } len ∧ (∀ r, t.val r = if r = d ∧ r ≠ .s 0 then v else s.val r) ∧ SameH s t ∧
  SameMem s t ∧ t.laterFx = s.laterFx ++ fx ∧ t.svctgtOf t.cur = s.svctgtOf s.cur

/-- `i` in state `s` answers a next state, and `P` holds of it. -/
def Gives (i : Instr) (s : State) (P : State → Prop) : Prop := ∃ t, exec i s = .next t ∧ P t

/-- `i` completes, and has written `v` to scalar `d` and `f` into `FLAGS`. -/
def Sets (i : Instr) (s : State) (d : SReg) (v : Word) (f : BitVec 5) (len : Nat) : Prop :=
  Gives i s (fun t => ScalarDone s t d v f len)

/-- An instruction of two scalars writes `f` of their values, and no flag. -/
def Computes2 (mk : SReg → SReg → SReg → Instr) (f : Word → Word → Word) : Prop :=
  ∀ s d a b, Sets (mk d a b) s d (f (s.val a) (s.val b)) 0 8

/-- An instruction of one scalar writes `f` of its value, and no flag. -/
def Computes1 (mk : SReg → SReg → Instr) (f : Word → Word) : Prop := ∀ s d a, Sets (mk d a) s d (f (s.val a)) 0 8

/-- The exact signed result `r` as 04 R84 places it: clamped with the SAT flag under a prefix with SAT, else wrapped without one. -/
def saturated (s : State) (r : Int) : Word × BitVec 5 :=
  if s.pfxSat = true ∧ 0x7FFFFFFFFFFFFFFF < r then (0x7FFFFFFFFFFFFFFF, 0b10000)
  else if s.pfxSat = true ∧ r < -0x8000000000000000 then (0x8000000000000000, 0b10000)
  else (BitVec.ofInt 64 r, 0)

/-- The special-register numbers that are not reserved (01 R15). -/
def srNumbers : List Nat :=
  [0x000, 0x001, 0x002, 0x003, 0x004, 0x010, 0x011, 0x012] ++ (List.range 32).map (· + 0x20) ++
    [0x040, 0x041, 0x042, 0x043, 0x050, 0x051, 0x060, 0x061, 0x062, 0x063, 0x064, 0x070, 0x071, 0x072, 0x078, 0x079, 0x080]

/-! ## Tile instructions -/

/-- Every tile of the list is configured, and none waits in a saved image (06 R130, R155). -/
def TilesReady (s : State) (rs : List TReg) : Prop := ∀ r ∈ rs, (s.tile r).valid = true ∧ (s.tile r).unfilled = false

/-- The prefix mask, where there is one, is configured with the shape `r` × `c` (01 R13). -/
def MaskReady (s : State) (r c : Nat) : Prop := ∀ k, s.pfxMask? = some k → ∃ m, s.mask k = some m ∧ m.rows = r ∧ m.cols = c

/-- `i` completes, and every position of tile `d` that the prefix mask enables holds the encoding `(g r c).1`, every other one its old
encoding or, under MZ, zero (02 R57); the flags of the enabled positions are ORed into `FLAGS`, and `RNGCTR` advances by `n`. -/
def Elementwise (i : Instr) (s : State) (d : TReg) (len n : Nat) (g : Nat → Nat → Nat × BitVec 5) : Prop :=
  let t := s.tile d
  Gives i s (fun u => ∃ (z : Tile) (f : BitVec 5), TileDone s u d z f n len ∧ z.shape = t.shape ||| 0x60000000 ∧ z.side = t.side ∧
    (∀ r c, r < t.rows → c < t.cols → z.enc r c = if s.enabled r c then (g r c).1 else if s.pfxMz then 0 else t.enc r c) ∧
    ∀ b, f.getLsbD b = true ↔ ∃ r c, r < t.rows ∧ c < t.cols ∧ s.enabled r c = true ∧ (g r c).2.getLsbD b = true)

/-- `i` completes, and tile `d` holds the encodings `g` and the scale bytes `side`, with its shape as it was; no flag is set. -/
def TileSet (i : Instr) (s : State) (d : TReg) (len : Nat) (g : Nat → Nat → Nat) (side : List Nat) : Prop :=
  let t := s.tile d
  Gives i s (fun u => ∃ z : Tile, TileDone s u d z 0 0 len ∧ z.shape = t.shape ||| 0x60000000 ∧ z.side = side ∧
    ∀ r c, r < t.rows → c < t.cols → z.enc r c = g r c)

/-- `i` completes, and mask `d` has the shape `r` × `c` and the bits `g`. -/
def MaskSet (i : Instr) (s : State) (d : KReg) (r c : Nat) (g : Nat → Nat → Bool) : Prop :=
  Gives i s (fun u => ∃ m : Mask, MaskDone s u d m 0 8 ∧ m.rows = r ∧ m.cols = c ∧ ∀ i j, i < r → j < c → m.bit i j = g i j)

/-- The executing context's chunk has room for `n` more lines, as far as its budget decides (09 R179, 12 R254). -/
def Room (s : State) (n : Nat) : Prop :=
  if s.me.handler then s.handlerLines s.chunk + n ≤ 64
  else s.chunk.count = 0 ∨
    if s.chunk.det then s.chunk.lines + n ≤ 64
    else s.chunk.lines + n ≤ 512 ∧ ∀ j, ((s.l1Lines s.myCore).filter (fun m => Config.l1Set m = j)).length + n ≤ 6

/-- A range of `n` bytes at `va` lies in pages that translate for the access, none of them MMIO; byte `va` of each piece has the key
`key va` (01 R31, 10 R201). -/
def Maps (s : State) (acc : Access) (va : Word) (n : Nat) (key : Word → Nat) : Prop :=
  ∀ p ∈ pieces (n / 65536 + 2) va n, ∃ g ls, translate s.seen s.myVf p.1 acc = .ok (g, ls) ∧ (∀ v, g ≠ .mmio v) ∧ g.key = key p.1

/-- The keys of its bytes, in order. -/
def keysOf (key : Word → Nat) (va : Word) (n : Nat) : List Nat :=
  (pieces (n / 65536 + 2) va n).flatMap (fun p => (List.range p.2).map (fun i => key p.1 + i))

/-- None of its bytes lies in a poisoned line that the chunk has not overwritten (10 R201). -/
def Sound (s : State) (key : Word → Nat) (va : Word) (n : Nat) : Prop :=
  ∀ p ∈ pieces (n / 65536 + 2) va n, s.poisonIn (key p.1) p.2 = none

/-- The last of some writes to place `a`, else what was there. -/
def lastWrite {α : Type} (w : List (Nat × α)) (a : Nat) (old : α) : α :=
  match w.reverse.find? (fun x => x.1 = a) with
  | some x => x.2
  | none => old

/-- An instruction of `len` bytes has stored to memory: bytes `[a, a + n)` by key read as `f` of their offset, every other byte, every
register and the scratchpad as before. Private registers are `q` but for what retirement changes. -/
def MemStored (s t : State) (q : Priv) (a n : Nat) (f : Nat → Byte) (len : Nat) : Prop :=
  Retired s t q len ∧ SameH s t ∧ t.svctgtOf t.cur = s.svctgtOf s.cur ∧ (∀ o, t.spByteAt o = s.spByteAt o) ∧
  ∀ p, t.left p = if a ≤ p ∧ p < a + n then f (p - a) else s.left p

/-- The executing context has gone past an instruction of `len` bytes with private registers `q`; no other context has changed, nor
what this one sees of tiles, memory and scratchpad, nor its deferred effects. -/
def Moved (s t : State) (q : Priv) (len : Nat) : Prop :=
  t.me.p = { q.clearRestart with pc := s.me.p.pc + BitVec.ofNat 48 len } ∧ (∀ c, c ≠ s.cur → t.ctx c = s.ctx c) ∧ SameH s t ∧
  SameMem s t ∧ SameFx s t

/-! ## Traps -/

/-- Nothing has to commit before a trap of the executing context is taken: its chunk holds nothing, none is pending, and the mode is
free (01 R35 step 2, 09 R190). -/
def Bare (s : State) : Bool := s.chunk.isEmpty && !s.chunk.det && s.me.pending.isNone

/-- The message of a trap without a restart row, raised at the executing context's state: the prefix that is latched goes with it
(01 R36). -/
def trapMsg (s : State) (code : Nat) (w1 w2 : Word) (ops : List Word) (atFetch : Bool := false) : Trap :=
  { code := code, w1 := w1, w2 := w2, row := none, pfx := if s.me.p.tstat.pp then some s.me.p.tstat.pfx else none, ops := ops, atFetch := atFetch }

/-- The executing context has raised trap `m`, with its private registers, the `PC` among them, as they were: it is TRAPPED at once
where nothing has to commit first, and otherwise its chunk has ended, a commit ticket it held and a place among the waiters for a power
token are given up (09 R183, 07 R173), and the trap follows that chunk's commit (01 R35). -/
def TrapTaken (s : State) (m : Trap) (t : State) : Prop :=
  t.me.p = s.me.p ∧ t.cur = s.cur ∧
  if Bare s then t.me.status = .trapped ∧ t.me.trap = some m ∧ t.me.chunk = none
  else t.me.status = .out .commit ∧ (∀ c, c ≠ s.cur → t.ctx c = (s.leaveTokenq s.cur).ctx c) ∧
    t = { s.leaveTokenq s.cur with ctxs := t.ctxs, ticket := if s.ticket = some s.cur then none else s.ticket } ∧
    ∃ k, t.me.chunk = some k ∧ k.ended = some (.trap m)

/-- `i` raises trap `m`. -/
def Traps (i : Instr) (s : State) (m : Trap) : Prop := Gives i s (TrapTaken s m)

/-! ## Boundary instructions and events -/

/-- A context that no event wakes or squashes: it holds no chunk, waits for nothing, for a power token neither, and no message of its
own waits at a port. -/
def Quiescent (x : Ctx) : Prop :=
  x.chunk = none ∧ x.pending = none ∧ x.status ≠ .blocked ∧ x.status ≠ .out .token ∧ ¬(x.sending = .wait ∧ x.status = .runnable)

/-- No message waits in an overflow heap. -/
def NoHeap (s : State) : Prop := ∀ k, (s.core k).heap = []

/-- What follows an event moves no message and places no work of itself: no message waits in an overflow heap (12 R255), and no
deterministic launch has work that a pick-up would place at once (12 R249). -/
def Still (s : State) : Prop := NoHeap s ∧ ∀ p, (s.pod p).detWork = false

/-- As `Still`, and no context holds the commit ticket, for whose chunk an event would wait (09 R183). -/
def Calm (s : State) : Prop := Still s ∧ s.ticket = none

/-- Nothing differs outside contexts, cores, clusters, pods and the commit ticket. -/
def SameRest (s t : State) : Prop :=
  t = { s with ctxs := t.ctxs, cores := t.cores, clusters := t.clusters, pods := t.pods, ticket := t.ticket, ticketQueue := t.ticketQueue }

/-- A boundary instruction of the executing context takes its place in the commit order at once: no chunk is open or pending before
it (09 R178), and in free mode no ticket is held (R183), no die relocks (01 R42) and no replay orders commits (16 R333). -/
def Turn (s : State) : Prop :=
  s.me.chunk = none ∧ s.me.pending = none ∧ s.me.status = .runnable ∧ s.chunk.det = false ∧ s.ticket = none ∧
  (∀ d, (s.die d).relock = none) ∧ ∀ p, s.podOf s.cur = some p → (s.pod p).replay = none

/-- As `Turn` in deterministic mode, where the instruction's place in the key order has come (09 R188). -/
def DetTurn (s : State) : Prop :=
  s.me.chunk = none ∧ s.me.pending = none ∧ s.me.status = .runnable ∧ s.chunk.det = true ∧ s.ticket = none ∧
  (∀ d, (s.die d).relock = none) ∧
  ∀ p, s.podOf s.cur = some p → (s.pod p).replay = none ∧ s.keyFree p (s.me.clock + 1) s.cur = true

/-- The executing context is in no gang that others could meet at its commit (12 R252), no message of its own waits at a port (13 R273),
its commit makes no launch eligible (12 R240), and what follows it moves nothing of itself. -/
def Settled (s : State) : Prop :=
  s.me.gang = none ∧ s.me.sending ≠ .wait ∧ (∀ x ∈ (s.pod ((s.podOf s.cur).getD 0)).launches, x.2.eligible = true ∧ x.2.det = false) ∧ Still s

/-- As `Settled` in deterministic mode: no work is queued or parked that its commit would place (12 R249). -/
def DetSettled (s : State) : Prop :=
  s.me.gang = none ∧ s.me.sending ≠ .wait ∧ (∀ x ∈ (s.pod ((s.podOf s.cur).getD 0)).launches, x.2.eligible = true) ∧ NoHeap s ∧
  ∀ k, (s.cluster k).queue = [] ∧ (s.cluster k).parked = []

/-- `i`, where the open chunk holds something, ends that chunk as a boundary and waits for its commit (09 R177, R178). -/
def EndsFirst (i : Instr) (s : State) : Prop :=
  Gives i s (fun t => Own s t ∧ t.me.p = s.unpair.me.p ∧ t.me.status = .out .commit ∧ ∃ k, t.me.chunk = some k ∧ k.ended = some .boundary)

/-- A boundary instruction has run as a single-operation chunk and committed: `PC` is past it, `CHUNKID` and the logical clock have
advanced by one (01 R21, 09 R178, R187), and the private registers are otherwise `q`. -/
def Committed (s t : State) (q : Priv) : Prop :=
  t.cur = s.cur ∧ t.me.p = { q.clearRestart with pc := s.me.p.pc + 8 } ∧ t.me.chunk = none ∧ t.me.pending = none ∧ t.me.wait = none ∧
  t.me.status = .runnable ∧ t.me.chunkid = s.me.chunkid + 1 ∧ t.me.clock = s.me.clock + 1

/-- Other contexts that hold no chunk and wait for nothing are as they were. -/
def Bystanders (s t : State) : Prop := ∀ c, c ≠ s.cur → Quiescent (s.ctx c) → t.ctx c = s.ctx c

/-- Cores differ at most in shared scalars, squash counters, activity, and the message that a courier's handler still has to take. -/
def SameCores (s t : State) : Prop :=
  ∀ k, t.core k = { s.core k with g := (t.core k).g, sq := (t.core k).sq, activity := (t.core k).activity, handling := (t.core k).handling }

/-- Clusters differ at most in what waits in them: ready and parked records, and claims of power tokens. -/
def SameClusters (s t : State) : Prop :=
  ∀ k, t.cluster k = { s.cluster k with queue := (t.cluster k).queue, parked := (t.cluster k).parked, tokenq := (t.cluster k).tokenq }

/-- Pods differ at most in the commit records of a FULL pod. -/
def SamePods (s t : State) : Prop := ∀ p, t.pod p = { s.pod p with log := (t.pod p).log, owed := (t.pod p).owed }

/-- A boundary instruction has committed with private registers `q`, and nothing else in the package has changed than what its commit
wakes and squashes, the shared scalars it wrote, and its commit record. -/
def Ran (s t : State) (q : Priv) : Prop :=
  Committed s t q ∧ SameRest s t ∧ SameCores s t ∧ SameClusters s t ∧ SamePods s t ∧ Bystanders s t

/-- `i` leaves the executing context BLOCKED on `w` with `w2` for word 2 of a trap that ends the wait (12 R235), its registers as they
were. -/
def Blocks (i : Instr) (s : State) (w : Wait) (w2 : Word) : Prop :=
  Gives i s (fun t => t.me.status = .blocked ∧ t.me.p = s.me.p ∧ t.me.chunk = none ∧ ∃ x, t.me.wait = some x ∧ x.on = w ∧ x.w2 = w2)

/-- Scalar `d` reads as `v`, where `s0` discards, and every other scalar as before. -/
def PutScalar (s t : State) (d : SReg) (v : Word) : Prop := ∀ r, t.val r = if r = d ∧ r ≠ .s 0 then v else s.val r

/-- `t` is `u` but for what the event wakes and squashes: waiting contexts, parked records, and contexts that had read what
changed. -/
def Woke (u t : State) : Prop :=
  t = { u with ctxs := t.ctxs, cores := t.cores, clusters := t.clusters, ticket := t.ticket, ticketQueue := t.ticketQueue } ∧
  (∀ c, Quiescent (u.ctx c) → t.ctx c = u.ctx c) ∧ (∀ k, t.core k = { u.core k with sq := (t.core k).sq }) ∧ SameClusters u t

/-- The Husk has taken the command at the head of queue `q` and answered it (15 R286): the completion entry holds the command's TAG, `res`, the phase and
`out`, and both ring positions have advanced. -/
def Answered (s t : State) (q : Nat) (res : Int) (out : Word) : Prop :=
  let x := s.queue q
  let w := (s.nextEntry q).tag % 65536 + (res % 65536).toNat * 65536 + x.phase.toNat * 2 ^ 63
  (t.queue q).head = (x.head + 1) % 2 ^ x.logn ∧ (t.queue q).cpi = (x.cpi + 1) % 2 ^ x.logn ∧
  ∀ i, i < 16 → t.hostMem.read (x.cpbase.toNat + 16 * x.cpi + i) = (leBytes 8 w ++ leBytes 8 out.toNat).getD i 0

/-- Bytes `bs` stand in host memory from `a` on, where they do not meet the completion entry that queue `q` of `s` fills next. -/
def Delivered (s t : State) (q a : Nat) (bs : List Byte) : Prop :=
  let p := (s.queue q).cpbase.toNat + 16 * (s.queue q).cpi
  ∀ i, i < bs.length → a + i < p ∨ p + 16 ≤ a + i → t.hostMem.read (a + i) = bs.getD i 0

/-- As `Still`, and no message waits in an overflow heap that a pod's saved state holds. -/
def Stills (s : State) : Prop := Still s ∧ ∀ p ∈ s.pods, ∀ m, p.2.saved = some m → ∀ k ∈ m.cores, k.2.heap = []

end Sys2Proof
end

