-- ==== Sys2Proof/Certificates/Slice0/Obligations.lean ====
section
/-! DEFINITION. The statements about the model, each from rules of the spec that its docstring names. -/

open Sys2Proof Sys2Proof.Machine

/-- Saturating arithmetic (04 R84). -/
def Obligations.SaturatingArithmetic : Prop :=
  ∀ (s : State) (d a b : SReg) (imm : BitVec 30),
    let x := (s.val a).toInt
    let y := (s.val b).toInt
    Sets (.add d a b) s d (saturated s (x + y)).1 (saturated s (x + y)).2 8 ∧
    Sets (.sub d a b) s d (saturated s (x - y)).1 (saturated s (x - y)).2 8 ∧
    Sets (.mul d a b) s d (saturated s (x * y)).1 (saturated s (x * y)).2 8 ∧
    Sets (.addi d a imm) s d (saturated s (x + imm.toInt)).1 (saturated s (x + imm.toInt)).2 8 ∧
    ∀ (p : Pfx) (i : Instr), i ∈ [.add d a b, .sub d a b, .mul d a b, .addi d a imm] →
      (i.accepts p = true ↔ p = { rsv := 0, sat := p.sat, xv := false, x := 0, mz := false, mask := 0, rm := 7, fmt := 0 })

/-- Scalar results (04 R82, R83, R85, R86). -/
def Obligations.ScalarResults : Prop :=
  Computes2 .mulh (fun a b => BitVec.ofInt 64 ((a.toInt * b.toInt) / 2 ^ 64)) ∧
  Computes2 .mulhu (fun a b => BitVec.ofNat 64 (a.toNat * b.toNat / 2 ^ 64)) ∧
  Computes2 .div (fun a b => if b = 0 then 0xFFFFFFFFFFFFFFFF else BitVec.ofInt 64 (a.toInt.tdiv b.toInt)) ∧
  Computes2 .divu (fun a b => if b = 0 then 0xFFFFFFFFFFFFFFFF else a / b) ∧
  Computes2 .rem (fun a b => if b = 0 then a else BitVec.ofInt 64 (a.toInt - b.toInt * a.toInt.tdiv b.toInt)) ∧
  Computes2 .remu (fun a b => if b = 0 then a else a % b) ∧
  Computes2 .and (fun a b => a &&& b) ∧ Computes2 .or (fun a b => a ||| b) ∧ Computes2 .xor (fun a b => a ^^^ b) ∧
  Computes2 .andn (fun a b => a &&& ~~~b) ∧
  Computes2 .shl (fun a b => a <<< (b.toNat % 64)) ∧ Computes2 .shr (fun a b => a >>> (b.toNat % 64)) ∧
  Computes2 .sar (fun a b => a.sshiftRight (b.toNat % 64)) ∧ Computes2 .rotl (fun a b => a.rotateLeft (b.toNat % 64)) ∧
  Computes2 .min (fun a b => if b.slt a then b else a) ∧ Computes2 .max (fun a b => if a.slt b then b else a) ∧
  Computes2 .minu (fun a b => if b.ult a then b else a) ∧ Computes2 .maxu (fun a b => if a.ult b then b else a) ∧
  (∀ s d a, ∃ n : Nat, Sets (.clz d a) s d (BitVec.ofNat 64 n) 0 8 ∧ n ≤ 64 ∧
    (∀ i, 64 - n ≤ i → i < 64 → (s.val a).getLsbD i = false) ∧ (n < 64 → (s.val a).getLsbD (63 - n) = true)) ∧
  (∀ s d a, ∃ n : Nat, Sets (.ctz d a) s d (BitVec.ofNat 64 n) 0 8 ∧ n ≤ 64 ∧
    (∀ i, i < n → (s.val a).getLsbD i = false) ∧ (n < 64 → (s.val a).getLsbD n = true)) ∧
  Computes1 .popc (fun a => BitVec.ofNat 64 ((List.range 64).countP (fun i => a.getLsbD i))) ∧
  Computes1 .mov (fun a => a) ∧
  (∀ imm : BitVec 30, Computes1 (fun d a => .andi d a imm) (fun a => a &&& imm.signExtend 64) ∧
    Computes1 (fun d a => .ori d a imm) (fun a => a ||| imm.signExtend 64) ∧
    Computes1 (fun d a => .xori d a imm) (fun a => a ^^^ imm.signExtend 64)) ∧
  (∀ sh : BitVec 6, Computes1 (fun d a => .shli d a sh) (fun a => a <<< sh.toNat))

/-- Comparisons (04 R88). -/
def Obligations.CompareWritesOneOrZero : Prop :=
  Computes2 .cmpEq (fun a b => if a = b then 1 else 0) ∧ Computes2 .cmpNe (fun a b => if a = b then 0 else 1) ∧
  Computes2 .cmpLt (fun a b => if a.toInt < b.toInt then 1 else 0) ∧ Computes2 .cmpLtu (fun a b => if a.toNat < b.toNat then 1 else 0) ∧
  Computes2 .cmpLe (fun a b => if a.toInt ≤ b.toInt then 1 else 0) ∧ Computes2 .cmpLeu (fun a b => if a.toNat ≤ b.toNat then 1 else 0) ∧
  ∀ (d a b : SReg), ∀ x ∈ [(0, Instr.cmpEq d a b), (1, .cmpNe d a b), (2, .cmpLt d a b), (3, .cmpLtu d a b), (4, .cmpLe d a b), (5, .cmpLeu d a b)],
    decode [1 + 0x04 * 2 ^ 2 + x.1 * 2 ^ 10 + d.field * 2 ^ 16 + a.field * 2 ^ 22 + b.field % 16 * 2 ^ 28, b.field / 16] = .ok x.2

/-- Bit fields, constants, addresses and selection (04 R87, R89–R91). -/
def Obligations.FieldsConstantsAndAddresses : Prop :=
  (∀ s d a (pos wm1 : BitVec 6),
    (∃ v : Word, Sets (.ext d a pos wm1 false) s d v 0 8 ∧
      ∀ i, i < 64 → v.getLsbD i = (decide (i ≤ wm1.toNat) && (s.val a).getLsbD (pos.toNat + i))) ∧
    (∃ v : Word, Sets (.ext d a pos wm1 true) s d v 0 8 ∧
      ∀ i, i < 64 → v.getLsbD i = (s.val a).getLsbD (pos.toNat + min i wm1.toNat)) ∧
    (∃ v : Word, Sets (.ins d a pos wm1) s d v 0 8 ∧
      ∀ i, i < 64 → v.getLsbD i =
        if pos.toNat ≤ i ∧ i ≤ pos.toNat + wm1.toNat then (s.val a).getLsbD (i - pos.toNat) else (s.val d).getLsbD i)) ∧
  (∀ s d (imm : BitVec 62), Sets (.li d imm) s d (imm.signExtend 64) 0 12) ∧
  (∀ (sh : BitVec 3) (off : BitVec 27), Computes2 (fun d a b => .addr d a b sh off) (fun a b => a + b * 2 ^ sh.toNat + off.signExtend 64)) ∧
  (∀ s d a b x, Sets (.sel d a b x) s d (if s.val x = 0 then s.val b else s.val a) 0 12)

/-- Branches and jumps (04 R92–R94). -/
def Obligations.BranchesTransferOrFallThrough : Prop :=
  ∀ (s : State) (a b : SReg) (off : BitVec 30),
    let next := s.me.p.pc + 8
    let tgt : Word := s.me.p.pc.zeroExtend 64 + off.signExtend 64 * 4
    let good (t : Word) : Prop := t.toNat % 4 = 0 ∧ t.toNat < 2 ^ 48
    let cond (i : Instr) (c : Prop) : Prop :=
      (¬c → Gives i s (fun t => JumpDone s t next)) ∧ (c → good tgt → Gives i s (fun t => JumpDone s t (tgt.truncate 48)))
    cond (.bEq a b off) (s.val a = s.val b) ∧ cond (.bNe a b off) (s.val a ≠ s.val b) ∧
    cond (.bLt a b off) ((s.val a).toInt < (s.val b).toInt) ∧ cond (.bGe a b off) ((s.val b).toInt ≤ (s.val a).toInt) ∧
    cond (.bLtu a b off) ((s.val a).toNat < (s.val b).toNat) ∧ cond (.bGeu a b off) ((s.val b).toNat ≤ (s.val a).toNat) ∧
    cond (.bz a off) (s.val a = 0) ∧ cond (.bnz a off) (s.val a ≠ 0) ∧ cond (.br off) True ∧
    (good (s.val a) → Gives (.jmp a) s (fun t => JumpDone s t ((s.val a).truncate 48))) ∧
    Gives .nop s (fun t => JumpDone s t next)

/-- The checks of a transfer’s target (04 R92), that of a return address which `ret` loads among them (04 R97). -/
def Obligations.RefusedTargetsTrap : Prop :=
  ∀ (s : State) (a b : SReg) (off : BitVec 30),
    let tgt : Word := s.me.p.pc.zeroExtend 64 + off.signExtend 64 * 4
    let refuses (i : Instr) (t : Word) (ops : List Word) : Prop :=
      (t.toNat % 4 ≠ 0 → Traps i s (trapMsg s 0x02 t t ops)) ∧ (t.toNat % 4 = 0 → 2 ^ 48 ≤ t.toNat → Traps i s (trapMsg s 0x06 t t ops))
    refuses (.br off) tgt [] ∧ refuses (.jmp a) (s.val a) [0, s.val a] ∧
    (s.val a = s.val b → refuses (.bEq a b off) tgt [0, s.val a, s.val b]) ∧ (s.val a ≠ s.val b → refuses (.bNe a b off) tgt [0, s.val a, s.val b]) ∧
    ((s.val a).toInt < (s.val b).toInt → refuses (.bLt a b off) tgt [0, s.val a, s.val b]) ∧
    ((s.val b).toInt ≤ (s.val a).toInt → refuses (.bGe a b off) tgt [0, s.val a, s.val b]) ∧
    ((s.val a).toNat < (s.val b).toNat → refuses (.bLtu a b off) tgt [0, s.val a, s.val b]) ∧
    ((s.val b).toNat ≤ (s.val a).toNat → refuses (.bGeu a b off) tgt [0, s.val a, s.val b]) ∧
    (s.val a = 0 → refuses (.bz a off) tgt [0, s.val a]) ∧ (s.val a ≠ 0 → refuses (.bnz a off) tgt [0, s.val a]) ∧
    (s.val a ≠ 0 → refuses (.loop a off) tgt [0, s.val a]) ∧
    (s.me.p.retdepth < 1024 → refuses (.call off) tgt [] ∧ refuses (.calli a) (s.val a) [0, s.val a]) ∧
    (∀ r rest, s.me.p.rets = r :: rest → s.me.p.retdepth ≠ 0 → r.toNat % 4 ≠ 0 →
      Traps .ret s (trapMsg s 0x02 (r.zeroExtend 64) (r.zeroExtend 64) [])) ∧
    ∀ x pa ls, s.me.p.rets = [] → s.me.p.retdepth ≠ 0 → x = s.me.p.rsbase + BitVec.ofNat 64 (8 * (s.me.p.retdepth - 1)) → x.toNat % 8 = 0 →
      translate s.seen s.myVf x .read = .ok (.mem pa, ls) → s.poisonIn pa 8 = none → refuses .ret (BitVec.ofNat 64 (leNat (s.bytesAt pa 8))) []

/-- The counting branch (04 R95). -/
def Obligations.LoopCountsDown : Prop :=
  ∀ (s : State) (a : SReg) (off : BitVec 30),
    let tgt : Word := s.me.p.pc.zeroExtend 64 + off.signExtend 64 * 4
    (s.val a = 0 → Gives (.loop a off) s (fun t => JumpDone s t (s.me.p.pc + 8))) ∧
    (s.val (.s 0) = 0) ∧
    (s.val a ≠ 0 → tgt.toNat % 4 = 0 → tgt.toNat < 2 ^ 48 → Gives (.loop a off) s (fun t =>
      Own s t ∧ t.me.p = { s.me.p.clearRestart with pc := tgt.truncate 48, regs := t.me.p.regs } ∧
      t.me.uncommitted = s.me.uncommitted + 1 ∧ (∀ r, t.val r = if r = a then s.val a - 1 else s.val r) ∧
      SameH s t ∧ SameMem s t ∧ SameFx s t))

/-- Calls and the return store (04 R96). That a poisoned line of a page table makes the spill trap is the model’s reading (log 115). -/
def Obligations.CallPushesReturnAddress : Prop :=
  ∀ (s : State) (a : SReg) (off : BitVec 30) (i : Instr) (t : Word) (ops : List Word),
    (i = .call off ∧ t = s.me.p.pc.zeroExtend 64 + off.signExtend 64 * 4 ∧ ops = [] ∨ i = .calli a ∧ t = s.val a ∧ ops = [0, s.val a]) →
    let p := s.me.p
    let pushed : Priv := { p.clearRestart with pc := t.truncate 48, retdepth := p.retdepth + 1, rets := (p.pc + 8) :: p.rets.take 15 }
    let slot := p.rsbase + BitVec.ofNat 64 (8 * (p.retdepth - 16))
    (1024 ≤ p.retdepth → Traps i s (trapMsg s 0x0B (p.pc.zeroExtend 64) 0 [BitVec.ofNat 64 p.retdepth, 0, 0, 0])) ∧
    (p.retdepth < 1024 → t.toNat % 4 = 0 → t.toNat < 2 ^ 48 → p.rets.length < 16 → Gives i s (fun u =>
      Own s u ∧ u.me.p = { pushed with rets := (p.pc + 8) :: p.rets } ∧ u.me.uncommitted = s.me.uncommitted + 1 ∧
      SameG s u ∧ SameH s u ∧ SameMem s u ∧ SameFx s u)) ∧
    (p.retdepth < 1024 → t.toNat % 4 = 0 → t.toNat < 2 ^ 48 → p.rets.length = 16 → s.chunk.count = 0 → s.me.handler = false →
      ∀ pa ls, slot.toNat % 8 = 0 → translate s.seen s.myVf slot .write = .ok (.mem pa, ls) → Gives i s (fun u =>
      Own s u ∧ u.me.p = pushed ∧ u.me.uncommitted = s.me.uncommitted + 1 ∧ SameG s u ∧ SameH s u ∧
      (∀ x, u.left x = if pa ≤ x ∧ x < pa + 8 then (leBytes 8 (p.rets.getD 15 0).toNat).getD (x - pa) 0 else s.left x) ∧
      ∀ o, u.spByteAt o = s.spByteAt o)) ∧
    (p.retdepth < 1024 → t.toNat % 4 = 0 → t.toNat < 2 ^ 48 → p.rets.length = 16 → slot.toNat % 8 = 0 → ∀ x ∈ [(XErr.xlate, 0x06, slot), (.perm, 0x07, slot)],
      translate s.seen s.myVf slot .write = .error x.1 → Traps i s (trapMsg s x.2.1 (p.pc.zeroExtend 64) x.2.2 ops)) ∧
    (p.retdepth < 1024 → t.toNat % 4 = 0 → t.toNat < 2 ^ 48 → p.rets.length = 16 → slot.toNat % 8 = 0 → ∀ l : Nat,
      translate s.seen s.myVf slot .write = .error (.poison l) → Traps i s (trapMsg s 0x0F (p.pc.zeroExtend 64) (BitVec.ofNat 64 (l * 64)) ops))

/-- Returns (04 R97). -/
def Obligations.RetPopsReturnAddress : Prop :=
  ∀ s : State,
    let p := s.me.p
    (p.retdepth = 0 → Traps .ret s (trapMsg s 0x0C (p.pc.zeroExtend 64) 0 [])) ∧
    (∀ r rest, p.retdepth ≠ 0 → p.rets = r :: rest → r.toNat % 4 = 0 → Gives .ret s (fun t =>
      Own s t ∧ t.me.p = { p.clearRestart with pc := r, retdepth := p.retdepth - 1, rets := rest } ∧
      t.me.uncommitted = s.me.uncommitted + 1 ∧ SameG s t ∧ SameH s t ∧ SameMem s t ∧ SameFx s t)) ∧
    (∀ x pa ls, p.retdepth ≠ 0 → p.rets = [] → x = p.rsbase + BitVec.ofNat 64 (8 * (p.retdepth - 1)) → x.toNat % 8 = 0 →
      translate s.seen s.myVf x .read = .ok (.mem pa, ls) → s.poisonIn pa 8 = none →
      leNat (s.bytesAt pa 8) % 4 = 0 → leNat (s.bytesAt pa 8) < 2 ^ 48 → Gives .ret s (fun t =>
      Own s t ∧ t.me.p = { p.clearRestart with pc := BitVec.ofNat 48 (leNat (s.bytesAt pa 8)), retdepth := p.retdepth - 1 } ∧
      t.me.uncommitted = s.me.uncommitted + 1 ∧ SameG s t ∧ SameH s t ∧ SameMem s t ∧ SameFx s t))

/-- stop and pad (02 R55), faults of fetch (02 R61), and element prefixes (02 R56–R59). The operands of an ILLEGAL at fetch are the
model’s reading (log 51). -/
def Obligations.PadsPrefixesAndFetchFaults : Prop :=
  (∀ s : State, Traps .stop s (trapMsg s 0x03 (s.me.p.pc.zeroExtend 64) (s.me.p.pc.zeroExtend 64) [] true)) ∧
  (∀ s : State, Gives .pad s (fun t => PlainDone s t s.me.p 4)) ∧
  (∀ w rest, w < 2 ^ 32 → 32 ≤ w → w % 32 = 0 ∨ w % 32 = 28 → ∃ r, decode (w :: rest) = .error r) ∧
  (∀ rest, decode (0 :: rest) = .ok .stop) ∧ (∀ rest, decode (0x1C :: rest) = .ok .pad) ∧
  (∀ (s : State) (ops : List Opnd), (∀ i, s.decoded 0 = some i → ops = instrOpnds i) → (s.decoded 0 = none → ops = []) →
    Traps (.fetchFault .illegal) s (trapMsg s 0x01 (s.me.p.pc.zeroExtend 64) 0 (ops.map s.opWord))) ∧
  (∀ s : State, ∀ x ∈ [(FetchFault.runoff, 0x03), (.xlate, 0x06), (.perm, 0x07), (.align, 0x02)],
    Traps (.fetchFault x.1) s (trapMsg s x.2 (s.me.p.pc.zeroExtend 64) (s.me.p.pc.zeroExtend 64) [] true)) ∧
  ∀ (s : State) (p : Pfx),
    (∀ i, s.openChunk.prefixed = some i → i.accepts p = true → Gives (.elementPrefix p) s (fun t => Own s t ∧
      t.me.p = { s.me.p with pc := s.me.p.pc + 4, tstat := { s.me.p.tstat with pp := true, pfx := BitVec.ofNat 32 p.word } } ∧
      t.me.uncommitted = s.me.uncommitted ∧ SameG s t ∧ SameH s t ∧ SameMem s t ∧ SameFx s t)) ∧
    ((∀ i, s.openChunk.prefixed = some i → i.accepts p = false) → ∀ ops : List Opnd,
      (∀ i, s.openChunk.decoded 1 = some i → ops = instrOpnds i) → (s.openChunk.decoded 1 = none → ops = []) →
      Traps (.elementPrefix p) s (trapMsg s 0x01 (s.me.p.pc.zeroExtend 64) 0 (ops.map s.opWord)))

/-- The software trap (04 R100). -/
def Obligations.SoftTrapCarriesItsImmediate : Prop :=
  ∀ (s : State) (imm : BitVec 30),
    Traps (.trap imm) s (trapMsg s 0x10 (s.me.p.pc.zeroExtend 64) 0 [imm.signExtend 64, 0, 0, 0]) ∧
    decode [1 + 0x25 * 4, imm.toNat * 4] = .ok (.trap imm)

/-- Reading special registers (01 R15, 04 R99). -/
def Obligations.SpecialRegisterReads : Prop :=
  ∀ (s : State) (d : SReg),
    let p := s.me.p
    let c := s.cur
    let rd (n : Nat) (v : Word) : Prop := Sets (.mfs d (BitVec.ofNat 10 n)) s d v 0 8
    let clock := BitVec.ofNat 64 (s.me.clock + s.me.uncommitted)
    rd 0x000 (p.pc.zeroExtend 64) ∧
    rd 0x001 (p.tstat.pfx.zeroExtend 64 <<< 32 ||| (if p.tstat.rv then (0x8000 : Word) else 0) ||| p.tstat.rrow.zeroExtend 64 <<< 8 |||
      (if p.tstat.clamp then (2 : Word) else 0) ||| (if p.tstat.pp then (1 : Word) else 0)) ∧
    rd 0x002 (BitVec.ofNat 64 p.efmt.code) ∧ rd 0x003 (BitVec.ofNat 64 p.rmode.code) ∧ rd 0x004 (p.flags.zeroExtend 64) ∧
    rd 0x010 p.rngSeed ∧ rd 0x011 (p.rngStream.zeroExtend 64) ∧ rd 0x012 (p.rngCtr.zeroExtend 64) ∧
    (∀ n : Fin 8, rd (0x20 + n) ((s.tile (.t n)).shape.zeroExtend 64) ∧ rd (0x28 + n) ((s.tile (.h n)).shape.zeroExtend 64)) ∧
    (∀ n : Fin 16, rd (0x30 + n) p.cb[n]) ∧ rd 0x040 (p.chunklen.zeroExtend 64) ∧
    (s.me.pending = none → rd 0x041 s.me.chunkid) ∧ rd 0x042 p.bankmask ∧ rd 0x043 p.waitlim ∧
    (s.modeOf c = true → rd 0x050 clock ∧ rd 0x051 clock ∧ rd 0x080 0) ∧
    (s.modeOf c = false → rd 0x050 (BitVec.ofNat 64 ((s.die (c / 4096)).acc / 2 ^ 16)) ∧ rd 0x051 (BitVec.ofNat 64 s.refTime) ∧
      rd 0x080 (BitVec.ofNat 64 (s.me.waitcnt.toNat * 2 ^ 32 + (s.die (c / 4096)).ringtok * 2 ^ 8 + (s.cluster (c / 128)).token.toNat))) ∧
    rd 0x060 (BitVec.ofNat 64 (s.chipNum * 2 ^ 16 + c)) ∧ rd 0x061 (p.unitid.zeroExtend 64) ∧ rd 0x062 (p.launchid.zeroExtend 64) ∧
    rd 0x063 (BitVec.ofNat 64 (s.pod ((s.podOf c).getD 0)).group) ∧ rd 0x064 (BitVec.ofNat 64 (s.svctgtOf c)) ∧ rd 0x070 p.rsbase ∧
    rd 0x071 (BitVec.ofNat 64 (p.retdepth + p.rets.length * 2 ^ 16)) ∧ rd 0x072 (p.codelim.zeroExtend 64) ∧
    rd 0x078 (p.spbase.zeroExtend 64) ∧ rd 0x079 (p.spsize.zeroExtend 64) ∧
    ∀ n : BitVec 10, n.toNat ∉ srNumbers →
      Traps (.mfs d n) s (trapMsg s 0x01 (p.pc.zeroExtend 64) 0 [s.val d])

/-- Writing special registers (01 R15–R23, 04 R99). -/
def Obligations.SpecialRegisterWrites : Prop :=
  ∀ (s : State) (a : SReg),
    let p := s.me.p
    let v := s.val a
    let ops := [0, v]
    let wr (n : Nat) (q : Priv) : Prop := Gives (.mts a (BitVec.ofNat 10 n)) s (fun t => PlainDone s t q 8)
    let illegal (n : Nat) : Prop := Traps (.mts a (BitVec.ofNat 10 n)) s (trapMsg s 0x01 (p.pc.zeroExtend 64) 0 ops)
    wr 0x001 { p with tstat := { p.tstat with clamp := p.tstat.clamp && v.getLsbD 1 } } ∧
    (∀ f, Fmt.ofCode (v.toNat % 32) = some f → wr 0x002 { p with efmt := f }) ∧ (Fmt.ofCode (v.toNat % 32) = none → illegal 0x002) ∧
    (∀ f, Rm.ofCode (v.toNat % 8) = some f → wr 0x003 { p with rmode := f }) ∧ (v.toNat % 8 = 7 → illegal 0x003) ∧
    wr 0x004 { p with flags := v.truncate 5 } ∧ wr 0x010 { p with rngSeed := v } ∧ wr 0x012 { p with rngCtr := v.truncate 32 } ∧
    (∀ n : Fin 16, wr (0x30 + n) { p with cb := p.cb.set n v }) ∧
    wr 0x040 { p with chunklen := BitVec.ofNat 15 (max 64 (min 16384 (v.toNat % 2 ^ 15))) } ∧ wr 0x043 { p with waitlim := v } ∧
    wr 0x070 { p with rsbase := v &&& 0xFFFFFFFFFFFFFFC0 } ∧
    (∀ n ∈ [0x000, 0x011, 0x041, 0x042, 0x050, 0x051, 0x060, 0x061, 0x062, 0x063, 0x071, 0x072, 0x078, 0x079, 0x080],
      Traps (.mts a (BitVec.ofNat 10 n)) s (trapMsg s 0x07 (p.pc.zeroExtend 64) (BitVec.ofNat 64 n) ops)) ∧
    (s.cur % 16 ≠ 0 → Traps (.mts a 0x064) s (trapMsg s 0x07 (p.pc.zeroExtend 64) 0x064 ops)) ∧
    (s.cur % 16 = 0 → s.svctgtOk v = false → Traps (.mts a 0x064) s (trapMsg s 0x07 (p.pc.zeroExtend 64) 0x064 ops)) ∧
    (s.cur % 16 = 0 → s.svctgtOk v = true → Gives (.mts a 0x064) s (fun t => Retired s t p 8 ∧ SameG s t ∧ SameH s t ∧ SameMem s t ∧
      t.laterFx = s.laterFx ∧ t.svctgtOf s.cur = v.toNat % 2 ^ 14 ∧ ∀ q, t.pod q = s.pod q)) ∧
    ∀ n : BitVec 10, n.toNat ∉ srNumbers → Traps (.mts a n) s (trapMsg s 0x01 (p.pc.zeroExtend 64) 0 ops)

/-- Writing shape registers (01 R26). -/
def Obligations.ShapeRegisterWrites : Prop :=
  ∀ (s : State) (a : SReg) (n : Fin 8) (d : TReg) (num : Nat),
    (d = .t n ∧ num = 0x20 + n ∨ d = .h n ∧ num = 0x28 + n ∧ s.cur % 16 ≠ 15) →
    let w : BitVec 32 := (s.val a).truncate 32
    (w.getLsbD 31 = true → shapeOk w = true → Gives (.mts a (BitVec.ofNat 10 num)) s (fun t => ∃ x : Tile, TileDone s t d x 0 0 8 ∧
      x.shape &&& 0x9FE0FFFF = w &&& 0x9FE0FFFF ∧ x.valid = true ∧ (∀ i j, x.enc i j = 0) ∧ (∀ i b, x.scaleByte i b = 0))) ∧
    (w.getLsbD 31 = true → shapeOk w = false →
      Traps (.mts a (BitVec.ofNat 10 num)) s (trapMsg s 0x05 (s.me.p.pc.zeroExtend 64) 0 [0, s.val a])) ∧
    (w.getLsbD 31 = false → Gives (.mts a (BitVec.ofNat 10 num)) s (fun t => ∃ x : Tile, TileDone s t d x 0 0 8 ∧ x.valid = false)) ∧
    (∀ (u : State), u.cur % 16 = 15 → Traps (.mts a (BitVec.ofNat 10 (0x28 + n))) u
      (trapMsg u 0x07 (u.me.p.pc.zeroExtend 64) (BitVec.ofNat 64 (0x28 + n)) [0, u.val a]))

/-- svc.rd (04 R101, R103). `q` are the registers of the held context as earlier svc.wr of the same chunk leave them.
PERM for SPACE 0 outside a supervisor is the model’s reading (log 112). -/
def Obligations.ServiceReadsHeldContext : Prop :=
  ∀ (s : State) (d a : SReg) (c : Nat),
    let ops := [s.val d, s.val a]
    let pc : Word := s.me.p.pc.zeroExtend 64
    let x := s.ctx c
    let q := s.heldPriv c
    let sup : Prop := s.cur % 16 = 0
    let named : Prop := (s.val a).toNat = c ∧ c < 16384 ∧ s.podOf c = s.podOf s.cur
    let held : Prop := named ∧ x.holder = some s.cur ∧ ∀ r w, Fx.reply c r w ∉ s.laterFx
    let rd (n : Nat) (v : Word) : Prop := Sets (.svcRd d a 1 (BitVec.ofNat 10 n)) s d v 0 8
    (sup → ∀ n : Fin 8, Sets (.svcRd d a 0 (BitVec.ofNat 10 n)) s d s.me.p.msg[n] 0 8) ∧
    (sup → held → x.status = .trapped →
      (∀ n : Fin 32, Sets (.svcRd d a 2 (BitVec.ofNat 10 n)) s d (if n = 0 then 0 else q.regs[n]) 0 8) ∧
      rd 0x000 (q.pc.zeroExtend 64) ∧
      rd 0x001 (q.tstat.pfx.zeroExtend 64 <<< 32 ||| (if q.tstat.rv then (0x8000 : Word) else 0) ||| q.tstat.rrow.zeroExtend 64 <<< 8 |||
        (if q.tstat.clamp then (2 : Word) else 0) ||| (if q.tstat.pp then (1 : Word) else 0)) ∧
      rd 0x002 (BitVec.ofNat 64 q.efmt.code) ∧ rd 0x003 (BitVec.ofNat 64 q.rmode.code) ∧ rd 0x004 (q.flags.zeroExtend 64) ∧
      rd 0x010 q.rngSeed ∧ rd 0x011 (q.rngStream.zeroExtend 64) ∧ rd 0x012 (q.rngCtr.zeroExtend 64) ∧
      (∀ n : Fin 8, rd (0x20 + n) (q.tiles[n].shape.zeroExtend 64)) ∧ (∀ n : Fin 16, rd (0x30 + n) q.cb[n]) ∧
      rd 0x040 (q.chunklen.zeroExtend 64) ∧ (x.pending = none → rd 0x041 x.chunkid) ∧ rd 0x042 q.bankmask ∧ rd 0x043 q.waitlim ∧
      (s.modeOf c = true → rd 0x050 (BitVec.ofNat 64 (x.clock + x.uncommitted)) ∧ rd 0x051 (BitVec.ofNat 64 (x.clock + x.uncommitted)) ∧ rd 0x080 0) ∧
      (s.modeOf c = false → rd 0x050 (BitVec.ofNat 64 ((s.die (c / 4096)).acc / 2 ^ 16)) ∧ rd 0x051 (BitVec.ofNat 64 s.refTime) ∧
        rd 0x080 (BitVec.ofNat 64 (x.waitcnt.toNat * 2 ^ 32 + (s.die (c / 4096)).ringtok * 2 ^ 8 + (s.cluster (c / 128)).token.toNat))) ∧
      rd 0x060 (BitVec.ofNat 64 (s.chipNum * 2 ^ 16 + c)) ∧ rd 0x061 (q.unitid.zeroExtend 64) ∧ rd 0x062 (q.launchid.zeroExtend 64) ∧
      rd 0x063 (BitVec.ofNat 64 (s.pod ((s.podOf c).getD 0)).group) ∧ rd 0x070 q.rsbase ∧
      rd 0x071 (BitVec.ofNat 64 (q.retdepth + q.rets.length * 2 ^ 16)) ∧ rd 0x072 (q.codelim.zeroExtend 64) ∧
      rd 0x078 (q.spbase.zeroExtend 64) ∧ rd 0x079 (q.spsize.zeroExtend 64) ∧
      (s.me.pending = none → (∀ n : Fin 32, Sets (.svcRd d a 2 (BitVec.ofNat 10 (32 + n))) s d (s.core (c / 16)).g[n] 0 8) ∧
        (∀ n : Fin 8, rd (0x28 + n) ((s.core (c / 16)).h[n].shape.zeroExtend 64)) ∧
        rd 0x064 (BitVec.ofNat 64 (s.pod ((s.podOf s.cur).getD 0)).svctgt))) ∧
    (sup → held → x.status ≠ .trapped →
      (∀ n : BitVec 10, n.toNat < 64 → Sets (.svcRd d a 2 n) s d 0 0 8) ∧ ∀ n ∈ srNumbers, rd n 0) ∧
    (s.laterFx = [] → q = x.p) ∧
    (∀ (l : List Fx) (n : Fin 32) (v : Word), s.laterFx = l ++ [.svcReg c n v] → q.regs[n] = v) ∧
    (∀ (l : List Fx) (v : Word), s.laterFx = l ++ [.svcSr c 0x043 v] → q.waitlim = v) ∧
    (∀ n : BitVec 10, Traps (.svcRd d a 3 n) s (trapMsg s 0x01 pc 0 ops)) ∧
    (∀ n : BitVec 10, 64 ≤ n.toNat → Traps (.svcRd d a 2 n) s (trapMsg s 0x01 pc 0 ops)) ∧
    (∀ n : BitVec 10, 8 ≤ n.toNat → Traps (.svcRd d a 0 n) s (trapMsg s 0x01 pc 0 ops)) ∧
    (∀ n : BitVec 10, n.toNat ∉ srNumbers → Traps (.svcRd d a 1 n) s (trapMsg s 0x01 pc 0 ops)) ∧
    (¬sup ∨ ¬named ∨ x.holder ≠ some s.cur → (s.val a).toNat = c → ∀ n : BitVec 10,
      (n.toNat < 64 → Traps (.svcRd d a 2 n) s (trapMsg s 0x07 pc 0 ops)) ∧
      (n.toNat ∈ srNumbers → Traps (.svcRd d a 1 n) s (trapMsg s 0x07 pc 0 ops))) ∧
    (¬sup → ∀ n : BitVec 10, n.toNat < 8 → Traps (.svcRd d a 0 n) s (trapMsg s 0x07 pc 0 ops))

/-- svc.wr and svc.reply (04 R101, R104, R107). That svc.wr leaves PC[1:0] at 0 is the model’s reading (log 44). -/
def Obligations.ServiceWritesAreDeferred : Prop :=
  ∀ (s : State) (a b : SReg) (c : Nat),
    let ops := [0, s.val a, s.val b]
    let pc : Word := s.me.p.pc.zeroExtend 64
    let v := s.val b
    let sup : Prop := s.cur % 16 = 0
    let named : Prop := (s.val a).toNat = c ∧ c < 16384 ∧ s.podOf c = s.podOf s.cur
    let held : Prop := named ∧ (s.ctx c).holder = some s.cur ∧ ∀ r w, Fx.reply c r w ∉ s.laterFx
    let wr (n : Nat) : Prop :=
      Gives (.svcWr a b 1 (BitVec.ofNat 10 n)) s (fun t => FxDone s t s.me.p [.svcSr c (BitVec.ofNat 10 n) v] 8)
    let stops (n code w2 : Nat) : Prop := Traps (.svcWr a b 1 (BitVec.ofNat 10 n)) s (trapMsg s code pc (BitVec.ofNat 64 w2) ops)
    let w : BitVec 32 := v.truncate 32
    (sup → held → ∀ n : Fin 32,
      Gives (.svcWr a b 2 (BitVec.ofNat 10 n)) s (fun t => FxDone s t s.me.p [.svcReg c n v] 8)) ∧
    (sup → held → (∀ n ∈ [0x000, 0x001, 0x004, 0x010, 0x012, 0x040, 0x043, 0x070] ++ (List.range 16).map (· + 0x30), wr n) ∧
      (∀ f, Fmt.ofCode (v.toNat % 32) = some f → wr 0x002) ∧ (Fmt.ofCode (v.toNat % 32) = none → stops 0x002 0x01 0) ∧
      (v.toNat % 8 ≠ 7 → wr 0x003) ∧ (v.toNat % 8 = 7 → stops 0x003 0x01 0) ∧
      ∀ n : Fin 8, (w.getLsbD 31 = false ∨ shapeOk w = true → wr (0x20 + n)) ∧
        (w.getLsbD 31 = true → shapeOk w = false → stops (0x20 + n) 0x05 0)) ∧
    (sup → held → ∀ n ∈ [0x011, 0x041, 0x042, 0x050, 0x051, 0x060, 0x061, 0x062, 0x063, 0x064, 0x071, 0x072, 0x078, 0x079, 0x080] ++
        (List.range 8).map (· + 0x28), stops n 0x07 n) ∧
    (sup → held → ∀ r, Gives (.svcReply a b r) s (fun t => FxDone s t s.me.p [.reply c r v] 8)) ∧
    (¬sup ∨ ¬named ∨ (s.ctx c).holder ≠ some s.cur → (s.val a).toNat = c →
      (∀ r, Traps (.svcReply a b r) s (trapMsg s 0x07 pc 0 ops)) ∧ (∀ n ∈ srNumbers, stops n 0x07 0) ∧
      ∀ n : Fin 32, Traps (.svcWr a b 2 (BitVec.ofNat 10 n)) s (trapMsg s 0x07 pc 0 ops)) ∧
    (∀ n : BitVec 10, n.toNat ∉ srNumbers → Traps (.svcWr a b 1 n) s (trapMsg s 0x01 pc 0 ops)) ∧
    (∀ n : BitVec 10, 32 ≤ n.toNat → Traps (.svcWr a b 2 n) s (trapMsg s 0x01 pc 0 ops)) ∧
    (∀ n : BitVec 10, Traps (.svcWr a b 0 n) s (trapMsg s 0x01 pc 0 ops) ∧ Traps (.svcWr a b 3 n) s (trapMsg s 0x01 pc 0 ops)) ∧
    -- at the commit, on a context that is still trapped
    ∀ (u : State) (h clk : Nat) (det : Bool) (z : Word), (u.ctx c).status = .trapped →
      let p := (u.ctx c).p
      let after (f : Fx) : Priv := ((u.applyFx h clk det f).ctx c).p
      (∀ n : Fin 32, after (.svcReg c n z) = if n = 0 then p else { p with regs := p.regs.set n z }) ∧
      after (.svcSr c 0x000 z) = { p with pc := z.truncate 48 &&& 0xFFFFFFFFFFFC } ∧
      after (.svcSr c 0x001 z) = { p with tstat := ⟨z.extractLsb' 32 32, z.getLsbD 15, z.extractLsb' 8 7, z.getLsbD 1, z.getLsbD 0⟩ } ∧
      after (.svcSr c 0x004 z) = { p with flags := z.truncate 5 } ∧ after (.svcSr c 0x010 z) = { p with rngSeed := z } ∧
      after (.svcSr c 0x012 z) = { p with rngCtr := z.truncate 32 } ∧ after (.svcSr c 0x043 z) = { p with waitlim := z } ∧
      after (.svcSr c 0x070 z) = { p with rsbase := z &&& 0xFFFFFFFFFFFFFFC0 } ∧
      after (.svcSr c 0x040 z) = { p with chunklen := BitVec.ofNat 15 (max 64 (min 16384 (z.toNat % 2 ^ 15))) } ∧
      (∀ n : Fin 16, after (.svcSr c (BitVec.ofNat 10 (0x30 + n)) z) = { p with cb := p.cb.set n z }) ∧
      (∀ (n : Fin 8) (w : BitVec 32), w = z.truncate 32 →
        (w.getLsbD 31 = true → shapeOk w = true → ∃ x : Tile, after (.svcSr c (BitVec.ofNat 10 (0x20 + n)) z) = { p with tiles := p.tiles.set n x } ∧
          x.shape &&& 0x9FE0FFFF = w &&& 0x9FE0FFFF ∧ x.valid = true ∧ (∀ i j, x.enc i j = 0) ∧ ∀ i b, x.scaleByte i b = 0) ∧
        (w.getLsbD 31 = false → ∃ x : Tile, after (.svcSr c (BitVec.ofNat 10 (0x20 + n)) z) = { p with tiles := p.tiles.set n x } ∧ x.valid = false)) ∧
      (∀ f, Fmt.ofCode (z.toNat % 32) = some f → after (.svcSr c 0x002 z) = { p with efmt := f }) ∧
      (∀ f, Rm.ofCode (z.toNat % 8) = some f → after (.svcSr c 0x003 z) = { p with rmode := f })

/-- Replies (04 R105, R106; a KILL of a unit: 12 R242; a REDIRECT that is refused: logs 44, 117). -/
def Obligations.RepliesReleaseTheTrappedContext : Prop :=
  ∀ (s : State) (c clk : Nat) (b : Word) (t : Trap),
    let x := s.ctx c
    x.status = .trapped → x.trap = some t → (s.cores.find? (fun k => k.2.holds c)) = none →
    let y (r : Reply) : Ctx := (s.reply c r b clk).ctx c
    ((y .resume).p = x.p ∧ (y .resume).status = .runnable ∧ (y .resume).trap = none ∧ (y .resume).holder = none ∧
      (y .resume).clock = max x.clock clk) ∧
    (∀ w, t.atFetch = false → s.wordAt c (x.p.pc.zeroExtend 64) = some w → isPfxWord w = false →
      (y .skip).p = { x.p.clearRestart with pc := x.p.pc + BitVec.ofNat 48 (4 * lenWords w) } ∧ (y .skip).status = .runnable ∧ (y .skip).holder = none) ∧
    (∀ w n, t.atFetch = false → s.wordAt c (x.p.pc.zeroExtend 64) = some w → isPfxWord w = true → s.wordAt c ((x.p.pc + 4).zeroExtend 64) = some n →
      (y .skip).p = { x.p.clearRestart with pc := x.p.pc + BitVec.ofNat 48 (4 + 4 * lenWords n) } ∧ (y .skip).status = .runnable ∧ (y .skip).holder = none) ∧
    (t.atFetch = true → (y .skip).p = { x.p.clearRestart with pc := x.p.pc + 4 } ∧ (y .skip).status = .runnable ∧ (y .skip).holder = none) ∧
    (b.toNat % 4 = 0 → b.toNat < 2 ^ 48 → (y .redirect).p = { x.p.clearRestart with pc := b.truncate 48 } ∧ (y .redirect).status = .runnable ∧
      (y .redirect).holder = none ∧ (y .redirect).clock = max x.clock clk) ∧
    (b.toNat % 4 ≠ 0 → (y .redirect).p.pc = x.p.pc ∧ (y .redirect).p.tstat = x.p.tstat ∧ (y .redirect).status = .trapped ∧
      ∃ m, (y .redirect).trap = some m ∧ m.code = 0x02 ∧ m.w1 = b ∧ m.w2 = b) ∧
    (b.toNat % 4 = 0 → 2 ^ 48 ≤ b.toNat → (y .redirect).p.pc = x.p.pc ∧ (y .redirect).p.tstat = x.p.tstat ∧ (y .redirect).status = .trapped ∧
      ∃ m, (y .redirect).trap = some m ∧ m.code = 0x06 ∧ m.w1 = b ∧ m.w2 = b) ∧
    (c % 16 ≠ 0 → c % 16 ≠ 15 → (y .kill).status = .idle ∧ (y .kill).holder = none ∧ ∀ pid l, s.podOf c = some pid → s.launchOf c = some l →
      l.det = false → ∀ n ∈ l.counters, n ≠ 0 → (((s.reply c .kill b clk).pod pid).counter n).canc = true) ∧
    (c % 16 = 0 ∨ c % 16 = 15 → (y .kill).status = .stopped .killed ∧ (y .kill).holder = none)

/-- Delivering a trap message (01 R35, R36, R39). -/
def Obligations.TrapMessageReachesServiceTarget : Prop :=
  ∀ (s : State) (c pid : Nat) (m : Trap) (trunc : Bool),
    s.podOf c = some pid → m.row = none →
    let svc := (s.pod pid).svctgt
    let ws := m.words c trunc
    (svc ≠ c → (s.core (svc / 16)).heap = [] → (s.core (svc / 16)).port = [] → (s.core (svc / 16)).draining = 0 →
      (s.core (svc / 16)).entries < 64 → (s.die (svc / 4096)).relock = none →
      ((s.trapEntry c m trunc).core (svc / 16)).inbox = (s.core (svc / 16)).inbox ++ [{ kind := .trap, consumer := svc, words := ws }] ∧
      (s.trapEntry c m trunc).errlog = s.errlog) ∧
    (svc = c → (s.trapEntry c m trunc).cores = s.cores ∧ (s.trapEntry c m trunc).errlog.length = s.errlog.length + 1 ∧
      ((s.pod pid).vf ≠ 0 → ((s.trapEntry c m trunc).vf (s.pod pid).vf).vectors = (s.vf (s.pod pid).vf).vectors ++ [0])) ∧
    ((s.trapEntry c m trunc).ctx c).status = .trapped ∧ ((s.trapEntry c m trunc).ctx c).p = (s.ctx c).p ∧
    (m.code < 256 → c < 16384 → ws.length = 8 ∧ (ws.getD 0 0).toNat = m.code + c * 2 ^ 8 + (if trunc then 2 ^ 22 else 0) ∧ ws.getD 1 0 = m.w1 ∧
      ws.getD 2 0 = m.w2 ∧ (ws.getD 3 0).toNat = (match m.pfx with | some x => 2 ^ 7 + x.toNat * 2 ^ 32 | none => 0) ∧
      ∀ i : Fin 4, ws.getD (4 + i) 0 = m.ops.getD i 0)

/-- svc.recv (04 R102). -/
def Obligations.SvcRecvTakesTheOldestTrap : Prop :=
  ∀ (s : State) (d : SReg) (m : InMsg),
    let pc : Word := s.me.p.pc.zeroExtend 64
    let c := (m.words.getD 0 0).toNat / 256 % 2 ^ 14
    (s.cur % 16 ≠ 0 → Traps (.svcRecv d) s (trapMsg s 0x07 pc 0 [s.val d])) ∧
    (s.cur % 16 = 0 → Turn s → Settled s → (s.core (s.cur / 16)).inbox.find? (fun x => x.kind = .trap && x.consumer = s.cur) = some m →
      c ≠ s.cur → Quiescent (s.ctx c) → Gives (.svcRecv d) s (fun t =>
        Committed s t { s.me.p with msg := Vector.ofFn (fun i => m.words.getD i.val 0), regs := t.me.p.regs } ∧
        PutScalar s t d (m.words.getD 0 0) ∧ t.ctx c = { s.ctx c with holder := some s.cur } ∧
        (t.core (s.cur / 16)).inbox = (s.core (s.cur / 16)).inbox.erase m ∧ (∀ k, k ≠ s.cur / 16 → (t.core k).inbox = (s.core k).inbox) ∧
        SameRest s t ∧ SameClusters s t ∧ SamePods s t ∧ ∀ e, e ≠ s.cur → e ≠ c → Quiescent (s.ctx e) → t.ctx e = s.ctx e)) ∧
    (s.cur % 16 = 0 → Turn s → Settled s → (s.core (s.cur / 16)).inbox.find? (fun x => x.kind = .trap && x.consumer = s.cur) = none →
      Blocks (.svcRecv d) s .svcRecv (BitVec.ofNat 64 s.cur))

/-- Configuring, clearing and filling a tile (06 R134–R136). That a courier may write the data of h0–h7 is the model’s reading (log 17). -/
def Obligations.TileConfiguration : Prop :=
  (∀ (s : State) (n : Fin 8) (d : TReg) (cb : BitVec 2) (sc : Bool) (f : BitVec 5) (r : BitVec 7) (c : BitVec 9),
    d = .t n ∨ d = .h n ∧ s.cur % 16 ≠ 15 →
    let code := if f = 0 then s.me.p.efmt.code else f.toNat
    let sh : BitVec 32 := 0x80000000 ||| (cb.zeroExtend 32 <<< 27) ||| (if sc then 0x4000000 else 0#32) ||| (BitVec.ofNat 32 code <<< 21) |||
      (r.zeroExtend 32 <<< 9) ||| c.zeroExtend 32
    (shapeOk sh = true → Gives (.tcfg d (.imm cb sc f r c)) s (fun u => ∃ x : Tile, TileDone s u d x 0 0 8 ∧
      x.shape = sh ||| 0x60000000 ∧ (∀ i j, x.enc i j = 0) ∧ ∀ i b, x.scaleByte i b = 0)) ∧
    (shapeOk sh = false →
      Traps (.tcfg d (.imm cb sc f r c)) s (trapMsg s 0x05 (s.me.p.pc.zeroExtend 64) 0 [(s.tile d).shape.zeroExtend 64]))) ∧
  (∀ (s : State) (d : TReg), TilesReady s [d] → TileSet (.tzero d) s d 8 (fun _ _ => 0) ((s.tile d).side.map (fun _ => 0))) ∧
  (∀ (s : State) (d : TReg) (a : SReg), TilesReady s [d] → MaskReady s (s.tile d).rows (s.tile d).cols →
    (s.tile d).scaled = false ∨ s.pfxMask? = none →
    TileSet (.tfill d a) s d 8
      (fun r c => if s.enabled r c then (s.val a).toNat % 2 ^ (s.tile d).fmt.width else if s.pfxMz then 0 else (s.tile d).enc r c)
      ((s.tile d).side.map (fun _ => (s.val a).toNat / 2 ^ 56)))

/-- Moves between tiles (06 R130, R137). That a courier may write h0–h7 is the model’s reading (log 17). -/
def Obligations.TileMoves : Prop :=
  ∀ (s : State) (d a : TReg) (b : SReg) (idx : BitVec 9),
    let td := s.tile d
    let ta := s.tile a
    let i := (s.val b + idx.zeroExtend 64).toNat
    let pick (r c v : Nat) : Nat := if s.enabled r c then v else if s.pfxMz then 0 else td.enc r c
    let kind : Prop := td.fmt ≠ ta.fmt ∨ td.scaled ≠ ta.scaled
    let mask : Prop := ¬MaskReady s td.rows td.cols ∨ (td.scaled = true ∧ s.pfxMask?.isSome = true)
    let ops : List Word := [td.shape.zeroExtend 64, ta.shape.zeroExtend 64]
    let refuses (i : Instr) (ops : List Word) : Prop := Traps i s (trapMsg s 0x05 (s.me.p.pc.zeroExtend 64) 0 ops)
    (td.valid = true → ta.valid = true → s.confMask = .ok () →
      (kind ∨ mask ∨ td.rows ≠ ta.rows ∨ td.cols ≠ ta.cols → refuses (.tmov d a) ops) ∧
      (kind ∨ td.rows ≠ 1 ∨ td.cols ≠ ta.cols ∨ ta.rows ≤ i → refuses (.trowGet d a b idx) (ops ++ [s.val b])) ∧
      (kind ∨ ta.rows ≠ 1 ∨ td.cols ≠ ta.cols ∨ td.rows ≤ i → refuses (.trowPut d a b idx) (ops ++ [s.val b])) ∧
      (kind ∨ td.scaled = true ∨ td.rows ≠ 1 ∨ td.cols ≠ ta.rows ∨ ta.cols ≤ i → refuses (.tcolGet d a b idx) (ops ++ [s.val b])) ∧
      (kind ∨ td.scaled = true ∨ ta.rows ≠ 1 ∨ ta.cols ≠ td.rows ∨ td.cols ≤ i → refuses (.tcolPut d a b idx) (ops ++ [s.val b])) ∧
      (kind ∨ td.scaled = true ∨ td.rows ≠ ta.cols ∨ td.cols ≠ ta.rows → refuses (.ttrans d a) ops) ∧
      (kind ∨ mask ∨ ¬((ta.rows = 1 ∧ (ta.cols = 1 ∨ ta.cols = td.cols)) ∨ (ta.rows = td.rows ∧ ta.cols = 1)) → refuses (.tbcast d a) ops)) ∧
    (TilesReady s [d, a] → td.fmt = ta.fmt → td.scaled = ta.scaled → s.confMask = .ok () →
    (td.rows = ta.rows → td.cols = ta.cols → MaskReady s td.rows td.cols → td.scaled = false ∨ s.pfxMask? = none →
      TileSet (.tmov d a) s d 8 (fun r c => pick r c (ta.enc r c)) ta.side) ∧
    (td.rows = 1 → td.cols = ta.cols → i < ta.rows → TileSet (.trowGet d a b idx) s d 8 (fun _ c => ta.enc i c) (ta.sideRow i)) ∧
    (ta.rows = 1 → td.cols = ta.cols → i < td.rows → TileSet (.trowPut d a b idx) s d 8 (fun r c => if r = i then ta.enc 0 c else td.enc r c)
      ((List.range td.rows).flatMap (fun r => if r = i then ta.sideRow 0 else td.sideRow r))) ∧
    (td.scaled = false →
      (td.rows = 1 → td.cols = ta.rows → i < ta.cols → TileSet (.tcolGet d a b idx) s d 8 (fun _ c => ta.enc c i) td.side) ∧
      (ta.rows = 1 → ta.cols = td.rows → i < td.cols →
        TileSet (.tcolPut d a b idx) s d 8 (fun r c => if c = i then ta.enc 0 r else td.enc r c) td.side) ∧
      (td.rows = ta.cols → td.cols = ta.rows → TileSet (.ttrans d a) s d 8 (fun r c => ta.enc c r) td.side)) ∧
    ((ta.rows = 1 ∧ (ta.cols = 1 ∨ ta.cols = td.cols)) ∨ (ta.rows = td.rows ∧ ta.cols = 1) → MaskReady s td.rows td.cols →
      td.scaled = false ∨ s.pfxMask? = none → TileSet (.tbcast d a) s d 8
        (fun r c => pick r c (ta.enc (if ta.rows = 1 then 0 else r) (if ta.cols = 1 then 0 else c)))
        ((List.range td.rows).flatMap (fun _ => ta.sideRow 0))))

/-- Scale bytes (06 R138) and selection (06 R142). That a courier may write h0–h7 is the model’s reading (log 17). -/
def Obligations.ScalesAndSelection : Prop :=
  ∀ (s : State) (d a : TReg) (x y : TS) (k : KReg),
    let td := s.tile d
    let ta := s.tile a
    (TilesReady s [d, a] → ta.scaled = true → td.fmt = .u8 → td.rows = ta.rows → td.cols = ta.cols / 32 →
      TileSet (.tsclGet d a) s d 8 (fun r c => ta.scaleByte r c) td.side) ∧
    (TilesReady s [d, a] → td.scaled = true → ta.fmt = .u8 → ta.rows = td.rows → ta.cols = td.cols / 32 →
      Gives (.tsclPut d a) s (fun u => ∃ z : Tile, TileDone s u d z 0 0 8 ∧ z.shape = td.shape ||| 0x60000000 ∧ z.elems = td.elems ∧
        ∀ r b, r < td.rows → b < td.cols / 32 → z.scaleByte r b = ta.enc r b)) ∧
    (∀ m, TilesReady s (d :: tilesOf [x, y]) → s.mask k = some m → m.rows = td.rows → m.cols = td.cols → td.scaled = false → td.fmt ≠ .cb4 →
      (s.src x).scaled = false → (s.src y).scaled = false → (s.src x).fmt = td.fmt → (s.src y).fmt = td.fmt →
      (s.src x).fits td.rows td.cols = true → (s.src y).fits td.rows td.cols = true →
      TileSet (.tsel d x y k) s d 12 (fun r c => if m.bit r c then (s.src x).benc r c else (s.src y).benc r c) td.side) ∧
    (TilesReady s (d :: tilesOf [x, y]) → s.mask k = none → Traps (.tsel d x y k) s
      (trapMsg s 0x04 (s.me.p.pc.zeroExtend 64) 0 [td.shape.zeroExtend 64, s.opWord (tsOpnd x), s.opWord (tsOpnd y), 0]))

/-- Masks (06 R146). -/
def Obligations.MaskInstructions : Prop :=
  ∀ (s : State) (d a b : KReg) (v w : SReg) (e : SReg),
    let x := (s.val v).toNat
    let y := (s.val w).toNat
    let r := x / 2 ^ 16 % 2 ^ 16
    let c := y / 2 ^ 16 % 2 ^ 16
    (x < 2 ^ 32 → y < 2 ^ 32 → 1 ≤ r → r ≤ 64 → 1 ≤ c → c ≤ 256 → r * c ≤ 2048 →
      MaskSet (.kedge d v w) s d r c (fun i j => i < x % 2 ^ 16 && j < y % 2 ^ 16)) ∧
    (2 ^ 32 ≤ x ∨ 2 ^ 32 ≤ y ∨ r = 0 ∨ 64 < r ∨ c = 0 ∨ 256 < c ∨ 2048 < r * c → Traps (.kedge d v w) s
      (trapMsg s 0x05 (s.me.p.pc.zeroExtend 64) 0 [s.opWord (.k d), s.val v, s.val w])) ∧
    (∀ p q, s.mask a = some p → s.mask b = some q → p.rows = q.rows → p.cols = q.cols →
      MaskSet (.kand d a b) s d p.rows p.cols (fun i j => p.bit i j && q.bit i j) ∧
      MaskSet (.kor d a b) s d p.rows p.cols (fun i j => p.bit i j || q.bit i j) ∧
      MaskSet (.kxor d a b) s d p.rows p.cols (fun i j => xor (p.bit i j) (q.bit i j))) ∧
    (∀ p, s.mask a = some p → MaskSet (.knot d a) s d p.rows p.cols (fun i j => !p.bit i j) ∧
      Sets (.kcnt e a) s e (BitVec.ofNat 64 ((List.range (p.rows * p.cols)).countP (fun n => p.bits.testBit n))) 0 8) ∧
    (s.mask a = none → Traps (.knot d a) s (trapMsg s 0x04 (s.me.p.pc.zeroExtend 64) 0 [s.opWord (.k d), 0]) ∧
      Traps (.kcnt e a) s (trapMsg s 0x04 (s.me.p.pc.zeroExtend 64) 0 [s.val e, 0])) ∧
    let ops := [s.opWord (.k d), s.opWord (.k a), s.opWord (.k b)]
    ∀ i ∈ [Instr.kand d a b, .kor d a b, .kxor d a b],
      (s.mask a = none ∨ s.mask b = none → Traps i s (trapMsg s 0x04 (s.me.p.pc.zeroExtend 64) 0 ops)) ∧
      ∀ p q, s.mask a = some p → s.mask b = some q → p.rows ≠ q.rows ∨ p.cols ≠ q.cols →
        Traps i s (trapMsg s 0x05 (s.me.p.pc.zeroExtend 64) 0 ops)

/-- Element-wise arithmetic (06 R130–R133, R140–R142). That a courier may write h0–h7 is the model’s reading (log 17). -/
def Obligations.TileArithmetic : Prop :=
  ∀ (s : State) (d : TReg) (a b x : TS),
    let t := s.tile d
    let A := s.src a
    let B := s.src b
    let X := s.src x
    let n := if s.effRm = .sr then 1 else 0
    let fin (r c : Nat) (v : Val × BitVec 5) := s.finFloat t.fmt (r * t.cols + c) v
    let usable (l : List TS) : Prop := TilesReady s (d :: tilesOf l) ∧ MaskReady s t.rows t.cols ∧ t.scaled = false ∧ t.fmt ≠ .cb4 ∧
      ∀ y ∈ l, (s.src y).fits t.rows t.cols = true
    (usable [a, b] → t.fmt.isInt = false →
      Elementwise (.tadd d a b) s d 8 n (fun r c => fin r c (addVal s.effRm (A.bval r c) (B.bval r c))) ∧
      Elementwise (.tsub d a b) s d 8 n (fun r c => fin r c (addVal s.effRm (A.bval r c) (B.bval r c).negate)) ∧
      Elementwise (.tmul d a b) s d 8 n (fun r c => fin r c (mulVal (A.bval r c) (B.bval r c))) ∧
      Elementwise (.tdiv d a b) s d 8 n (fun r c => fin r c (divVal (A.bval r c) (B.bval r c))) ∧
      Elementwise (.tmax d a b) s d 8 n (fun r c => fin r c (maxVal (A.bval r c) (B.bval r c), 0)) ∧
      Elementwise (.tmin d a b) s d 8 n (fun r c => fin r c (minVal (A.bval r c) (B.bval r c), 0))) ∧
    (usable [a, b, x] → t.fmt.isInt = false →
      Elementwise (.tfma d a b x) s d 12 n (fun r c => fin r c (fmaVal s.effRm (A.bval r c) (B.bval r c) (X.bval r c)))) ∧
    (usable [a, b] → t.fmt.isInt = true → A.isInt = true → B.isInt = true →
      Elementwise (.tadd d a b) s d 8 0 (fun r c => s.finInt t.fmt (A.bint r c + B.bint r c)) ∧
      Elementwise (.tsub d a b) s d 8 0 (fun r c => s.finInt t.fmt (A.bint r c - B.bint r c)) ∧
      Elementwise (.tmul d a b) s d 8 0 (fun r c => s.finInt t.fmt (A.bint r c * B.bint r c)) ∧
      Elementwise (.tdiv d a b) s d 8 0 (fun r c => s.finInt t.fmt (if B.bint r c = 0 then (if isSigned t.fmt then -1 else 2 ^ t.fmt.width - 1)
        else (A.bint r c).tdiv (B.bint r c))) ∧
      Elementwise (.tmax d a b) s d 8 0 (fun r c => s.finInt t.fmt (max (A.bint r c) (B.bint r c))) ∧
      Elementwise (.tmin d a b) s d 8 0 (fun r c => s.finInt t.fmt (min (A.bint r c) (B.bint r c)))) ∧
    (usable [a, b, x] → t.fmt.isInt = true → A.isInt = true → B.isInt = true → X.isInt = true →
      Elementwise (.tfma d a b x) s d 12 0 (fun r c => s.finInt t.fmt (A.bint r c * B.bint r c + X.bint r c))) ∧
    let conf (l : List TS) : Prop := (∀ r ∈ d :: tilesOf l, (s.tile r).valid = true) ∧ s.confMask = .ok ()
    let unfit (l : List TS) : Prop := t.scaled = true ∨ t.fmt = .cb4 ∨ ¬MaskReady s t.rows t.cols ∨ (∃ y ∈ l, (s.src y).fits t.rows t.cols = false) ∨
      (t.fmt.isInt = true ∧ ∃ y ∈ l, (s.src y).isInt = false)
    let refuses (l : List TS) (i : Instr) : Prop := conf l → unfit l →
      Traps i s (trapMsg s 0x05 (s.me.p.pc.zeroExtend 64) 0 (t.shape.zeroExtend 64 :: l.map (fun y => s.opWord (tsOpnd y))))
    (∀ i ∈ [Instr.tadd d a b, .tsub d a b, .tmul d a b, .tdiv d a b, .tmax d a b, .tmin d a b], refuses [a, b] i) ∧
    refuses [a, b, x] (.tfma d a b x)

/-- Functions of one operand (06 R140, R143). That a courier may write h0–h7 is the model’s reading (log 17). -/
def Obligations.TileUnaryFunctions : Prop :=
  ∀ (s : State) (d : TReg) (a : TS),
    let t := s.tile d
    let A := s.src a
    let n := if s.effRm = .sr then 1 else 0
    let fin (r c : Nat) (v : Val × BitVec 5) := s.finFloat t.fmt (r * t.cols + c) v
    let refuses (i : Instr) (code : Nat) : Prop :=
      Traps i s (trapMsg s code (s.me.p.pc.zeroExtend 64) 0 [t.shape.zeroExtend 64, s.opWord (tsOpnd a)])
    let conf : Prop := t.valid = true ∧ (∀ r ∈ tilesOf [a], (s.tile r).valid = true) ∧ s.confMask = .ok ()
    let usable : Prop := TilesReady s (d :: tilesOf [a]) ∧ MaskReady s t.rows t.cols ∧ t.scaled = false ∧ t.fmt ≠ .cb4 ∧ A.fits t.rows t.cols = true
    (usable → t.fmt.isInt = false →
      Elementwise (.tsqrt d a) s d 8 n (fun r c => fin r c (sqrtVal (A.bval r c))) ∧
      Elementwise (.trsqrt d a) s d 8 n (fun r c => fin r c (rsqrtVal (A.bval r c))) ∧
      Elementwise (.trcp d a) s d 8 n (fun r c => fin r c (rcpVal (A.bval r c))) ∧
      Elementwise (.texp2 d a) s d 8 n (fun r c => fin r c (exp2Val (A.bval r c))) ∧
      Elementwise (.tlog2 d a) s d 8 n (fun r c => fin r c (log2Val (A.bval r c))) ∧
      Elementwise (.tabs d a) s d 8 n (fun r c => fin r c ((A.bval r c).abs, 0)) ∧
      Elementwise (.tneg d a) s d 8 n (fun r c => fin r c ((A.bval r c).negate, 0))) ∧
    (usable → t.fmt.isInt = true → A.isInt = true →
      Elementwise (.tabs d a) s d 8 0 (fun r c => s.finInt t.fmt (A.bint r c).natAbs) ∧
      Elementwise (.tneg d a) s d 8 0 (fun r c => s.finInt t.fmt (-(A.bint r c)))) ∧
    (conf → t.fmt.isInt = true → ∀ i ∈ [Instr.tsqrt d a, .trsqrt d a, .trcp d a, .texp2 d a, .tlog2 d a], refuses i 0x05) ∧
    (conf → t.fmt.isInt = true → A.isInt = false → ∀ i ∈ [Instr.tabs d a, .tneg d a], refuses i 0x05) ∧
    (t.valid = false → ∀ i ∈ [Instr.tsqrt d a, .trsqrt d a, .trcp d a, .texp2 d a, .tlog2 d a, .tabs d a, .tneg d a], refuses i 0x04)

/-- Comparisons of tiles (06 R144). -/
def Obligations.TileComparisons : Prop :=
  ∀ (s : State) (d : KReg) (a b : TS),
    let A := s.src a
    let B := s.src b
    let merges : Bool := s.pfxMask?.isSome && !s.pfxMz
    let old (r c : Nat) : Bool := match s.mask d with | some m => merges && m.bit r c | none => false
    TilesReady s (tilesOf [a, b]) → MaskReady s A.rows A.cols → B.fits A.rows A.cols = true →
    (merges = true → ∃ m, s.mask d = some m ∧ m.rows = A.rows ∧ m.cols = A.cols) →
    let cmp (i : Instr) (rel : Val → Val → Bool) : Prop :=
      MaskSet i s d A.rows A.cols (fun r c => if s.enabled r c then rel (A.val r c) (B.bval r c) else old r c)
    cmp (.tcmpEq d a b) Val.eq ∧ cmp (.tcmpNe d a b) (fun x y => !x.eq y) ∧ cmp (.tcmpLt d a b) Val.lt ∧ cmp (.tcmpLe d a b) Val.le ∧
    cmp (.tcmpGt d a b) (fun x y => y.lt x) ∧ cmp (.tcmpGe d a b) (fun x y => y.le x)

/-- tcvt (06 R139, 05 R125–R128). That an integer source into scaled I8 advances RNGCTR is the model’s reading (log 98),
and so is that a courier may write h0–h7 (log 17). -/
def Obligations.TileConversion : Prop :=
  ∀ (s : State) (d : TReg) (e : SReg) (a : TS) (sc : Bool),
    let t := s.tile d
    let A := s.src a
    let sr (b : Bool) : Nat := if b = true ∧ s.effRm = .sr then 1 else 0
    (s.pfxFmt? = none → TilesReady s (d :: tilesOf [a]) → t.fmt ≠ .cb4 → A.fits t.rows t.cols = true → MaskReady s t.rows t.cols →
      (t.scaled = false → Elementwise (.tcvt (.tile d) a false) s d 8 (sr (!(t.fmt.isInt && A.isInt)))
        (fun r c => s.convert t.fmt (r * t.cols + c) A r c)) ∧
      (t.scaled = true → Gives (.tcvt (.tile d) a false) s (fun u => ∃ z : Tile, TileDone s u d z (s.convertScaled t A false).2.2 (sr true) 8 ∧
        z.shape = t.shape ||| 0x60000000 ∧ z.elems = (s.convertScaled t A false).1 ∧ z.side = (s.convertScaled t A false).2.1))) ∧
    (∀ f, s.pfxFmt? = some f → f ≠ .cb4 → (∀ n, d = .h n → s.cur % 16 ≠ 15) → TilesReady s (tilesOf [a]) → MaskReady s A.rows A.cols →
      shapeOk (mkShape f A.rows A.cols sc 0) = true → Gives (.tcvt (.tile d) a sc) s (fun u => ∃ (z : Tile) (fl : BitVec 5) (n : Nat),
        TileDone s u d z fl n 8 ∧ z.shape = mkShape f A.rows A.cols sc 0 ||| 0x60000000 ∧
        (sc = false → n = sr (!(f.isInt && A.isInt)) ∧ (∀ r c, r < A.rows → c < A.cols →
          z.enc r c = if s.enabled r c then (s.convert f (r * A.cols + c) A r c).1 else 0) ∧
          ∀ b, fl.getLsbD b = true ↔ ∃ r c, r < A.rows ∧ c < A.cols ∧ s.enabled r c = true ∧
            (s.convert f (r * A.cols + c) A r c).2.getLsbD b = true) ∧
        (sc = true → n = sr true ∧ fl = (s.convertScaled (Tile.configured (mkShape f A.rows A.cols true 0) t) A true).2.2 ∧ ∀ r k, r < A.rows → k < A.cols / 32 →
          let on := ((List.range 32).map (fun j => 32 * k + j)).filter (fun c => s.enabled r c)
          let y := s.mxBlock f (on.map (fun c => (c, r * A.cols + c, A.bval r c)))
          (on = [] → z.scaleByte r k = 0) ∧ (on ≠ [] → z.scaleByte r k = y.1) ∧
          ∀ j, j < 32 → z.enc r (32 * k + j) = if s.enabled r (32 * k + j) then (afind? y.2.1 (32 * k + j)).getD 0 else 0))) ∧
    (s.pfxFmt? = none → TilesReady s (tilesOf [a]) → A.rows = 1 → A.cols = 1 → MaskReady s 1 1 → Gives (.tcvt (.scalar e) a false) s (fun u =>
      let y : Nat × BitVec 5 := if s.enabled 0 0 then s.convert .i64 0 A 0 0 else (if s.pfxMz then 0 else (s.val e).toNat, 0)
      Retired s u { s.me.p with regs := u.me.p.regs, flags := s.me.p.flags ||| y.2, rngCtr := s.me.p.rngCtr + BitVec.ofNat 32 (sr (!A.isInt)) } 8 ∧
      PutScalar s u e (BitVec.ofNat 64 y.1) ∧ SameH s u ∧ SameMem s u ∧ SameFx s u)) ∧
    (t.valid = false → s.pfxFmt? = none →
      Traps (.tcvt (.tile d) a false) s (trapMsg s 0x04 (s.me.p.pc.zeroExtend 64) 0 [t.shape.zeroExtend 64, s.opWord (tsOpnd a)])) ∧
    (A.rows ≠ 1 ∨ A.cols ≠ 1 → (∀ r ∈ tilesOf [a], (s.tile r).valid = true) → s.confMask = .ok () →
      Traps (.tcvt (.scalar e) a false) s (trapMsg s 0x05 (s.me.p.pc.zeroExtend 64) 0 [s.val e, s.opWord (tsOpnd a)]))

/-- Reductions (06 R145, R133; an integer sum wraps). That a courier may write h0–h7 is the model’s reading (log 17). -/
def Obligations.TileReductions : Prop :=
  ∀ (s : State) (d : TReg) (e : SReg) (a : TReg) (ax : Axis) (i : TS → Instr) (o : RedOp),
    (o = .sum ∧ i = (fun x => .tredSum x a ax)) ∨ (o = .max ∧ i = (fun x => .tredMax x a ax)) ∨ (o = .min ∧ i = (fun x => .tredMin x a ax)) →
    let t := s.tile d
    let A := s.srcTile a
    let elem (r c : Nat) := s.redElem o ax t.fmt A (r * t.cols + c) (t.enc r c) r c
    (TilesReady s [d, a] → MaskReady s A.rows A.cols → t.scaled = false → t.fmt ≠ .cb4 → (t.fmt.isInt = true → A.isInt = true) →
      t.rows = (redShape ax A.rows A.cols).1 → t.cols = (redShape ax A.rows A.cols).2 →
      Gives (i (.tile d)) s (fun u => ∃ (z : Tile) (f : BitVec 5), TileDone s u d z f (if t.fmt.isInt = false ∧ s.effRm = .sr then 1 else 0) 8 ∧
        z.shape = t.shape ||| 0x60000000 ∧ z.side = t.side ∧ (∀ r c, r < t.rows → c < t.cols → z.enc r c = (elem r c).1) ∧
        ∀ b, f.getLsbD b = true ↔ ∃ r c, r < t.rows ∧ c < t.cols ∧ (elem r c).2.getLsbD b = true)) ∧
    (TilesReady s [a] → MaskReady s A.rows A.cols → A.isInt = true →
      let y := s.redElem o ax .i64 A 0 (s.val e).toNat 0 0
      Sets (i (.scalar e)) s e (BitVec.ofNat 64 y.1) y.2 8) ∧
    (t.valid = true → (s.tile a).valid = true → s.confMask = .ok () → (t.scaled = true ∨ t.fmt = .cb4 ∨ (t.fmt.isInt = true ∧ A.isInt = false) ∨
      t.rows ≠ (redShape ax A.rows A.cols).1 ∨ t.cols ≠ (redShape ax A.rows A.cols).2 ∨ ¬MaskReady s A.rows A.cols) →
      Traps (i (.tile d)) s (trapMsg s 0x05 (s.me.p.pc.zeroExtend 64) 0 [t.shape.zeroExtend 64, (s.tile a).shape.zeroExtend 64])) ∧
    ((s.tile a).valid = true → s.confMask = .ok () → (A.isInt = false ∨ ¬MaskReady s A.rows A.cols) →
      Traps (i (.scalar e)) s (trapMsg s 0x05 (s.me.p.pc.zeroExtend 64) 0 [s.val e, (s.tile a).shape.zeroExtend 64])) ∧
    (o = .sum → s.pfxMask? = none → ∀ (f : Fmt) (n old r c : Nat), f.isInt = true →
      s.redElem o .row f A n old r c = s.finInt f ((List.range A.cols).map (fun k => A.int r k)).sum ∧
      s.redElem o .col f A n old r c = s.finInt f ((List.range A.rows).map (fun k => A.int k c)).sum)

/-- Unconfigured tiles (06 R130) and lazy refill (06 R155). -/
def Obligations.UnconfiguredAndUnfilledTiles : Prop :=
  ∀ (s : State) (d a : TReg) (v : SReg) (k : KReg) (n : Fin 8),
    let un (i : Instr) (ops : List Word) : Prop := Traps i s (trapMsg s 0x04 (s.me.p.pc.zeroExtend 64) 0 ops)
    let sh (r : TReg) : Word := (s.tile r).shape.zeroExtend 64
    ((s.tile d).valid = false →
      un (.tzero d) [sh d] ∧ un (.tfill d v) [sh d, s.val v] ∧ un (.tmov d a) [sh d, sh a] ∧ un (.ttrans d a) [sh d, sh a] ∧
      un (.tbcast d a) [sh d, sh a] ∧ un (.tsclGet d a) [sh d, sh a] ∧ un (.tsclPut d a) [sh d, sh a] ∧
      un (.tadd d (.tile a) (.scalar v)) [sh d, sh a, s.val v] ∧ un (.tsqrt d (.tile a)) [sh d, sh a] ∧
      un (.tcmpEq k (.tile d) (.scalar v)) [s.opWord (.k k), sh d, s.val v]) ∧
    ((s.tile d).valid = false → ∀ (f : MmaFmt) (b x : SReg) (off : BitVec 30) (nt : Bool),
      un (.mma d a a f) [sh d, sh a, sh a] ∧ un (.tld d v b x off nt) [sh d, s.val v, s.val b, s.val x] ∧
      un (.tstm d v b x off) [sh d, s.val v, s.val b, s.val x]) ∧
    ((s.tile (.t n)).valid = true → (s.tile (.t n)).unfilled = true → Gives (.tzero (.t n)) s (fun u =>
      Own s u ∧ u.me.status = .out .refill ∧ u.me.p = { s.me.p with tiles := u.me.p.tiles } ∧
      (∀ r, r ≠ .t n → u.tile r = s.tile r) ∧ u.tile (.t n) = { s.tile (.t n) with unfilled := false } ∧ SameG s u ∧ SameMem s u ∧ SameFx s u))

/-- Matrix instructions (07 R156–R173). That a courier may write h0–h7 is the model’s reading (log 17). -/
def Obligations.MatrixMultiplyAccumulates : Prop :=
  ∀ (s : State) (d : TReg) (a b : MOpnd) (f : MmaFmt) (k : Nat) (i : Instr) (zero : Bool),
    (∃ x y, a = .tile x ∧ b = .tile y ∧ k = (s.tile x).cols ∧ (i = .mma d x y f ∧ zero = false ∨ i = .mmaZ d x y f ∧ zero = true)) ∨
    (zero = false ∧ ∃ (km1 : BitVec 7) (p q : SpSel) (u v : SReg) (x : TReg), k = km1.toNat + 1 ∧
      (a = .sp u p ∧ b = .tile x ∧ i = .mmaSa d u x f km1 p ∨ a = .tile x ∧ b = .sp u p ∧ i = .mmaSb d x u f km1 p ∨
       a = .sp u p ∧ b = .sp v q ∧ i = .mmaSs d u v f km1 p q)) →
    let t := s.tile d
    let cl := s.cur / 128
    let A := s.mmaSide a f.af f.mx k (fun r => (List.range 16).any (s.enabled r))
    let B := s.mmaSide b f.bf f.mx k (fun c => (List.range 16).any (fun r => s.enabled r c))
    let new (r c : Nat) := accumulate A B s.pfxSat k r c (if zero then 0 else t.enc r c)
    TilesReady s (d :: (a.tiles ++ b.tiles)) → MaskReady s 16 16 → t.rows = 16 → t.cols = 16 → t.scaled = false → t.fmt = accFmt f.af →
    s.mmaFits a f.af f.mx k = true → s.mmaFits b f.bf f.mx k = true → kRule f.af f.bf k = true →
    ((s.die (s.cur / 4096)).ringtok = 32 → (s.cluster cl).tokenq = [] → s.me.tokenWait = false →
      Gives i s (fun u => ∃ (z : Tile) (fl : BitVec 5), TileDone s (u.setMe { u.me with mma := s.me.mma }) d z fl 0 8 ∧
        (u.me.mma = true ↔ u.me.status = .out .operation) ∧ z.shape = t.shape ||| 0x60000000 ∧ z.side = t.side ∧
        (∀ r c, r < 16 → c < 16 → z.enc r c = if s.enabled r c then (new r c).1 else t.enc r c) ∧
        ∀ n, fl.getLsbD n = true ↔ ∃ r c, r < 16 ∧ c < 16 ∧ s.enabled r c = true ∧ (new r c).2.getLsbD n = true)) ∧
    ((s.die (s.cur / 4096)).ringtok ≠ 32 → (s.cluster cl).token = true → (s.cluster cl).burst = none → (s.cluster cl).tokenq = [] →
      s.me.tokenWait = false → Gives i s (fun u => (u.cluster cl).burst = some (s.dieCycles cl) ∧ u.me.p.pc = s.me.p.pc + 8 ∧
        ∀ r c, r < 16 → c < 16 → (u.tile d).enc r c = if s.enabled r c then (new r c).1 else t.enc r c)) ∧
    ((s.die (s.cur / 4096)).ringtok ≠ 32 → (s.cluster cl).token = false → (s.cluster cl).tokenq = [] → Gives i s (fun u =>
      u.me.status = .out .token ∧ u.me.tokenWait = true ∧ u.me.p = s.me.p ∧ (u.cluster cl).tokenq = [s.cur] ∧
      SameG s u ∧ SameH s u ∧ SameMem s u ∧ SameFx s u))

/-- Tile loads (06 R147–R153), and what one that traps at row r leaves (06 R150). That a courier may write h0–h7 is the model’s reading
(log 17), and so is which byte of a masked row the message names (log 99). -/
def Obligations.TileLoads : Prop :=
  ∀ (s : State) (d : TReg) (a b x : SReg) (off : BitVec 30) (nt : Bool) (key : Word → Nat) (n : Fin 4),
    let t := s.tile d
    let base := s.val a + off.signExtend 64
    let start := if s.me.p.tstat.rv then s.me.p.tstat.rrow.toNat else 0
    let segs (r : Nat) := s.rowSegs t (rowAddr base (s.val b)) (sideAddr (s.val x) t) r
    let u := if 8 ≤ t.fmt.width then t.fmt.width / 8 else 1
    let got (i : Instr) (bytes : Nat → List Byte) : Prop := Gives i s (fun w => ∃ z : Tile, TileDone s w d z 0 0 12 ∧
      z.shape = t.shape ||| 0x60000000 ∧ ∀ r, r < t.rows →
        (∀ c, c < t.cols → z.enc r c = if r < start then t.enc r c else (s.rowLoaded t r (bytes r)).1.getD c 0) ∧
        (t.scaled = true → ∀ q, q < t.cols / 32 → z.scaleByte r q = if r < start then t.scaleByte r q else (s.rowLoaded t r (bytes r)).2.getD q 0))
    (TilesReady s [d] → MaskReady s t.rows t.cols → (s.pfxMask?.isSome = true → 8 ≤ t.fmt.width ∧ t.scaled = false) → start < t.rows →
      got (.tldm d a b x off) (fun r => (segs r).flatMap (fun g => (s.spAddrs g.1 g.2).map s.spByteAt)) ∧
      (base.toNat % u = 0 → (s.val b).toNat % u = 0 →
        (∀ r, start ≤ r → r < t.rows → ∀ g ∈ segs r, Maps s .read g.1 g.2 key ∧ Sound s key g.1 g.2) →
        got (.tld d a b x off nt) (fun r => (segs r).flatMap (fun g => (keysOf key g.1 g.2).map s.byte))) ∧
      (base.toNat % u ≠ 0 ∨ (s.val b).toNat % u ≠ 0 → ∀ i ∈ [Instr.tld d a b x off nt, .tst d a b x off nt],
        Traps i s (trapMsg s 0x08 (s.me.p.pc.zeroExtend 64) base [t.shape.zeroExtend 64, s.val a, s.val b, s.val x]))) ∧
    (∀ (r len code : Nat) (va w2 : Word), TilesReady s [d] → MaskReady s t.rows t.cols → (s.pfxMask?.isSome = true → 8 ≤ t.fmt.width ∧ t.scaled = false) →
      base.toNat % u = 0 → (s.val b).toNat % u = 0 → start ≤ r → r < t.rows → segs r = [(va, len)] → 0 < len → va.toNat % 65536 + len ≤ 65536 →
      (∀ q, start ≤ q → q < r → ∀ g ∈ segs q, Maps s .read g.1 g.2 key ∧ Sound s key g.1 g.2) →
      (translate s.seen s.myVf va .read = .error .xlate ∧ code = 0x06 ∧ w2 = va ∨ translate s.seen s.myVf va .read = .error .perm ∧ code = 0x07 ∧ w2 = va ∨
        ∃ g ls l, translate s.seen s.myVf va .read = .ok (g, ls) ∧ (∀ v, g ≠ .mmio v) ∧ s.poisonIn g.key len = some l ∧ code = 0x0F ∧
          w2 = BitVec.ofNat 64 (l * 64)) →
      Gives (.tld d a b x off nt) s (fun w => ∃ z : Tile, (∀ q, w.tile q = if q = d then z else s.tile q) ∧
        (∀ q c, q < t.rows → c < t.cols → z.enc q c = if start ≤ q ∧ q < r then
          (s.rowLoaded t q ((segs q).flatMap (fun g => (keysOf key g.1 g.2).map s.byte))).1.getD c 0 else t.enc q c) ∧
        w.me.p = { s.me.p with tiles := w.me.p.tiles, tstat := { s.me.p.tstat with rv := true, rrow := BitVec.ofNat 7 r } } ∧ SameG s w ∧ SameMem s w ∧
        let m : Trap := { trapMsg s code (s.me.p.pc.zeroExtend 64) w2 [z.shape.zeroExtend 64, s.val a, s.val b, s.val x] with row := some (d.field, r) }
        if Bare s = true ∧ (r = start ∨ ∃ k, d = .t k) then w.me.status = .trapped ∧ w.me.trap = some m
        else w.me.status = .out .commit ∧ ∃ k, w.me.chunk = some k ∧ k.ended = some (.trap m))) ∧
    (base.toNat % 32 = 0 → Maps s .read base 32 key → Sound s key base 32 → Gives (.tcbLd n a off) s (fun w =>
      PlainDone s w { s.me.p with cb := w.me.p.cb } 12 ∧ ∀ q : Fin 16, w.me.p.cb[q] =
        if q.val / 4 = n.val then BitVec.ofNat 64 (leNat ((((keysOf key base 32).map s.byte).drop (8 * (q.val % 4))).take 8)) else s.me.p.cb[q])) ∧
    (base.toNat % 32 ≠ 0 → Traps (.tcbLd n a off) s (trapMsg s 0x08 (s.me.p.pc.zeroExtend 64) base [BitVec.ofNat 64 n.val, s.val a]))

/-- Tile stores (06 R147–R152). -/
def Obligations.TileStores : Prop :=
  ∀ (s : State) (d : TReg) (a b x : SReg) (off : BitVec 30) (nt : Bool) (key : Word → Nat),
    let t := s.tile d
    let base := s.val a + off.signExtend 64
    let start := if s.me.p.tstat.rv then s.me.p.tstat.rrow.toNat else 0
    let segs (r : Nat) := s.rowSegs t (rowAddr base (s.val b)) (sideAddr (s.val x) t) r
    let u := if 8 ≤ t.fmt.width then t.fmt.width / 8 else 1
    let rows := (List.range t.rows).filter (fun r => start ≤ r)
    let inSp := rows.flatMap (fun r => ((segs r).flatMap (fun g => s.spAddrs g.1 g.2)).zip (s.rowStored t r))
    let inMem := rows.flatMap (fun r => ((segs r).flatMap (fun g => keysOf key g.1 g.2)).zip (s.rowStored t r))
    TilesReady s [d] → MaskReady s t.rows t.cols → (s.pfxMask?.isSome = true → 8 ≤ t.fmt.width ∧ t.scaled = false) → start < t.rows →
    (Room s inSp.length → Gives (.tstm d a b x off) s (fun w => Retired s w s.me.p 12 ∧ SameG s w ∧ SameH s w ∧ SameFx s w ∧
      (∀ p, w.left p = s.left p) ∧ ∀ o, w.spByteAt o = lastWrite inSp o (s.spByteAt o))) ∧
    (base.toNat % u = 0 → (s.val b).toNat % u = 0 → (∀ r, start ≤ r → r < t.rows → ∀ g ∈ segs r, Maps s .write g.1 g.2 key) →
      Room s inMem.length → Gives (.tst d a b x off nt) s (fun w => Retired s w s.me.p 12 ∧ SameG s w ∧ SameH s w ∧
      w.svctgtOf w.cur = s.svctgtOf s.cur ∧ (∀ p, w.left p = lastWrite inMem p (s.left p)) ∧ ∀ o, w.spByteAt o = s.spByteAt o))

/-- Loads (10 R201, R202); of an MMIO page as a single operation (10 R201, R208), whose value is free (log 7). -/
def Obligations.LoadsReadMemory : Prop :=
  ∀ (s : State) (d a : SReg) (off : BitVec 30) (i : Instr) (n : Nat) (sx : Bool),
    (i, n, sx) ∈ [(Instr.ldB d a off, 1, true), (.ldBu d a off, 1, false), (.ldH d a off, 2, true), (.ldHu d a off, 2, false),
      (.ldW d a off, 4, true), (.ldWu d a off, 4, false), (.ldD d a off, 8, false)] →
    let x := s.val a + off.signExtend 64
    let stop (code : Nat) (w2 : Word) : Prop := Traps i s (trapMsg s code (s.me.p.pc.zeroExtend 64) w2 [s.val d, s.val a])
    (∀ va ls, x.toNat % n = 0 → translate s.seen s.myVf x .read = .ok (.mmio va, ls) →
      (s.chunk.isEmpty = false → EndsFirst i s) ∧
      (Turn s → Settled s → s.replayAnswer s.cur = none → ∃ v : Word, Gives i s (fun t =>
          Ran s t { s.me.p with regs := t.me.p.regs, bankmask := s.me.p.bankmask ||| (1 <<< (60 + homeDie va)) } ∧ PutScalar s t d v) ∧
        (∀ k, k < n → v.extractLsb' (8 * k) 8 = (Config.mmioRead s.moment).extractLsb' (8 * k) 8) ∧
        ∀ k, 8 * n ≤ k → k < 64 → v.getLsbD k = (sx && ((Config.mmioRead s.moment).extractLsb' (8 * (n - 1)) 8).getLsbD 7))) ∧
    (x.toNat % n ≠ 0 → stop 0x08 x) ∧
    (x.toNat % n = 0 → translate s.seen s.myVf x .read = .error .xlate → stop 0x06 x) ∧
    (x.toNat % n = 0 → translate s.seen s.myVf x .read = .error .perm → stop 0x07 x) ∧
    ∀ g ls, x.toNat % n = 0 → translate s.seen s.myVf x .read = .ok (g, ls) → (∀ v, g ≠ .mmio v) →
      (∀ l, s.poisonIn g.key n = some l → stop 0x0F (BitVec.ofNat 64 (l * 64))) ∧
      (s.poisonIn g.key n = none → ∃ v : Word, Sets i s d v 0 8 ∧
        (∀ k, k < n → v.extractLsb' (8 * k) 8 = s.byte (g.key + k)) ∧
        ∀ k, 8 * n ≤ k → k < 64 → v.getLsbD k = (sx && (s.byte (g.key + n - 1)).getLsbD 7))

/-- Scratchpad accesses (10 R203, R204). -/
def Obligations.ScratchpadAndBitAccesses : Prop :=
  ∀ (s : State) (d a b : SReg) (sz : BitVec 2) (sx : Bool) (off : BitVec 27) (wm1 : BitVec 6) (boff : BitVec 23),
    let y := s.val a + off.signExtend 64
    let n := 2 ^ sz.toNat
    let place (v : Nat) : Nat := s.me.p.spbase.toNat + v % s.me.p.spsize.toNat
    let at_ (k : Nat) : Nat := place (y + BitVec.ofNat 64 k).toNat
    let p := (s.val a + boff.signExtend 64).toNat
    let lo := p % 8
    let w := wm1.toNat + 1
    let os := (List.range ((lo + w + 7) / 8)).map (fun k => place ((p / 8 + k) % 2 ^ 61))
    let stored (i : Instr) (l : List (Nat × Byte)) : Prop := Gives i s (fun t => Retired s t s.me.p 8 ∧ SameG s t ∧ SameH s t ∧ SameFx s t ∧
      (∀ x, t.left x = s.left x) ∧ ∀ o, t.spByteAt o = lastWrite l o (s.spByteAt o))
    (∃ v : Word, Sets (.sld d a sz sx off) s d v 0 8 ∧ (∀ k, k < n → v.extractLsb' (8 * k) 8 = s.spByteAt (at_ k)) ∧
      ∀ k, 8 * n ≤ k → k < 64 → v.getLsbD k = (sx && (s.spByteAt (at_ (n - 1))).getLsbD 7)) ∧
    (Room s n → stored (.sst a b sz off) ((List.range n).map (fun k => (at_ k, (s.val b).extractLsb' (8 * k) 8)))) ∧
    (∃ v : Word, Sets (.ldbit d a wm1 sx boff) s d v 0 8 ∧ ∀ k, k < 64 → v.getLsbD k =
      if k < w ∨ sx = true then (s.spByteAt (place ((p / 8 + (lo + min k wm1.toNat) / 8) % 2 ^ 61))).getLsbD ((lo + min k wm1.toNat) % 8) else false) ∧
    (Room s 9 → ∃ bs : List Byte, bs.length = os.length ∧ stored (.stbit a b wm1 boff) (os.zip bs) ∧
      ∀ k q, k < os.length → q < 8 → (bs.getD k 0).getLsbD q =
        if lo ≤ 8 * k + q ∧ 8 * k + q < lo + w then (s.val b).getLsbD (8 * k + q - lo) else (s.spByteAt (os.getD k 0)).getLsbD q)

/-- Stores (10 R202), those of an MMIO page as single operations (10 R201, R208, 15 R295), and atomics (10 R211). -/
def Obligations.StoresAndAtomics : Prop :=
  ∀ (s : State) (d a b x : SReg) (off : BitVec 30),
    let y := s.val a + off.signExtend 64
    let pc : Word := s.me.p.pc.zeroExtend 64
    (∀ i n, (i, n) ∈ [(Instr.stB a b off, 1), (.stH a b off, 2), (.stW a b off, 4), (.stD a b off, 8)] →
      (y.toNat % n ≠ 0 → Traps i s (trapMsg s 0x08 pc y [0, s.val a, s.val b])) ∧
      (y.toNat % n = 0 → translate s.seen s.myVf y .write = .error .xlate → Traps i s (trapMsg s 0x06 pc y [0, s.val a, s.val b])) ∧
      (y.toNat % n = 0 → translate s.seen s.myVf y .write = .error .perm → Traps i s (trapMsg s 0x07 pc y [0, s.val a, s.val b])) ∧
      (∀ va ls, y.toNat % n = 0 → translate s.seen s.myVf y .write = .ok (.mmio va, ls) →
        (s.chunk.isEmpty = false → EndsFirst i s) ∧
        (Turn s → Settled s → ∀ q, s.podOf s.cur = some q → Gives i s (fun t =>
          let v := (s.val b).toNat % 2 ^ 32
          let f := (s.pod q).vf
          let raises : Prop := n = 4 ∧ 2 ≤ v ∧ v ≤ 7 ∧ f ≠ 0
          Committed s t { s.me.p with bankmask := s.me.p.bankmask ||| (1 <<< (60 + homeDie va)) } ∧ (∀ r, t.val r = s.val r) ∧
          SameRest (if n = 4 ∧ 2 ≤ v ∧ v ≤ 7 then s.raiseVector f v else s) t ∧ SameCores s t ∧ SameClusters s t ∧ SamePods s t ∧ Bystanders s t ∧
          (t.vf f).vectors = (s.vf f).vectors ++ (if raises then [v] else [])))) ∧
      ∀ g ls, y.toNat % n = 0 → translate s.seen s.myVf y .write = .ok (g, ls) → (∀ v, g ≠ .mmio v) → Room s n →
        Gives i s (fun t => MemStored s t s.me.p g.key n (fun k => (s.val b).extractLsb' (8 * k) 8) 8 ∧ SameG s t)) ∧
    (∀ (i : Instr) (f : Word → Word → Word) (len : Nat), (i, f, len) ∈ [(Instr.amoAdd d a b off, (fun o v => o + v), 8),
        (.amoAnd d a b off, (fun o v => o &&& v), 8), (.amoOr d a b off, (fun o v => o ||| v), 8), (.amoXor d a b off, (fun o v => o ^^^ v), 8),
        (.amoMin d a b off, (fun o v => if v.slt o then v else o), 8), (.amoMax d a b off, (fun o v => if o.slt v then v else o), 8),
        (.amoSwap d a b off, (fun _ v => v), 8), (.amoCas d a b x off, (fun o v => if o = v then s.val x else o), 12)] →
      ∀ g ls ls', y.toNat % 8 = 0 → translate s.seen s.myVf y .read = .ok (g, ls) → translate s.seen s.myVf y .write = .ok (g, ls') → (∀ v, g ≠ .mmio v) →
        s.poisonIn g.key 8 = none → Room s 8 → ∃ old : Word, (∀ k, k < 8 → old.extractLsb' (8 * k) 8 = s.byte (g.key + k)) ∧
        Gives i s (fun t => MemStored s t { s.me.p with regs := t.me.p.regs } g.key 8 (fun k => (f old (s.val b)).extractLsb' (8 * k) 8) len ∧
          PutScalar s t d old)) ∧
    (y.toNat % 8 ≠ 0 → (∀ i ∈ [Instr.amoAdd d a b off, .amoAnd d a b off, .amoOr d a b off, .amoXor d a b off, .amoMin d a b off,
        .amoMax d a b off, .amoSwap d a b off], Traps i s (trapMsg s 0x08 pc y [s.val d, s.val a, s.val b])) ∧
      Traps (.amoCas d a b x off) s (trapMsg s 0x08 pc y [s.val d, s.val a, s.val b, s.val x]))

/-- Reductions (10 R212, 09 R195). Which accesses fold is the model’s reading (log 31). -/
def Obligations.ReductionInstructions : Prop :=
  ∀ (s : State) (a b : SReg) (rf : RedFmt) (off : BitVec 28) (i : Instr) (opr : Nat),
    (i, opr) ∈ [(Instr.redAdd a b rf off, 0), (.redMax a b rf off, 1), (.redMin a b rf off, 2)] →
    let y := s.val a + off.signExtend 64
    let n := redBytes rf
    let v := (s.val b).toNat % 2 ^ (8 * n)
    (y.toNat % n ≠ 0 → Traps i s (trapMsg s 0x08 (s.me.p.pc.zeroExtend 64) y [0, s.val a, s.val b])) ∧
    (∀ g ls ls', y.toNat % n = 0 → translate s.seen s.myVf y .read = .ok (g, ls) → translate s.seen s.myVf y .write = .ok (g, ls') →
      (∀ w, g ≠ .mmio w) →
      (g.key < 2 ^ 64 → s.foldsInto y g.key rf opr = true → Gives i s (fun t => FxDone s t s.me.p [.fold g.key rf opr v] 8)) ∧
      ((2 ^ 64 ≤ g.key ∨ s.foldsInto y g.key rf opr = false) → s.poisonIn g.key n = none → Room s n → Gives i s (fun t =>
        SameG s t ∧ MemStored s t s.me.p g.key n (fun k => BitVec.ofNat 8 (redOp rf opr (leNat (s.bytesAt g.key n)) v / 2 ^ (8 * k))) 8))) ∧
    (∀ x w : Word, redOp .i32 0 (x.toNat % 2 ^ 32) (w.toNat % 2 ^ 32) = (x + w).toNat % 2 ^ 32)

/-- Remote operations (10 R205, R206) and prefetches (10 R210). That POISON ends an rld of a poisoned line is the model’s reading (log 115),
and so is what a re-run finds at hand (log 126). -/
def Obligations.RemoteOperations : Prop :=
  ∀ (s : State) (d a b x y : SReg) (off : BitVec 30) (hid : BitVec 10),
    let g := s.val a + off.signExtend 64
    let G := globOf g
    let pc : Word := s.me.p.pc.zeroExtend 64
    let good : Prop := 2 ^ 63 ≤ g.toNat ∧ G.chip < 192 ∧ g.toNat % 8 = 0 ∧ s.globPerm s.myPod G = true ∧ (G.spm = true → G.off < 2 ^ 21)
    (good → Gives (.rst a b off) s (fun t => FxDone s t s.me.p [.post g [s.val b] false] 8)) ∧
    (g.toNat < 2 ^ 63 → Traps (.rst a b off) s (trapMsg s 0x06 pc g [0, s.val a, s.val b]) ∧
      (s.me.answer = none → s.me.request = none → Traps (.rld d a off) s (trapMsg s 0x06 pc g [s.val d, s.val a]))) ∧
    (2 ^ 63 ≤ g.toNat → G.chip < 192 → g.toNat % 8 ≠ 0 → Traps (.rst a b off) s (trapMsg s 0x08 pc g [0, s.val a, s.val b])) ∧
    (2 ^ 63 ≤ g.toNat → G.chip < 192 → g.toNat % 8 = 0 → s.globPerm s.myPod G = false →
      Traps (.rst a b off) s (trapMsg s 0x07 pc g [0, s.val a, s.val b])) ∧
    (2 ^ 63 ≤ (s.val a).toNat → (globOf (s.val a)).chip < 192 → s.globPerm s.myPod (globOf (s.val a)) = true →
      Gives (.amSend a b x y hid) s (fun t => FxDone s t s.me.p [.post (s.val a)
        [BitVec.ofNat 64 (s.chipNum * 2 ^ 56 + s.cur * 2 ^ 40 + hid.toNat), s.val b, s.val x, s.val y, BitVec.ofNat 64 ((s.val a).toNat % 2 ^ 44), 0, 0, 0]
        true] 12)) ∧
    (good → ∀ v, s.me.kept.length ≤ s.me.taken → s.me.answer = some (.value v) → Gives (.rld d a off) s (fun t =>
      t.me.p = { ({ s.me.p with regs := t.me.p.regs } : Priv).clearRestart with pc := s.me.p.pc + 8 } ∧ (∀ c, c ≠ s.cur → t.ctx c = s.ctx c) ∧
      SameH s t ∧ SameMem s t ∧ t.svctgtOf t.cur = s.svctgtOf s.cur ∧
      t.laterFx = s.laterFx ++ (if G.chip = s.chipNum then [.bank (s.globBank G)] else []) ∧ PutScalar s t d v ∧ t.me.answer = none ∧
      t.me.request = none)) ∧
    (good → s.me.kept.length ≤ s.me.taken → ∀ n, s.me.answer = some (.refused n) → Traps (.rld d a off) s (trapMsg s 0x0D pc g [s.val d, s.val a])) ∧
    (good → s.me.kept.length ≤ s.me.taken → ∀ l : Nat, s.me.answer = some (.poisoned l) →
      Traps (.rld d a off) s (trapMsg s 0x0F pc (BitVec.ofNat 64 (l * 64)) [s.val d, s.val a])) ∧
    (good → ∀ v q, s.podOf s.cur = some q → s.me.taken < s.me.kept.length → s.me.kept[s.me.taken]? = some (.value v) → Gives (.rld d a off) s (fun t =>
      t.me.p = { ({ s.me.p with regs := t.me.p.regs } : Priv).clearRestart with pc := s.me.p.pc + 8 } ∧ (∀ c, c ≠ s.cur → t.ctx c = s.ctx c) ∧
      SameH s t ∧ SameMem s t ∧ t.svctgtOf t.cur = s.svctgtOf s.cur ∧
      t.laterFx = s.laterFx ++ (if G.chip = s.chipNum then [.bank (s.globBank G)] else []) ∧ PutScalar s t d v ∧ t.me.answer = s.me.answer ∧
      t.me.request = s.me.request)) ∧
    (good → s.me.answer = none → s.replayAnswer s.cur = none → ∀ r, s.me.request = some r → Gives (.rld d a off) s (fun t =>
      Own s t ∧ t.me.p = s.me.p ∧ t.me.status = .out .reply ∧ SameG s t ∧ SameH s t ∧ SameMem s t ∧ SameFx s t)) ∧
    (good → s.me.answer = none → s.replayAnswer s.cur = none → s.me.request = none → G.chip = s.chipNum → Gives (.rld d a off) s (fun t =>
      t.me.p = s.me.p ∧ t.me.status = .out .reply ∧ (∃ r, t.me.request = some r ∧ r.rid = s.rid ∧ r.chip = G.chip) ∧ t.rid = (s.rid + 1) % 2 ^ 32 ∧
      (t.core G.core).agent = (s.core G.core).agent ++ [{ srcChip := s.chipNum, srcCtx := s.cur, rid := s.rid, vf := s.vfOf s.cur, addr := g, kind := .rld }])) ∧
    ∀ i ∈ [Instr.pfL1 a off, .pfL2 a off], Gives i s (fun t => Moved s t s.me.p 8 ∧ SameG s t ∧
      t.core s.myCore = { s.core s.myCore with pf := (t.core s.myCore).pf } ∧ ∀ k, k ≠ s.myCore → t.core k = s.core k)

/-- Full/empty words (10 R213, R214) of this chip, and at another chip, to which one request goes (18 R349, R350). -/
def Obligations.FullEmptyWords : Prop :=
  ∀ (s : State) (d a b : SReg) (g ps : Bool) (woff : BitVec 27) (cl off : Nat),
    let y := s.val a + (woff.signExtend 64 <<< 3)
    let full := (s.cluster cl).full.contains (off / 8)
    let q : Priv := if g = true then { s.me.p with bankmask := s.me.p.bankmask ||| (1 <<< s.globBank (globOf y)) } else s.me.p
    let held : Word := BitVec.ofNat 64 (leNat ((s.cluster cl).spm.readBytes off 8))
    let rest (t : State) (byte : Nat → Byte → Byte) (bit : Bool) : Prop := SameRest s t ∧ SameCores s t ∧ SamePods s t ∧ Bystanders s t ∧
      ∀ k, t.cluster k = { s.cluster k with
          queue := (t.cluster k).queue, parked := (t.cluster k).parked, tokenq := (t.cluster k).tokenq,
          spm := (t.cluster k).spm, spmDirty := (t.cluster k).spmDirty, full := (t.cluster k).full } ∧
        (∀ o, (t.cluster k).spm.read o = if k = cl ∧ off ≤ o ∧ o < off + 8 then byte (o - off) ((s.cluster k).spm.read o) else (s.cluster k).spm.read o) ∧
        ∀ w, (t.cluster k).full.contains w = if k = cl ∧ w = off / 8 then bit else (s.cluster k).full.contains w
    let quiet : Prop := s.me.answer = none ∧ s.replayAnswer s.cur = none ∧ s.me.request = none
    let asked (x : Glob) (op : FeOp) (v : Word) (t : State) : Prop :=
      t.me.p = { s.me.p with bankmask := s.me.p.bankmask ||| (1 <<< s.globBank x) } ∧ (∀ r, t.val r = s.val r) ∧
      (∃ r, t.me.request = some r ∧ r.rid = s.rid ∧ r.chip = x.chip) ∧ ∃ h : OpHdr, h.rid = BitVec.ofNat 32 s.rid ∧ h.addr = y ∧
        (t.port (s.portOf s.cur x.core)).retry =
          (s.port (s.portOf s.cur x.core)).retry ++ [((s.port (s.portOf s.cur x.core)).txSeq, x.chip, .fe h op v)]
    let waits (x : Glob) (put : Bool) (t : State) : Prop := t.me.status = .blocked ∧ t.me.chunk = none ∧ ∃ w, t.me.wait = some w ∧ w.on = .fe g (128 + x.chip) x.off put ∧ w.w2 = y
    Turn s → Settled s →
    (∀ x, s.fePlace g y = .ok (.away x) →
      (quiet → s.cur % 16 ≠ 15 →
        Gives (.fePut a b g woff) s (fun t => asked x .put (s.val b) t ∧ waits x true t) ∧
        Gives (.feTake d a g woff) s (fun t => asked x .take 0 t ∧ waits x false t)) ∧
      (quiet → Gives (.fePeek d a g ps woff) s (fun t => asked x (if ps then .peekState else .peekWord) 0 t ∧ t.me.status = .out .reply)) ∧
      (quiet → s.cur % 16 = 15 → Traps (.fePut a b g woff) s (trapMsg s 0x11 (s.me.p.pc.zeroExtend 64) 0 [0, s.val a, s.val b]) ∧
        Traps (.feTake d a g woff) s (trapMsg s 0x11 (s.me.p.pc.zeroExtend 64) 0 [s.val d, s.val a])) ∧
      (s.me.kept = [] → (∀ v, s.me.answer = some (.value v) →
          Gives (.fePut a b g woff) s (fun t => Ran s t s.me.p ∧ ∀ r, t.val r = s.val r) ∧
          ∀ i ∈ [Instr.feTake d a g woff, .fePeek d a g ps woff], Gives i s (fun t => Ran s t { s.me.p with regs := t.me.p.regs } ∧ PutScalar s t d v)) ∧
        ∀ n, s.me.answer = some (.refused n) → Traps (.fePut a b g woff) s (trapMsg s 0x0D (s.me.p.pc.zeroExtend 64) y [0, s.val a, s.val b]) ∧
          ∀ i ∈ [Instr.feTake d a g woff, .fePeek d a g ps woff], Traps i s (trapMsg s 0x0D (s.me.p.pc.zeroExtend 64) y [s.val d, s.val a]))) ∧
    (s.fePlace g y = .ok (.here cl off) →
    (full = false → Gives (.fePut a b g woff) s (fun t => Committed s t q ∧ (∀ r, t.val r = s.val r) ∧
      rest t (fun k _ => (s.val b).extractLsb' (8 * k) 8) true)) ∧
    (full = true → Gives (.feTake d a g woff) s (fun t => Committed s t { q with regs := t.me.p.regs } ∧ PutScalar s t d held ∧
      rest t (fun _ x => x) false)) ∧
    Gives (.fePeek d a g ps woff) s (fun t => Committed s t { q with regs := t.me.p.regs } ∧
      PutScalar s t d (if ps then (if full then 1 else 0) else held) ∧ rest t (fun _ x => x) full) ∧
    (s.cur % 16 ≠ 15 → (full = true → Blocks (.fePut a b g woff) s (.fe g cl off true) y) ∧
      (full = false → Blocks (.feTake d a g woff) s (.fe g cl off false) y)) ∧
    (s.cur % 16 = 15 → full = true → Traps (.fePut a b g woff) s (trapMsg s 0x11 (s.me.p.pc.zeroExtend 64) 0 [0, s.val a, s.val b])) ∧
    (s.cur % 16 = 15 → full = false → Traps (.feTake d a g woff) s (trapMsg s 0x11 (s.me.p.pc.zeroExtend 64) 0 [s.val d, s.val a])))

/-- wait.mem (10 R215), circular buffers (10 R217), timelines (10 R221) and recv (13 R274). -/
def Obligations.WaitsBuffersAndTimelines : Prop :=
  ∀ (s : State) (d a b : SReg) (cc : Cc) (woff : BitVec 27) (m : BitVec 5) (e : BitVec 4) (sl : BitVec 2) (off : BitVec 30),
    let cl := s.cur / 128
    let pc : Word := s.me.p.pc.zeroExtend 64
    let n := ((s.val a).toNat + m.toNat) % 32
    let x := (s.cluster cl).engine e.toNat
    let tl : Word := BitVec.ofNat 64 ((if x.err then 2 ^ 63 else 0) + x.errcode * 2 ^ 56 + x.count)
    let cnt := (s.val a).toNat % 2 ^ 56
    let passed : Bool := x.err && x.errseq ≤ cnt
    let y := s.val a + (woff.signExtend 64 <<< 3)
    let unit : Prop := s.cur % 16 ≠ 15
    let block (i : Instr) (ops : List Word) : Prop := Traps i s (trapMsg s 0x11 pc 0 ops)
    (Turn s → Settled s → s.cur % 16 = 15 →
      (∀ g ls, y.toNat % 8 = 0 → translate s.seen s.myVf y .read = .ok (g, ls) → (∀ v, g ≠ .mmio v) →
        ccHolds cc (BitVec.ofNat 64 (leNat (s.bytesAt g.key 8))) (s.val b) = false → block (.waitMem a b cc woff) [0, s.val a, s.val b]) ∧
      (∀ w, (s.cluster cl).cbuf? n = some w → w.filled = [] → block (.cbufTake d a m) [s.val d, s.val a]) ∧
      (passed = false → x.count < cnt → block (.tlWait a e) [0, s.val a]) ∧
      ((s.core (s.cur / 16)).first .ordinary s.cur = none → block (.recv d a off) [s.val d, s.val a])) ∧
    (DetTurn s → DetSettled s →
      (∀ g ls, y.toNat % 8 = 0 → translate s.seen s.myVf y .read = .ok (g, ls) → (∀ v, g ≠ .mmio v) → s.poisonIn g.key 8 = none →
        (ccHolds cc (BitVec.ofNat 64 (leNat (s.bytesAt g.key 8))) (s.val b) = true →
          Gives (.waitMem a b cc woff) s (fun t => Committed s t s.me.p ∧ ∀ r, t.val r = s.val r)) ∧
        (ccHolds cc (BitVec.ofNat 64 (leNat (s.bytesAt g.key 8))) (s.val b) = false → unit →
          Blocks (.waitMem a b cc woff) s (.mem g.key cc (s.val b)) y)) ∧
      (∀ w, (s.cluster cl).cbuf? n = some w → w.filled = [] → unit → Blocks (.cbufTake d a m) s (.cbuf n) (BitVec.ofNat 64 n)) ∧
      (passed = false → cnt ≤ x.count → x.held = [] → Gives (.tlWait a e) s (fun t => Committed s t s.me.p ∧ ∀ r, t.val r = s.val r)) ∧
      (passed = false → x.count < cnt → unit → Blocks (.tlWait a e) s (.tl e.toNat cnt) tl) ∧
      ((s.core (s.cur / 16)).first .ordinary s.cur = none → unit → Blocks (.recv d a off) s .recv (BitVec.ofNat 64 s.cur))) ∧
    (Turn s → Settled s →
      (∀ g ls, y.toNat % 8 = 0 → translate s.seen s.myVf y .read = .ok (g, ls) → (∀ v, g ≠ .mmio v) → s.poisonIn g.key 8 = none →
        (ccHolds cc (BitVec.ofNat 64 (leNat (s.bytesAt g.key 8))) (s.val b) = true →
          Gives (.waitMem a b cc woff) s (fun t => Ran s t s.me.p ∧ ∀ r, t.val r = s.val r)) ∧
        (ccHolds cc (BitVec.ofNat 64 (leNat (s.bytesAt g.key 8))) (s.val b) = false → unit →
          Blocks (.waitMem a b cc woff) s (.mem g.key cc (s.val b)) y)) ∧
      (∀ w k rest, (s.cluster cl).cbuf? n = some w → w.filled = k :: rest → Gives (.cbufTake d a m) s (fun t =>
        Committed s t { s.me.p with regs := t.me.p.regs } ∧ PutScalar s t d (BitVec.ofNat 64 (w.base + k * w.slot) - s.me.p.spbase.zeroExtend 64) ∧
        SameRest s t ∧ SameCores s t ∧ SamePods s t ∧ Bystanders s t ∧ ∀ j, t.cluster j = { s.cluster j with
          queue := (t.cluster j).queue, parked := (t.cluster j).parked, tokenq := (t.cluster j).tokenq,
          cbufs := if j = cl then aput (s.cluster j).cbufs n { w with filled := rest, held := w.held ++ [k] } else (s.cluster j).cbufs })) ∧
      (∀ w, (s.cluster cl).cbuf? n = some w → w.filled = [] → unit → Blocks (.cbufTake d a m) s (.cbuf n) (BitVec.ofNat 64 n)) ∧
      (passed = false → cnt ≤ x.count → Gives (.tlWait a e) s (fun t => Ran s t s.me.p ∧ ∀ r, t.val r = s.val r)) ∧
      (passed = false → x.count < cnt → unit → Blocks (.tlWait a e) s (.tl e.toNat cnt) tl) ∧
      (passed = true → Traps (.tlWait a e) s (trapMsg s 0x0E pc tl [s.val a, BitVec.ofNat 64 x.errseq, x.fault, 0])) ∧
      ((s.core (s.cur / 16)).first .ordinary s.cur = none → unit → Blocks (.recv d a off) s .recv (BitVec.ofNat 64 s.cur)) ∧
      (∀ w, (s.core (s.cur / 16)).first .ordinary s.cur = some w → w.words.length = 8 →
        let os := (List.range 64).map (fun k => s.me.p.spbase.toNat + (s.val a + off.signExtend 64 + BitVec.ofNat 64 k).toNat % s.me.p.spsize.toNat)
        (s.me.handler = true → s.handlerLines s.chunk + ((os.map (fun o => o / 64)).eraseDups).length ≤ 64) → Gives (.recv d a off) s (fun t =>
        Committed s t { s.me.p with regs := t.me.p.regs } ∧ PutScalar s t d w.hdr ∧ SameRest s t ∧ SamePods s t ∧ Bystanders s t ∧
        (∀ j, (t.core j).inbox = if j = s.cur / 16 then (s.core j).inbox.erase w else (s.core j).inbox) ∧
        ∀ o, (t.cluster cl).spm.read o = lastWrite (os.zip (w.words.flatMap (fun v => leBytes 8 v.toNat))) o ((s.cluster cl).spm.read o)))) ∧
    ((s.cluster cl).cbuf? n = none → Traps (.cbufTake d a m) s (trapMsg s 0x07 pc (BitVec.ofNat 64 n) [s.val d, s.val a]) ∧
      Traps (.cbufGive a m) s (trapMsg s 0x07 pc (BitVec.ofNat 64 n) [0, s.val a])) ∧
    (∀ w, (s.cluster cl).cbuf? n = some w → Gives (.cbufGive a m) s (fun t => FxDone s t s.me.p [.give n] 8)) ∧
    Sets (.tlRead d e sl) s d ((x.view s.chunk.det s.me.p.launchid.toNat).readSel sl.toNat) 0 8 ∧
    (∀ q, (x.view false q).readSel 0 = (if x.err then tl else BitVec.ofNat 64 x.count) ∧
      (x.view false q).readSel 1 = (if x.err then BitVec.ofNat 64 x.errseq else 0) ∧
      (x.view false q).readSel 2 = (if x.err then x.fault else 0) ∧ (x.view false q).readSel 3 = x.fflags.zeroExtend 64) ∧
    (∀ q, (x.view true q).count = aget 0 x.acquired q)

/-- commit (13 R266) and fences (10 R207–R209, 15 R309). That a fence runs as a chunk of its own is the model’s reading (log 78). -/
def Obligations.FencesAndCommit : Prop :=
  ∀ (s : State) (i : Instr) (scope : Nat),
    (i, scope) ∈ [(Instr.fenceCore, 0), (.fenceCluster, 1), (.fencePod, 2), (.fencePackage, 3), (.fenceSystem, 4)] →
    let sc := if s.clamped scope then 2 else scope
    let bits : Word := if sc = 3 then 0xF0FF000000000000 else if sc = 4 then 0xFFFFFFFFFFFFFFFF else 0
    (s.chunk.isEmpty = false → EndsFirst i s ∧ EndsFirst .commit s) ∧ (s.chunk.paired = false → s.unpair = s) ∧
    (Turn s → Settled s → Gives .commit s (fun t => Ran s t s.me.p ∧ ∀ r, t.val r = s.val r)) ∧
    (Turn s → Settled s → s.satisfied s.cur (.fence sc) = true → (sc = 4 → s.me.request = none → s.me.probeChips = []) →
      (s.me.p.refused sc = none → Gives i s (fun t => (∀ r, t.val r = s.val r) ∧ Ran s t
        { s.me.p with
          bankmask := s.me.p.bankmask &&& ~~~bits,
          tstat := if s.clamped scope then { s.me.p.tstat with clamp := true } else s.me.p.tstat })) ∧
      ∀ g n, s.me.p.refused sc = some (g, n) → Gives i s (fun t => t.me.status = .trapped ∧
        t.me.trap = some (trapMsg s 0x0D (s.me.p.pc.zeroExtend 64) g [BitVec.ofNat 64 n, 0, 0, 0]) ∧ t.me.p.pc = s.me.p.pc ∧
        ∀ k : Fin 5, t.me.p.refusals[k] = if k.val ≤ sc then {} else s.me.p.refusals[k])) ∧
    (Turn s → s.satisfied s.cur (.fence sc) = false ∨ (sc = 4 ∧ s.me.request = none ∧ s.me.probeChips ≠ []) → Blocks i s (.fence sc) 0)

/-- launch (13 R260), yield, park and hop (13 R261–R264), exit (13 R265). -/
def Obligations.LaunchSuspendAndExit : Prop :=
  ∀ (s : State) (d a : SReg) (z dir : Bool) (woff : BitVec 27) (key : Word → Nat),
    let x := s.val a
    let bs := (keysOf key x 128).map s.byte
    let slot := ((List.range 255).find? (fun n => (afind? s.myPod.launches n).isNone)).getD 0
    let y := x + (woff.signExtend 64 <<< 3)
    let cl := s.cur / 128
    let unit : Prop := s.cur % 16 ≠ 0 ∧ s.cur % 16 ≠ 15
    let pc : Word := s.me.p.pc.zeroExtend 64
    let quiet (t : State) : Prop := SameRest s t ∧ SameCores s t ∧ Bystanders s t
    let calm (t : State) : Prop := quiet t ∧ SameClusters s t ∧ SamePods s t
    let ready (t : State) (k : Nat) : Prop :=
      calm t ∧ t.me.status = .idle ∧ ∃ r, QItem.cont r ∈ (t.cluster k).queue ∧ r.cont = s.me.p.record (s.me.p.pc + 8)
    (Turn s → Settled s →
      (∀ blk ext, x.toNat % 128 = 0 → Maps s .read x 128 key →
        s.me.launching = some { block := blk, ext := some ext } ∨
          (s.me.launching = none ∧ Sound s key x 128 ∧ blk = bs ∧ blockWord bs 0x78 = 0 ∧ ext = some (List.replicate 192 0)) →
        (∀ n, s.checkLaunch s.myPodId blk ext = .error n → Gives (.launch d a) s (fun t =>
          Ran s t { s.me.p with regs := t.me.p.regs } ∧ PutScalar s t d (BitVec.ofInt 64 n))) ∧
        (∀ l, s.checkLaunch s.myPodId blk ext = .ok l → l.det = false → l.deps = [] → Gives (.launch d a) s (fun t =>
          Committed s t { s.me.p with regs := t.me.p.regs } ∧ PutScalar s t d (BitVec.ofNat 64 slot) ∧ quiet t ∧
          (∃ l', afind? (t.pod s.myPodId).launches slot = some l' ∧ l'.entry = l.entry ∧ l'.units = l.units ∧ l'.eligible = true) ∧
          (∀ r ∈ l.clusters, ∃ q : Start, QItem.start q ∈ (t.cluster (s.myPod.cluster r)).queue ∧ q.slot = slot) ∧
          (∀ p, t.pod p = { s.pod p with launches := (t.pod p).launches, log := (t.pod p).log, owed := (t.pod p).owed } ∧
            ∀ n, p ≠ s.myPodId ∨ n ≠ slot → afind? (t.pod p).launches n = afind? (s.pod p).launches n) ∧
          ∀ k, t.cluster k = { s.cluster k with
              queue := (t.cluster k).queue, parked := (t.cluster k).parked, tokenq := (t.cluster k).tokenq, allocs := (t.cluster k).allocs,
              spm := (t.cluster k).spm, spmDirty := (t.cluster k).spmDirty, full := (t.cluster k).full } ∧
            ∀ o, (∀ a ∈ (t.cluster k).allocs, a ∉ (s.cluster k).allocs → o < a.2.1 ∨ a.2.1 + a.2.2 ≤ o) →
              (t.cluster k).spm.read o = (s.cluster k).spm.read o))) ∧
      (unit → s.me.p.retdepth = 0 →
        Gives .yield s (fun t => ready t cl) ∧
        (∀ g ls, y.toNat % 8 = 0 → translate s.seen s.myVf y .read = .ok (g, ls) → (∀ v, g ≠ .mmio v) → Gives (.park a z woff) s (fun t =>
          if (s.committedWord g.key = 0) = z then ready t cl
          else calm t ∧ t.me.status = .idle ∧ ∃ r ∈ (t.cluster cl).parked, r.cont = s.me.p.record (s.me.p.pc + 8) ∧ r.parked = some ⟨g.key, z⟩)) ∧
        (∀ k v, s.hopTarget a dir = .ok (k, v) → (k = cl ∨ (s.cluster k).storeFree = true) → Gives (.hop a dir) s (fun t => ready t k)) ∧
        (∀ k v, s.hopTarget a dir = .ok (k, v) → k ≠ cl → (s.cluster k).storeFree = false → Gives (.hop a dir) s (fun t =>
          calm t ∧ t.me.status = .blocked ∧ t.me.p.pc = s.me.p.pc ∧ ∃ r, t.me.heldRec = some (k, r) ∧ r.cont = s.me.p.record (s.me.p.pc + 8)))) ∧
      (s.cur % 16 = 0 → Gives .exit s (fun t => calm t ∧ t.me.status = .stopped .exited)) ∧
      (s.cur % 16 = 15 → Gives .exit s (fun t => calm t ∧ t.me.status = .idle ∧ t.me.handler = false)) ∧
      (unit → ∀ pid l, s.podOf s.cur = some pid → s.launchOf s.cur = some l → (l.exit s.me.p.unitid.toNat).over = false → Gives .exit s (fun t =>
        t.me.status = .idle ∧ quiet t ∧ SameClusters s t ∧
        (∀ p, t.pod p = { s.pod p with launches := (t.pod p).launches, cnts := (t.pod p).cnts, log := (t.pod p).log, owed := (t.pod p).owed } ∧
          (∀ n, p ≠ pid ∨ n ≠ l.lcnt → (t.pod p).counter n = (s.pod p).counter n) ∧
          ∀ n, p ≠ pid ∨ n ≠ s.me.p.launchid.toNat → afind? (t.pod p).launches n = afind? (s.pod p).launches n) ∧
        afind? (t.pod pid).launches s.me.p.launchid.toNat = some (l.exit s.me.p.unitid.toNat) ∧
        (t.pod pid).counter l.lcnt = if l.lcnt = 0 then (s.pod pid).counter 0 else
          { (s.pod pid).counter l.lcnt with count := (((s.pod pid).counter l.lcnt).count + 1) % 2 ^ 56 }))) ∧
    (x.toNat % 128 ≠ 0 → Traps (.launch d a) s (trapMsg s 0x08 pc x [s.val d, x])) ∧
    (¬unit → Traps .yield s (trapMsg s 0x07 pc 0 []) ∧ Traps (.park a z woff) s (trapMsg s 0x07 pc 0 [0, x]) ∧
      Traps (.hop a dir) s (trapMsg s 0x07 pc 0 [0, x])) ∧
    (unit → s.me.p.retdepth ≠ 0 → Traps .yield s (trapMsg s 0x0B pc 0 [BitVec.ofNat 64 s.me.p.retdepth, 0, 0, 0]))

/-- hmq (13 R267), cnt.read (13 R277), cancels (13 R276), send (13 R273), gangs (13 R275). That gangs change at the commit is the
model’s reading (log 96). -/
def Obligations.PodQueriesCancelsAndMessages : Prop :=
  ∀ (s : State) (d a b : SReg) (c : BitVec 8) (tag : BitVec 10) (gt : BitVec 16),
    let p := s.myPod
    let q := s.openChunk.afterPending.pod s.myPodId
    let n := (s.val a).toNat % 256
    let t := (s.val a).toNat
    let own := s.myCore % 8
    let first := t % 8
    let last := t / 16 % 8
    (∀ pa ls, translate s.seen s.myVf (s.val a) .query = .ok (.mem pa, ls) → Sets (.hmq d a) s d (hmqWord s (homeCluster pa)) 0 8) ∧
    (∀ v ls, translate s.seen s.myVf (s.val a) .query = .ok (.mmio v, ls) → Sets (.hmq d a) s d (-1) 0 8) ∧
    (translate s.seen s.myVf (s.val a) .query = .error .xlate →
      Traps (.hmq d a) s (trapMsg s 0x06 (s.me.p.pc.zeroExtend 64) (s.val a) [s.val d, s.val a])) ∧
    Sets (.cntRead d a) s d (if n = 0 then 0 else BitVec.ofNat 64 ((if (q.counter n).canc then 2 ^ 63 else 0) +
      (if q.launches.any (fun x => [x.2.lcnt, x.2.gcnt, x.2.pcnt, x.2.jcnt].contains n) then 2 ^ 62 else 0) + (q.counter n).count)) 0 8 ∧
    (s.me.pending = none → q = p) ∧
    (∀ i l, (i, l) ∈ [(Instr.cancelLaunch a c, 0), (.cancelGraph a c, 1), (.cancelPhase a c, 2), (.cancelJob a c, 3)] →
      Gives i s (fun u => FxDone s u s.me.p [.cancel l ((t + c.toNat) % 256)] 8)) ∧
    (s.cur % 16 ≠ 15 → t < 16384 → p.clusters.contains (t / 128) = true → t % 16 ≠ 15 → Gives (.send a b tag) s (fun u =>
      ∃ ws : List Word, ws.length = 8 ∧ FxDone s u s.me.p [.send t tag ws] 8 ∧ ∀ k j, k < 8 → j < 8 → (ws.getD k 0).extractLsb' (8 * j) 8 =
        s.spByteAt (s.me.p.spbase.toNat + (s.val b + BitVec.ofNat 64 (8 * k + j)).toNat % s.me.p.spsize.toNat))) ∧
    (s.cur % 16 = 15 ∨ 16384 ≤ t ∨ p.clusters.contains (t / 128) = false ∨ t % 16 = 15 →
      Traps (.send a b tag) s (trapMsg s 0x07 (s.me.p.pc.zeroExtend 64) 0 [0, s.val a, s.val b])) ∧
    (128 ≤ t ∨ t / 8 % 2 = 1 ∨ last ≤ first ∨ own < first ∨ last < own → Gives (.gangForm a gt) s (fun u =>
      PlainDone s u s.me.p 8 ∧ u.laterGangs = s.laterGangs)) ∧
    (t < 128 → t / 8 % 2 = 0 → first < last → first ≤ own → own ≤ last → Gives (.gangForm a gt) s (fun u =>
      PlainDone s u s.me.p 8 ∧ u.laterGangs = s.laterGangs ++ [.form first last gt])) ∧
    Gives (.gangJoin gt) s (fun u => PlainDone s u s.me.p 8 ∧ u.laterGangs = s.laterGangs ++ [.join gt s.me.p.pc]) ∧
    Gives .gangLeave s (fun u => PlainDone s u s.me.p 8 ∧ u.laterGangs = s.laterGangs ++ [.leave]) ∧
    ∀ (m f l : Nat) (x : GangStep), let u := s.applyGang m x
      (∀ k, k ≠ m → u.ctx k = s.ctx k) ∧ u.ctx m = { s.ctx m with gang := (u.ctx m).gang } ∧
      (x = .form f l gt → (∃ g : Gang, (u.ctx m).gang = some g ∧ g.first = f ∧ g.last = l ∧ g.tag = gt) ∧
        ((m / 128 * 8 + f) * 16 + m % 16 = m → u.attached m = true)) ∧
      (x = .leave → (u.ctx m).gang = none) ∧
      ∀ g pc, x = .join gt pc → (s.ctx m).gang = some g →
        ((m / 128 * 8 + g.first) * 16 + m % 16 = m → (u.ctx m).gang = some { g with joins := g.joins ++ [((gt, pc), g.path.length)] }) ∧
        ((m / 128 * 8 + g.first) * 16 + m % 16 ≠ m → s.attached m = false → ∃ h : Gang, (u.ctx m).gang = some h ∧ h.joined = some (gt, pc) ∧
          h.path = [] ∧ h.base = none)

/-- Queueing engine commands (10 R219, R222–R229). -/
def Obligations.EngineCommandsAreQueued : Prop :=
  ∀ (s : State) (d a b : SReg) (f : CpyF) (shp fo : BitVec 32) (e : BitVec 4) (cbn : BitVec 5) (km1 : BitVec 3) (t c : BitVec 16)
      (em1 : BitVec 12) (ck : CollKind) (bf : Bool) (g : BitVec 6) (n cid : BitVec 32) (i : Instr) (k : Nat) (kind : CmdKind),
    let p := s.me.p
    let bytes (at_ : BitVec 32) (m : Nat) : List Byte := (List.range m).map (fun j =>
      s.spByteAt (p.spbase.toNat + (at_.zeroExtend 64 + BitVec.ofNat 64 j).toNat % p.spsize.toNat))
    let dims := dimsOf (bytes shp 128) f.ndm.toNat
    let x := s.engine s.myCluster k
    let used := s.tailSeen k - (x.view s.chunk.det p.launchid.toNat).count
    (i, k, kind) ∈ [(Instr.cpyQ d a b f shp, f.e.toNat, CmdKind.copy f (s.val a) (s.val b) dims.1 dims.2 none),
      (.cpyFm d a b f shp fo, f.e.toNat, .copy f (s.val a) (s.val b) dims.1 dims.2 (some (followOnOf (bytes fo 64)))),
      (.cpyQCfg d a b cbn e, e.toNat, .cfg cbn.toNat (p.spbase.toNat + (s.val a).toNat % p.spsize.toNat) (s.val b)),
      (.cpyQClear d e, e.toNat, .clear),
      (.routeQ d a b e km1 t em1 c, e.toNat, .route (s.val a) (s.val b) (km1.toNat + 1) t.toNat (em1.toNat + 1) c.toNat),
      (.collQ d a b e ck bf g n cid, e.toNat, .coll ck bf g.toNat n.toNat cid (s.val a) (s.val b))] →
    (used < 32 → Gives i s (fun u => ScalarFxDone s u d (BitVec.ofNat 64 (s.tailSeen k + 1)) [.queue k kind p.cb] 16)) ∧
    (32 ≤ used → Gives i s (fun u => ScalarFxDone s u d (-1) [] 16))

/-- Context control (13 R268–R271), where no earlier chunk of the supervisor is still to commit. That an IDLE target whose ended unit has a
trap outstanding, or a commit pending, answers −1 is the model’s choice (log 21). -/
def Obligations.ContextControl : Prop :=
  ∀ (s : State) (d a b : SReg) (rq : Bool) (key : Word → Nat),
    let n := (s.val a).toNat
    let c := s.cur / 16 * 16 + n
    let x := s.ctx c
    let pc : Word := s.me.p.pc.zeroExtend 64
    let sup : Prop := s.cur % 16 = 0
    let free : Prop := x.status = .idle ∧ x.trap = none ∧ x.holder = none ∧ x.pending = none
    let next := s.choosePlaced s.myPodId s.myCluster (s.myCore % 8) s.me.clock
    let y := s.val b
    let st (i : Instr) (v : Word) (fx : List Fx) : Prop := Gives i s (fun t => ScalarFxDone s t d v fx 8)
    let r := recordOf ((keysOf key y 64).map s.byte)
    let lists : List (Instr × List Word) := [(.ctxStartRecord d a b, [s.val d, s.val a, y]), (.ctxStartNext d a, [s.val d, s.val a]),
      (.ctxStartResume d a, [s.val d, s.val a]), (.ctxStop d a, [s.val d, s.val a]), (.ctxReap d a b rq, [s.val d, s.val a, y])]
    (sup → 1 ≤ n → n ≤ 14 → s.laterFx = [] → s.me.pending = none →
      (y.toNat % 64 = 0 → ¬free → st (.ctxStartRecord d a b) (-1) []) ∧
      (y.toNat % 64 = 0 → free → Maps s .read y 64 key → Sound s key y 64 →
        (s.recordOk r = true → st (.ctxStartRecord d a b) 0 [.startRec n r]) ∧ (s.recordOk r = false → st (.ctxStartRecord d a b) (-2) [])) ∧
      (¬free → st (.ctxStartNext d a) (-1) []) ∧
      (free → next.isSome = true → st (.ctxStartNext d a) 0 [.startNext n]) ∧
      (free → next.isNone = true → st (.ctxStartNext d a) (-3) []) ∧
      (x.status = .stopped .byStop → st (.ctxStartResume d a) 0 [.resume n] ∧ st (.ctxStop d a) 0 []) ∧
      (x.status ≠ .stopped .byStop → st (.ctxStartResume d a) (-1) []) ∧
      (x.status = .runnable ∨ x.status = .blocked ∨ (∃ w, x.status = .out w) → st (.ctxStop d a) 0 [.stop n]) ∧
      (x.status = .idle ∨ x.status = .trapped → st (.ctxStop d a) (-1) []) ∧
      ((∀ w, x.status ≠ .stopped w) → st (.ctxReap d a b true) (-1) []) ∧
      (∀ w, x.status = .stopped w → (x.p.retdepth ≠ 0 ∨ x.p.tstat.pp = true ∨ x.p.tstat.rv = true) → st (.ctxReap d a b true) (-4) []) ∧
      (∀ w, x.status = .stopped w → x.p.retdepth = 0 → x.p.tstat.pp = false → x.p.tstat.rv = false →
        ((s.cluster s.myCluster).storeFree = true → st (.ctxReap d a b true) 0 [.reap n true]) ∧
        ((s.cluster s.myCluster).storeFree = false → st (.ctxReap d a b true) (-5) []) ∧
        (y.toNat % 64 = 0 → Maps s .write y 64 key → Room s 64 → Gives (.ctxReap d a b false) s (fun t =>
          Retired s t { s.me.p with regs := t.me.p.regs } 8 ∧ PutScalar s t d 0 ∧ SameH s t ∧ (∃ l, t.laterFx = l ++ [.reap n false]) ∧
          (∀ o, t.spByteAt o = s.spByteAt o) ∧
          ∀ q, t.left q = lastWrite ((keysOf key y 64).zip (x.p.record x.p.pc).bytes) q (s.left q)))) ∧
      (y.toNat % 64 ≠ 0 → Traps (.ctxStartRecord d a b) s (trapMsg s 0x08 pc y [s.val d, s.val a, y]) ∧
        Traps (.ctxReap d a b false) s (trapMsg s 0x08 pc y [s.val d, s.val a, y]))) ∧
    (sup → s.laterFx = [] → st (.ctxStartMode d b) (if (s.core s.myCore).auto then 0 else 1) [.mode (!y.getLsbD 0)]) ∧
    (¬sup ∨ n = 0 ∨ 14 < n → ∀ i ∈ lists, Traps i.1 s (trapMsg s 0x07 pc 0 i.2)) ∧
    (¬sup → Traps (.ctxStartMode d b) s (trapMsg s 0x07 pc 0 [s.val d, 0, y]))

/-- The commit of a chunk (09 R181, R185) and the commit ticket (09 R183; which commits it delays: log 28). -/
def Obligations.CommitsInstallAndSquash : Prop :=
  ∀ (s : State) (c : Nat) (o : CommitObs) (k : Chunk),
    let x := s.ctx c
    let core := c / 16
    let held := s.harms (s.commitEnded c o.falseHits) && !s.precedesHolder c k.det
    x.pending = none → x.chunk = some k → k.ended = some .boundary → x.status = .out .commit → k.isEmpty = false → k.fx = [] → k.svctgt = none → x.sending ≠ .wait →
    (∀ y ∈ (s.pod ((s.podOf c).getD 0)).launches, y.2.eligible = true ∧ y.2.det = false) → Still s →
    (∀ l ∈ writeLines k.writes, s.partialsOf l = []) → (o.parity = true → k.writes = [] ∧ k.spm = []) →
    (s.grantable c k o.falseHits = false ∨ held = true → exec (.chunkCommit c o) s = .next s) ∧
    (s.ticket = none → held = false) ∧
    (s.grantable c k o.falseHits = true → held = false → Gives (.chunkCommit c o) s (fun t =>
      (t.ctx c).chunk = none ∧ (t.ctx c).status = .runnable ∧ (t.ctx c).p = x.p ∧ (t.ctx c).chunkid = x.chunkid + 1 ∧ (t.ctx c).clock = x.clock + k.count ∧
      (∀ a, a < 2 ^ 64 → t.mem.read a = lastWrite k.writes a (s.mem.read a)) ∧
      (∀ q a, (t.cluster q).spm.read a = if q = c / 128 then lastWrite k.spm a ((s.cluster q).spm.read a) else (s.cluster q).spm.read a) ∧
      (∀ (q : Nat) (n : Fin 32), (t.core q).g[n] = if q = core then lastWrite k.gs n (s.core q).g[n] else (s.core q).g[n]) ∧
      (∀ (q : Nat) (n : Fin 8), (t.core q).h[n] = if q = core then lastWrite k.hs n (s.core q).h[n] else (s.core q).h[n]) ∧
      (∀ e, e ≠ c → Quiescent (s.ctx e) → t.ctx e = s.ctx e) ∧ t.hostMem = s.hostMem ∧ SamePods s t ∧
      ∀ d r l, d ≠ c → (s.ctx d).status = .runnable → (s.ctx d).pending = none → (s.ctx d).chunk = some r → Loc.line l ∈ r.reads →
        l ∈ writeLines k.writes → (t.ctx d).p = r.start ∧ (t.ctx d).chunk = none)) ∧
    (∀ cl d rest, s.ticket = none → s.ticketQueue = d :: rest → d / 128 = cl → (s.ctx d).status = .out .ticket → (s.ctx d).pending = none →
      (s.ctx d).chunk = none → Gives (.commitTicket cl) s (fun t => t.ticket = some d ∧ (t.ctx d).status = .runnable ∧ (t.ctx d).p = (s.ctx d).p ∧
        SameRest s t ∧ SameCores s t ∧ SameClusters s t ∧ SamePods s t ∧ ∀ e, e ≠ d → Quiescent (s.ctx e) → t.ctx e = s.ctx e))

/-- Ends of operations and waits (12 R235–R237, 01 R21) and probes (12 R256–R258;
what a round records without a victim: log 61). -/
def Obligations.OperationsWaitsAndProbesEnd : Prop :=
  ∀ (s : State) (c : Nat) (vf idx : Nat),
    let x := s.ctx c
    let pid := podKey vf idx
    let p := s.pod pid
    (x.status = .out .operation ∨ x.status = .out .refill → Calm s →
      Gives (.operationCompletion c) s (Woke (s.setCtx c { x with status := .runnable, mma := false }))) ∧
    (∀ w q, x.status = .blocked → x.wait = some w → x.chunk = none → x.pending = none → s.podOf c = some q → w.det = false → s.ticket = none →
      (s.core (c / 16)).stopped = false → (s.die (c / 4096)).relock = none → w.limit ≠ 0 → (∀ f, w.on ≠ .fence f) → w.start + w.limit.toNat < s.refTime → Gives (.waitLimit c) s (fun t =>
      (t.ctx c).status = .trapped ∧ (t.ctx c).p = x.p ∧ ∃ m, (t.ctx c).trap = some m ∧ m.code = 0x09 ∧ m.w1 = x.p.pc.zeroExtend 64 ∧
        ((∀ e a, w.on ≠ .tl e a) → m.w2 = w.w2))) ∧
    (∀ w q, x.status = .blocked → x.wait = some w → x.chunk = none → x.pending = none → s.podOf c = some q → w.det = true → s.ticket = none →
      (s.core (c / 16)).stopped = false → (s.die (c / 4096)).relock = none → w.limit ≠ 0 → (∀ f, w.on ≠ .fence f) → s.satisfied c w.on = false →
      s.detRunning q = true →
      (s.keyFree q (w.clock + w.limit.toNat) c = true → Gives (.waitLimit c) s (fun t => (t.ctx c).status = .trapped ∧ (t.ctx c).p = x.p ∧
        (t.ctx c).clock = max x.clock (w.clock + w.limit.toNat) ∧ ∃ m, (t.ctx c).trap = some m ∧ m.code = 0x09 ∧ m.w1 = x.p.pc.zeroExtend 64)) ∧
      (s.keyFree q (w.clock + w.limit.toNat) c = false → exec (.waitLimit c) s = .next s)) ∧
    (∀ w, x.wait = some w → (x.status ≠ .blocked ∨ w.limit = 0 ∨ (∃ f, w.on = .fence f) ∨ (w.det = false ∧ s.refTime ≤ w.start + w.limit.toNat)) → exec (.waitLimit c) s = .next s) ∧
    (∀ w, x.status = .blocked → x.wait = some w → w.probed = false → w.start + 4000 ≤ s.refTime →
      exec (.portProbe c) s = .next (s.setCtx c { x with wait := some { w with probed := true } })) ∧
    (p.resident = true → s.probeStands pid = true →
      (s.closedCycle pid = false → exec (.probeRound vf idx) s = .next (s.setPod pid { p with probe := none })) ∧
      (s.closedCycle pid = true → p.probe = none →
        exec (.probeRound vf idx) s = .next (s.setPod pid { p with probe := some (s.refTime, s.activities pid) })) ∧
      (∀ t0 v, s.ticket = none → s.closedCycle pid = true → p.probe = some (t0, s.activities pid) → t0 + 2000 ≤ s.refTime →
        ((s.agents pid).filter (fun d => match (s.ctx d).wait with | some w => w.on ≠ .svcRecv | none => false)).max? = some v →
        Gives (.probeRound vf idx) s (fun t => (t.ctx v).status = .trapped ∧ ∃ m, (t.ctx v).trap = some m ∧ m.code = 0x0A)))

/-- Scheduling (12 R246–R250), inboxes (12 R253–R255) and remote agents (09 R199). The order of a drain is the model’s reading (logs 59,
103), and so is the entry that a handler’s message keeps (log 65). -/
def Obligations.MessagesAndWorkMove : Prop :=
  ∀ (s : State) (k cl v : Nat),
    let x := s.core k
    let q := s.cluster cl
    (∀ u, s.pickupNow k = some u → s.ticket = none → Still u → ∃ (c : Nat) (r : Record) (l : Launch) (b z : Nat), c / 16 = k ∧ s.mayTake c = true ∧
      (∀ d, d / 16 = k → d < c → s.mayTake d = false) ∧ (u.ctx c).p = pickupPriv r l b z (s.ctx c).p.msg ∧ (u.ctx c).status = .runnable ∧
      Gives (.pickup k) s (Woke u)) ∧
    (∀ i : Start, q.queue = [.start i] → (∀ p l, s.podAt cl = some p → afind? (s.pod p).launches i.slot = some l → l.det = false) →
      let up : List QItem := if i.level < 3 ∧ i.since + 65536 < s.dieCycles cl then [.start { i with level := i.level + 1, since := i.since + 65536 }]
        else [.start i]
      exec (.aging cl) s = .next (s.setCluster cl { q with queue := up })) ∧
    (∀ p slot us l n, s.stealable cl v = some (p, slot, us) → afind? (s.pod p).launches slot = some l → (s.pod p).relCluster? cl = some n →
      Gives (.workStealing cl v) s (fun t => (∃ i : Start, QItem.start i ∈ (t.cluster cl).queue ∧ i.slot = slot) ∧
        ∃ l', afind? (t.pod p).launches slot = some l' ∧ (∀ w ∈ us, afind? l'.stolen w = some n) ∧ ∀ w, w ∉ us → afind? l'.stolen w = afind? l.stolen w)) ∧
    (∀ m rest, Calm s → x.port = m :: rest → s.dieStill k = false → x.draining = 0 → x.entries < 64 → Gives (.messageArrival k) s (Woke (s.setCore k
      { x with port := rest, inbox := x.inbox ++ [m], draining := if x.entries = 63 then 48 else 0, drained := if x.entries = 63 then 0 else x.drained,
               activity := x.activity + 1 }))) ∧
    (∀ m rest, s.ticket = none → x.port = m :: rest → s.dieStill k = false → (x.heap ≠ [] ∨ x.draining ≠ 0 ∨ 64 ≤ x.entries) →
      x.heap.length + x.draining < 1024 → Gives (.messageArrival k) s (fun t => (t.core k).port = rest ∧ (t.core k).inbox = x.inbox ∧
        (t.core k).heap.map InMsg.words = x.heap.map InMsg.words ++ [m.words])) ∧
    (∀ m, s.ticket = none → x.draining ≠ 0 → x.inbox[x.inbox.length - x.draining]? = some m → Gives (.inboxDrain k) s (fun t =>
      (t.core k).inbox = x.inbox.eraseIdx (x.inbox.length - x.draining) ∧ (t.core k).draining = x.draining - 1 ∧
      (t.core k).heap.map InMsg.words = (x.heap.take x.drained).map InMsg.words ++ m.words :: (x.heap.drop x.drained).map InMsg.words)) ∧
    (x.draining = 0 → exec (.inboxDrain k) s = .next s) ∧
    (∀ m rest, s.ticket = none → x.draining = 0 → x.entries < 64 → x.heap = m :: rest → (∀ n ∈ x.heap, s.consumerWaits n = false) →
      Gives (.heapReplay k) s (fun t => (t.core k).heap = rest ∧ (t.core k).inbox = x.inbox ++ [{ m with words := match s.heapLine k m.slot with
        | some pa => (List.range 8).map (fun j => s.committedWord (pa + 8 * j))
        | none => m.words }])) ∧
    (∀ m pl, let c := k * 16 + 15; x.courier = some pl → x.first .active c = some m → (s.ctx c).status = .idle → (s.ctx c).pending = none → (s.ctx c).chunk = none →
      (s.ctx c).sending ≠ .wait → s.ticket = none → x.stopped = false → Gives (.courierHandlerStart k) s (fun t => (t.ctx c).status = .runnable ∧ (t.ctx c).handler = true ∧
        (t.ctx c).p.pc.toNat = (pl.codebase + 64 * ((m.words.getD 0 0).toNat % 1024)) % 2 ^ 48 ∧ (t.ctx c).p.codelim.toNat = pl.codelim % 2 ^ 48 ∧
        (∀ i : Fin 5, (t.ctx c).p.regs[i.val + 1] = m.words.getD i 0) ∧ (t.core k).inbox = x.inbox.erase m ∧ (t.core k).handling = some m)) ∧
    (∀ (o : RemoteOp) (rest : List RemoteOp) (w : Word) (off : Nat), x.agent = o :: rest → o.kind = .rst w →
      (∀ p, s.podAt (k / 8) = some p → (s.pod p).replay = none ∧ (s.pod p).full = false) → s.ticket = none → s.dieStill k = false →
      s.remoteTarget o.srcChip o.vf o.tenant o.addr true = .ok (.spm cl off) → Gives (.remoteAgentPerform k) s (fun t =>
      (t.core k).agent = rest ∧ (∀ j, j < 8 → (t.cluster cl).spm.read (off + j) = w.extractLsb' (8 * j) 8) ∧
      ∀ a, a < off ∨ off + 8 ≤ a → (t.cluster cl).spm.read a = (s.cluster cl).spm.read a))

/-- Power tokens (07 R173), relocks (01 R42) and the power arbiter (18 R353, R355; what it measures is an operand, and how
it divides the budget the model’s reading: log 89). -/
def Obligations.TokensClocksAndPowerSteps : Prop :=
  ∀ (s : State) (cl n : Nat) (est : List Estimate) (power : BitVec 16),
    let d := s.die (cl / 32)
    let k := s.cluster cl
    let x := s.die n
    (∀ c r, d.tokens.contains (cl % 32) = true → k.token = false → k.tokenq = c :: r → (s.ctx c).status = .out .token →
      Gives (.tokenArrival cl) s (fun t => (t.cluster cl).token = true ∧ (t.die (cl / 32)).tokens = d.tokens.erase (cl % 32) ∧
        (t.ctx c).status = .runnable ∧ (t.ctx c).p = (s.ctx c).p ∧ (∀ e, e ≠ c → t.ctx e = s.ctx e) ∧ ∀ j, j ≠ cl → t.cluster j = s.cluster j)) ∧
    (d.tokens.contains (cl % 32) = true → k.tokenq = [] → k.engines = [] →
      exec (.tokenArrival cl) s = .next (s.setDie (cl / 32) { d with tokens := d.tokens.erase (cl % 32) ++ [(cl % 32 + 1) % 32] })) ∧
    (d.tokens.contains (cl % 32) = false → exec (.tokenArrival cl) s = .next s) ∧
    (∀ t0, cl < 128 → k.token = true → d.ringtok ≠ 32 → k.burst = some t0 → t0 + 512 ≤ d.cycles →
      Gives (.burstEnd cl) s (fun t => (t.cluster cl).token = false ∧ (t.die (cl / 32)).tokens = d.tokens ++ [(cl % 32 + 1) % 32] ∧
        t.ctxs = s.ctxs ∧ t.cores = s.cores)) ∧
    ((∀ t0, k.burst = some t0 → d.cycles < t0 + 512) → s.tokenWork cl = true ∨ s.matrixBusy cl = true → exec (.burstEnd cl) s = .next s) ∧
    (∀ t0 m, x.relock = some t0 → t0 + 1500 ≤ s.refTime → Calm s → 18 * (s.refTime - t0) ≤ 5 * m + 2 → 5 * m ≤ 18 * (s.refTime - t0) + 2 →
      Gives (.relockEnd n) s (Woke (s.setDie n { x with relock := none, acc := x.acc + m * 65536, five := 0, part := 0 }))) ∧
    (∀ t0, x.relock = some t0 → s.refTime < t0 + 1500 → exec (.relockEnd n) s = .next s) ∧
    (s.powered = true → 6 ≤ s.bring → s.arbiterAt ≤ s.refTime → n < 4 →
      let e := est.getD n ⟨[], 32⟩
      let temp := (s.sensors.hot.getD n 0).toInt
      let hot : Bool := 1000 ≤ temp || (x.hot && 950 ≤ temp)
      let cap := if 400 < s.sensors.inlet.toInt then 2 else 0
      let inUse : Bool := s.pods.any (fun p => p.2.clusters.any (fun c => c / 32 = n))
      let want := if !inUse then 4 else if hot then min 4 (max cap (x.step + 1)) else max cap (min 4 (stepFor e.watts (s.allotment n)))
      Gives (.powerArbiterPeriod ⟨est, power⟩) s (fun t => t.arbiterAt = (s.refTime / 100000 + 1) * 100000 ∧ (t.die n).hot = hot ∧
        t.sensors.modpwr = power ∧
        (t.die n).ringtok = (if inUse then max 1 (min 32 e.ringtok) else 0) ∧
        (x.relock ≠ none ∨ s.dieSwitching n = true → (t.die n).step = x.step ∧ (t.die n).relock = x.relock) ∧
        (x.relock = none → s.dieSwitching n = false →
          (t.die n).step = (if x.step < want then x.step + 1 else if want < x.step then x.step - 1 else x.step) ∧
          (t.die n).relock = if want = x.step then none else some s.refTime)))

/-- Bring-up (18 R351, R352), the I3C target (18 R353, R354), and power-off (18 R355). Where bring-up
stops, and the pointer of a private write, are the model’s readings (logs 73, 87). -/
def Obligations.BringUpPowerAndI3c : Prop :=
  ∀ (s : State) (n : BitVec 8) (d : Nat) (v w : BitVec 16),
    let blank : State := { State.reset with hostMem := s.hostMem, agenda := s.agenda, cur := s.cur, moment := s.moment,
                                             reserveAt := s.reserveAt, sensors := s.sensors }
    (∀ f, exec (.powerGood true f) s = .next { blank with bring := 4 }) ∧
    (∀ x ∈ [(1, 3), (2, 1), (3, 2)], Gives (.powerGood false x.1) s (fun t => t.bring = x.1 ∧ t.failStep = x.1 ∧ t.faultCode = x.2 ∧
      t.i3c.ibis = [x.2] ∧ t.ready = false ∧ t.ctxs = [] ∧ t.pods = [] ∧ t.mem = [])) ∧
    (s.powered = true → s.bring = 4 → s.chip = none → n.toNat ≤ 191 → s.failStep = 0 →
      exec (.chipnumWrite n) s = .next { s with chip := some n, bring := 6, ready := true, ivals := { s.ivals with opened := s.refTime } } ∧
      ∀ a, s.i3c.addr = some a → Gives (.i3cPrivateWrite [2, n]) s (fun t => t.chip = some n ∧ t.bring = 6 ∧ t.ready = true ∧ t.i3c.ptr = 2)) ∧
    (s.chip ≠ none ∨ s.bring ≠ 4 ∨ 191 < n.toNat → exec (.chipnumWrite n) s = .next s) ∧
    (∀ a, s.i3c.addr = none → exec (.i3cEntdaa a) s = .next { s with i3c := { s.i3c with addr := some a } }) ∧
    (∀ (a : BitVec 7) (lo hi : Byte), s.i3c.addr = some a →
      let cap := lo.toNat + 256 * hi.toNat
      exec (.i3cPrivateWrite [4, lo, hi]) s = .next { s with
        pwrcap := if 800 ≤ cap ∧ cap ≤ 3200 then cap else s.pwrcap, i3c := { s.i3c with ptr := 4 } } ∧
      ∀ p, exec (.i3cPrivateWrite [p]) s = .next { s with i3c := { s.i3c with ptr := p.toNat } }) ∧
    (∀ (a : BitVec 7) (m : Nat), s.i3c.addr = some a → Gives (.i3cPrivateRead m) s (fun t =>
      t = { s with i3c := t.i3c } ∧ t.i3c.ptr = (s.i3c.ptr + m) % 256 ∧ t.i3c.lastRead.length = m ∧
      ∀ i, i < m → let at_ (p : Nat) (b : Byte) : Prop := (s.i3c.ptr + i) % 256 = p → t.i3c.lastRead[i]? = some b
        at_ 0 (BitVec.ofNat 8 (s.ready.toNat + s.bring * 16)) ∧ at_ 1 (BitVec.ofNat 8 s.faultCode) ∧ at_ 2 (s.chip.getD 0) ∧ at_ 3 0 ∧
        at_ 4 (BitVec.ofNat 8 s.pwrcap) ∧ at_ 5 (BitVec.ofNat 8 (s.pwrcap / 256)) ∧
        at_ 6 (s.sensors.modpwr.truncate 8) ∧ at_ 7 ((s.sensors.modpwr >>> 8).truncate 8) ∧
        at_ 16 (s.sensors.inlet.truncate 8) ∧ at_ 17 ((s.sensors.inlet >>> 8).truncate 8) ∧
        at_ 18 (s.sensors.flow.truncate 8) ∧ at_ 19 ((s.sensors.flow >>> 8).truncate 8) ∧
        (∀ e : Fin 4, at_ (8 + 2 * e) (s.sensors.hot[e].truncate 8) ∧ at_ (9 + 2 * e) ((s.sensors.hot[e] >>> 8).truncate 8)) ∧
        ∀ p, 20 ≤ p → at_ p 0)) ∧
    (s.powered = true → d < 4 →
      (1100 ≤ v.toInt → Gives (.thermalShutdown d v) s (fun t => t.powered = false ∧ t.faultCode = (if s.faultCode = 0 then 4 else s.faultCode) ∧
        t.ctxs = [] ∧ t.mem = [] ∧ t.chip = none ∧ t.bring = 0)) ∧
      (v.toInt < 1100 → exec (.thermalShutdown d v) s = .next { s with
        sensors := { s.sensors with hot := s.sensors.hot.setIfInBounds d v } })) ∧
    (s.powered = true →
      (w.toNat < 100 → Gives (.coolantFault v w) s (fun t => t.powered = false ∧ t.faultCode = (if s.faultCode = 0 then 5 else s.faultCode) ∧
        t.ctxs = [] ∧ t.mem = [] ∧ t.chip = none ∧ t.bring = 0)) ∧
      (100 ≤ w.toNat → exec (.coolantFault v w) s = .next { s with sensors := { s.sensors with inlet := v, flow := w } }))

/-- Engine commands (10 R220, R223–R227) and their line events, which read sources a line at a time (09
R192; fault words: log 79; configure and clear: log 120). -/
def Obligations.EngineEvents : Prop :=
  ∀ (s : State) (cl e : Nat),
    let x := s.engine cl e
    let put (y : Engine) : State := s.setEngine cl e y
    let alone (u : State) : Prop := u.afterEngine cl e = u
    let goesOn (u : State) (r : Run) (js : List LineJob) : Prop := (∃ q, (u.engine cl e).run = some q ∧ q.jobs = js ∧ q.cmd = r.cmd) ∨
      ((u.engine cl e).run = none ∧ (js = [] ∨ (u.engine cl e).err = true))
    Calm s → s.engineRuns cl = true → (∀ p, s.podAt cl = some p → (s.pod p).full = false ∧ (s.pod p).replay = none) →
    (∀ cmd rest, x.run = none → x.store = cmd :: rest → cmd.aborted = false →
      (x.err = true → cmd.kind ≠ .clear → (∀ c, rest.head? = some c → c.kind = .clear) → Gives (.engineCommandStart cl e) s
        (Woke (put { x with store := rest, count := cmd.seq, flagsAt := x.flagsAt ++ [(cmd.seq, 0)] }))) ∧
      (cmd.kind = .clear → x.opens = [] → rest = [] → Gives (.engineCommandStart cl e) s (Woke (put { x with
        store := rest, count := cmd.seq, err := false, errcode := 0, errseq := 0, fault := 0, fflags := 0, flagsAt := x.flagsAt ++ [(cmd.seq, 0)],
        clears := x.clears ++ [cmd.seq] }))) ∧
      (∀ f a b dims, x.err = false → cmd.kind = .copy f a b dims true none → f.cbv = false → dimsOk dims true = true →
        copyBounds f a b none dims = none → (∀ j ∈ copyJobs cmd f a b none dims, s.unbanked cmd j.dest = none) →
        let u := put { x with store := rest, run := some { cmd := cmd, jobs := copyJobs cmd f a b none dims } }
        alone u → Gives (.engineCommandStart cl e) s (Woke u))) ∧
    (∀ r, x.run = some r →
      (∀ f a b dims fo k, r.waitSlot = true → r.cmd.kind = .copy f a b dims true fo → (s.cluster cl).cbuf? f.cbn.toNat = some k →
        (k.next = none → Gives (.cbufSlotClaim cl e) s (Woke s)) ∧
        (∀ n, k.next = some n → dimsOk dims true = true → copyBounds f a b (some (k.base + n * k.slot, k.slot)) dims = none →
          let jobs := copyJobs r.cmd f a b (some (k.base + n * k.slot)) dims
          let u := (s.setCluster cl ((s.cluster cl).setCbuf f.cbn.toNat { k with claim := (n + 1) % k.nslot, fill := k.fill ++ [n] })).setEngine cl e
            { x with opens := aput x.opens f.cbn.toNat n, run := some { r with slot := some n, waitSlot := false, jobs := jobs } }
          (∀ j ∈ jobs, s.unbanked r.cmd j.dest = none) → alone u → Gives (.cbufSlotClaim cl e) s (Woke u))) ∧
      (∀ j js bs, r.waitSlot = false → r.cmd.det = false → r.jobs = j :: js → x.held = [] → (s.podAt cl).isSome = true → s.turnOf cl e = true →
        r.toRead j.bytes = [] → s.jobBytes cl r (j.bytes.map r.known) = .ok bs →
        (∀ o, j.dest = .spm o → Gives (.engineLineEvent cl e) s (fun t => t.mem = s.mem ∧ goesOn t r js ∧
          (∀ a, (t.cluster cl).spm.read a = lastWrite (bs.map (fun b => (o + b.1, b.2))) a ((s.cluster cl).spm.read a)) ∧
          ∀ k a, k ≠ cl → (t.cluster k).spm.read a = (s.cluster k).spm.read a)) ∧
        (∀ va pa, j.dest = .mem va → (∀ b ∈ bs, b.1 < 64) → pa < 2 ^ 39 → s.partialsOf (pa / 64) = [] → s.stalls cl (pa / 64 * 64) = false →
          s.engXlate cl r.cmd (r.cmd.kind.elemOf (va + BitVec.ofNat 64 ((bs.map (·.1)).min?.getD 0))) .write = .ok (.mem pa) →
          Gives (.engineLineEvent cl e) s (fun t => goesOn t r js ∧
            (∀ a, t.mem.read a = lastWrite (bs.map (fun b => (pa / 64 * 64 + b.1, b.2))) a (s.mem.read a)) ∧
            ∀ k a, (t.cluster k).spm.read a = (s.cluster k).spm.read a))) ∧
      (∀ j js bs, r.waitSlot = false → r.jobs = j :: js → (s.podAt cl).isSome = true → r.toRead j.bytes ≠ [] → s.hostLines cl r (r.toRead j.bytes) = [] →
        s.jobBytes cl r (r.toRead j.bytes) = .ok bs →
        let y := put { x with run := some { r with part := bs.foldl (fun m z => aput m z.1 z.2) r.part } }
        let u := y.setCluster cl { y.cluster cl with activity := (y.cluster cl).activity + 1 }
        alone u → Gives (.engineLineEvent cl e) s (Woke u)) ∧
      (r.finished = true → r.cmd.det = false → x.held = [] → x.store = [] →
        (r.slot = none → Gives (.engineCommandComplete cl e) s (Woke (put { x with
          run := none, count := r.cmd.seq, flagsAt := x.flagsAt ++ [(r.cmd.seq, 0)] }))) ∧
        (∀ n f a b dims hz k, r.slot = some n → r.cmd.kind = .copy f a b dims hz none → f.cbk = false → (s.cluster cl).cbuf? f.cbn.toNat = some k →
          Gives (.engineCommandComplete cl e) s (fun t => (t.engine cl e).run = none ∧ (t.engine cl e).count = r.cmd.seq ∧
            (t.engine cl e).opens = adel x.opens f.cbn.toNat ∧
            (t.cluster cl).cbuf? f.cbn.toNat = some { k with fill := k.fill.filter (· ≠ n), filled := k.filled ++ [n] }))) ∧
      (∀ fo, r.followOn = some fo → r.jobs = [] → r.waitSlot = false → r.foDone = false → r.cmd.det = false → x.store = [] → x.held = [] →
        let d := (s.core (cl * 8 + fo.core)).h.getD fo.hidx {}
        (r.foOn = false →
          (foOk fo d = false → x.err = false → Gives (.followOnStart cl e) s (Woke (put { x with
            run := none, count := r.cmd.seq, err := true, errcode := 4, errseq := r.cmd.seq, fault := 0,
            errAt := x.errAt ++ [(r.cmd.seq, 4, 0)], flagsAt := x.flagsAt ++ [(r.cmd.seq, 0)] }))) ∧
          (foOk fo d = true → s.tokenFree cl 16 = true → Gives (.followOnStart cl e) s (fun t =>
            (t.engine cl e).run = some { r with foOn := true } ∧ ∀ k, (t.core k).h = (s.core k).h))) ∧
        (r.foOn = true → foOk fo d = false → x.err = false → Gives (.followOnInstall cl e) s (Woke (put { x with
          run := none, count := r.cmd.seq, err := true, errcode := 4, errseq := r.cmd.seq, fault := 0,
          errAt := x.errAt ++ [(r.cmd.seq, 4, 0)], flagsAt := x.flagsAt ++ [(r.cmd.seq, 0)] }))) ∧
        (∀ n : Fin 8, fo.hidx = n → r.foOn = true → foOk fo d = true → Gives (.followOnInstall cl e) s (fun t =>
          let z := foResult fo r.cmd d (fun o => (s.cluster cl).spm.read (foAddr fo r.cmd (s.runSlotBase cl r) o))
          (t.core (cl * 8 + fo.core)).h[n] = d.withData z.1 d.side ∧ (t.engine cl e).fflags = x.fflags ||| z.2 ∧
          (t.engine cl e).run = none ∧ (t.engine cl e).count = r.cmd.seq ∧
          (∀ m : Fin 8, m ≠ n → (t.core (cl * 8 + fo.core)).h[m] = (s.core (cl * 8 + fo.core)).h[m]) ∧ t.mem = s.mem))))

/-- Flits and ports (18 R349, R350), answers and refusals (10 R205–R209), collectives and aborts (10 R229, 15 R310), replay tags
(16 R334; when the marks move: log 58; how counts that wrap compare: log 114). Link sequences, and counters’ widths, are the model’s (logs
93, 121). -/
def Obligations.LinkEvents : Prop :=
  ∀ (s : State) (l : LinkHdr) (o : OpHdr) (v : Word) (ws : List Word) (op : FeOp) (n cause : Nat) (w : BitVec 32) (m : CollMsg),
    let h := s.linkHeader l
    let c := o.srcCtx.toNat
    let x := s.ctx c
    let k := o.tgtCore.toNat
    let queued (kind : RemoteKind) : State := h.setCore k { s.core k with
      agent := (s.core k).agent ++ [{ srcChip := l.src.toNat, srcCtx := c, rid := o.rid.toNat, tenant := o.tenant, addr := o.addr, kind := kind,
                                      interval := o.interval.toNat, seq := o.seq.toNat }],
      activity := (s.core k).activity + 1 }
    let ops : List (Instr × RemoteKind) := [(.flitRld l o, .rld), (.flitRst l o v, .rst v), (.flitAm l o ws, .am ws), (.flitFe l o op v, .fe op v)]
    let got (i : Nat) (a : Answer) (e : Ctx) : Ctx := match e.request with
      | some r => if r.rid = i ∧ r.fence = false ∧ e.answer = none then
          { e with answer := some a, recs := e.recs ++ [false], status := if e.status = .out .reply then .runnable else e.status } else e
      | none => e
    let echoed (e : Ctx) : Ctx := match e.request with
      | some r => if r.rid = o.rid.toNat ∧ r.fence = true then
          { e with acks := e.acks.erase l.src.toNat, unacked := e.unacked.filter (fun g => (globOf g.2).chip ≠ l.src.toNat) } else e
      | none => e
    let unposted : Prop := (∀ y ∈ s.ctxs, ∀ u ∈ (s.ctx y.1).unacked, u.1 ≠ o.rid.toNat) ∧ ∀ p ∈ s.pods, p.2.saved = none
    let due : Prop := l.lseq.toNat = (s.port l.port).rxSeq
    -- no pod records what arrives, and none waits for an answer that was on its way at a rollback
    let plain : Prop := ∀ p ∈ s.pods, p.2.full = false ∧ p.2.asked = []
    (∀ i ∈ [Instr.flitRld l o, .flitRst l o v, .flitAm l o ws, .flitFe l o op v, .flitReply l o v, .flitRefuse l o cause,
        .flitProbe l o w, .flitEcho l o w, .flitColl l m, .flitAbort l w n, .flitNotice l w],
      (¬due → exec i s = .next s) ∧ (due → l.dst.toNat ≠ s.chipNum → exec i s = .next { h with dropped := s.dropped + 1 })) ∧
    (l.dst.toNat ≠ s.chipNum → exec (.flitIdle l) s = .next { s with dropped := s.dropped + 1 }) ∧
    (∀ ty, due → 0x0C ≤ ty.toNat → exec (.reservedTypeFlit l ty) s = .next { h with dropped := s.dropped + 1 }) ∧
    (∀ b, Gives (.flitCrcFailure l b) s (fun t => (t.port l.port).replays = (if b then (s.port l.port).replays else linkCount (s.port l.port).replays) ∧
      (t.port l.port).fec = (if b then linkCount (s.port l.port).fec else (s.port l.port).fec) ∧ (t.port l.port).retry = (s.port l.port).retry)) ∧
    (Still s → l.dst.toNat = s.chipNum →
      Gives (.flitIdle l) s (fun t => Woke (s.linkAck l) t ∧ (t.port l.port).credits = (s.port l.port).credits + l.credits.toNat ∧
        (t.port l.port).rxSeq = (s.port l.port).rxSeq ∧ (∀ y ∈ (t.port l.port).retry, y ∈ (s.port l.port).retry))) ∧
    (Still s → l.dst.toNat = s.chipNum → due →
      (h.port l.port).rxSeq = (l.lseq.toNat + 1) % 4096 ∧
      (o.seq = 0 → ∀ i ∈ ops, Gives i.1 s (Woke (queued i.2))) ∧
      (∀ u, o.seq ≠ 0 → s.marks.find? (fun y => y.1 = (l.src.toNat, c, k, o.interval.toNat)) = some u → o.seq.toNat ≤ u.2 → ∀ i ∈ ops, Gives i.1 s (fun t =>
        (t.port l.port).dups = linkCount (s.port l.port).dups ∧ (t.core k).agent = (s.core k).agent ∧ t.marks = s.marks)) ∧
      (plain → s.runOfRid o.rid.toNat = none → Gives (.flitReply l o v) s (Woke (h.everyCtx (got o.rid.toNat (.value v))))) ∧
      (plain → s.runOfRid o.rid.toNat = none → s.runOfPost o.rid.toNat = none → unposted →
        Gives (.flitRefuse l o cause) s (Woke (h.everyCtx (got o.rid.toNat (.refused cause))))) ∧
      (∀ u, plain → s.runOfRid o.rid.toNat = none → s.runOfPost o.rid.toNat = none → x.request = none →
        x.unacked.filter (fun y => y.1 = o.rid.toNat) = [u] → Quiescent x →
        Gives (.flitRefuse l o cause) s (fun t => (t.ctx c).unacked = x.unacked.filter (fun y => y.1 ≠ o.rid.toNat) ∧
          ((t.ctx c).p.refusals.toList.map (·.count)).sum = (x.p.refusals.toList.map (·.count)).sum + 1)) ∧
      (s.echoes = [] →
        let done := match s.performed.find? (fun y => y.1 = (l.src.toNat, c, o.tenant.toNat)) with | some y => y.2 | none => 0
        let echo : OpHdr := { srcCtx := o.srcCtx, tgtCore := 0, rid := o.rid, tenant := o.tenant, interval := 0, seq := 0, addr := 0 }
        (reached done w.toNat = true → Gives (.flitProbe l o w) s (Woke (h.sendFlit (h.portOf c l.src.toNat) l.src.toNat (.echo echo w)))) ∧
        (reached done w.toNat = false → Gives (.flitProbe l o w) s (Woke { h with echoes := [⟨l.src.toNat, c, o.rid.toNat, o.tenant, w.toNat⟩] }))) ∧
      Gives (.flitEcho l o w) s (Woke (h.everyCtx echoed)) ∧
      (s.collFull m = true → exec (.flitColl l m) s = .next s) ∧
      (s.collFull m = false → m.seq = 0 → (∀ p ∈ s.pods, p.2.full = false) → Gives (.flitColl l m) s (Woke { h with colls := s.colls ++ [m] })) ∧
      (∀ pid cl e p r q, s.pods = [(pid, p)] → p.resident = true → p.clusters = [cl] → (s.cluster cl).engines = [(e, q)] → q.run = some r →
        (s.groupVfs n l.src.toNat).contains p.vf = true → r.cmd.isColl w n = true → r.cmd.det = false → q.err = false →
        Gives (.flitAbort l w n) s (fun t => (t.engine cl e).run = none ∧ (t.engine cl e).err = true ∧ (t.engine cl e).errcode = 5 ∧
          (t.engine cl e).errseq = r.cmd.seq ∧ (t.engine cl e).count = r.cmd.seq)) ∧
      Gives (.flitNotice l w) s (Woke { h with marks := s.marks.filter (fun y => !(y.1.1 = l.src.toNat && y.1.2.2.2 ≤ w.toNat)) })) ∧
    (∀ r d y, Calm s → plain → s.runOfRid n = none → s.ctxs.find? (fun y => match y.2.request with | some q => q.rid = n | none => false) = some (d, y) →
      y.request = some r → r.fence = false → r.chip ≠ s.chipNum → y.answer = none →
      (∀ p, s.podOf d = some p → ∀ z ∈ (s.pod p).records, z.answers d = false) → r.sent + 200000 ≤ s.refTime →
      Gives (.linkTimeout n) s (Woke (s.everyCtx (got n (.refused 5))))) ∧
    (∀ p : Fin 12, (s.port p).failed = true → exec (.linkPortFailure p) s = .next s) ∧
    (∀ p : Fin 12, Still s → (s.port p).failed = false →
      ((s.port p).retry = [] → Gives (.linkPortFailure p) s (Woke (s.setPort p { s.port p with failed := true, retry := [] }))) ∧
      (∀ a dst, plain → (s.port p).retry = [(a, dst, .rld o)] → s.runOfRid o.rid.toNat = none → s.runOfPost o.rid.toNat = none → unposted →
        Gives (.linkPortFailure p) s
          (Woke ((s.setPort p { s.port p with failed := true, retry := [] }).everyCtx (got o.rid.toNat (.refused 5))))))

/-- Stage-2 faults (15 R305), the clearer (15 R302), scrubbing and histories (16 R337, R338), and errors (16 R331, R336;
the rows are the model’s: log 35). -/
def Obligations.MemoryFaultsAndErrors : Prop :=
  ∀ (s : State) (c f pa : Nat),
    let x := s.ctx c
    let v := s.vfOf c
    Calm s →
    (∀ ipa, c < 16384 → x.status = .out (.stage2 ipa) →
      (ipa < (s.vf v).grant * 2 ^ 30 → afind? (s.vf v).stage2 (ipa / 0x200000) = none →
        (s.unitFree f = true → Gives (.stage2Fault c f) s (Woke (((s.setVf v { s.vf v with
          stage2 := aput (s.vf v).stage2 (ipa / 0x200000) f }).logTranslation v false (ipa / 0x200000) f).setCtx c { x with status := .runnable }))) ∧
        (s.unitFree f = false → Gives (.stage2Fault c f) s (Woke s))) ∧
      ((s.vf v).grant * 2 ^ 30 ≤ ipa → c % 16 = 0 → x.chunk = none → x.pending = none → Gives (.stage2Fault c f) s (fun t =>
        (t.ctx c).status = .stopped .killed ∧ (∃ e ∈ t.errlog, e.kind = 3 ∧ e.time = s.refTime) ∧ t.mem = s.mem))) ∧
    (f * 65536 < Config.physBytes → s.clean.contains f = false → exec (.clearerRewrite f) s = .next { s with clean := nput s.clean f }) ∧
    (f < 8 → s.ready = true → aget 0 s.scrubs f ≤ s.refTime →
      exec (.scrubPass f) s = .next { s with scrubs := aput s.scrubs f (s.refTime + s.scrubh * 3600000000000) }) ∧
    (s.clean.contains (pa / 65536) = false → Gives (.uncorrectableError (.line pa)) s (Woke s) ∧ exec (.correctableError (.line pa)) s = .next s) ∧
    (s.clean.contains (pa / 65536) = true →
      let h := aget [] s.history (homeStack pa)
      (s.fullOwner pa = false → Gives (.uncorrectableError (.line pa)) s (Woke { s with poison := nput s.poison (pa / 64) })) ∧
      ((∀ r ∈ h, r.row ≠ Config.rowOf pa) → h.length < 4096 → exec (.correctableError (.line pa)) s = .next { s with
        history := aput s.history (homeStack pa) (h ++ [⟨Config.rowOf pa, 1, s.refTime, s.refTime⟩]) }) ∧
      ((∃ r ∈ h, r.row = Config.rowOf pa) → exec (.correctableError (.line pa)) s = .next { s with
        history := aput s.history (homeStack pa) (h.map (fun r =>
          if r.row = Config.rowOf pa then { r with count := r.count + 1, last := s.refTime } else r)) })) ∧
    (∀ k, x.chunk = some k → x.pending = none → x.status ≠ .blocked → Gives (.uncorrectableError (.l1 c)) s (fun t => (t.ctx c).p = k.start ∧ (t.ctx c).chunk = none ∧ t.mem = s.mem)) ∧
    (∀ p n, s.podAt (n / 8) = some p → (s.pod p).resident = true → (s.pod p).full = false → Gives (.uncorrectableError (.core n)) s (fun t =>
      (t.pod p).errored = true ∧ (∃ e ∈ t.errlog, e.kind = 6 ∧ e.time = s.refTime) ∧
      (∀ d, d / 128 ∈ (s.pod p).clusters → (t.ctx d).status = .stopped .error) ∧
      ∀ d, d / 128 ∉ (s.pod p).clusters → Quiescent (s.ctx d) → t.ctx d = s.ctx d))

/-- Pre-emption and switches (16 R315–R324), intervals and checkpoints (16 R325, R326), replay (16 R333;
the model’s readings: logs 65, 84–86). -/
def Obligations.PreemptionAndCheckpoints : Prop :=
  ∀ (s : State) (k g d vf i : Nat),
    let x := s.group g
    let pid := podKey vf i
    Calm s → (∀ c, (s.ctx c).chunk = none ∧ (s.ctx c).pending = none) →
    ((s.core k).stopped = false → Gives (.preemptCore k []) s (fun t => (t.core k).stopped = true ∧ (t.core k).h = (s.core k).h.map Tile.saved ∧
      (∀ c, c / 16 = k → (s.ctxs.any (fun y => y.1 = c)) = true → (∀ w, (s.ctx c).wait = some w → w.on.holds = false) →
        (s.ctx c).sending ≠ .wait → (s.core k).handling = none ∨ (s.ctx c).handler = false ∨ 0 < (s.ctx c).hcount →
        (t.ctx c).p = { (s.ctx c).p with tiles := (s.ctx c).p.tiles.map Tile.saved } ∧
        (t.ctx c).status = match (s.ctx c).status with | .out _ => .runnable | .blocked => .runnable | z => z) ∧
      ∀ m, (s.core k).handling = some m → (s.ctx (k * 16 + 15)).handler = true → (s.ctx (k * 16 + 15)).hcount = 0 →
        (s.ctx (k * 16 + 15)).status = .runnable → (∀ c, c / 16 = k → c ≠ k * 16 + 15 → (s.ctx c).handler = false) →
        (t.ctx (k * 16 + 15)).status = .idle ∧ (t.ctx (k * 16 + 15)).handler = false ∧ (t.core k).inbox = m :: (s.core k).inbox ∧
        (t.core k).handling = none)) ∧
    ((s.core k).stopped = true → (∀ q, s.groupAt (k / 8) = some q → (s.group q).ticking = none) →
      Gives (.coreRestore k) s (Woke ((s.coreCtxs k).foldl (fun u c => u.setCtx c { u.ctx c with begun := s.refTime })
        (s.setCore k { s.core k with stopped := false })))) ∧
    (s.tickDue g = true → s.switches g = true → Gives (.sliceTick g) s (fun t => (t.group g).ticking = some s.refTime ∧ (t.group g).hold = x.deadline * 1000 ∧
      (t.group g).incoming = s.nextPod g (x.resident.getD 0) ∧ (t.group g).saved = [] ∧ ∀ n, n / 8 ∈ x.clusters → (t.core n).stopped = true)) ∧
    (s.tickDue g = true → s.switches g = false → exec (.sliceTick g) s = .next ((s.tickPods g).setGroup g { x with lastTick := s.refTime })) ∧
    (s.tickDue g = false → exec (.sliceTick g) s = .next s) ∧
    (∀ t0, x.ticking = some t0 → s.retraining = [] →
      (x.dies.contains d = true → x.saved.contains d = false → s.refTime ≤ t0 + x.hold →
        ((∃ e ∈ x.dies, e ≠ d ∧ e ∉ x.saved) → Gives (.dieSaved g d) s (fun t => (t.group g).saved = d :: x.saved ∧ (t.group g).ticking = some t0)) ∧
        (∀ a b, (∀ e ∈ x.dies, e = d ∨ e ∈ x.saved) → x.resident = some a → x.incoming = some b → a ≠ b → (s.pod a).pausing = none →
          (s.pod b).state = .active → (s.pod b).group = g → (s.pod b).saved = none → Gives (.dieSaved g d) s (fun t =>
            (t.group g).ticking = none ∧ (t.group g).misses = 0 ∧ (t.group g).resident = some b ∧ (t.pod b).resident = true ∧
            (t.pod a).resident = false ∧ (t.pod a).saved.isSome = true))) ∧
      (x.forced = false → t0 + x.hold ≤ s.refTime →
        (x.misses < 2 → Gives (.switchDeadline g) s (fun t => (t.group g).ticking = none ∧ (t.group g).misses = x.misses + 1 ∧
          (t.group g).swmiss = x.swmiss + 1 ∧ (t.group g).resident = x.resident ∧ ∀ n, n / 8 ∈ x.clusters → (t.core n).stopped = false)) ∧
        (2 ≤ x.misses → Gives (.switchDeadline g) s (fun t => (t.group g).forced = true ∧ (t.group g).ticking = some t0 ∧ (t.group g).misses = 0 ∧
          (t.group g).swmiss = x.swmiss + 1 ∧ (t.group g).swforce = x.swforce + 1)))) ∧
    ((∀ q ∈ s.groups, q.2.ticking = none) → d < 8 → exec (.hbmRetrain d true) s = .next { s with retraining := nput s.retraining d }) ∧
    (s.retraining = [d] → Gives (.hbmRetrain d false) s (fun t => t.retraining = [] ∧ (∀ t0, x.ticking = some t0 → (t.group g).hold = x.hold + (s.refTime - t0)))) ∧
    (s.ready = true → s.ivals.opened + 10000000 ≤ s.refTime → s.ivals.filling = none → (∀ n : Fin 4, (s.die n).relock = none) →
      (∀ p ∈ s.pods, p.2.replay = none) → Gives .intervalClose s (fun t => t.ivals.num = s.ivals.num + 1 ∧ t.ivals.opened = s.refTime ∧
        (∃ ck, t.ivals.filling = some ck ∧ ck.interval = s.ivals.num + 1) ∧ t.ivals.undo = s.ivals.undo ∧ t.mem = s.mem)) ∧
    (∀ ck, s.ivals.filling = some ck → exec .intervalClose s = .next s ∧ Gives .checkpointComplete s (fun t => t.ivals.useB = !s.ivals.useB ∧
      t.lastCheckpoint = ck ∧ t.ivals.filling = none ∧ t.ivals.rollbacks = 0 ∧ t.mem = s.mem ∧
      t.ivals.undo = s.ivals.undo.filter (fun u => ck.interval - 1 ≤ u.interval))) ∧
    ((s.pod pid).replay = some [] → (s.pod pid).interval = none ∨ (s.pod pid).interval = some s.ivals.num → Gives (.replayComplete vf i) s (Woke (s.setPod pid { s.pod pid with replay := none, interval := none }))) ∧
    (∀ m l, (s.pod pid).replay = some (.coll m :: l) → Gives (.replayComplete vf i) s (Woke
      { s.setPod pid { s.pod pid with replay := some l } with colls := s.colls ++ [m] }))

/-- Host queues and commands (15 R285–R296, R310), queue and control registers and counters of the
ports and groups (18 R344–R348). Free values and readings: logs 9, 11, 67, 68, 93, 106, 116. -/
def Obligations.HostCommands : Prop :=
  ∀ (s : State) (h : HostIn) (v pid : Nat),
    let e := s.nextEntry h.q
    let c : Taken := ⟨e, queueFn h.q⟩
    let u := s.takeEntry h.q
    let p := s.pod pid
    let x := s.queue h.q
    let go (n : Nat) : Prop := s.mayTakeCmd h.q n = true
    let ends (i : Instr) (out : Word) (P : State → Prop) : Prop := Gives i s (fun t => Answered s t h.q 0 out ∧ P t)
    let denied (i : Instr) : Prop := Gives i s (fun t => Answered s t h.q (-3) 0 ∧ t.pod pid = p)
    let cmds : List (Nat × Instr) := [(1, .allocPod h), (2, .freePod h), (3, .bindVf h), (4, .unbindVf h), (5, .loadImage h), (6, .launchCommand h),
      (7, .pause h), (8, .resume h), (9, .evict h), (10, .restore h), (11, .mapWindow h), (12, .unmapWindow h), (13, .setQuota h),
      (14, .setSlice h), (15, .setRecovery h), (16, .attest h), (17, .readErrlog h), (18, .resetVf h)]
    (Stills s → s.ticket = none →
      (∀ y ∈ cmds, (s.mayTakeCmd h.q y.1 = false → exec y.2 s = .next s) ∧
        (go y.1 → e.rsvZero = false → Gives y.2 s (Woke (u.complete h.q e.tag (-1) 0)))) ∧
      (e.opc = 0 ∨ 18 < e.opc → go e.opc → Gives (.unassignedOpc h) s (Woke (u.complete h.q e.tag (-1) 0))) ∧
      (e.rsvZero = true → e.clear = false → h.q < 16 →
        (∀ q, go 3 → 1 ≤ e.a0 → e.a0 ≤ 512 → (s.vf e.a0).policy = none → e.len = 9056 → e.blk ≠ 0 →
          let bs := s.hostMem.readBytes e.blk 9056
          policyOf bs s.chipNum = some q →
          (policySigs bs = true → e.a1 ≤ q.memGib → Gives (.bindVf h) s (fun t =>
            let y := t.vf e.a0
            Answered s t h.q 0 y.handle ∧ y.policy = some q ∧ y.gen = (s.vf e.a0).gen + 1 ∧ y.grant = e.a1 ∧ y.cmdKey = none ∧ y.windows = [] ∧
            y.stage2 = [])) ∧
          (policySigs bs = false → Gives (.bindVf h) s (fun t => Answered s t h.q (-7) 0 ∧ (t.vf e.a0).policy = none))) ∧
        (c.vf u = some v →
          (go 4 → (∀ y ∈ s.pods, y.2.vf ≠ v) → (s.vf v).windows = [] → ends (.unbindVf h) 0 (fun t => (t.vf v).policy = none ∧
            (t.vf v).stage2 = [] ∧ (t.vf v).cmdKey = none)) ∧
          (∀ bs w b q g n, go 1 → c.block u v (some 288) = .ok (bs, w) → allocBlock bs = some b → (s.vf v).policy = some q →
            let cls := clusterMap e.a0 e.a1
            let mine := s.pods.filter (fun y => y.2.vf = v)
            mine.length < q.podMax → cls ≠ [] → cls.length ≤ q.clMax → s.mapGroup cls = some g →
            (List.range 24).find? (fun i => mine.all (fun y => y.2.idx ≠ i)) = some n → s.saveUnits + cls.length ≤ 512 → s.pods.length < 512 →
            (mine = [] ∨ (s.vf v).root1 = some b.root1) → Gives (.allocPod h) s (fun t =>
              let y := t.pod (podKey v n)
              Answered s t h.q 0 y.handle ∧ y.clusters = cls ∧ y.state = .empty ∧ y.vf = v ∧ y.idx = n ∧ y.ranges = b.ranges ∧
              y.heapBase = b.heapBase ∧ y.resident = false ∧ (t.vf v).root1 = some b.root1)) ∧
          (∀ bs w m n, go 11 → c.block u v (some 32) = .ok (bs, w) → windowOf bs = some m → (s.vf v).windowFits m = true →
            (m.kind = 2 ∨ ∃ q, (s.vf v).policy = some q ∧ q.peers ≠ 0) → (m.kind = 1 → h.busOk = true) →
            (List.range 16).find? (fun i => (afind? (s.vf v).windows i).isNone) = some n →
            ends (.mapWindow h) (s.winHandle v n) (fun t => afind? (t.vf v).windows n = some { m with handle := s.winHandle v n })) ∧
          (let report := Config.report (s.hostMem.readBytes e.blk 32) (s.measurements v) s.moment;
            go 16 → 32 + report.length ≤ e.len → e.blk ≠ 0 → ends (.attest h) (BitVec.ofNat 64 report.length) (fun t =>
              Delivered s t h.q (e.blk + 32) report)) ∧
          (go 18 → e.blk = 0 → ends (.resetVf h) (BitVec.ofNat 64 (1 + (s.pods.filter (fun y => y.2.vf = v)).length)) (fun t =>
            (t.vf v).gen = (s.vf v).gen + 1 ∧ (t.vf v).cmdKey = none ∧ (t.vf v).seq = 0 ∧ (t.vf v).windows = [] ∧ (t.vf v).stage2 = [] ∧
            ∀ y ∈ s.pods, y.2.vf = v → (t.pod y.1).state = .empty ∧ (t.pod y.1).launches = []))) ∧
        (∀ n, go 12 → s.winByHandle e.h0 = some (v, n) → ends (.unmapWindow h) 0 (fun t => afind? (t.vf v).windows n = none)) ∧
        (go 17 → e.h0 = 0 →
          let l := ((s.errlog ++ s.historyEntries).drop e.a0).take (if e.blk = 0 then 0 else e.len / 64)
          ends (.readErrlog h) (BitVec.ofNat 64 l.length) (fun t => Delivered s t h.q e.blk (l.flatMap (fun y => y.bytes true)))) ∧
        (c.pod u = some pid →
          (go 2 → p.state ≠ .active → ends (.freePod h) 0 (fun t => afind? t.pods pid = none)) ∧
          (∀ bs w i ss z, go 5 → c.block u p.vf none = .ok (bs, w) → p.state = .empty → imageOf bs p.clusters.length = some (i, ss) →
            w.mapUnits p.vf (ss.flatMap Sect.units) h.frames = some z → ends (.loadImage h) 0 (fun t =>
              (t.pod pid).state = .active ∧ (t.pod pid).image = some i ∧ (t.pod pid).svctgt = i.target p.clusters)) ∧
          (∀ bs w d l, go 6 → c.block u p.vf (some 8) = .ok (bs, w) → p.state = .active → p.resident = true →
            w.huskRead p.vf h.busOk (BitVec.ofNat 64 (field bs 0 8)) 128 = some d → blockWord d 0x78 = 0 →
            w.checkLaunch pid d (some (List.replicate 192 0)) = .ok l → l.det = false → l.deps = [] →
            (∀ y ∈ p.launches, y.2.eligible = true ∧ y.2.det = false) →
            let slot := ((List.range 255).find? (fun n => (afind? p.launches n).isNone)).getD 0
            ends (.launchCommand h) (BitVec.ofNat 64 slot) (fun t => ∃ y, afind? (t.pod pid).launches slot = some y ∧ y.entry = l.entry ∧
              y.units = l.units ∧ y.eligible = true)) ∧
          (go 7 → p.state = .active → (p.resident = true → exec (.pause h) s = .next (u.setPod pid { p with pausing := some (h.q, e.tag) })) ∧
            (p.resident = false → ends (.pause h) 0 (fun t => (t.pod pid).state = .paused))) ∧
          (go 8 → p.state = .paused → ends (.resume h) 0 (fun t => (t.pod pid).state = .active)) ∧
          (go 8 → p.state = .evicted → (u.newPlace pid c).isSome = true → s.hostMem.readBytes e.blk e.len ≠ p.blob →
            Gives (.resume h) s (fun t => Answered s t h.q (-7) 0 ∧ t.pod pid = p)) ∧
          (let blob := Config.evictBlob p.vf (s.vf p.vf).gen.toNat (p.evictions + 1) s.moment;
            go 9 → p.state = .paused → blob.length ≤ e.len → e.blk ≠ 0 → ends (.evict h) (BitVec.ofNat 64 blob.length) (fun t =>
              (t.pod pid).state = .evicted ∧ (t.pod pid).evictions = p.evictions + 1 ∧ (t.pod pid).blob = blob ∧
              Delivered s t h.q e.blk blob)) ∧
          (∀ i, go 10 → p.state = .active ∨ p.state = .paused → p.image = some i → ends (.restore h) 0 (fun t =>
            (t.pod pid).state = .active ∧ (t.pod pid).launches = [] ∧ (t.pod pid).cnts = [] ∧ (t.pod pid).image = some i)) ∧
          (∀ q, (s.vf p.vf).policy = some q →
            (go 13 → (q.quotaMin ≤ e.a0 → e.a0 ≤ q.quotaMax → ends (.setQuota h) 0 (fun t => (t.pod pid).quota = e.a0)) ∧
              (e.a0 < q.quotaMin ∨ q.quotaMax < e.a0 → denied (.setQuota h))) ∧
            (go 14 → (q.sliceMin ≤ e.a0 → e.a0 ≤ q.sliceMax → e.a1 ≤ q.powShare → ends (.setSlice h) 0 (fun t =>
                (t.pod pid).nextSlice = some e.a0 ∧ (t.pod pid).nextPower = if e.a1 = 0 then p.nextPower else some e.a1)) ∧
              (e.a0 < q.sliceMin ∨ q.sliceMax < e.a0 ∨ q.powShare < e.a1 → denied (.setSlice h))) ∧
            (go 15 → (e.a0 = 0 → q.reportOk = true → ends (.setRecovery h) 0 (fun t => (t.pod pid).fullNext = some false)) ∧
              (e.a0 = 1 → q.fullOk = true → ends (.setRecovery h) 0 (fun t => (t.pod pid).fullNext = some true)) ∧
              (e.a0 = 0 → q.reportOk = false → denied (.setRecovery h))))))) ∧
    let up : Prop := s.powered = true ∧ s.faultCode ≠ 3
    let reg (off : Nat) : HostReg := if h.q < 16 then ⟨0, 0, 64 * h.q + off⟩ else ⟨(h.q - 16) / 4 + 1, 0, 64 * ((h.q - 16) % 4) + off⟩
    (up → h.q < 2064 →
      (∀ b, exec (.doorbell h.q b) s = .next (s.setQueue h.q { x with tail := b.toNat % 2 ^ x.logn }) ∧
        exec (.registerWrite (reg 0x18) (b.zeroExtend 64)) s = exec (.doorbell h.q b) s) ∧
      (∀ (en : Bool) (n : BitVec 5), exec (.registerWrite (reg 0x10) (BitVec.ofNat 64 (n.toNat + en.toNat * 2 ^ 31))) s = exec (.queueEnable h.q en n) s) ∧
      (∀ n, x.en = false → 4 ≤ n.toNat → n.toNat ≤ 16 → exec (.queueEnable h.q true n) s = .next (s.setQueue h.q
        { x with en := true, logn := n.toNat, head := 0, tail := 0, cpi := 0, phase := true })) ∧
      (∀ n, x.en = true → exec (.queueEnable h.q true n) s = .next s ∧
        exec (.queueEnable h.q false n) s = .next (s.setQueue h.q { x with en := false, tail := x.head })) ∧
      (∀ w, x.en = false → (w.toNat % 64 = 0 → exec (.registerWrite (reg 0x00) w) s = .next (s.setQueue h.q { x with cbase := w })) ∧
        (w.toNat % 16 = 0 → exec (.registerWrite (reg 0x08) w) s = .next (s.setQueue h.q { x with cpbase := w }))) ∧
      (∀ w, (x.en = true → exec (.registerWrite (reg 0x00) w) s = .next s ∧ exec (.registerWrite (reg 0x08) w) s = .next s) ∧
        exec (.registerWrite (reg 0x14) w) s = .next s) ∧
      s.hostRead (reg 0x14) = BitVec.ofNat 64 x.head ∧ s.hostRead (reg 0x18) = BitVec.ofNat 64 x.tail) ∧
    (up → ∀ w, (800 ≤ w.toNat → w.toNat ≤ 3200 → exec (.registerWrite ⟨0, 0, 0x10010⟩ w) s = .next { s with pwrcap := w.toNat }) ∧
      (1 ≤ w.toNat → w.toNat ≤ 720 → exec (.registerWrite ⟨0, 0, 0x10018⟩ w) s = .next { s with scrubh := w.toNat }) ∧
      (w.toNat < 800 ∨ 3200 < w.toNat → exec (.registerWrite ⟨0, 0, 0x10010⟩ w) s = .next s) ∧
      (w.toNat = 0 ∨ 720 < w.toNat → exec (.registerWrite ⟨0, 0, 0x10018⟩ w) s = .next s) ∧
      (∀ off, 0x400 ≤ off → off < 0x10000 ∨ 0x11000 ≤ off → exec (.registerWrite ⟨0, 0, off⟩ w) s = .next s) ∧
      (∀ f off, 1 ≤ f → 0x100 ≤ off → exec (.registerWrite ⟨f, 0, off⟩ w) s = .next s) ∧
      (∀ f i, f ≤ 512 → i < 1024 → Gives (.registerWrite ⟨f, 2, 4 * i⟩ w) s (fun t => t.hostRead ⟨f, 2, 4 * i⟩ = w &&& 0xFFFFFFFF)) ∧
      ∀ g, g < 24 → 10 ≤ w.toNat → w.toNat ≤ 500 →
        exec (.registerWrite ⟨0, 0, 0x10100 + 4 * g⟩ w) s = .next (s.setGroup g { s.group g with deadline := w.toNat })) ∧
    (up → s.hostRead ⟨0, 0, 0x10000⟩ = BitVec.ofNat 64 (s.ready.toNat + 16 * s.bring) ∧ s.hostRead ⟨0, 0, 0x10010⟩ = BitVec.ofNat 64 s.pwrcap ∧
      s.hostRead ⟨0, 0, 0x10018⟩ = BitVec.ofNat 64 s.scrubh ∧
      (∀ g, g < 24 → s.hostRead ⟨0, 0, 0x10100 + 4 * g⟩ = BitVec.ofNat 64 (s.group g).deadline ∧
        s.hostRead ⟨0, 0, 0x20000 + 8 * g⟩ = (s.group g).swmiss.zeroExtend 64 ∧ s.hostRead ⟨0, 0, 0x20100 + 8 * g⟩ = (s.group g).swforce.zeroExtend 64) ∧
      ∀ p : Fin 12, s.hostRead ⟨0, 0, 0x20200 + 8 * p⟩ = BitVec.ofNat 64 (s.port p).replays ∧
        s.hostRead ⟨0, 0, 0x20300 + 8 * p⟩ = BitVec.ofNat 64 (s.port p).fec ∧ s.hostRead ⟨0, 0, 0x20400 + 8 * p⟩ = BitVec.ofNat 64 (s.port p).dups) ∧
    (¬up → ∀ r w b n en, exec (.registerWrite r w) s = .next s ∧ exec (.doorbell h.q b) s = .next s ∧
      exec (.queueEnable h.q en n) s = .next s ∧ s.hostRead r = 0)

/-- SPDM (15 R297, R299), device interfaces (15 R298), ATS and PRI (15 R311). The order of the requests
and the TDI moves are the model’s (logs 37, 88), as is what a response names (log 64). -/
def Obligations.SecurityProtocols : Prop :=
  ∀ (s : State) (m : SpdmIn) (v tag c : Nat) (gen : BitVec 8),
    let x := aget {} s.spdm m.fn
    let put (y : Spdm) (o : DoeOut) : State := { s with spdm := aput s.spdm m.fn { y with outbox := y.outbox ++ [o] } }
    let told : DoeOut := .message (Config.spdmBytes s.moment)
    let f := s.vf v
    let tdi (z : Tdi) : State := s.setVf v { f with tdi := z }
    let slot0 : Bool := m.slot = 0
    -- each request, the object that carries it, and whether the connection admits it
    let all : List (Instr × DoeObj × Bool) := [(.getVersion m, .cmaSpdm, true), (.getCapabilities m, .cmaSpdm, x.version),
      (.negotiateAlgorithms m, .cmaSpdm, x.caps && m.algs.ecdsaP384 && m.algs.sha384 && m.algs.secp384r1 && m.algs.aes256gcm),
      (.getDigests m, .cmaSpdm, x.algs), (.getCertificate m, .cmaSpdm, x.algs && slot0), (.challenge m, .cmaSpdm, x.algs && slot0),
      (.getMeasurements m, .cmaSpdm, x.algs), (.keyExchange m, .cmaSpdm, x.algs && slot0 && !m.mutual_),
      (.finish m, .securedSpdm, x.session && !m.mutual_), (.keyUpdate m, .securedSpdm, x.finished), (.heartbeat m, .securedSpdm, x.finished),
      (.endSession m, .securedSpdm, x.finished),
      (.setCmdkey m, .securedSpdm, x.finished && m.fn ≠ 0 && (s.vf m.fn).policy.isSome && m.body.length = 32),
      (.ideKm m, .securedSpdm, x.finished && (m.body.getD 0 0).toNat < 64)]
    (s.powered = false ∨ s.bring = 0 ∨ 512 < m.fn ∨ 65536 < m.len → ∀ i ∈ all, exec i.1 s = .next s) ∧
    (s.powered = true → 1 ≤ s.bring → m.fn ≤ 512 → m.len ≤ 65536 →
      (∀ n, m.obj = .discovery n → ∀ i ∈ all, exec i.1 s = .next (put x
        (if n = 0 then .object 0 1 else if n = 1 then .object 1 2 else if n = 2 then .object 2 0 else .error))) ∧
      (m.obj = .cmaSpdm ∨ m.obj = .securedSpdm → ∀ i ∈ all, (m.ok = false ∨ m.obj ≠ i.2.1 ∨ i.2.2 = false) →
        exec i.1 s = .next (put x .error)) ∧
      (m.ok = true → m.obj = .cmaSpdm →
        exec (.getVersion m) s = .next (put { version := true, keyGen := x.keyGen, outbox := x.outbox } told) ∧
        (x.version = true → exec (.getCapabilities m) s = .next (put { x with caps := true } told)) ∧
        (x.caps = true → m.algs = ⟨true, true, true, true⟩ → exec (.negotiateAlgorithms m) s = .next (put { x with algs := true } told)) ∧
        (x.algs = true → exec (.getDigests m) s = .next (put x told) ∧
          (m.slot = 0 → exec (.getCertificate m) s = .next (put x told) ∧ exec (.challenge m) s = .next (put x told) ∧
            (m.mutual_ = false → exec (.keyExchange m) s = .next (put { x with session := true, finished := false, keyGen := 0 } told))) ∧
          ∃ l, exec (.getMeasurements m) s = .next (put x (.measurements l (Config.spdmBytes s.moment))) ∧ (1, Config.romDigest) ∈ l ∧
            (2, Config.deviceDigest s.chipNum) ∈ l ∧ ∀ p, m.fn ≠ 0 → (s.vf m.fn).policy = some p → (3, p.digest) ∈ l)) ∧
      (m.ok = true → m.obj = .securedSpdm →
        (x.session = true → m.mutual_ = false → exec (.finish m) s = .next (put { x with finished := true } told)) ∧
        (x.finished = true → exec (.keyUpdate m) s = .next (put { x with keyGen := x.keyGen + 1 } told) ∧
          exec (.heartbeat m) s = .next (put x told) ∧
          exec (.endSession m) s = .next (put { x with session := false, finished := false } told) ∧
          (m.fn ≠ 0 → (s.vf m.fn).policy ≠ none → m.body.length = 32 →
            exec (.setCmdkey m) s = .next ((put x told).setVf m.fn { s.vf m.fn with cmdKey := some m.body, seq := 0 })) ∧
          ((m.body.getD 0 0).toNat < 64 → exec (.ideKm m) s = .next { put x told with ide := nput s.ide (m.body.getD 0 0).toNat })))) ∧
    (s.powered = true → 1 ≤ s.bring → 1 ≤ v → v ≤ 512 →
      exec (.lockInterface v) s = .next (if f.tdi = .configUnlocked then tdi .configLocked else s) ∧
      exec (.startInterface v) s = .next (if f.tdi = .configLocked then tdi .run else s) ∧
      exec (.getDeviceInterfaceState v) s = .next (s.setVf v { f with reported := some f.tdi }) ∧
      exec (.getDeviceInterfaceReport v) s = .next (if f.tdi = .configLocked ∨ f.tdi = .run then s.setVf v { f with reported := some f.tdi } else s) ∧
      (Stills s → f.tdi ≠ .run → Gives (.stopInterface v) s (Woke (tdi .configUnlocked)) ∧ exec (.tdiError v) s = .next s) ∧
      (f.tdi = .run → s.mayCut = false → exec (.stopInterface v) s = .next s ∧ exec (.tdiError v) s = .next s) ∧
      (Stills s → f.tdi = .run → s.mayCut = true → ∀ y ∈ [(Instr.stopInterface v, Tdi.configUnlocked), (.tdiError v, .error)], Gives y.1 s (fun t =>
        (t.vf v).tdi = y.2 ∧ (t.vf v).gen = f.gen + 1 ∧ (t.vf v).cmdKey = none ∧ (t.vf v).windows = [] ∧ (t.vf v).stage2 = [] ∧
        ∀ p ∈ s.pods, p.2.vf = v → (t.pod p.1).state = .empty))) ∧
    (gen ≠ f.gen → ∀ i ∈ [Instr.atsResponse v tag gen true, .atsResponse v tag gen false, .priResponse v tag gen true, .priResponse v tag gen false],
      Gives i s (fun t => t = { s with errlog := t.errlog } ∧ ∃ e, t.errlog = s.errlog ++ [e] ∧ e.kind = 4 ∧ e.vf = v)) ∧
    (gen = f.gen → Calm s →
      (f.hostPage tag = true →
        Gives (.atsResponse v tag gen true) s (fun t => (t.vf v).atc.contains tag = true ∧ ((s.ctx c).status = .out (.ats tag) → s.vfOf c = v →
          (s.ctx c).chunk = none → (s.ctx c).pending = none → (s.ctx c).sending ≠ .wait → (t.ctx c).status = .runnable ∧ (t.ctx c).p = (s.ctx c).p)) ∧
        (f.pri.length < 512 → exec (.atsResponse v tag gen false) s = .next (s.setVf v { f with pri := nput f.pri tag })) ∧
        (512 ≤ f.pri.length → exec (.atsResponse v tag gen false) s = .next s)) ∧
      (f.pri.contains tag = false → exec (.priResponse v tag gen true) s = .next s) ∧
      (f.pri.contains tag = true →
        Gives (.priResponse v tag gen true) s (fun t => (t.vf v).pri = f.pri.filter (fun y => y ≠ tag) ∧ ((s.ctx c).status = .out (.ats tag) → s.vfOf c = v →
          (s.ctx c).chunk = none → (s.ctx c).pending = none → (s.ctx c).sending ≠ .wait → (t.ctx c).status = .runnable ∧ (t.ctx c).p = (s.ctx c).p)) ∧
        (s.waitPage v tag = [c] → c % 16 = 0 → (s.ctx c).chunk = none → (s.ctx c).pending = none → (∀ k ∈ s.cores, k.2.agent = []) →
          (∀ k ∈ s.clusters, k.2.engines = []) → Gives (.priResponse v tag gen false) s (fun t => (t.ctx c).status = .stopped .killed ∧
            ∃ e ∈ t.errlog, e.kind = 3 ∧ e.time = s.refTime))))

/-- Worked encodings of the spec (02 after R61 and R64, 06 R134 and R148, 10 after R229, 11). -/
def Obligations.DecodeWords : Prop :=
  decode [0x00050016, 0x8D159E24, 0x00000004] = .ok (.li (.s 5) 0x123456789) ∧
  decode [0x21030001, 0x00000002] = .ok (.add (.s 3) (.s 4) (.g 2)) ∧
  decode [0x00C60009, 0xFFFFFFE0] = .ok (.addi (.s 6) (.s 3) (BitVec.ofInt 30 (-8))) ∧
  decode [0x000335E4] = .ok (.elementPrefix { rsv := 0, sat := false, xv := false, x := 0, mz := true, mask := 9, rm := 5, fmt := 0x0F }) ∧
  decode [0x00420109, 0x00000000] = .ok (.tcvt (.tile (.t 2)) (.tile (.t 1)) false) ∧
  decode [0x00830109, 0x00000040] = .ok (.tcvt (.tile (.t 3)) (.tile (.t 2)) true) ∧
  decode [0x00000101, 0x04008040] = .ok (.tcfg (.t 0) (.imm 0 false 0x08 16 16)) ∧
  decode [0x51010122, 0x00000000, 0x00000000] = .ok (.tld (.t 1) (.s 4) (.s 5) (.s 0) 0 false) ∧
  decode [0x71200522, 0x00000000, 0x00000000] = .ok (.tst (.h 0) (.s 4) (.s 7) (.s 0) 0 false) ∧
  decode [0x02051A81, 0x00000040] = .ok (.ldD (.s 5) (.s 8) 16) ∧
  decode [0x0246070D, 0x00000020] = .ok (.feTake (.s 6) (.s 9) false 1) ∧
  decode [0x00000B11, 0x00000000] = .ok .fencePod ∧
  decode [0x92000689, 0x00001480] = .ok (.sst (.s 8) (.s 9) 0 0xA4) ∧
  decode [0x0380038D, 0x00000004] = .ok (.tlWait (.s 14) 1) ∧
  (∃ f, decode [0xB2870383, 0x00001A08, 0x00000400, 0x00000000] = .ok (.cpyQ (.s 7) (.s 10) (.s 11) f 0x400) ∧
    f = { cbk := false, cbv := false, cbn := 0, ndm := 1, esz := 2, dsp := true, ssp := false, e := 2 }) ∧
  ∀ w ∈ [[0x00000008], [0x00000020], [0x00000002, 0, 0], [0x00000241, 0], [0x00005401, 0]], ∃ r, decode w = .error r

/-- No bit of an encoding is dropped (02 R45–R63). -/
def Obligations.DecodeEncodeAgree : Prop :=
  ∀ i : Instr, i.wf = true → i.isEvent = false → decode (encode i) = .ok i ∧ i.bytes = 4 * lenWords ((encode i).headD 0)

/-- A step (02 R58–R61, R65, 12 R236, 01 R42; the agenda is the model’s own, log 2). -/
def Obligations.StepRunsTheDecodedInstruction : Prop :=
  ∀ (s : State) (rest : List Due),
    let u : State := { s.tick with agenda := rest }
    (∀ i, s.agenda = .event i :: rest → step s = exec i u) ∧
    (∀ k, s.agenda = .issueCore k :: rest → (u.die (dieOf (k * 16))).relock ≠ none → step s = .next u) ∧
    (∀ k, s.agenda = .issueCore k :: rest → (u.die (dieOf (k * 16))).relock = none →
      let w := u.setCore k { u.core k with cycle := (u.core k).cycle + 1 }
      (w.choose k = none → step s = .next w) ∧
      (∀ c, w.choose k = some c → w.drains c = true → step s = exec (.inboxDrain k) (w.markIssue c)) ∧
      (∀ c, w.choose k = some c → w.drains c = false → w.recordedCut c = none →
        let v := w.startIssue c
        let pc := v.me.p.pc
        (v.me.p.codelim.toNat ≤ pc.toNat → step s = exec (.fetchFault .runoff) v) ∧
        (∀ pa x i, pc.toNat < v.me.p.codelim.toNat → v.xlateFetch (pc.zeroExtend 64) = .ok (.mem pa, x) →
          let n := fetchLen (x.codeWord pa) (x.codeWord (pa + 4))
          pc.toNat % 32 + n ≤ 32 → pc.toNat + n ≤ v.me.p.codelim.toNat → decode (x.codeWords pa) = .ok i →
          (i = .stop ∨ (x.pfx? = none ∧ ∃ p, i = .elementPrefix p) ∨ (x.handlerFull = false ∧ ((x.pfx? = none ∧ i.acceptsNone = true) ∨
            ∃ q, x.pfx? = some q ∧ i.accepts q = true ∧ i ≠ .pad ∧ ∀ p, i ≠ .elementPrefix p))) → step s = exec i x)))

/-- Reset (01 R40, R41, 12 R236, 18 R347, R352). What memory and the registers of a context hold before anything gives them a value is the
model’s choice, the values of 01 R15 where it gives some (log 1). -/
def Obligations.ResetState : Prop :=
  Kept State.reset ∧ State.reset.refTime = 0 ∧ State.reset.ready = false ∧ State.reset.chip = none ∧ State.reset.bring = 0 ∧
  State.reset.pwrcap = 3200 ∧ State.reset.scrubh = 24 ∧ (∀ g, (State.reset.group g).deadline = 50) ∧
  (∀ d : Fin 4, (State.reset.die d).acc = 0 ∧ (State.reset.die d).relock = none) ∧ (∀ k, (State.reset.core k).ptr = 15) ∧
  (∀ c, (State.reset.ctx c).chunk = none ∧ (State.reset.ctx c).last = -8 ∧
    (State.reset.ctx c).status = if classOf c = .unit then .idle else .stopped .unplaced) ∧
  (∀ c, let x := State.reset.ctx c
    let p := x.p
    (∀ n : Fin 32, p.regs[n] = 0) ∧ p.pc = 0 ∧ p.tstat = ⟨0, false, 0, false, false⟩ ∧ p.efmt = .fp32 ∧ p.rmode = .rne ∧ p.flags = 0 ∧ p.rngSeed = 0 ∧
    p.rngCtr = 0 ∧ (∀ n : Fin 8, p.tiles[n].shape = 0 ∧ p.tiles[n].unfilled = false ∧ p.masks[n] = none) ∧ (∀ n : Fin 16, p.cb[n] = 0) ∧
    p.chunklen = 2048 ∧ p.bankmask = 0 ∧ p.waitlim = 0 ∧ p.rsbase = 0 ∧ p.rets = [] ∧ p.retdepth = 0 ∧ p.codelim = 0 ∧ (∀ n : Fin 8, p.msg[n] = 0) ∧
    x.chunkid = 0 ∧ x.clock = 0 ∧ x.waitcnt = 0 ∧ x.trap = none ∧ x.holder = none ∧
    (classOf c = .unit → p.rngStream = 0 ∧ p.unitid = 0 ∧ p.launchid = 0 ∧ p.spbase = 0 ∧ p.spsize = 64) ∧
    (classOf c ≠ .unit → p.rngStream = 0xFFFFFFFF ∧ p.unitid = 0xFFFFFFFF ∧ p.launchid = 0xFF ∧ p.spbase = 0 ∧ p.spsize = 0x200000)) ∧
  (∀ k, (∀ n : Fin 32, (State.reset.core k).g[n] = 0) ∧ ∀ n : Fin 8, (State.reset.core k).h[n].shape = 0) ∧
  (∀ a, State.reset.mem.read a = 0) ∧ step State.reset = .next { State.reset with moment := State.reset.moment + 1 }

/-- The invariant of the memories (the model’s canonical form over the address space of 01 R31 and R34). -/
def Obligations.StepKeepsMemories : Prop :=
  ∀ s t : State, Kept s → step s = .next t → Kept t
end

