-- ==== Sys2Proof/Laws/Assoc.lean ====
section
/-! SUPPORT. Keyed lists and memories: reading after writing, and the canonical form of memory under every operation. -/

namespace Sys2Proof.Machine

theorem aget_aput_same {α : Type} (d : α) (l : List (Nat × α)) (n : Nat) (v : α) : aget d (aput l n v) n = v := by
  induction l with
  | nil => simp [aput, aget]
  | cons x l ih =>
    obtain ⟨k, w⟩ := x
    unfold aput
    split
    · simp [aget]
    · split
      · simp [aget]
      · rename_i h1 h2
        simp [aget, ih, Ne.symm h2]

theorem aget_aput_ne {α : Type} (d : α) (l : List (Nat × α)) (n m : Nat) (v : α) (h : m ≠ n) :
    aget d (aput l n v) m = aget d l m := by
  induction l with
  | nil => simp [aput, aget, Ne.symm h]
  | cons x l ih =>
    obtain ⟨k, w⟩ := x
    unfold aput
    split
    · simp [aget, Ne.symm h]
    · split
      · rename_i h1 h2
        subst h2
        simp [aget, Ne.symm h]
      · simp [aget, ih]

theorem afind_aput_same {α : Type} (l : List (Nat × α)) (n : Nat) (v : α) : afind? (aput l n v) n = some v := by
  induction l with
  | nil => simp [aput, afind?]
  | cons x l ih =>
    obtain ⟨k, w⟩ := x
    unfold aput
    split
    · simp [afind?]
    · split
      · simp [afind?]
      · rename_i h1 h2
        simp [afind?, ih, Ne.symm h2]

theorem afind_aput_ne {α : Type} (l : List (Nat × α)) (n m : Nat) (v : α) (h : m ≠ n) :
    afind? (aput l n v) m = afind? l m := by
  induction l with
  | nil => simp [aput, afind?, Ne.symm h]
  | cons x l ih =>
    obtain ⟨k, w⟩ := x
    unfold aput
    split
    · simp [afind?, Ne.symm h]
    · split
      · rename_i h1 h2
        subst h2
        simp [afind?, Ne.symm h]
      · simp [afind?, ih]

namespace Memory

/-- A lower bound on the addresses may be weakened. -/
theorem wfFrom_mono (m : Memory) (a b : Nat) (h : a ≤ b) (hw : wfFrom b m = true) : wfFrom a m = true := by
  cases m with
  | nil => rfl
  | cons x l =>
    obtain ⟨k, v⟩ := x
    simp only [wfFrom, Bool.and_eq_true, decide_eq_true_eq] at hw ⊢
    exact ⟨⟨by omega, hw.1.2⟩, hw.2⟩

theorem wfFrom_aput (m : Memory) (n a : Nat) (b : Byte) (h : n ≤ a) (hb : b ≠ 0) (hw : wfFrom n m = true) : wfFrom n (aput m a b) = true := by
  induction m generalizing n with
  | nil => simpa [aput, wfFrom, h] using hb
  | cons x l ih =>
    obtain ⟨k, v⟩ := x
    simp only [wfFrom, Bool.and_eq_true, decide_eq_true_eq] at hw
    obtain ⟨⟨h1, h2⟩, h3⟩ := hw
    unfold aput
    split
    · simp only [wfFrom, Bool.and_eq_true, decide_eq_true_eq]
      exact ⟨⟨h, hb⟩, ⟨by omega, h2⟩, h3⟩
    · split
      · rename_i he
        simp only [wfFrom, Bool.and_eq_true, decide_eq_true_eq]
        exact ⟨⟨h, hb⟩, by rw [he]; exact h3⟩
      · simp only [wfFrom, Bool.and_eq_true, decide_eq_true_eq]
        exact ⟨⟨h1, h2⟩, ih (k + 1) (by omega) h3⟩

theorem wfFrom_filter (p : Nat × Byte → Bool) (m : Memory) (n : Nat) (hw : wfFrom n m = true) : wfFrom n (m.filter p) = true := by
  induction m generalizing n with
  | nil => rfl
  | cons x l ih =>
    obtain ⟨k, v⟩ := x
    simp only [wfFrom, Bool.and_eq_true, decide_eq_true_eq] at hw
    obtain ⟨⟨h1, h2⟩, h3⟩ := hw
    rw [List.filter_cons]
    split
    · simp only [wfFrom, Bool.and_eq_true, decide_eq_true_eq]
      exact ⟨⟨h1, h2⟩, ih (k + 1) h3⟩
    · exact ih n (wfFrom_mono l n (k + 1) (by omega) h3)

theorem wfFrom_write (m : Memory) (n a : Nat) (b : Byte) (h : n ≤ a) (hw : wfFrom n m = true) : wfFrom n (write m a b) = true := by
  unfold write
  split
  · exact wfFrom_filter _ m n hw
  · rename_i hb
    exact wfFrom_aput m n a b h hb hw

theorem wf_write (m : Memory) (a : Nat) (b : Byte) (hw : m.wf = true) : (m.write a b).wf = true :=
  wfFrom_write m 0 a b (Nat.zero_le a) hw

theorem wf_writeBytes (bs : List Byte) (m : Memory) (a : Nat) (hw : m.wf = true) : (m.writeBytes a bs).wf = true := by
  induction bs generalizing m a with
  | nil => exact hw
  | cons b bs ih => exact ih (m.write a b) (a + 1) (wf_write m a b hw)

theorem wf_writeAll (l : List (Nat × Byte)) (m : Memory) (hw : m.wf = true) : (m.writeAll l).wf = true := by
  induction l generalizing m with
  | nil => exact hw
  | cons x l ih => exact ih (m.write x.1 x.2) (wf_write m x.1 x.2 hw)

theorem wf_clear (m : Memory) (lo hi : Nat) (hw : m.wf = true) : (m.clear lo hi).wf = true := wfFrom_filter _ m 0 hw

theorem aget_adel_same (m : Memory) (a : Nat) : aget (0 : Byte) (adel m a) a = 0 := by
  induction m with
  | nil => rfl
  | cons x l ih =>
    obtain ⟨k, v⟩ := x
    unfold adel at ih ⊢
    by_cases h : k = a
    · simpa [List.filter_cons, h] using ih
    · simpa [List.filter_cons, h, aget] using ih

theorem aget_adel_ne (m : Memory) (a c : Nat) (h : c ≠ a) : aget (0 : Byte) (adel m a) c = aget 0 m c := by
  induction m with
  | nil => rfl
  | cons x l ih =>
    obtain ⟨k, v⟩ := x
    unfold adel at ih ⊢
    by_cases hk : k = a
    · have : ¬ a = c := fun e => h e.symm
      simpa [List.filter_cons, hk, aget, this] using ih
    · by_cases hc : k = c
      · subst hc
        simp [hk, aget]
      · simpa [List.filter_cons, hk, aget, hc] using ih

/-- A byte reads as last written. -/
theorem read_write_same (m : Memory) (a : Nat) (b : Byte) : (m.write a b).read a = b := by
  unfold write read
  split
  · rename_i hb
    rw [hb]
    exact aget_adel_same m a
  · exact aget_aput_same 0 m a b

/-- A write leaves every other byte alone. -/
theorem read_write_ne (m : Memory) (a c : Nat) (b : Byte) (h : c ≠ a) : (m.write a b).read c = m.read c := by
  unfold write read
  split
  · exact aget_adel_ne m a c h
  · exact aget_aput_ne 0 m a c b h

/-- Bytes outside those written stay. -/
theorem read_writeBytes_out (bs : List Byte) (m : Memory) (a c : Nat) (h : c < a ∨ a + bs.length ≤ c) :
    (m.writeBytes a bs).read c = m.read c := by
  induction bs generalizing m a with
  | nil => rfl
  | cons b bs ih =>
    simp only [List.length_cons] at h
    refine (ih (m.write a b) (a + 1) (by omega)).trans (read_write_ne m a c b (by omega))

/-- Bytes written together read back. -/
theorem readBytes_writeBytes (bs : List Byte) (m : Memory) (a : Nat) : (m.writeBytes a bs).readBytes a bs.length = bs := by
  induction bs generalizing m a with
  | nil => rfl
  | cons b bs ih =>
    show ((m.write a b).writeBytes (a + 1) bs).read a :: _ = b :: bs
    rw [read_writeBytes_out bs (m.write a b) (a + 1) a (by omega), read_write_same]
    exact congrArg (List.cons b) (ih (m.write a b) (a + 1))

/-- Bytes below those written read as before. -/
theorem readBytes_writeBytes_below (bs : List Byte) (m : Memory) (a c n : Nat) (h : c + n ≤ a) :
    (m.writeBytes a bs).readBytes c n = m.readBytes c n := by
  induction n generalizing c with
  | zero => rfl
  | succ n ih =>
    show (m.writeBytes a bs).read c :: _ = m.read c :: _
    rw [read_writeBytes_out bs m a c (by omega)]
    exact congrArg (List.cons _) (ih (c + 1) (by omega))

end Memory

end Sys2Proof.Machine
end

