-- ==== Sys2Proof/Laws/State.lean ====
section
/-! SUPPORT. Updates of the state: what each leaves alone, field by field, and what is read where it wrote. -/

namespace Sys2Proof.Machine

@[simp] theorem State.ctx_setCtx (s : State) (n : Nat) (x : Ctx) : (s.setCtx n x).ctx n = x := aget_aput_same _ _ _ _

theorem State.ctx_setCtx_ne (s : State) (n m : Nat) (x : Ctx) (h : m ≠ n) : (s.setCtx n x).ctx m = s.ctx m :=
  aget_aput_ne _ _ _ _ _ h

@[simp] theorem State.setCtx_cores (s : State) (n : Nat) (x : Ctx) : (s.setCtx n x).cores = s.cores := rfl
@[simp] theorem State.setCtx_clusters (s : State) (n : Nat) (x : Ctx) : (s.setCtx n x).clusters = s.clusters := rfl
@[simp] theorem State.setCtx_dies (s : State) (n : Nat) (x : Ctx) : (s.setCtx n x).dies = s.dies := rfl
@[simp] theorem State.setCtx_pods (s : State) (n : Nat) (x : Ctx) : (s.setCtx n x).pods = s.pods := rfl
@[simp] theorem State.setCtx_vfs (s : State) (n : Nat) (x : Ctx) : (s.setCtx n x).vfs = s.vfs := rfl
@[simp] theorem State.setCtx_groups (s : State) (n : Nat) (x : Ctx) : (s.setCtx n x).groups = s.groups := rfl
@[simp] theorem State.setCtx_mem (s : State) (n : Nat) (x : Ctx) : (s.setCtx n x).mem = s.mem := rfl
@[simp] theorem State.setCtx_clean (s : State) (n : Nat) (x : Ctx) : (s.setCtx n x).clean = s.clean := rfl
@[simp] theorem State.setCtx_poison (s : State) (n : Nat) (x : Ctx) : (s.setCtx n x).poison = s.poison := rfl
@[simp] theorem State.setCtx_refTime (s : State) (n : Nat) (x : Ctx) : (s.setCtx n x).refTime = s.refTime := rfl
@[simp] theorem State.setCtx_bring (s : State) (n : Nat) (x : Ctx) : (s.setCtx n x).bring = s.bring := rfl
@[simp] theorem State.setCtx_ready (s : State) (n : Nat) (x : Ctx) : (s.setCtx n x).ready = s.ready := rfl
@[simp] theorem State.setCtx_failStep (s : State) (n : Nat) (x : Ctx) : (s.setCtx n x).failStep = s.failStep := rfl
@[simp] theorem State.setCtx_powered (s : State) (n : Nat) (x : Ctx) : (s.setCtx n x).powered = s.powered := rfl
@[simp] theorem State.setCtx_faultCode (s : State) (n : Nat) (x : Ctx) : (s.setCtx n x).faultCode = s.faultCode := rfl
@[simp] theorem State.setCtx_chip (s : State) (n : Nat) (x : Ctx) : (s.setCtx n x).chip = s.chip := rfl
@[simp] theorem State.setCtx_pwrcap (s : State) (n : Nat) (x : Ctx) : (s.setCtx n x).pwrcap = s.pwrcap := rfl
@[simp] theorem State.setCtx_scrubh (s : State) (n : Nat) (x : Ctx) : (s.setCtx n x).scrubh = s.scrubh := rfl
@[simp] theorem State.setCtx_arbiterAt (s : State) (n : Nat) (x : Ctx) : (s.setCtx n x).arbiterAt = s.arbiterAt := rfl
@[simp] theorem State.setCtx_i3c (s : State) (n : Nat) (x : Ctx) : (s.setCtx n x).i3c = s.i3c := rfl
@[simp] theorem State.setCtx_sensors (s : State) (n : Nat) (x : Ctx) : (s.setCtx n x).sensors = s.sensors := rfl
@[simp] theorem State.setCtx_queues (s : State) (n : Nat) (x : Ctx) : (s.setCtx n x).queues = s.queues := rfl
@[simp] theorem State.setCtx_rrQueue (s : State) (n : Nat) (x : Ctx) : (s.setCtx n x).rrQueue = s.rrQueue := rfl
@[simp] theorem State.setCtx_errlog (s : State) (n : Nat) (x : Ctx) : (s.setCtx n x).errlog = s.errlog := rfl
@[simp] theorem State.setCtx_history (s : State) (n : Nat) (x : Ctx) : (s.setCtx n x).history = s.history := rfl
@[simp] theorem State.setCtx_ivals (s : State) (n : Nat) (x : Ctx) : (s.setCtx n x).ivals = s.ivals := rfl
@[simp] theorem State.setCtx_ports (s : State) (n : Nat) (x : Ctx) : (s.setCtx n x).ports = s.ports := rfl
@[simp] theorem State.setCtx_dropped (s : State) (n : Nat) (x : Ctx) : (s.setCtx n x).dropped = s.dropped := rfl
@[simp] theorem State.setCtx_marks (s : State) (n : Nat) (x : Ctx) : (s.setCtx n x).marks = s.marks := rfl
@[simp] theorem State.setCtx_rid (s : State) (n : Nat) (x : Ctx) : (s.setCtx n x).rid = s.rid := rfl
@[simp] theorem State.setCtx_echoes (s : State) (n : Nat) (x : Ctx) : (s.setCtx n x).echoes = s.echoes := rfl
@[simp] theorem State.setCtx_performed (s : State) (n : Nat) (x : Ctx) : (s.setCtx n x).performed = s.performed := rfl
@[simp] theorem State.setCtx_colls (s : State) (n : Nat) (x : Ctx) : (s.setCtx n x).colls = s.colls := rfl
@[simp] theorem State.setCtx_ticket (s : State) (n : Nat) (x : Ctx) : (s.setCtx n x).ticket = s.ticket := rfl
@[simp] theorem State.setCtx_ticketQueue (s : State) (n : Nat) (x : Ctx) : (s.setCtx n x).ticketQueue = s.ticketQueue := rfl
@[simp] theorem State.setCtx_spdm (s : State) (n : Nat) (x : Ctx) : (s.setCtx n x).spdm = s.spdm := rfl
@[simp] theorem State.setCtx_ide (s : State) (n : Nat) (x : Ctx) : (s.setCtx n x).ide = s.ide := rfl
@[simp] theorem State.setCtx_retraining (s : State) (n : Nat) (x : Ctx) : (s.setCtx n x).retraining = s.retraining := rfl
@[simp] theorem State.setCtx_scrubs (s : State) (n : Nat) (x : Ctx) : (s.setCtx n x).scrubs = s.scrubs := rfl
@[simp] theorem State.setCtx_hostMem (s : State) (n : Nat) (x : Ctx) : (s.setCtx n x).hostMem = s.hostMem := rfl
@[simp] theorem State.setCtx_agenda (s : State) (n : Nat) (x : Ctx) : (s.setCtx n x).agenda = s.agenda := rfl
@[simp] theorem State.setCtx_cur (s : State) (n : Nat) (x : Ctx) : (s.setCtx n x).cur = s.cur := rfl
@[simp] theorem State.setCtx_moment (s : State) (n : Nat) (x : Ctx) : (s.setCtx n x).moment = s.moment := rfl
@[simp] theorem State.setCtx_reserveAt (s : State) (n : Nat) (x : Ctx) : (s.setCtx n x).reserveAt = s.reserveAt := rfl
@[simp] theorem State.core_setCtx (s : State) (n m : Nat) (x : Ctx) : (s.setCtx n x).core m = s.core m := rfl
@[simp] theorem State.cluster_setCtx (s : State) (n m : Nat) (x : Ctx) : (s.setCtx n x).cluster m = s.cluster m := rfl
@[simp] theorem State.pod_setCtx (s : State) (n m : Nat) (x : Ctx) : (s.setCtx n x).pod m = s.pod m := rfl
@[simp] theorem State.vf_setCtx (s : State) (n m : Nat) (x : Ctx) : (s.setCtx n x).vf m = s.vf m := rfl
@[simp] theorem State.group_setCtx (s : State) (n m : Nat) (x : Ctx) : (s.setCtx n x).group m = s.group m := rfl
@[simp] theorem State.queue_setCtx (s : State) (n m : Nat) (x : Ctx) : (s.setCtx n x).queue m = s.queue m := rfl
@[simp] theorem State.port_setCtx (s : State) (n m : Nat) (x : Ctx) : (s.setCtx n x).port m = s.port m := rfl
@[simp] theorem State.die_setCtx (s : State) (n m : Nat) (x : Ctx) : (s.setCtx n x).die m = s.die m := rfl

@[simp] theorem State.core_setCore (s : State) (n : Nat) (x : Core) : (s.setCore n x).core n = x := aget_aput_same _ _ _ _

theorem State.core_setCore_ne (s : State) (n m : Nat) (x : Core) (h : m ≠ n) : (s.setCore n x).core m = s.core m :=
  aget_aput_ne _ _ _ _ _ h

@[simp] theorem State.setCore_ctxs (s : State) (n : Nat) (x : Core) : (s.setCore n x).ctxs = s.ctxs := rfl
@[simp] theorem State.setCore_clusters (s : State) (n : Nat) (x : Core) : (s.setCore n x).clusters = s.clusters := rfl
@[simp] theorem State.setCore_dies (s : State) (n : Nat) (x : Core) : (s.setCore n x).dies = s.dies := rfl
@[simp] theorem State.setCore_pods (s : State) (n : Nat) (x : Core) : (s.setCore n x).pods = s.pods := rfl
@[simp] theorem State.setCore_vfs (s : State) (n : Nat) (x : Core) : (s.setCore n x).vfs = s.vfs := rfl
@[simp] theorem State.setCore_groups (s : State) (n : Nat) (x : Core) : (s.setCore n x).groups = s.groups := rfl
@[simp] theorem State.setCore_mem (s : State) (n : Nat) (x : Core) : (s.setCore n x).mem = s.mem := rfl
@[simp] theorem State.setCore_clean (s : State) (n : Nat) (x : Core) : (s.setCore n x).clean = s.clean := rfl
@[simp] theorem State.setCore_poison (s : State) (n : Nat) (x : Core) : (s.setCore n x).poison = s.poison := rfl
@[simp] theorem State.setCore_refTime (s : State) (n : Nat) (x : Core) : (s.setCore n x).refTime = s.refTime := rfl
@[simp] theorem State.setCore_bring (s : State) (n : Nat) (x : Core) : (s.setCore n x).bring = s.bring := rfl
@[simp] theorem State.setCore_ready (s : State) (n : Nat) (x : Core) : (s.setCore n x).ready = s.ready := rfl
@[simp] theorem State.setCore_failStep (s : State) (n : Nat) (x : Core) : (s.setCore n x).failStep = s.failStep := rfl
@[simp] theorem State.setCore_powered (s : State) (n : Nat) (x : Core) : (s.setCore n x).powered = s.powered := rfl
@[simp] theorem State.setCore_faultCode (s : State) (n : Nat) (x : Core) : (s.setCore n x).faultCode = s.faultCode := rfl
@[simp] theorem State.setCore_chip (s : State) (n : Nat) (x : Core) : (s.setCore n x).chip = s.chip := rfl
@[simp] theorem State.setCore_pwrcap (s : State) (n : Nat) (x : Core) : (s.setCore n x).pwrcap = s.pwrcap := rfl
@[simp] theorem State.setCore_scrubh (s : State) (n : Nat) (x : Core) : (s.setCore n x).scrubh = s.scrubh := rfl
@[simp] theorem State.setCore_arbiterAt (s : State) (n : Nat) (x : Core) : (s.setCore n x).arbiterAt = s.arbiterAt := rfl
@[simp] theorem State.setCore_i3c (s : State) (n : Nat) (x : Core) : (s.setCore n x).i3c = s.i3c := rfl
@[simp] theorem State.setCore_sensors (s : State) (n : Nat) (x : Core) : (s.setCore n x).sensors = s.sensors := rfl
@[simp] theorem State.setCore_queues (s : State) (n : Nat) (x : Core) : (s.setCore n x).queues = s.queues := rfl
@[simp] theorem State.setCore_rrQueue (s : State) (n : Nat) (x : Core) : (s.setCore n x).rrQueue = s.rrQueue := rfl
@[simp] theorem State.setCore_errlog (s : State) (n : Nat) (x : Core) : (s.setCore n x).errlog = s.errlog := rfl
@[simp] theorem State.setCore_history (s : State) (n : Nat) (x : Core) : (s.setCore n x).history = s.history := rfl
@[simp] theorem State.setCore_ivals (s : State) (n : Nat) (x : Core) : (s.setCore n x).ivals = s.ivals := rfl
@[simp] theorem State.setCore_ports (s : State) (n : Nat) (x : Core) : (s.setCore n x).ports = s.ports := rfl
@[simp] theorem State.setCore_dropped (s : State) (n : Nat) (x : Core) : (s.setCore n x).dropped = s.dropped := rfl
@[simp] theorem State.setCore_marks (s : State) (n : Nat) (x : Core) : (s.setCore n x).marks = s.marks := rfl
@[simp] theorem State.setCore_rid (s : State) (n : Nat) (x : Core) : (s.setCore n x).rid = s.rid := rfl
@[simp] theorem State.setCore_echoes (s : State) (n : Nat) (x : Core) : (s.setCore n x).echoes = s.echoes := rfl
@[simp] theorem State.setCore_performed (s : State) (n : Nat) (x : Core) : (s.setCore n x).performed = s.performed := rfl
@[simp] theorem State.setCore_colls (s : State) (n : Nat) (x : Core) : (s.setCore n x).colls = s.colls := rfl
@[simp] theorem State.setCore_ticket (s : State) (n : Nat) (x : Core) : (s.setCore n x).ticket = s.ticket := rfl
@[simp] theorem State.setCore_ticketQueue (s : State) (n : Nat) (x : Core) : (s.setCore n x).ticketQueue = s.ticketQueue := rfl
@[simp] theorem State.setCore_spdm (s : State) (n : Nat) (x : Core) : (s.setCore n x).spdm = s.spdm := rfl
@[simp] theorem State.setCore_ide (s : State) (n : Nat) (x : Core) : (s.setCore n x).ide = s.ide := rfl
@[simp] theorem State.setCore_retraining (s : State) (n : Nat) (x : Core) : (s.setCore n x).retraining = s.retraining := rfl
@[simp] theorem State.setCore_scrubs (s : State) (n : Nat) (x : Core) : (s.setCore n x).scrubs = s.scrubs := rfl
@[simp] theorem State.setCore_hostMem (s : State) (n : Nat) (x : Core) : (s.setCore n x).hostMem = s.hostMem := rfl
@[simp] theorem State.setCore_agenda (s : State) (n : Nat) (x : Core) : (s.setCore n x).agenda = s.agenda := rfl
@[simp] theorem State.setCore_cur (s : State) (n : Nat) (x : Core) : (s.setCore n x).cur = s.cur := rfl
@[simp] theorem State.setCore_moment (s : State) (n : Nat) (x : Core) : (s.setCore n x).moment = s.moment := rfl
@[simp] theorem State.setCore_reserveAt (s : State) (n : Nat) (x : Core) : (s.setCore n x).reserveAt = s.reserveAt := rfl
@[simp] theorem State.ctx_setCore (s : State) (n m : Nat) (x : Core) : (s.setCore n x).ctx m = s.ctx m := rfl
@[simp] theorem State.cluster_setCore (s : State) (n m : Nat) (x : Core) : (s.setCore n x).cluster m = s.cluster m := rfl
@[simp] theorem State.pod_setCore (s : State) (n m : Nat) (x : Core) : (s.setCore n x).pod m = s.pod m := rfl
@[simp] theorem State.vf_setCore (s : State) (n m : Nat) (x : Core) : (s.setCore n x).vf m = s.vf m := rfl
@[simp] theorem State.group_setCore (s : State) (n m : Nat) (x : Core) : (s.setCore n x).group m = s.group m := rfl
@[simp] theorem State.queue_setCore (s : State) (n m : Nat) (x : Core) : (s.setCore n x).queue m = s.queue m := rfl
@[simp] theorem State.port_setCore (s : State) (n m : Nat) (x : Core) : (s.setCore n x).port m = s.port m := rfl
@[simp] theorem State.die_setCore (s : State) (n m : Nat) (x : Core) : (s.setCore n x).die m = s.die m := rfl

@[simp] theorem State.cluster_setCluster (s : State) (n : Nat) (x : Cluster) : (s.setCluster n x).cluster n = x := aget_aput_same _ _ _ _

theorem State.cluster_setCluster_ne (s : State) (n m : Nat) (x : Cluster) (h : m ≠ n) : (s.setCluster n x).cluster m = s.cluster m :=
  aget_aput_ne _ _ _ _ _ h

@[simp] theorem State.setCluster_ctxs (s : State) (n : Nat) (x : Cluster) : (s.setCluster n x).ctxs = s.ctxs := rfl
@[simp] theorem State.setCluster_cores (s : State) (n : Nat) (x : Cluster) : (s.setCluster n x).cores = s.cores := rfl
@[simp] theorem State.setCluster_dies (s : State) (n : Nat) (x : Cluster) : (s.setCluster n x).dies = s.dies := rfl
@[simp] theorem State.setCluster_pods (s : State) (n : Nat) (x : Cluster) : (s.setCluster n x).pods = s.pods := rfl
@[simp] theorem State.setCluster_vfs (s : State) (n : Nat) (x : Cluster) : (s.setCluster n x).vfs = s.vfs := rfl
@[simp] theorem State.setCluster_groups (s : State) (n : Nat) (x : Cluster) : (s.setCluster n x).groups = s.groups := rfl
@[simp] theorem State.setCluster_mem (s : State) (n : Nat) (x : Cluster) : (s.setCluster n x).mem = s.mem := rfl
@[simp] theorem State.setCluster_clean (s : State) (n : Nat) (x : Cluster) : (s.setCluster n x).clean = s.clean := rfl
@[simp] theorem State.setCluster_poison (s : State) (n : Nat) (x : Cluster) : (s.setCluster n x).poison = s.poison := rfl
@[simp] theorem State.setCluster_refTime (s : State) (n : Nat) (x : Cluster) : (s.setCluster n x).refTime = s.refTime := rfl
@[simp] theorem State.setCluster_bring (s : State) (n : Nat) (x : Cluster) : (s.setCluster n x).bring = s.bring := rfl
@[simp] theorem State.setCluster_ready (s : State) (n : Nat) (x : Cluster) : (s.setCluster n x).ready = s.ready := rfl
@[simp] theorem State.setCluster_failStep (s : State) (n : Nat) (x : Cluster) : (s.setCluster n x).failStep = s.failStep := rfl
@[simp] theorem State.setCluster_powered (s : State) (n : Nat) (x : Cluster) : (s.setCluster n x).powered = s.powered := rfl
@[simp] theorem State.setCluster_faultCode (s : State) (n : Nat) (x : Cluster) : (s.setCluster n x).faultCode = s.faultCode := rfl
@[simp] theorem State.setCluster_chip (s : State) (n : Nat) (x : Cluster) : (s.setCluster n x).chip = s.chip := rfl
@[simp] theorem State.setCluster_pwrcap (s : State) (n : Nat) (x : Cluster) : (s.setCluster n x).pwrcap = s.pwrcap := rfl
@[simp] theorem State.setCluster_scrubh (s : State) (n : Nat) (x : Cluster) : (s.setCluster n x).scrubh = s.scrubh := rfl
@[simp] theorem State.setCluster_arbiterAt (s : State) (n : Nat) (x : Cluster) : (s.setCluster n x).arbiterAt = s.arbiterAt := rfl
@[simp] theorem State.setCluster_i3c (s : State) (n : Nat) (x : Cluster) : (s.setCluster n x).i3c = s.i3c := rfl
@[simp] theorem State.setCluster_sensors (s : State) (n : Nat) (x : Cluster) : (s.setCluster n x).sensors = s.sensors := rfl
@[simp] theorem State.setCluster_queues (s : State) (n : Nat) (x : Cluster) : (s.setCluster n x).queues = s.queues := rfl
@[simp] theorem State.setCluster_rrQueue (s : State) (n : Nat) (x : Cluster) : (s.setCluster n x).rrQueue = s.rrQueue := rfl
@[simp] theorem State.setCluster_errlog (s : State) (n : Nat) (x : Cluster) : (s.setCluster n x).errlog = s.errlog := rfl
@[simp] theorem State.setCluster_history (s : State) (n : Nat) (x : Cluster) : (s.setCluster n x).history = s.history := rfl
@[simp] theorem State.setCluster_ivals (s : State) (n : Nat) (x : Cluster) : (s.setCluster n x).ivals = s.ivals := rfl
@[simp] theorem State.setCluster_ports (s : State) (n : Nat) (x : Cluster) : (s.setCluster n x).ports = s.ports := rfl
@[simp] theorem State.setCluster_dropped (s : State) (n : Nat) (x : Cluster) : (s.setCluster n x).dropped = s.dropped := rfl
@[simp] theorem State.setCluster_marks (s : State) (n : Nat) (x : Cluster) : (s.setCluster n x).marks = s.marks := rfl
@[simp] theorem State.setCluster_rid (s : State) (n : Nat) (x : Cluster) : (s.setCluster n x).rid = s.rid := rfl
@[simp] theorem State.setCluster_echoes (s : State) (n : Nat) (x : Cluster) : (s.setCluster n x).echoes = s.echoes := rfl
@[simp] theorem State.setCluster_performed (s : State) (n : Nat) (x : Cluster) : (s.setCluster n x).performed = s.performed := rfl
@[simp] theorem State.setCluster_colls (s : State) (n : Nat) (x : Cluster) : (s.setCluster n x).colls = s.colls := rfl
@[simp] theorem State.setCluster_ticket (s : State) (n : Nat) (x : Cluster) : (s.setCluster n x).ticket = s.ticket := rfl
@[simp] theorem State.setCluster_ticketQueue (s : State) (n : Nat) (x : Cluster) : (s.setCluster n x).ticketQueue = s.ticketQueue := rfl
@[simp] theorem State.setCluster_spdm (s : State) (n : Nat) (x : Cluster) : (s.setCluster n x).spdm = s.spdm := rfl
@[simp] theorem State.setCluster_ide (s : State) (n : Nat) (x : Cluster) : (s.setCluster n x).ide = s.ide := rfl
@[simp] theorem State.setCluster_retraining (s : State) (n : Nat) (x : Cluster) : (s.setCluster n x).retraining = s.retraining := rfl
@[simp] theorem State.setCluster_scrubs (s : State) (n : Nat) (x : Cluster) : (s.setCluster n x).scrubs = s.scrubs := rfl
@[simp] theorem State.setCluster_hostMem (s : State) (n : Nat) (x : Cluster) : (s.setCluster n x).hostMem = s.hostMem := rfl
@[simp] theorem State.setCluster_agenda (s : State) (n : Nat) (x : Cluster) : (s.setCluster n x).agenda = s.agenda := rfl
@[simp] theorem State.setCluster_cur (s : State) (n : Nat) (x : Cluster) : (s.setCluster n x).cur = s.cur := rfl
@[simp] theorem State.setCluster_moment (s : State) (n : Nat) (x : Cluster) : (s.setCluster n x).moment = s.moment := rfl
@[simp] theorem State.setCluster_reserveAt (s : State) (n : Nat) (x : Cluster) : (s.setCluster n x).reserveAt = s.reserveAt := rfl
@[simp] theorem State.ctx_setCluster (s : State) (n m : Nat) (x : Cluster) : (s.setCluster n x).ctx m = s.ctx m := rfl
@[simp] theorem State.core_setCluster (s : State) (n m : Nat) (x : Cluster) : (s.setCluster n x).core m = s.core m := rfl
@[simp] theorem State.pod_setCluster (s : State) (n m : Nat) (x : Cluster) : (s.setCluster n x).pod m = s.pod m := rfl
@[simp] theorem State.vf_setCluster (s : State) (n m : Nat) (x : Cluster) : (s.setCluster n x).vf m = s.vf m := rfl
@[simp] theorem State.group_setCluster (s : State) (n m : Nat) (x : Cluster) : (s.setCluster n x).group m = s.group m := rfl
@[simp] theorem State.queue_setCluster (s : State) (n m : Nat) (x : Cluster) : (s.setCluster n x).queue m = s.queue m := rfl
@[simp] theorem State.port_setCluster (s : State) (n m : Nat) (x : Cluster) : (s.setCluster n x).port m = s.port m := rfl
@[simp] theorem State.die_setCluster (s : State) (n m : Nat) (x : Cluster) : (s.setCluster n x).die m = s.die m := rfl

@[simp] theorem State.pod_setPod (s : State) (n : Nat) (x : Pod) : (s.setPod n x).pod n = x := aget_aput_same _ _ _ _

theorem State.pod_setPod_ne (s : State) (n m : Nat) (x : Pod) (h : m ≠ n) : (s.setPod n x).pod m = s.pod m :=
  aget_aput_ne _ _ _ _ _ h

@[simp] theorem State.setPod_ctxs (s : State) (n : Nat) (x : Pod) : (s.setPod n x).ctxs = s.ctxs := rfl
@[simp] theorem State.setPod_cores (s : State) (n : Nat) (x : Pod) : (s.setPod n x).cores = s.cores := rfl
@[simp] theorem State.setPod_clusters (s : State) (n : Nat) (x : Pod) : (s.setPod n x).clusters = s.clusters := rfl
@[simp] theorem State.setPod_dies (s : State) (n : Nat) (x : Pod) : (s.setPod n x).dies = s.dies := rfl
@[simp] theorem State.setPod_vfs (s : State) (n : Nat) (x : Pod) : (s.setPod n x).vfs = s.vfs := rfl
@[simp] theorem State.setPod_groups (s : State) (n : Nat) (x : Pod) : (s.setPod n x).groups = s.groups := rfl
@[simp] theorem State.setPod_mem (s : State) (n : Nat) (x : Pod) : (s.setPod n x).mem = s.mem := rfl
@[simp] theorem State.setPod_clean (s : State) (n : Nat) (x : Pod) : (s.setPod n x).clean = s.clean := rfl
@[simp] theorem State.setPod_poison (s : State) (n : Nat) (x : Pod) : (s.setPod n x).poison = s.poison := rfl
@[simp] theorem State.setPod_refTime (s : State) (n : Nat) (x : Pod) : (s.setPod n x).refTime = s.refTime := rfl
@[simp] theorem State.setPod_bring (s : State) (n : Nat) (x : Pod) : (s.setPod n x).bring = s.bring := rfl
@[simp] theorem State.setPod_ready (s : State) (n : Nat) (x : Pod) : (s.setPod n x).ready = s.ready := rfl
@[simp] theorem State.setPod_failStep (s : State) (n : Nat) (x : Pod) : (s.setPod n x).failStep = s.failStep := rfl
@[simp] theorem State.setPod_powered (s : State) (n : Nat) (x : Pod) : (s.setPod n x).powered = s.powered := rfl
@[simp] theorem State.setPod_faultCode (s : State) (n : Nat) (x : Pod) : (s.setPod n x).faultCode = s.faultCode := rfl
@[simp] theorem State.setPod_chip (s : State) (n : Nat) (x : Pod) : (s.setPod n x).chip = s.chip := rfl
@[simp] theorem State.setPod_pwrcap (s : State) (n : Nat) (x : Pod) : (s.setPod n x).pwrcap = s.pwrcap := rfl
@[simp] theorem State.setPod_scrubh (s : State) (n : Nat) (x : Pod) : (s.setPod n x).scrubh = s.scrubh := rfl
@[simp] theorem State.setPod_arbiterAt (s : State) (n : Nat) (x : Pod) : (s.setPod n x).arbiterAt = s.arbiterAt := rfl
@[simp] theorem State.setPod_i3c (s : State) (n : Nat) (x : Pod) : (s.setPod n x).i3c = s.i3c := rfl
@[simp] theorem State.setPod_sensors (s : State) (n : Nat) (x : Pod) : (s.setPod n x).sensors = s.sensors := rfl
@[simp] theorem State.setPod_queues (s : State) (n : Nat) (x : Pod) : (s.setPod n x).queues = s.queues := rfl
@[simp] theorem State.setPod_rrQueue (s : State) (n : Nat) (x : Pod) : (s.setPod n x).rrQueue = s.rrQueue := rfl
@[simp] theorem State.setPod_errlog (s : State) (n : Nat) (x : Pod) : (s.setPod n x).errlog = s.errlog := rfl
@[simp] theorem State.setPod_history (s : State) (n : Nat) (x : Pod) : (s.setPod n x).history = s.history := rfl
@[simp] theorem State.setPod_ivals (s : State) (n : Nat) (x : Pod) : (s.setPod n x).ivals = s.ivals := rfl
@[simp] theorem State.setPod_ports (s : State) (n : Nat) (x : Pod) : (s.setPod n x).ports = s.ports := rfl
@[simp] theorem State.setPod_dropped (s : State) (n : Nat) (x : Pod) : (s.setPod n x).dropped = s.dropped := rfl
@[simp] theorem State.setPod_marks (s : State) (n : Nat) (x : Pod) : (s.setPod n x).marks = s.marks := rfl
@[simp] theorem State.setPod_rid (s : State) (n : Nat) (x : Pod) : (s.setPod n x).rid = s.rid := rfl
@[simp] theorem State.setPod_echoes (s : State) (n : Nat) (x : Pod) : (s.setPod n x).echoes = s.echoes := rfl
@[simp] theorem State.setPod_performed (s : State) (n : Nat) (x : Pod) : (s.setPod n x).performed = s.performed := rfl
@[simp] theorem State.setPod_colls (s : State) (n : Nat) (x : Pod) : (s.setPod n x).colls = s.colls := rfl
@[simp] theorem State.setPod_ticket (s : State) (n : Nat) (x : Pod) : (s.setPod n x).ticket = s.ticket := rfl
@[simp] theorem State.setPod_ticketQueue (s : State) (n : Nat) (x : Pod) : (s.setPod n x).ticketQueue = s.ticketQueue := rfl
@[simp] theorem State.setPod_spdm (s : State) (n : Nat) (x : Pod) : (s.setPod n x).spdm = s.spdm := rfl
@[simp] theorem State.setPod_ide (s : State) (n : Nat) (x : Pod) : (s.setPod n x).ide = s.ide := rfl
@[simp] theorem State.setPod_retraining (s : State) (n : Nat) (x : Pod) : (s.setPod n x).retraining = s.retraining := rfl
@[simp] theorem State.setPod_scrubs (s : State) (n : Nat) (x : Pod) : (s.setPod n x).scrubs = s.scrubs := rfl
@[simp] theorem State.setPod_hostMem (s : State) (n : Nat) (x : Pod) : (s.setPod n x).hostMem = s.hostMem := rfl
@[simp] theorem State.setPod_agenda (s : State) (n : Nat) (x : Pod) : (s.setPod n x).agenda = s.agenda := rfl
@[simp] theorem State.setPod_cur (s : State) (n : Nat) (x : Pod) : (s.setPod n x).cur = s.cur := rfl
@[simp] theorem State.setPod_moment (s : State) (n : Nat) (x : Pod) : (s.setPod n x).moment = s.moment := rfl
@[simp] theorem State.setPod_reserveAt (s : State) (n : Nat) (x : Pod) : (s.setPod n x).reserveAt = s.reserveAt := rfl
@[simp] theorem State.ctx_setPod (s : State) (n m : Nat) (x : Pod) : (s.setPod n x).ctx m = s.ctx m := rfl
@[simp] theorem State.core_setPod (s : State) (n m : Nat) (x : Pod) : (s.setPod n x).core m = s.core m := rfl
@[simp] theorem State.cluster_setPod (s : State) (n m : Nat) (x : Pod) : (s.setPod n x).cluster m = s.cluster m := rfl
@[simp] theorem State.vf_setPod (s : State) (n m : Nat) (x : Pod) : (s.setPod n x).vf m = s.vf m := rfl
@[simp] theorem State.group_setPod (s : State) (n m : Nat) (x : Pod) : (s.setPod n x).group m = s.group m := rfl
@[simp] theorem State.queue_setPod (s : State) (n m : Nat) (x : Pod) : (s.setPod n x).queue m = s.queue m := rfl
@[simp] theorem State.port_setPod (s : State) (n m : Nat) (x : Pod) : (s.setPod n x).port m = s.port m := rfl
@[simp] theorem State.die_setPod (s : State) (n m : Nat) (x : Pod) : (s.setPod n x).die m = s.die m := rfl

@[simp] theorem State.vf_setVf (s : State) (n : Nat) (x : Vf) : (s.setVf n x).vf n = x := aget_aput_same _ _ _ _

theorem State.vf_setVf_ne (s : State) (n m : Nat) (x : Vf) (h : m ≠ n) : (s.setVf n x).vf m = s.vf m :=
  aget_aput_ne _ _ _ _ _ h

@[simp] theorem State.setVf_ctxs (s : State) (n : Nat) (x : Vf) : (s.setVf n x).ctxs = s.ctxs := rfl
@[simp] theorem State.setVf_cores (s : State) (n : Nat) (x : Vf) : (s.setVf n x).cores = s.cores := rfl
@[simp] theorem State.setVf_clusters (s : State) (n : Nat) (x : Vf) : (s.setVf n x).clusters = s.clusters := rfl
@[simp] theorem State.setVf_dies (s : State) (n : Nat) (x : Vf) : (s.setVf n x).dies = s.dies := rfl
@[simp] theorem State.setVf_pods (s : State) (n : Nat) (x : Vf) : (s.setVf n x).pods = s.pods := rfl
@[simp] theorem State.setVf_groups (s : State) (n : Nat) (x : Vf) : (s.setVf n x).groups = s.groups := rfl
@[simp] theorem State.setVf_mem (s : State) (n : Nat) (x : Vf) : (s.setVf n x).mem = s.mem := rfl
@[simp] theorem State.setVf_clean (s : State) (n : Nat) (x : Vf) : (s.setVf n x).clean = s.clean := rfl
@[simp] theorem State.setVf_poison (s : State) (n : Nat) (x : Vf) : (s.setVf n x).poison = s.poison := rfl
@[simp] theorem State.setVf_refTime (s : State) (n : Nat) (x : Vf) : (s.setVf n x).refTime = s.refTime := rfl
@[simp] theorem State.setVf_bring (s : State) (n : Nat) (x : Vf) : (s.setVf n x).bring = s.bring := rfl
@[simp] theorem State.setVf_ready (s : State) (n : Nat) (x : Vf) : (s.setVf n x).ready = s.ready := rfl
@[simp] theorem State.setVf_failStep (s : State) (n : Nat) (x : Vf) : (s.setVf n x).failStep = s.failStep := rfl
@[simp] theorem State.setVf_powered (s : State) (n : Nat) (x : Vf) : (s.setVf n x).powered = s.powered := rfl
@[simp] theorem State.setVf_faultCode (s : State) (n : Nat) (x : Vf) : (s.setVf n x).faultCode = s.faultCode := rfl
@[simp] theorem State.setVf_chip (s : State) (n : Nat) (x : Vf) : (s.setVf n x).chip = s.chip := rfl
@[simp] theorem State.setVf_pwrcap (s : State) (n : Nat) (x : Vf) : (s.setVf n x).pwrcap = s.pwrcap := rfl
@[simp] theorem State.setVf_scrubh (s : State) (n : Nat) (x : Vf) : (s.setVf n x).scrubh = s.scrubh := rfl
@[simp] theorem State.setVf_arbiterAt (s : State) (n : Nat) (x : Vf) : (s.setVf n x).arbiterAt = s.arbiterAt := rfl
@[simp] theorem State.setVf_i3c (s : State) (n : Nat) (x : Vf) : (s.setVf n x).i3c = s.i3c := rfl
@[simp] theorem State.setVf_sensors (s : State) (n : Nat) (x : Vf) : (s.setVf n x).sensors = s.sensors := rfl
@[simp] theorem State.setVf_queues (s : State) (n : Nat) (x : Vf) : (s.setVf n x).queues = s.queues := rfl
@[simp] theorem State.setVf_rrQueue (s : State) (n : Nat) (x : Vf) : (s.setVf n x).rrQueue = s.rrQueue := rfl
@[simp] theorem State.setVf_errlog (s : State) (n : Nat) (x : Vf) : (s.setVf n x).errlog = s.errlog := rfl
@[simp] theorem State.setVf_history (s : State) (n : Nat) (x : Vf) : (s.setVf n x).history = s.history := rfl
@[simp] theorem State.setVf_ivals (s : State) (n : Nat) (x : Vf) : (s.setVf n x).ivals = s.ivals := rfl
@[simp] theorem State.setVf_ports (s : State) (n : Nat) (x : Vf) : (s.setVf n x).ports = s.ports := rfl
@[simp] theorem State.setVf_dropped (s : State) (n : Nat) (x : Vf) : (s.setVf n x).dropped = s.dropped := rfl
@[simp] theorem State.setVf_marks (s : State) (n : Nat) (x : Vf) : (s.setVf n x).marks = s.marks := rfl
@[simp] theorem State.setVf_rid (s : State) (n : Nat) (x : Vf) : (s.setVf n x).rid = s.rid := rfl
@[simp] theorem State.setVf_echoes (s : State) (n : Nat) (x : Vf) : (s.setVf n x).echoes = s.echoes := rfl
@[simp] theorem State.setVf_performed (s : State) (n : Nat) (x : Vf) : (s.setVf n x).performed = s.performed := rfl
@[simp] theorem State.setVf_colls (s : State) (n : Nat) (x : Vf) : (s.setVf n x).colls = s.colls := rfl
@[simp] theorem State.setVf_ticket (s : State) (n : Nat) (x : Vf) : (s.setVf n x).ticket = s.ticket := rfl
@[simp] theorem State.setVf_ticketQueue (s : State) (n : Nat) (x : Vf) : (s.setVf n x).ticketQueue = s.ticketQueue := rfl
@[simp] theorem State.setVf_spdm (s : State) (n : Nat) (x : Vf) : (s.setVf n x).spdm = s.spdm := rfl
@[simp] theorem State.setVf_ide (s : State) (n : Nat) (x : Vf) : (s.setVf n x).ide = s.ide := rfl
@[simp] theorem State.setVf_retraining (s : State) (n : Nat) (x : Vf) : (s.setVf n x).retraining = s.retraining := rfl
@[simp] theorem State.setVf_scrubs (s : State) (n : Nat) (x : Vf) : (s.setVf n x).scrubs = s.scrubs := rfl
@[simp] theorem State.setVf_hostMem (s : State) (n : Nat) (x : Vf) : (s.setVf n x).hostMem = s.hostMem := rfl
@[simp] theorem State.setVf_agenda (s : State) (n : Nat) (x : Vf) : (s.setVf n x).agenda = s.agenda := rfl
@[simp] theorem State.setVf_cur (s : State) (n : Nat) (x : Vf) : (s.setVf n x).cur = s.cur := rfl
@[simp] theorem State.setVf_moment (s : State) (n : Nat) (x : Vf) : (s.setVf n x).moment = s.moment := rfl
@[simp] theorem State.setVf_reserveAt (s : State) (n : Nat) (x : Vf) : (s.setVf n x).reserveAt = s.reserveAt := rfl
@[simp] theorem State.ctx_setVf (s : State) (n m : Nat) (x : Vf) : (s.setVf n x).ctx m = s.ctx m := rfl
@[simp] theorem State.core_setVf (s : State) (n m : Nat) (x : Vf) : (s.setVf n x).core m = s.core m := rfl
@[simp] theorem State.cluster_setVf (s : State) (n m : Nat) (x : Vf) : (s.setVf n x).cluster m = s.cluster m := rfl
@[simp] theorem State.pod_setVf (s : State) (n m : Nat) (x : Vf) : (s.setVf n x).pod m = s.pod m := rfl
@[simp] theorem State.group_setVf (s : State) (n m : Nat) (x : Vf) : (s.setVf n x).group m = s.group m := rfl
@[simp] theorem State.queue_setVf (s : State) (n m : Nat) (x : Vf) : (s.setVf n x).queue m = s.queue m := rfl
@[simp] theorem State.port_setVf (s : State) (n m : Nat) (x : Vf) : (s.setVf n x).port m = s.port m := rfl
@[simp] theorem State.die_setVf (s : State) (n m : Nat) (x : Vf) : (s.setVf n x).die m = s.die m := rfl

@[simp] theorem State.group_setGroup (s : State) (n : Nat) (x : Group) : (s.setGroup n x).group n = x := aget_aput_same _ _ _ _

theorem State.group_setGroup_ne (s : State) (n m : Nat) (x : Group) (h : m ≠ n) : (s.setGroup n x).group m = s.group m :=
  aget_aput_ne _ _ _ _ _ h

@[simp] theorem State.setGroup_ctxs (s : State) (n : Nat) (x : Group) : (s.setGroup n x).ctxs = s.ctxs := rfl
@[simp] theorem State.setGroup_cores (s : State) (n : Nat) (x : Group) : (s.setGroup n x).cores = s.cores := rfl
@[simp] theorem State.setGroup_clusters (s : State) (n : Nat) (x : Group) : (s.setGroup n x).clusters = s.clusters := rfl
@[simp] theorem State.setGroup_dies (s : State) (n : Nat) (x : Group) : (s.setGroup n x).dies = s.dies := rfl
@[simp] theorem State.setGroup_pods (s : State) (n : Nat) (x : Group) : (s.setGroup n x).pods = s.pods := rfl
@[simp] theorem State.setGroup_vfs (s : State) (n : Nat) (x : Group) : (s.setGroup n x).vfs = s.vfs := rfl
@[simp] theorem State.setGroup_mem (s : State) (n : Nat) (x : Group) : (s.setGroup n x).mem = s.mem := rfl
@[simp] theorem State.setGroup_clean (s : State) (n : Nat) (x : Group) : (s.setGroup n x).clean = s.clean := rfl
@[simp] theorem State.setGroup_poison (s : State) (n : Nat) (x : Group) : (s.setGroup n x).poison = s.poison := rfl
@[simp] theorem State.setGroup_refTime (s : State) (n : Nat) (x : Group) : (s.setGroup n x).refTime = s.refTime := rfl
@[simp] theorem State.setGroup_bring (s : State) (n : Nat) (x : Group) : (s.setGroup n x).bring = s.bring := rfl
@[simp] theorem State.setGroup_ready (s : State) (n : Nat) (x : Group) : (s.setGroup n x).ready = s.ready := rfl
@[simp] theorem State.setGroup_failStep (s : State) (n : Nat) (x : Group) : (s.setGroup n x).failStep = s.failStep := rfl
@[simp] theorem State.setGroup_powered (s : State) (n : Nat) (x : Group) : (s.setGroup n x).powered = s.powered := rfl
@[simp] theorem State.setGroup_faultCode (s : State) (n : Nat) (x : Group) : (s.setGroup n x).faultCode = s.faultCode := rfl
@[simp] theorem State.setGroup_chip (s : State) (n : Nat) (x : Group) : (s.setGroup n x).chip = s.chip := rfl
@[simp] theorem State.setGroup_pwrcap (s : State) (n : Nat) (x : Group) : (s.setGroup n x).pwrcap = s.pwrcap := rfl
@[simp] theorem State.setGroup_scrubh (s : State) (n : Nat) (x : Group) : (s.setGroup n x).scrubh = s.scrubh := rfl
@[simp] theorem State.setGroup_arbiterAt (s : State) (n : Nat) (x : Group) : (s.setGroup n x).arbiterAt = s.arbiterAt := rfl
@[simp] theorem State.setGroup_i3c (s : State) (n : Nat) (x : Group) : (s.setGroup n x).i3c = s.i3c := rfl
@[simp] theorem State.setGroup_sensors (s : State) (n : Nat) (x : Group) : (s.setGroup n x).sensors = s.sensors := rfl
@[simp] theorem State.setGroup_queues (s : State) (n : Nat) (x : Group) : (s.setGroup n x).queues = s.queues := rfl
@[simp] theorem State.setGroup_rrQueue (s : State) (n : Nat) (x : Group) : (s.setGroup n x).rrQueue = s.rrQueue := rfl
@[simp] theorem State.setGroup_errlog (s : State) (n : Nat) (x : Group) : (s.setGroup n x).errlog = s.errlog := rfl
@[simp] theorem State.setGroup_history (s : State) (n : Nat) (x : Group) : (s.setGroup n x).history = s.history := rfl
@[simp] theorem State.setGroup_ivals (s : State) (n : Nat) (x : Group) : (s.setGroup n x).ivals = s.ivals := rfl
@[simp] theorem State.setGroup_ports (s : State) (n : Nat) (x : Group) : (s.setGroup n x).ports = s.ports := rfl
@[simp] theorem State.setGroup_dropped (s : State) (n : Nat) (x : Group) : (s.setGroup n x).dropped = s.dropped := rfl
@[simp] theorem State.setGroup_marks (s : State) (n : Nat) (x : Group) : (s.setGroup n x).marks = s.marks := rfl
@[simp] theorem State.setGroup_rid (s : State) (n : Nat) (x : Group) : (s.setGroup n x).rid = s.rid := rfl
@[simp] theorem State.setGroup_echoes (s : State) (n : Nat) (x : Group) : (s.setGroup n x).echoes = s.echoes := rfl
@[simp] theorem State.setGroup_performed (s : State) (n : Nat) (x : Group) : (s.setGroup n x).performed = s.performed := rfl
@[simp] theorem State.setGroup_colls (s : State) (n : Nat) (x : Group) : (s.setGroup n x).colls = s.colls := rfl
@[simp] theorem State.setGroup_ticket (s : State) (n : Nat) (x : Group) : (s.setGroup n x).ticket = s.ticket := rfl
@[simp] theorem State.setGroup_ticketQueue (s : State) (n : Nat) (x : Group) : (s.setGroup n x).ticketQueue = s.ticketQueue := rfl
@[simp] theorem State.setGroup_spdm (s : State) (n : Nat) (x : Group) : (s.setGroup n x).spdm = s.spdm := rfl
@[simp] theorem State.setGroup_ide (s : State) (n : Nat) (x : Group) : (s.setGroup n x).ide = s.ide := rfl
@[simp] theorem State.setGroup_retraining (s : State) (n : Nat) (x : Group) : (s.setGroup n x).retraining = s.retraining := rfl
@[simp] theorem State.setGroup_scrubs (s : State) (n : Nat) (x : Group) : (s.setGroup n x).scrubs = s.scrubs := rfl
@[simp] theorem State.setGroup_hostMem (s : State) (n : Nat) (x : Group) : (s.setGroup n x).hostMem = s.hostMem := rfl
@[simp] theorem State.setGroup_agenda (s : State) (n : Nat) (x : Group) : (s.setGroup n x).agenda = s.agenda := rfl
@[simp] theorem State.setGroup_cur (s : State) (n : Nat) (x : Group) : (s.setGroup n x).cur = s.cur := rfl
@[simp] theorem State.setGroup_moment (s : State) (n : Nat) (x : Group) : (s.setGroup n x).moment = s.moment := rfl
@[simp] theorem State.setGroup_reserveAt (s : State) (n : Nat) (x : Group) : (s.setGroup n x).reserveAt = s.reserveAt := rfl
@[simp] theorem State.ctx_setGroup (s : State) (n m : Nat) (x : Group) : (s.setGroup n x).ctx m = s.ctx m := rfl
@[simp] theorem State.core_setGroup (s : State) (n m : Nat) (x : Group) : (s.setGroup n x).core m = s.core m := rfl
@[simp] theorem State.cluster_setGroup (s : State) (n m : Nat) (x : Group) : (s.setGroup n x).cluster m = s.cluster m := rfl
@[simp] theorem State.pod_setGroup (s : State) (n m : Nat) (x : Group) : (s.setGroup n x).pod m = s.pod m := rfl
@[simp] theorem State.vf_setGroup (s : State) (n m : Nat) (x : Group) : (s.setGroup n x).vf m = s.vf m := rfl
@[simp] theorem State.queue_setGroup (s : State) (n m : Nat) (x : Group) : (s.setGroup n x).queue m = s.queue m := rfl
@[simp] theorem State.port_setGroup (s : State) (n m : Nat) (x : Group) : (s.setGroup n x).port m = s.port m := rfl
@[simp] theorem State.die_setGroup (s : State) (n m : Nat) (x : Group) : (s.setGroup n x).die m = s.die m := rfl

@[simp] theorem State.queue_setQueue (s : State) (n : Nat) (x : HQueue) : (s.setQueue n x).queue n = x := aget_aput_same _ _ _ _

theorem State.queue_setQueue_ne (s : State) (n m : Nat) (x : HQueue) (h : m ≠ n) : (s.setQueue n x).queue m = s.queue m :=
  aget_aput_ne _ _ _ _ _ h

@[simp] theorem State.setQueue_ctxs (s : State) (n : Nat) (x : HQueue) : (s.setQueue n x).ctxs = s.ctxs := rfl
@[simp] theorem State.setQueue_cores (s : State) (n : Nat) (x : HQueue) : (s.setQueue n x).cores = s.cores := rfl
@[simp] theorem State.setQueue_clusters (s : State) (n : Nat) (x : HQueue) : (s.setQueue n x).clusters = s.clusters := rfl
@[simp] theorem State.setQueue_dies (s : State) (n : Nat) (x : HQueue) : (s.setQueue n x).dies = s.dies := rfl
@[simp] theorem State.setQueue_pods (s : State) (n : Nat) (x : HQueue) : (s.setQueue n x).pods = s.pods := rfl
@[simp] theorem State.setQueue_vfs (s : State) (n : Nat) (x : HQueue) : (s.setQueue n x).vfs = s.vfs := rfl
@[simp] theorem State.setQueue_groups (s : State) (n : Nat) (x : HQueue) : (s.setQueue n x).groups = s.groups := rfl
@[simp] theorem State.setQueue_mem (s : State) (n : Nat) (x : HQueue) : (s.setQueue n x).mem = s.mem := rfl
@[simp] theorem State.setQueue_clean (s : State) (n : Nat) (x : HQueue) : (s.setQueue n x).clean = s.clean := rfl
@[simp] theorem State.setQueue_poison (s : State) (n : Nat) (x : HQueue) : (s.setQueue n x).poison = s.poison := rfl
@[simp] theorem State.setQueue_refTime (s : State) (n : Nat) (x : HQueue) : (s.setQueue n x).refTime = s.refTime := rfl
@[simp] theorem State.setQueue_bring (s : State) (n : Nat) (x : HQueue) : (s.setQueue n x).bring = s.bring := rfl
@[simp] theorem State.setQueue_ready (s : State) (n : Nat) (x : HQueue) : (s.setQueue n x).ready = s.ready := rfl
@[simp] theorem State.setQueue_failStep (s : State) (n : Nat) (x : HQueue) : (s.setQueue n x).failStep = s.failStep := rfl
@[simp] theorem State.setQueue_powered (s : State) (n : Nat) (x : HQueue) : (s.setQueue n x).powered = s.powered := rfl
@[simp] theorem State.setQueue_faultCode (s : State) (n : Nat) (x : HQueue) : (s.setQueue n x).faultCode = s.faultCode := rfl
@[simp] theorem State.setQueue_chip (s : State) (n : Nat) (x : HQueue) : (s.setQueue n x).chip = s.chip := rfl
@[simp] theorem State.setQueue_pwrcap (s : State) (n : Nat) (x : HQueue) : (s.setQueue n x).pwrcap = s.pwrcap := rfl
@[simp] theorem State.setQueue_scrubh (s : State) (n : Nat) (x : HQueue) : (s.setQueue n x).scrubh = s.scrubh := rfl
@[simp] theorem State.setQueue_arbiterAt (s : State) (n : Nat) (x : HQueue) : (s.setQueue n x).arbiterAt = s.arbiterAt := rfl
@[simp] theorem State.setQueue_i3c (s : State) (n : Nat) (x : HQueue) : (s.setQueue n x).i3c = s.i3c := rfl
@[simp] theorem State.setQueue_sensors (s : State) (n : Nat) (x : HQueue) : (s.setQueue n x).sensors = s.sensors := rfl
@[simp] theorem State.setQueue_rrQueue (s : State) (n : Nat) (x : HQueue) : (s.setQueue n x).rrQueue = s.rrQueue := rfl
@[simp] theorem State.setQueue_errlog (s : State) (n : Nat) (x : HQueue) : (s.setQueue n x).errlog = s.errlog := rfl
@[simp] theorem State.setQueue_history (s : State) (n : Nat) (x : HQueue) : (s.setQueue n x).history = s.history := rfl
@[simp] theorem State.setQueue_ivals (s : State) (n : Nat) (x : HQueue) : (s.setQueue n x).ivals = s.ivals := rfl
@[simp] theorem State.setQueue_ports (s : State) (n : Nat) (x : HQueue) : (s.setQueue n x).ports = s.ports := rfl
@[simp] theorem State.setQueue_dropped (s : State) (n : Nat) (x : HQueue) : (s.setQueue n x).dropped = s.dropped := rfl
@[simp] theorem State.setQueue_marks (s : State) (n : Nat) (x : HQueue) : (s.setQueue n x).marks = s.marks := rfl
@[simp] theorem State.setQueue_rid (s : State) (n : Nat) (x : HQueue) : (s.setQueue n x).rid = s.rid := rfl
@[simp] theorem State.setQueue_echoes (s : State) (n : Nat) (x : HQueue) : (s.setQueue n x).echoes = s.echoes := rfl
@[simp] theorem State.setQueue_performed (s : State) (n : Nat) (x : HQueue) : (s.setQueue n x).performed = s.performed := rfl
@[simp] theorem State.setQueue_colls (s : State) (n : Nat) (x : HQueue) : (s.setQueue n x).colls = s.colls := rfl
@[simp] theorem State.setQueue_ticket (s : State) (n : Nat) (x : HQueue) : (s.setQueue n x).ticket = s.ticket := rfl
@[simp] theorem State.setQueue_ticketQueue (s : State) (n : Nat) (x : HQueue) : (s.setQueue n x).ticketQueue = s.ticketQueue := rfl
@[simp] theorem State.setQueue_spdm (s : State) (n : Nat) (x : HQueue) : (s.setQueue n x).spdm = s.spdm := rfl
@[simp] theorem State.setQueue_ide (s : State) (n : Nat) (x : HQueue) : (s.setQueue n x).ide = s.ide := rfl
@[simp] theorem State.setQueue_retraining (s : State) (n : Nat) (x : HQueue) : (s.setQueue n x).retraining = s.retraining := rfl
@[simp] theorem State.setQueue_scrubs (s : State) (n : Nat) (x : HQueue) : (s.setQueue n x).scrubs = s.scrubs := rfl
@[simp] theorem State.setQueue_hostMem (s : State) (n : Nat) (x : HQueue) : (s.setQueue n x).hostMem = s.hostMem := rfl
@[simp] theorem State.setQueue_agenda (s : State) (n : Nat) (x : HQueue) : (s.setQueue n x).agenda = s.agenda := rfl
@[simp] theorem State.setQueue_cur (s : State) (n : Nat) (x : HQueue) : (s.setQueue n x).cur = s.cur := rfl
@[simp] theorem State.setQueue_moment (s : State) (n : Nat) (x : HQueue) : (s.setQueue n x).moment = s.moment := rfl
@[simp] theorem State.setQueue_reserveAt (s : State) (n : Nat) (x : HQueue) : (s.setQueue n x).reserveAt = s.reserveAt := rfl
@[simp] theorem State.ctx_setQueue (s : State) (n m : Nat) (x : HQueue) : (s.setQueue n x).ctx m = s.ctx m := rfl
@[simp] theorem State.core_setQueue (s : State) (n m : Nat) (x : HQueue) : (s.setQueue n x).core m = s.core m := rfl
@[simp] theorem State.cluster_setQueue (s : State) (n m : Nat) (x : HQueue) : (s.setQueue n x).cluster m = s.cluster m := rfl
@[simp] theorem State.pod_setQueue (s : State) (n m : Nat) (x : HQueue) : (s.setQueue n x).pod m = s.pod m := rfl
@[simp] theorem State.vf_setQueue (s : State) (n m : Nat) (x : HQueue) : (s.setQueue n x).vf m = s.vf m := rfl
@[simp] theorem State.group_setQueue (s : State) (n m : Nat) (x : HQueue) : (s.setQueue n x).group m = s.group m := rfl
@[simp] theorem State.port_setQueue (s : State) (n m : Nat) (x : HQueue) : (s.setQueue n x).port m = s.port m := rfl
@[simp] theorem State.die_setQueue (s : State) (n m : Nat) (x : HQueue) : (s.setQueue n x).die m = s.die m := rfl

@[simp] theorem State.port_setPort (s : State) (n : Nat) (x : Port) : (s.setPort n x).port n = x := aget_aput_same _ _ _ _

theorem State.port_setPort_ne (s : State) (n m : Nat) (x : Port) (h : m ≠ n) : (s.setPort n x).port m = s.port m :=
  aget_aput_ne _ _ _ _ _ h

@[simp] theorem State.setPort_ctxs (s : State) (n : Nat) (x : Port) : (s.setPort n x).ctxs = s.ctxs := rfl
@[simp] theorem State.setPort_cores (s : State) (n : Nat) (x : Port) : (s.setPort n x).cores = s.cores := rfl
@[simp] theorem State.setPort_clusters (s : State) (n : Nat) (x : Port) : (s.setPort n x).clusters = s.clusters := rfl
@[simp] theorem State.setPort_dies (s : State) (n : Nat) (x : Port) : (s.setPort n x).dies = s.dies := rfl
@[simp] theorem State.setPort_pods (s : State) (n : Nat) (x : Port) : (s.setPort n x).pods = s.pods := rfl
@[simp] theorem State.setPort_vfs (s : State) (n : Nat) (x : Port) : (s.setPort n x).vfs = s.vfs := rfl
@[simp] theorem State.setPort_groups (s : State) (n : Nat) (x : Port) : (s.setPort n x).groups = s.groups := rfl
@[simp] theorem State.setPort_mem (s : State) (n : Nat) (x : Port) : (s.setPort n x).mem = s.mem := rfl
@[simp] theorem State.setPort_clean (s : State) (n : Nat) (x : Port) : (s.setPort n x).clean = s.clean := rfl
@[simp] theorem State.setPort_poison (s : State) (n : Nat) (x : Port) : (s.setPort n x).poison = s.poison := rfl
@[simp] theorem State.setPort_refTime (s : State) (n : Nat) (x : Port) : (s.setPort n x).refTime = s.refTime := rfl
@[simp] theorem State.setPort_bring (s : State) (n : Nat) (x : Port) : (s.setPort n x).bring = s.bring := rfl
@[simp] theorem State.setPort_ready (s : State) (n : Nat) (x : Port) : (s.setPort n x).ready = s.ready := rfl
@[simp] theorem State.setPort_failStep (s : State) (n : Nat) (x : Port) : (s.setPort n x).failStep = s.failStep := rfl
@[simp] theorem State.setPort_powered (s : State) (n : Nat) (x : Port) : (s.setPort n x).powered = s.powered := rfl
@[simp] theorem State.setPort_faultCode (s : State) (n : Nat) (x : Port) : (s.setPort n x).faultCode = s.faultCode := rfl
@[simp] theorem State.setPort_chip (s : State) (n : Nat) (x : Port) : (s.setPort n x).chip = s.chip := rfl
@[simp] theorem State.setPort_pwrcap (s : State) (n : Nat) (x : Port) : (s.setPort n x).pwrcap = s.pwrcap := rfl
@[simp] theorem State.setPort_scrubh (s : State) (n : Nat) (x : Port) : (s.setPort n x).scrubh = s.scrubh := rfl
@[simp] theorem State.setPort_arbiterAt (s : State) (n : Nat) (x : Port) : (s.setPort n x).arbiterAt = s.arbiterAt := rfl
@[simp] theorem State.setPort_i3c (s : State) (n : Nat) (x : Port) : (s.setPort n x).i3c = s.i3c := rfl
@[simp] theorem State.setPort_sensors (s : State) (n : Nat) (x : Port) : (s.setPort n x).sensors = s.sensors := rfl
@[simp] theorem State.setPort_queues (s : State) (n : Nat) (x : Port) : (s.setPort n x).queues = s.queues := rfl
@[simp] theorem State.setPort_rrQueue (s : State) (n : Nat) (x : Port) : (s.setPort n x).rrQueue = s.rrQueue := rfl
@[simp] theorem State.setPort_errlog (s : State) (n : Nat) (x : Port) : (s.setPort n x).errlog = s.errlog := rfl
@[simp] theorem State.setPort_history (s : State) (n : Nat) (x : Port) : (s.setPort n x).history = s.history := rfl
@[simp] theorem State.setPort_ivals (s : State) (n : Nat) (x : Port) : (s.setPort n x).ivals = s.ivals := rfl
@[simp] theorem State.setPort_dropped (s : State) (n : Nat) (x : Port) : (s.setPort n x).dropped = s.dropped := rfl
@[simp] theorem State.setPort_marks (s : State) (n : Nat) (x : Port) : (s.setPort n x).marks = s.marks := rfl
@[simp] theorem State.setPort_rid (s : State) (n : Nat) (x : Port) : (s.setPort n x).rid = s.rid := rfl
@[simp] theorem State.setPort_echoes (s : State) (n : Nat) (x : Port) : (s.setPort n x).echoes = s.echoes := rfl
@[simp] theorem State.setPort_performed (s : State) (n : Nat) (x : Port) : (s.setPort n x).performed = s.performed := rfl
@[simp] theorem State.setPort_colls (s : State) (n : Nat) (x : Port) : (s.setPort n x).colls = s.colls := rfl
@[simp] theorem State.setPort_ticket (s : State) (n : Nat) (x : Port) : (s.setPort n x).ticket = s.ticket := rfl
@[simp] theorem State.setPort_ticketQueue (s : State) (n : Nat) (x : Port) : (s.setPort n x).ticketQueue = s.ticketQueue := rfl
@[simp] theorem State.setPort_spdm (s : State) (n : Nat) (x : Port) : (s.setPort n x).spdm = s.spdm := rfl
@[simp] theorem State.setPort_ide (s : State) (n : Nat) (x : Port) : (s.setPort n x).ide = s.ide := rfl
@[simp] theorem State.setPort_retraining (s : State) (n : Nat) (x : Port) : (s.setPort n x).retraining = s.retraining := rfl
@[simp] theorem State.setPort_scrubs (s : State) (n : Nat) (x : Port) : (s.setPort n x).scrubs = s.scrubs := rfl
@[simp] theorem State.setPort_hostMem (s : State) (n : Nat) (x : Port) : (s.setPort n x).hostMem = s.hostMem := rfl
@[simp] theorem State.setPort_agenda (s : State) (n : Nat) (x : Port) : (s.setPort n x).agenda = s.agenda := rfl
@[simp] theorem State.setPort_cur (s : State) (n : Nat) (x : Port) : (s.setPort n x).cur = s.cur := rfl
@[simp] theorem State.setPort_moment (s : State) (n : Nat) (x : Port) : (s.setPort n x).moment = s.moment := rfl
@[simp] theorem State.setPort_reserveAt (s : State) (n : Nat) (x : Port) : (s.setPort n x).reserveAt = s.reserveAt := rfl
@[simp] theorem State.ctx_setPort (s : State) (n m : Nat) (x : Port) : (s.setPort n x).ctx m = s.ctx m := rfl
@[simp] theorem State.core_setPort (s : State) (n m : Nat) (x : Port) : (s.setPort n x).core m = s.core m := rfl
@[simp] theorem State.cluster_setPort (s : State) (n m : Nat) (x : Port) : (s.setPort n x).cluster m = s.cluster m := rfl
@[simp] theorem State.pod_setPort (s : State) (n m : Nat) (x : Port) : (s.setPort n x).pod m = s.pod m := rfl
@[simp] theorem State.vf_setPort (s : State) (n m : Nat) (x : Port) : (s.setPort n x).vf m = s.vf m := rfl
@[simp] theorem State.group_setPort (s : State) (n m : Nat) (x : Port) : (s.setPort n x).group m = s.group m := rfl
@[simp] theorem State.queue_setPort (s : State) (n m : Nat) (x : Port) : (s.setPort n x).queue m = s.queue m := rfl
@[simp] theorem State.die_setPort (s : State) (n m : Nat) (x : Port) : (s.setPort n x).die m = s.die m := rfl

@[simp] theorem State.setDie_ctxs (s : State) (n : Nat) (x : Die) : (s.setDie n x).ctxs = s.ctxs := rfl
@[simp] theorem State.setDie_cores (s : State) (n : Nat) (x : Die) : (s.setDie n x).cores = s.cores := rfl
@[simp] theorem State.setDie_clusters (s : State) (n : Nat) (x : Die) : (s.setDie n x).clusters = s.clusters := rfl
@[simp] theorem State.setDie_pods (s : State) (n : Nat) (x : Die) : (s.setDie n x).pods = s.pods := rfl
@[simp] theorem State.setDie_vfs (s : State) (n : Nat) (x : Die) : (s.setDie n x).vfs = s.vfs := rfl
@[simp] theorem State.setDie_groups (s : State) (n : Nat) (x : Die) : (s.setDie n x).groups = s.groups := rfl
@[simp] theorem State.setDie_mem (s : State) (n : Nat) (x : Die) : (s.setDie n x).mem = s.mem := rfl
@[simp] theorem State.setDie_clean (s : State) (n : Nat) (x : Die) : (s.setDie n x).clean = s.clean := rfl
@[simp] theorem State.setDie_poison (s : State) (n : Nat) (x : Die) : (s.setDie n x).poison = s.poison := rfl
@[simp] theorem State.setDie_refTime (s : State) (n : Nat) (x : Die) : (s.setDie n x).refTime = s.refTime := rfl
@[simp] theorem State.setDie_bring (s : State) (n : Nat) (x : Die) : (s.setDie n x).bring = s.bring := rfl
@[simp] theorem State.setDie_ready (s : State) (n : Nat) (x : Die) : (s.setDie n x).ready = s.ready := rfl
@[simp] theorem State.setDie_failStep (s : State) (n : Nat) (x : Die) : (s.setDie n x).failStep = s.failStep := rfl
@[simp] theorem State.setDie_powered (s : State) (n : Nat) (x : Die) : (s.setDie n x).powered = s.powered := rfl
@[simp] theorem State.setDie_faultCode (s : State) (n : Nat) (x : Die) : (s.setDie n x).faultCode = s.faultCode := rfl
@[simp] theorem State.setDie_chip (s : State) (n : Nat) (x : Die) : (s.setDie n x).chip = s.chip := rfl
@[simp] theorem State.setDie_pwrcap (s : State) (n : Nat) (x : Die) : (s.setDie n x).pwrcap = s.pwrcap := rfl
@[simp] theorem State.setDie_scrubh (s : State) (n : Nat) (x : Die) : (s.setDie n x).scrubh = s.scrubh := rfl
@[simp] theorem State.setDie_arbiterAt (s : State) (n : Nat) (x : Die) : (s.setDie n x).arbiterAt = s.arbiterAt := rfl
@[simp] theorem State.setDie_i3c (s : State) (n : Nat) (x : Die) : (s.setDie n x).i3c = s.i3c := rfl
@[simp] theorem State.setDie_sensors (s : State) (n : Nat) (x : Die) : (s.setDie n x).sensors = s.sensors := rfl
@[simp] theorem State.setDie_queues (s : State) (n : Nat) (x : Die) : (s.setDie n x).queues = s.queues := rfl
@[simp] theorem State.setDie_rrQueue (s : State) (n : Nat) (x : Die) : (s.setDie n x).rrQueue = s.rrQueue := rfl
@[simp] theorem State.setDie_errlog (s : State) (n : Nat) (x : Die) : (s.setDie n x).errlog = s.errlog := rfl
@[simp] theorem State.setDie_history (s : State) (n : Nat) (x : Die) : (s.setDie n x).history = s.history := rfl
@[simp] theorem State.setDie_ivals (s : State) (n : Nat) (x : Die) : (s.setDie n x).ivals = s.ivals := rfl
@[simp] theorem State.setDie_ports (s : State) (n : Nat) (x : Die) : (s.setDie n x).ports = s.ports := rfl
@[simp] theorem State.setDie_dropped (s : State) (n : Nat) (x : Die) : (s.setDie n x).dropped = s.dropped := rfl
@[simp] theorem State.setDie_marks (s : State) (n : Nat) (x : Die) : (s.setDie n x).marks = s.marks := rfl
@[simp] theorem State.setDie_rid (s : State) (n : Nat) (x : Die) : (s.setDie n x).rid = s.rid := rfl
@[simp] theorem State.setDie_echoes (s : State) (n : Nat) (x : Die) : (s.setDie n x).echoes = s.echoes := rfl
@[simp] theorem State.setDie_performed (s : State) (n : Nat) (x : Die) : (s.setDie n x).performed = s.performed := rfl
@[simp] theorem State.setDie_colls (s : State) (n : Nat) (x : Die) : (s.setDie n x).colls = s.colls := rfl
@[simp] theorem State.setDie_ticket (s : State) (n : Nat) (x : Die) : (s.setDie n x).ticket = s.ticket := rfl
@[simp] theorem State.setDie_ticketQueue (s : State) (n : Nat) (x : Die) : (s.setDie n x).ticketQueue = s.ticketQueue := rfl
@[simp] theorem State.setDie_spdm (s : State) (n : Nat) (x : Die) : (s.setDie n x).spdm = s.spdm := rfl
@[simp] theorem State.setDie_ide (s : State) (n : Nat) (x : Die) : (s.setDie n x).ide = s.ide := rfl
@[simp] theorem State.setDie_retraining (s : State) (n : Nat) (x : Die) : (s.setDie n x).retraining = s.retraining := rfl
@[simp] theorem State.setDie_scrubs (s : State) (n : Nat) (x : Die) : (s.setDie n x).scrubs = s.scrubs := rfl
@[simp] theorem State.setDie_hostMem (s : State) (n : Nat) (x : Die) : (s.setDie n x).hostMem = s.hostMem := rfl
@[simp] theorem State.setDie_agenda (s : State) (n : Nat) (x : Die) : (s.setDie n x).agenda = s.agenda := rfl
@[simp] theorem State.setDie_cur (s : State) (n : Nat) (x : Die) : (s.setDie n x).cur = s.cur := rfl
@[simp] theorem State.setDie_moment (s : State) (n : Nat) (x : Die) : (s.setDie n x).moment = s.moment := rfl
@[simp] theorem State.setDie_reserveAt (s : State) (n : Nat) (x : Die) : (s.setDie n x).reserveAt = s.reserveAt := rfl
@[simp] theorem State.ctx_setDie (s : State) (n m : Nat) (x : Die) : (s.setDie n x).ctx m = s.ctx m := rfl
@[simp] theorem State.core_setDie (s : State) (n m : Nat) (x : Die) : (s.setDie n x).core m = s.core m := rfl
@[simp] theorem State.cluster_setDie (s : State) (n m : Nat) (x : Die) : (s.setDie n x).cluster m = s.cluster m := rfl
@[simp] theorem State.pod_setDie (s : State) (n m : Nat) (x : Die) : (s.setDie n x).pod m = s.pod m := rfl
@[simp] theorem State.vf_setDie (s : State) (n m : Nat) (x : Die) : (s.setDie n x).vf m = s.vf m := rfl
@[simp] theorem State.group_setDie (s : State) (n m : Nat) (x : Die) : (s.setDie n x).group m = s.group m := rfl
@[simp] theorem State.queue_setDie (s : State) (n m : Nat) (x : Die) : (s.setDie n x).queue m = s.queue m := rfl
@[simp] theorem State.port_setDie (s : State) (n m : Nat) (x : Die) : (s.setDie n x).port m = s.port m := rfl

@[simp] theorem State.setMe_cur (s : State) (x : Ctx) : (s.setMe x).cur = s.cur := rfl
@[simp] theorem State.me_setMe (s : State) (x : Ctx) : (s.setMe x).me = x := aget_aput_same _ _ _ _
theorem State.ctx_setMe_ne (s : State) (x : Ctx) (c : Nat) (h : c ≠ s.cur) : (s.setMe x).ctx c = s.ctx c :=
  aget_aput_ne _ _ _ _ _ h
@[simp] theorem State.setP_cur (s : State) (p : Priv) : (s.setP p).cur = s.cur := rfl
@[simp] theorem State.me_setP (s : State) (p : Priv) : (s.setP p).me = { s.me with p := p } := aget_aput_same _ _ _ _
@[simp] theorem State.setChunk_cur (s : State) (k : Chunk) : (s.setChunk k).cur = s.cur := rfl
@[simp] theorem State.me_setChunk (s : State) (k : Chunk) : (s.setChunk k).me = { s.me with chunk := some k } := aget_aput_same _ _ _ _

end Sys2Proof.Machine
end

