-- ==== Sys2Proof/Laws/Chunk.lean ====
section
/-! SUPPORT. What an instruction inside a chunk changes: opening a chunk, entering reads, writing registers, retiring. Each lemma says
once everything its operation does to what the executing context holds and sees. -/

namespace Sys2Proof.Machine

/-! ## What a context sees through its chunks -/

/-- A lookup in the open chunk, then in the pending one. -/
def Ctx.look {α : Type} (x : Ctx) (f : Chunk → Option α) : Option α :=
  match x.chunk.bind f with
  | some v => some v
  | none => x.pending.bind f

/-- Deferred effects of the chunks. -/
def Ctx.fxOf (x : Ctx) : List Fx := (match x.pending with | some k => k.fx | none => []) ++ (match x.chunk with | some k => k.fx | none => [])

/-- Two entries that show the same through their chunks. -/
structure SameLook (x y : Ctx) : Prop where
  gs : ∀ n, y.look (fun k => afind? k.gs n) = x.look (fun k => afind? k.gs n)
  hs : ∀ n, y.look (fun k => afind? k.hs n) = x.look (fun k => afind? k.hs n)
  writes : ∀ a, y.look (fun k => afind? k.writes a) = x.look (fun k => afind? k.writes a)
  spm : ∀ o, y.look (fun k => afind? k.spm o) = x.look (fun k => afind? k.spm o)
  svc : y.look (·.svctgt) = x.look (·.svctgt)
  fx : y.fxOf = x.fxOf

theorem SameLook.refl (x : Ctx) : SameLook x x := ⟨fun _ => rfl, fun _ => rfl, fun _ => rfl, fun _ => rfl, rfl, rfl⟩

theorem SameLook.trans {x y z : Ctx} (h : SameLook x y) (k : SameLook y z) : SameLook x z :=
  ⟨fun n => (k.gs n).trans (h.gs n), fun n => (k.hs n).trans (h.hs n), fun n => (k.writes n).trans (h.writes n),
    fun n => (k.spm n).trans (h.spm n), k.svc.trans h.svc, k.fx.trans h.fx⟩

theorem ownG_look (s : State) (c n : Nat) : s.ownG? c n = (s.ctx c).look (fun k => afind? k.gs n) := by
  unfold State.ownG? Ctx.look State.chunkOf State.newChunk
  cases (s.ctx c).chunk <;> cases (s.ctx c).pending <;> simp [afind?]
  all_goals split <;> simp_all

theorem ownH_look (s : State) (c n : Nat) : s.ownH? c n = (s.ctx c).look (fun k => afind? k.hs n) := by
  unfold State.ownH? Ctx.look State.chunkOf State.newChunk
  cases (s.ctx c).chunk <;> cases (s.ctx c).pending <;> simp [afind?]
  all_goals split <;> simp_all

theorem own_look (s : State) (a : Nat) : s.own? a = s.me.look (fun k => afind? k.writes a) := by
  unfold State.own? Ctx.look State.chunk State.chunkOf State.newChunk State.me
  cases (s.ctx s.cur).chunk <;> cases (s.ctx s.cur).pending <;> simp [afind?]
  all_goals split <;> simp_all

theorem spByte_look (s : State) (o : Nat) :
    s.spByteAt o = (s.me.look (fun k => afind? k.spm o)).getD ((s.cluster s.myCluster).spm.read o) := by
  unfold State.spByteAt Ctx.look State.chunk State.chunkOf State.newChunk State.me
  cases hc : (s.ctx s.cur).chunk with
  | none => cases hp : (s.ctx s.cur).pending <;> simp [afind?] <;> split <;> simp_all
  | some k => cases hk : afind? k.spm o <;> cases hp : (s.ctx s.cur).pending <;> simp [hk]

theorem svctgt_look (s : State) (c : Nat) :
    s.svctgtOf c = ((s.ctx c).look (·.svctgt)).getD (s.pod ((s.podOf c).getD 0)).svctgt := by
  unfold State.svctgtOf Ctx.look State.chunkOf State.newChunk
  cases hc : (s.ctx c).chunk with
  | none => cases (s.ctx c).pending <;> simp
  | some k => cases hk : k.svctgt <;> simp [hk]

theorem laterFx_fxOf (s : State) : s.laterFx = s.me.fxOf := by
  unfold State.laterFx Ctx.fxOf State.chunk State.chunkOf State.newChunk State.me
  cases (s.ctx s.cur).chunk <;> rfl

/-- A state that differs from another in contexts alone. -/
theorem own_iff_rest (s t : State) (h : Own s t) : ∃ cs, t = { s with ctxs := cs } := ⟨t.ctxs, h.1⟩

theorem own_cur {s t : State} (h : Own s t) : t.cur = s.cur := by rw [h.1]

/-- What the executing context sees is the same where its chunks show the same. -/
theorem same_of_look {s t : State} (h : Own s t) (k : SameLook s.me t.me) : SameG s t ∧ SameH s t ∧ SameMem s t ∧ SameFx s t := by
  obtain ⟨cs, rfl⟩ := own_iff_rest s t h
  refine ⟨fun n => ?_, fun n => ?_, ⟨fun a => ?_, fun o => ?_⟩, ?_, ?_⟩
  · show (State.ownG? _ _ _).getD _ = (State.ownG? _ _ _).getD _
    rw [ownG_look, ownG_look]
    exact congrArg (fun x => Option.getD x _) (k.gs n)
  · show (State.ownH? _ _ _).getD _ = (State.ownH? _ _ _).getD _
    rw [ownH_look, ownH_look]
    exact congrArg (fun x => Option.getD x _) (k.hs n)
  · show (State.own? _ a).getD _ = (State.own? _ a).getD _
    rw [own_look, own_look]
    exact congrArg (fun x => Option.getD x _) (k.writes a)
  · rw [spByte_look, spByte_look]
    exact congrArg (fun x => Option.getD x _) (k.spm o)
  · rw [laterFx_fxOf, laterFx_fxOf]
    exact k.fx
  · rw [svctgt_look, svctgt_look]
    exact congrArg (fun x => Option.getD x _) k.svc

theorem own_refl (s : State) : Own s s := ⟨rfl, fun _ _ => rfl, rfl⟩

theorem own_trans {s t u : State} (h : Own s t) (k : Own t u) : Own s u := by
  refine ⟨?_, fun c hc => ?_, ?_⟩
  · rw [k.1, h.1]
  · rw [k.2.1 c (by rw [own_cur h]; exact hc), h.2.1 c hc]
  · have := k.2.2
    rw [h.2.2] at this
    exact this

/-- The executing context's entry changes in the fields that an instruction inside a chunk may change. -/
theorem own_setMe (s : State) (x : Ctx) (h : x = { s.me with p := x.p, chunk := x.chunk, pending := x.pending, status := x.status }) :
    Own s (s.setMe x) := by
  refine ⟨rfl, fun c hc => State.ctx_setMe_ne s x c hc, ?_⟩
  rw [State.me_setMe]
  exact h

theorem own_setP (s : State) (p : Priv) : Own s (s.setP p) := own_setMe s _ rfl
theorem own_setChunk (s : State) (k : Chunk) : Own s (s.setChunk k) := own_setMe s _ rfl

/-! ## The operations -/

theorem look_chunk_eq {α : Type} (x : Ctx) (k : Chunk) (f : Chunk → Option α) (h : f k = x.chunk.bind f) :
    ({ x with chunk := some k } : Ctx).look f = x.look f := by
  simp [Ctx.look, h]

/-- The chunk that the executing context's instructions enter their effects into. -/
theorem bind_chunk {α : Type} (s : State) (f : Chunk → Option α) (h : f (s.newChunk s.cur) = none) : f s.chunk = s.me.chunk.bind f := by
  unfold State.chunk State.chunkOf State.me
  cases (s.ctx s.cur).chunk with
  | none => exact h
  | some k => rfl

theorem look_setChunk {α : Type} (s : State) (k : Chunk) (f : Chunk → Option α) (hn : f (s.newChunk s.cur) = none) (h : f k = f s.chunk) :
    (s.setChunk k).me.look f = s.me.look f := by
  rw [State.me_setChunk]
  exact look_chunk_eq s.me k f (h.trans (bind_chunk s f hn))

theorem fxOf_setChunk (s : State) (k : Chunk) (h : k.fx = s.chunk.fx) : (s.setChunk k).me.fxOf = s.me.fxOf := by
  rw [State.me_setChunk]
  unfold Ctx.fxOf
  simp only [h]
  unfold State.chunk State.chunkOf State.me
  cases (s.ctx s.cur).chunk <;> rfl

/-- A chunk that holds the same effects shows the same. -/
theorem sameLook_setChunk (s : State) (k : Chunk) (h1 : k.gs = s.chunk.gs) (h2 : k.hs = s.chunk.hs) (h3 : k.writes = s.chunk.writes)
    (h4 : k.spm = s.chunk.spm) (h5 : k.svctgt = s.chunk.svctgt) (h6 : k.fx = s.chunk.fx) : SameLook s.me (s.setChunk k).me :=
  ⟨fun _ => look_setChunk s k _ rfl (by rw [h1]), fun _ => look_setChunk s k _ rfl (by rw [h2]),
    fun _ => look_setChunk s k _ rfl (by rw [h3]), fun _ => look_setChunk s k _ rfl (by rw [h4]),
    look_setChunk s k _ rfl h5, fxOf_setChunk s k h6⟩

theorem sameLook_setP (s : State) (p : Priv) : SameLook s.me (s.setP p).me := by
  rw [State.me_setP]
  exact ⟨fun _ => rfl, fun _ => rfl, fun _ => rfl, fun _ => rfl, rfl, rfl⟩

/-- Nothing but bookkeeping happened: the same private registers, the same view, the same count. -/
structure Quiet (s t : State) : Prop where
  own : Own s t
  p : t.me.p = s.me.p
  look : SameLook s.me t.me
  unc : t.me.uncommitted = s.me.uncommitted

theorem Quiet.refl (s : State) : Quiet s s := ⟨own_refl s, rfl, SameLook.refl _, rfl⟩

theorem Quiet.trans {s t u : State} (h : Quiet s t) (k : Quiet t u) : Quiet s u :=
  ⟨own_trans h.own k.own, k.p.trans h.p, h.look.trans k.look, k.unc.trans h.unc⟩

theorem unc_setChunk (s : State) (k : Chunk) (h : k.count = s.chunk.count) : (s.setChunk k).me.uncommitted = s.me.uncommitted := by
  rw [State.me_setChunk]
  unfold Ctx.uncommitted
  simp only [h]
  unfold State.chunk State.chunkOf State.me
  cases (s.ctx s.cur).chunk <;> rfl

theorem quiet_openChunk (s : State) : Quiet s s.openChunk := by
  unfold State.openChunk
  cases h : s.me.chunk with
  | some k => exact Quiet.refl s
  | none =>
    have hc : s.chunk = s.newChunk s.cur := by
      unfold State.chunk State.chunkOf
      unfold State.me at h
      rw [h]
      rfl
    refine ⟨own_setChunk s _, by rw [State.me_setChunk], sameLook_setChunk s _ ?_ ?_ ?_ ?_ ?_ ?_, unc_setChunk s _ ?_⟩ <;> rw [hc]

theorem quiet_note (s : State) (ls : List Loc) : Quiet s (s.note ls) :=
  ⟨own_setChunk s _, by rw [State.note, State.me_setChunk], sameLook_setChunk s _ rfl rfl rfl rfl rfl rfl, unc_setChunk s _ rfl⟩

theorem quiet_noteS (s : State) (rs : List SReg) : Quiet s (s.noteS rs) := quiet_note s _

/-- What a quiet step leaves to see. -/
theorem Quiet.same {s t : State} (h : Quiet s t) : SameG s t ∧ SameH s t ∧ SameMem s t ∧ SameFx s t := same_of_look h.own h.look

theorem Quiet.val {s t : State} (h : Quiet s t) (r : SReg) : t.val r = s.val r := by
  cases r with
  | s n =>
    show (if n = 0 then 0 else t.me.p.regs[n]) = if n = 0 then 0 else s.me.p.regs[n]
    rw [h.p]
  | g n => exact h.same.1 n

theorem Quiet.tile {s t : State} (h : Quiet s t) (r : TReg) : t.tile r = s.tile r := by
  cases r with
  | t n =>
    show t.me.p.tiles[n] = s.me.p.tiles[n]
    rw [h.p]
  | h n => exact h.same.2.1 n

/-! ## Ending a chunk, retiring -/

theorem fx_chunk (s : State) : s.chunk.fx = (match s.me.chunk with | some k => k.fx | none => []) := by
  unfold State.chunk State.chunkOf State.me
  cases (s.ctx s.cur).chunk <;> rfl

theorem count_chunk (s : State) : s.chunk.count = (match s.me.chunk with | some k => k.count | none => 0) := by
  unfold State.chunk State.chunkOf State.me
  cases (s.ctx s.cur).chunk <;> rfl

/-- An ended chunk stays where it is, or becomes the pending one: the context sees the same. -/
theorem quiet_endChunk (s : State) (why : EndWhy) (hp : s.chunk.paired = false) : Quiet s (s.endChunk why) := by
  have hu : s.unpair = s := by simp [State.unpair, hp]
  have hb {α : Type} (f : Chunk → Option α) (hn : f (s.newChunk s.cur) = none) (he : ∀ k w, f { k with ended := w } = f k) :
      f { s.chunk with ended := some why } = s.me.chunk.bind f := (he _ _).trans (bind_chunk s f hn)
  suffices key : ∀ overlap : Bool, Quiet s (if overlap && s.me.pending.isNone && !s.chunk.excl then
      s.setMe { s.me with pending := some { s.chunk with ended := some why }, chunk := none }
      else s.setMe { s.me with chunk := some { s.chunk with ended := some why }, status := .out .commit }) by
    unfold State.endChunk
    rw [hu]
    exact key _
  intro overlap
  split
  · rename_i h
    have hp : s.me.pending = none := by
      cases hh : s.me.pending with
      | none => rfl
      | some k => rw [hh] at h; cases overlap <;> simp at h
    have look {α : Type} (f : Chunk → Option α) (hn : f (s.newChunk s.cur) = none) (he : ∀ k w, f { k with ended := w } = f k) :
        ({ s.me with pending := some { s.chunk with ended := some why }, chunk := none } : Ctx).look f = s.me.look f := by
      have := hb f hn he
      unfold Ctx.look
      rw [hp]
      simp only [Option.bind_none, Option.bind_some, this]
      cases s.me.chunk.bind f <;> rfl
    refine ⟨own_setMe s _ rfl, by rw [State.me_setMe], ?_, ?_⟩
    · rw [State.me_setMe]
      refine ⟨fun n => look _ rfl (fun _ _ => rfl), fun n => look _ rfl (fun _ _ => rfl), fun n => look _ rfl (fun _ _ => rfl),
        fun n => look _ rfl (fun _ _ => rfl), look _ rfl (fun _ _ => rfl), ?_⟩
      unfold Ctx.fxOf
      rw [hp]
      simp only [fx_chunk, List.append_nil, List.nil_append]
    · rw [State.me_setMe]
      unfold Ctx.uncommitted
      rw [hp]
      simp only [count_chunk, Nat.add_zero, Nat.zero_add]
      all_goals (cases s.me.chunk <;> rfl)
  · refine ⟨own_setMe s _ rfl, by rw [State.me_setMe], ?_, ?_⟩
    · rw [State.me_setMe]
      have look {α : Type} (f : Chunk → Option α) (hn : f (s.newChunk s.cur) = none) (he : ∀ k w, f { k with ended := w } = f k) :
          ({ s.me with chunk := some { s.chunk with ended := some why }, status := .out .commit } : Ctx).look f = s.me.look f := by
        unfold Ctx.look
        simp only [Option.bind_some, hb f hn he]
      refine ⟨fun n => look _ rfl (fun _ _ => rfl), fun n => look _ rfl (fun _ _ => rfl), fun n => look _ rfl (fun _ _ => rfl),
        fun n => look _ rfl (fun _ _ => rfl), look _ rfl (fun _ _ => rfl), ?_⟩
      unfold Ctx.fxOf
      simp only [fx_chunk]
    · rw [State.me_setMe]
      unfold Ctx.uncommitted
      simp only [count_chunk]
      all_goals (cases s.me.chunk <;> rfl)

/-- Retirement at `pc`: the private registers, and one instruction more. -/
theorem retireTo_spec (s : State) (pc : BitVec 48) :
    Own s (s.retireTo pc) ∧ (s.retireTo pc).me.p = { s.me.p.clearRestart with pc := pc } ∧ SameLook s.me (s.retireTo pc).me ∧
    (s.retireTo pc).me.uncommitted = s.me.uncommitted + 1 := by
  let u := s.setP { s.me.p.clearRestart with pc := pc }
  let v := u.setChunk { u.chunk with count := u.chunk.count + 1, paired := false }
  have hv : Own s v ∧ v.me.p = { s.me.p.clearRestart with pc := pc } ∧ SameLook s.me v.me ∧ v.me.uncommitted = s.me.uncommitted + 1 := by
    refine ⟨own_trans (own_setP s _) (own_setChunk u _), ?_, (sameLook_setP s _).trans (sameLook_setChunk u _ rfl rfl rfl rfl rfl rfl), ?_⟩
    · rw [State.me_setChunk, State.me_setP]
    · rw [State.me_setChunk]
      have h1 := count_chunk u
      have h2 : u.me.chunk = s.me.chunk := by rw [State.me_setP]
      have h3 : u.me.pending = s.me.pending := by rw [State.me_setP]
      unfold Ctx.uncommitted
      simp only [h1, h2, h3]
      cases s.me.chunk <;> simp only <;> omega
  have fin (t : State) (q : Quiet v t) : Own s t ∧ t.me.p = { s.me.p.clearRestart with pc := pc } ∧ SameLook s.me t.me ∧
      t.me.uncommitted = s.me.uncommitted + 1 :=
    ⟨own_trans hv.1 q.own, q.p.trans hv.2.1, hv.2.2.1.trans q.look, q.unc.trans hv.2.2.2⟩
  have : s.retireTo pc = if v.chunk.limit ≤ v.chunk.count && !v.me.handler then v.endChunk .length
      else if v.traceEnd? = some 0 then v.endChunk .pressure else v := rfl
  have hp : v.chunk.paired = false := by
    show (v.me.chunk.getD _).paired = false
    rw [State.me_setChunk]
    rfl
  rw [this]
  split
  · exact fin _ (quiet_endChunk v _ hp)
  · split
    · exact fin _ (quiet_endChunk v _ hp)
    · exact fin _ (Quiet.refl v)

/-- Leaving rotation shows nothing. -/
theorem quiet_outFor (s : State) (why : OutWhy) : Quiet s (s.outFor why) := by
  unfold State.outFor
  split
  · refine ⟨own_setMe s _ rfl, by rw [State.me_setMe], ?_, ?_⟩ <;> rw [State.me_setMe]
    · exact ⟨fun _ => rfl, fun _ => rfl, fun _ => rfl, fun _ => rfl, rfl, rfl⟩
    · rfl
  · exact Quiet.refl s

end Sys2Proof.Machine
end

