-- ==== Sys2Proof/Laws/Encoding.lean ====
section
/-! SUPPORT. Fields of instruction words, one lemma each: reading back what the encoder has put there. -/

namespace Sys2Proof.Laws

theorem bits_eq (n lo w : Nat) : bits n lo w = n / 2 ^ lo % 2 ^ w := rfl

theorem sreg_field (r : SReg) : sreg r.field = r := by
  cases r with
  | s n => simp [SReg.field, sreg, Fin.ofNat, Nat.mod_eq_of_lt n.isLt]
  | g n => simp [SReg.field, sreg, Fin.ofNat, Nat.mod_eq_of_lt n.isLt]

theorem sreg_lt (r : SReg) : r.field < 64 := by
  cases r with
  | s n => exact Nat.lt_of_lt_of_le n.isLt (by decide)
  | g n => have := n.isLt; simp only [SReg.field]; omega

theorem treg_field (r : TReg) : treg r.field = some r := by
  cases r with
  | t n => simp [TReg.field, treg, Fin.ofNat, Nat.mod_eq_of_lt n.isLt]
  | h n =>
    have := n.isLt
    have h1 : ¬ n.val + 32 < 8 := by omega
    have h2 : n.val + 32 < 40 := by omega
    simp [TReg.field, treg, Fin.ofNat, h1, h2, Nat.mod_eq_of_lt n.isLt]

theorem treg_lt (r : TReg) : r.field < 64 := by
  cases r with
  | t n => have := n.isLt; simp only [TReg.field]; omega
  | h n => have := n.isLt; simp only [TReg.field]; omega

theorem kreg_val (k : KReg) : kreg k.val = some k := by
  simp [kreg, Fin.ofNat, Nat.mod_eq_of_lt k.isLt]

theorem cbreg_val (n : Fin 4) : cbreg n.val = some n := by
  simp [cbreg, Fin.ofNat, Nat.mod_eq_of_lt n.isLt]

theorem tsreg_field (x : TS) : tsreg x.kind x.field = some x := by
  cases x with
  | tile r => simp [TS.kind, TS.field, tsreg, treg_field]
  | scalar r => simp [TS.kind, TS.field, tsreg, sreg_field]

theorem ts_lt (x : TS) : x.field < 64 := by
  cases x with
  | tile r => exact treg_lt r
  | scalar r => exact sreg_lt r

theorem kind_lt (x : TS) : x.kind < 2 := by cases x <;> simp [TS.kind]

/-- A flag read back from its bit. -/
theorem flag_eq (b : Bool) (x : Nat) (h : x = b.toNat) : decide (x = 1) = b := by cases b <;> simp [h]

theorem bool_lt (b : Bool) : b.toNat < 2 := by cases b <;> decide

/-- A field read back from its bits. -/
theorem field_eq {w : Nat} (v : BitVec w) (x : Nat) (h : x = v.toNat) : BitVec.ofNat w x = v := by simp [h]

theorem fmt_code (f : Fmt) : Fmt.ofCode f.code = some f := by cases f <;> rfl

theorem fmt_lt (f : Fmt) : f.code < 32 := by cases f <;> decide

theorem axis_code (x : Axis) : Axis.ofCode x.code = some x := by cases x <;> rfl

theorem axis_lt (x : Axis) : x.code < 3 := by cases x <;> decide

theorem redFmt_code (x : RedFmt) : RedFmt.ofCode x.code = some x := by cases x <;> rfl

theorem redFmt_lt (x : RedFmt) : x.code < 3 := by cases x <;> decide

theorem cc_code (x : Cc) : Cc.ofCode x.code = some x := by cases x <;> rfl

theorem cc_lt (x : Cc) : x.code < 6 := by cases x <;> decide

theorem collKind_code (x : CollKind) : CollKind.ofCode x.code = some x := by cases x <;> rfl

theorem collKind_lt (x : CollKind) : x.code < 3 := by cases x <;> decide

theorem reply_code (x : Reply) : Reply.ofCode x.code = some x := by cases x <;> rfl

theorem reply_lt (x : Reply) : x.code < 4 := by cases x <;> decide

theorem mma_imm_lt (f : MmaFmt) : f.imm < 2048 := by
  have h1 := fmt_lt f.af
  have h2 := fmt_lt f.bf
  have h3 : f.mx.toNat < 2 := by cases f.mx <;> decide
  simp only [MmaFmt.imm]
  omega

/-- The formats of an `mma` are read back whatever stands above them. -/
theorem mmaFmt_imm (f : MmaFmt) (x : Nat) (h : x % 2048 = f.imm) : mmaFmt x = some f := by
  have h1 := fmt_lt f.af
  have h2 := fmt_lt f.bf
  obtain ⟨af, bf, mx⟩ := f
  simp only [MmaFmt.imm] at h h1 h2
  have e1 : bits x 0 5 = af.code := by simp only [bits]; omega
  have h3 := bool_lt mx
  have e2 : bits x 5 5 = bf.code := by simp only [bits]; omega
  have e3 : decide (bits x 10 1 = 1) = mx := flag_eq _ _ (by simp only [bits]; omega)
  unfold mmaFmt
  rw [e1, e2, e3, fmt_code, fmt_code]
  rfl

theorem cpy_imm_lt (f : CpyF) : f.imm < 2 ^ 20 := by
  have h1 := f.cbn.isLt
  have h2 := f.ndm.isLt
  have h3 := f.esz.isLt
  have h4 := f.e.isLt
  have b (x : Bool) : x.toNat < 2 := by cases x <;> decide
  have := b f.cbk
  have := b f.cbv
  have := b f.dsp
  have := b f.ssp
  simp only [CpyF.imm]
  omega

theorem cpy_imm_kind (f : CpyF) : bits f.imm 4 2 = 0 := by
  have h1 := f.cbn.isLt
  have h2 := f.ndm.isLt
  have h3 := f.esz.isLt
  have h4 := f.e.isLt
  have := bool_lt f.cbk
  have := bool_lt f.cbv
  have := bool_lt f.dsp
  have := bool_lt f.ssp
  simp only [CpyF.imm, bits, Nat.reducePow] at *
  omega

theorem cpy_imm_high (f : CpyF) : bits f.imm 20 10 = 0 := by
  have := cpy_imm_lt f
  simp only [bits, Nat.reducePow] at *
  omega

theorem cpyF_imm (f : CpyF) : cpyF f.imm = f := by
  obtain ⟨cbk, cbv, cbn, ndm, esz, dsp, ssp, e⟩ := f
  have h1 := cbn.isLt
  have h2 := ndm.isLt
  have h3 := esz.isLt
  have h4 := e.isLt
  have := bool_lt cbk
  have := bool_lt cbv
  have := bool_lt dsp
  have := bool_lt ssp
  unfold cpyF
  simp only [CpyF.imm, CpyF.mk.injEq, bits]
  refine ⟨flag_eq _ _ ?_, flag_eq _ _ ?_, field_eq _ _ ?_, field_eq _ _ ?_, field_eq _ _ ?_, flag_eq _ _ ?_, flag_eq _ _ ?_,
    field_eq _ _ ?_⟩ <;> omega

theorem tcfg_enc_lt (c : TCfg) : c.enc < 2 ^ 30 := by
  cases c with
  | imm cbsel scaled fmt rows cols =>
    have h1 := cbsel.isLt
    have h2 := fmt.isLt
    have h3 := rows.isLt
    have h4 := cols.isLt
    have h5 : scaled.toNat < 2 := by cases scaled <;> decide
    simp only [TCfg.enc]
    omega
  | preset n => have := n.isLt; simp only [TCfg.enc]; omega

theorem tcfgArg_enc (c : TCfg) : tcfgArg c.enc = some c := by
  cases c with
  | imm cbsel scaled fmt rows cols =>
    have h1 := cbsel.isLt
    have h2 := fmt.isLt
    have h3 := rows.isLt
    have h4 := cols.isLt
    have h5 := bool_lt scaled
    have c1 : ¬ bits (TCfg.imm cbsel scaled fmt rows cols).enc 29 1 = 1 := by simp only [TCfg.enc, bits]; omega
    have c2 : bits (TCfg.imm cbsel scaled fmt rows cols).enc 16 5 = 0 := by simp only [TCfg.enc, bits]; omega
    rw [tcfgArg, if_neg c1, if_pos c2]
    simp only [TCfg.enc, bits, Option.some.injEq, TCfg.imm.injEq]
    refine ⟨field_eq _ _ ?_, flag_eq _ _ ?_, field_eq _ _ ?_, field_eq _ _ ?_, field_eq _ _ ?_⟩ <;> omega
  | preset n =>
    have h := n.isLt
    have c1 : bits (TCfg.preset n).enc 29 1 = 1 := by simp only [TCfg.enc, bits]; omega
    have c2 : bits (TCfg.preset n).enc 3 26 = 0 := by simp only [TCfg.enc, bits]; omega
    rw [tcfgArg, if_pos c1, if_pos c2]
    simp only [TCfg.enc, bits, Option.some.injEq, TCfg.preset.injEq]
    exact field_eq _ _ (by omega)

theorem pfx_word (p : Pfx) : pfxOfWord p.word = p := by
  obtain ⟨rsv, sat, xv, x, mz, mask, rm, fmt⟩ := p
  have h1 := rsv.isLt
  have h2 := x.isLt
  have h3 := mask.isLt
  have h4 := rm.isLt
  have h5 := fmt.isLt
  have := bool_lt sat
  have := bool_lt xv
  have := bool_lt mz
  unfold pfxOfWord
  simp only [Pfx.word, Pfx.mk.injEq, bits]
  refine ⟨field_eq _ _ ?_, flag_eq _ _ ?_, flag_eq _ _ ?_, field_eq _ _ ?_, flag_eq _ _ ?_, field_eq _ _ ?_, field_eq _ _ ?_,
    field_eq _ _ ?_⟩ <;> omega

/-- Fields that fit where the word format puts them (02 R46). -/
def Fits (r : Raw) : Prop :=
  (r.len = 1 ∧ r.w2 = 0 ∧ r.w3 = 0 ∨ r.len = 2 ∧ r.w3 = 0 ∨ r.len = 3) ∧
  r.op < 256 ∧ r.fn < 64 ∧ r.d < 64 ∧ r.a < 64 ∧ r.b < 64 ∧ r.imm < 1073741824

/-- The first two words of some fields, read back. -/
theorem ofWords_words (n op fn d a b imm x y : Nat) (hn : n < 4) (h1 : op < 256) (h2 : fn < 64) (h3 : d < 64) (h4 : a < 64) (h5 : b < 64)
    (h6 : imm < 1073741824) :
    Raw.ofWords (n + op * 2 ^ 2 + fn * 2 ^ 10 + d * 2 ^ 16 + a * 2 ^ 22 + b % 16 * 2 ^ 28) (b / 16 + imm * 4) x y =
      ⟨n, op, fn, d, a, b, imm, x, y⟩ := by
  simp only [Raw.ofWords, bits, Raw.mk.injEq, Nat.reducePow]
  refine ⟨by omega, by omega, by omega, by omega, by omega, by omega, by omega, trivial, trivial⟩

theorem len_words (n op fn d a b : Nat) (hn : n < 4) :
    bits (n + op * 2 ^ 2 + fn * 2 ^ 10 + d * 2 ^ 16 + a * 2 ^ 22 + b % 16 * 2 ^ 28) 0 2 = n := by
  simp only [bits, Nat.reducePow]; omega

theorem decode_two (w0 w1 : Nat) (h : bits w0 0 2 = 1) : decode [w0, w1] = decodeRaw (.ofWords w0 w1 0 0) := by simp only [decode, h]
theorem decode_three (w0 w1 w2 : Nat) (h : bits w0 0 2 = 2) : decode [w0, w1, w2] = decodeRaw (.ofWords w0 w1 w2 0) := by
  simp only [decode, h]
theorem decode_four (w0 w1 w2 w3 : Nat) (h : bits w0 0 2 = 3) : decode [w0, w1, w2, w3] = decodeRaw (.ofWords w0 w1 w2 w3) := by
  simp only [decode, h]

/-- The words of some fields hold those fields. -/
theorem decode_words (r : Raw) (h : Fits r) : decode r.words = decodeRaw r := by
  obtain ⟨len, op, fn, d, a, b, imm, w2, w3⟩ := r
  obtain ⟨hl, h1, h2, h3, h4, h5, h6⟩ := h
  rcases hl with ⟨hl, hx, hy⟩ | ⟨hl, hx⟩ | hl <;> simp only at hl h1 h2 h3 h4 h5 h6
  · simp only at hx hy
    subst hl hx hy
    exact (decode_two _ _ (len_words 1 op fn d a b (by decide))).trans
      (congrArg decodeRaw (ofWords_words 1 op fn d a b imm 0 0 (by decide) h1 h2 h3 h4 h5 h6))
  · simp only at hx
    subst hl hx
    exact (decode_three _ _ _ (len_words 2 op fn d a b (by decide))).trans
      (congrArg decodeRaw (ofWords_words 2 op fn d a b imm w2 0 (by decide) h1 h2 h3 h4 h5 h6))
  · subst hl
    exact (decode_four _ _ _ _ (len_words 3 op fn d a b (by decide))).trans
      (congrArg decodeRaw (ofWords_words 3 op fn d a b imm w2 w3 (by decide) h1 h2 h3 h4 h5 h6))

/-- What a row of the opcode map builds from its fields is what they decode to. -/
theorem decodeRaw_of (r : Raw) (w : Row) (i : Instr) (hf : opcodeMap.find? (fun w => w.op == r.op && w.fn == r.fn) = some w)
    (hl : w.len = r.len) (hb : w.build r = some i) (hw : i.wf = true) : decodeRaw r = .ok i := by
  simp [decodeRaw, hf, hl, hb, hw]

/-- An instruction of two, three or four words from the row of its opcode and function. -/
theorem enc1 {op fn d a b imm : Nat} {w : Row} {i : Instr} (h1 : op < 256) (h2 : fn < 64) (h3 : d < 64) (h4 : a < 64) (h5 : b < 64)
    (h6 : imm < 1073741824) (hf : opcodeMap.find? (fun w => w.op == op && w.fn == fn) = some w) (hl : w.len = 1)
    (hb : w.build ⟨1, op, fn, d, a, b, imm, 0, 0⟩ = some i) (hw : i.wf = true) :
    decode (Raw.words ⟨1, op, fn, d, a, b, imm, 0, 0⟩) = .ok i :=
  (decode_words _ ⟨.inl ⟨rfl, rfl, rfl⟩, h1, h2, h3, h4, h5, h6⟩).trans (decodeRaw_of _ w i hf hl hb hw)

theorem enc2 {op fn d a b imm w2 : Nat} {w : Row} {i : Instr} (h1 : op < 256) (h2 : fn < 64) (h3 : d < 64) (h4 : a < 64) (h5 : b < 64)
    (h6 : imm < 1073741824) (hf : opcodeMap.find? (fun w => w.op == op && w.fn == fn) = some w) (hl : w.len = 2)
    (hb : w.build ⟨2, op, fn, d, a, b, imm, w2, 0⟩ = some i) (hw : i.wf = true) :
    decode (Raw.words ⟨2, op, fn, d, a, b, imm, w2, 0⟩) = .ok i :=
  (decode_words _ ⟨.inr (.inl ⟨rfl, rfl⟩), h1, h2, h3, h4, h5, h6⟩).trans (decodeRaw_of _ w i hf hl hb hw)

theorem enc3 {op fn d a b imm w2 w3 : Nat} {w : Row} {i : Instr} (h1 : op < 256) (h2 : fn < 64) (h3 : d < 64) (h4 : a < 64) (h5 : b < 64)
    (h6 : imm < 1073741824) (hf : opcodeMap.find? (fun w => w.op == op && w.fn == fn) = some w) (hl : w.len = 3)
    (hb : w.build ⟨3, op, fn, d, a, b, imm, w2, w3⟩ = some i) (hw : i.wf = true) :
    decode (Raw.words ⟨3, op, fn, d, a, b, imm, w2, w3⟩) = .ok i :=
  (decode_words _ ⟨.inr (.inr rfl), h1, h2, h3, h4, h5, h6⟩).trans (decodeRaw_of _ w i hf hl hb hw)

end Sys2Proof.Laws
end

