-- ==== Sys2Proof/Laws/Exec.lean ====
section
/-! SUPPORT. Each instruction's meaning, as `exec` calls it. -/

namespace Sys2Proof.Machine

section
variable (s : State)

theorem exec_stop : exec (.stop) s = execStop s := rfl
theorem exec_pad : exec (.pad) s = execPad s := rfl
theorem exec_elementPrefix {p} : exec (.elementPrefix p) s = execElementPrefix p s := rfl
theorem exec_add {d} {a} {b} : exec (.add d a b) s = execAdd d a b s := rfl
theorem exec_sub {d} {a} {b} : exec (.sub d a b) s = execSub d a b s := rfl
theorem exec_mul {d} {a} {b} : exec (.mul d a b) s = execMul d a b s := rfl
theorem exec_mulh {d} {a} {b} : exec (.mulh d a b) s = execMulh d a b s := rfl
theorem exec_mulhu {d} {a} {b} : exec (.mulhu d a b) s = execMulhu d a b s := rfl
theorem exec_div {d} {a} {b} : exec (.div d a b) s = execDiv d a b s := rfl
theorem exec_divu {d} {a} {b} : exec (.divu d a b) s = execDivu d a b s := rfl
theorem exec_rem {d} {a} {b} : exec (.rem d a b) s = execRem d a b s := rfl
theorem exec_remu {d} {a} {b} : exec (.remu d a b) s = execRemu d a b s := rfl
theorem exec_and {d} {a} {b} : exec (.and d a b) s = execAnd d a b s := rfl
theorem exec_or {d} {a} {b} : exec (.or d a b) s = execOr d a b s := rfl
theorem exec_xor {d} {a} {b} : exec (.xor d a b) s = execXor d a b s := rfl
theorem exec_andn {d} {a} {b} : exec (.andn d a b) s = execAndn d a b s := rfl
theorem exec_shl {d} {a} {b} : exec (.shl d a b) s = execShl d a b s := rfl
theorem exec_shr {d} {a} {b} : exec (.shr d a b) s = execShr d a b s := rfl
theorem exec_sar {d} {a} {b} : exec (.sar d a b) s = execSar d a b s := rfl
theorem exec_rotl {d} {a} {b} : exec (.rotl d a b) s = execRotl d a b s := rfl
theorem exec_min {d} {a} {b} : exec (.min d a b) s = execMin d a b s := rfl
theorem exec_max {d} {a} {b} : exec (.max d a b) s = execMax d a b s := rfl
theorem exec_minu {d} {a} {b} : exec (.minu d a b) s = execMinu d a b s := rfl
theorem exec_maxu {d} {a} {b} : exec (.maxu d a b) s = execMaxu d a b s := rfl
theorem exec_clz {d} {a} : exec (.clz d a) s = execClz d a s := rfl
theorem exec_ctz {d} {a} : exec (.ctz d a) s = execCtz d a s := rfl
theorem exec_popc {d} {a} : exec (.popc d a) s = execPopc d a s := rfl
theorem exec_mov {d} {a} : exec (.mov d a) s = execMov d a s := rfl
theorem exec_addi {d} {a} {imm} : exec (.addi d a imm) s = execAddi d a imm s := rfl
theorem exec_andi {d} {a} {imm} : exec (.andi d a imm) s = execAndi d a imm s := rfl
theorem exec_ori {d} {a} {imm} : exec (.ori d a imm) s = execOri d a imm s := rfl
theorem exec_xori {d} {a} {imm} : exec (.xori d a imm) s = execXori d a imm s := rfl
theorem exec_shli {d} {a} {sh} : exec (.shli d a sh) s = execShli d a sh s := rfl
theorem exec_ext {d} {a} {pos} {wm1} {sx} : exec (.ext d a pos wm1 sx) s = execExt d a pos wm1 sx s := rfl
theorem exec_ins {d} {a} {pos} {wm1} : exec (.ins d a pos wm1) s = execIns d a pos wm1 s := rfl
theorem exec_cmpEq {d} {a} {b} : exec (.cmpEq d a b) s = execCmpEq d a b s := rfl
theorem exec_cmpNe {d} {a} {b} : exec (.cmpNe d a b) s = execCmpNe d a b s := rfl
theorem exec_cmpLt {d} {a} {b} : exec (.cmpLt d a b) s = execCmpLt d a b s := rfl
theorem exec_cmpLtu {d} {a} {b} : exec (.cmpLtu d a b) s = execCmpLtu d a b s := rfl
theorem exec_cmpLe {d} {a} {b} : exec (.cmpLe d a b) s = execCmpLe d a b s := rfl
theorem exec_cmpLeu {d} {a} {b} : exec (.cmpLeu d a b) s = execCmpLeu d a b s := rfl
theorem exec_li {d} {imm} : exec (.li d imm) s = execLi d imm s := rfl
theorem exec_addr {d} {a} {b} {sh} {off} : exec (.addr d a b sh off) s = execAddr d a b sh off s := rfl
theorem exec_sel {d} {a} {b} {x} : exec (.sel d a b x) s = execSel d a b x s := rfl
theorem exec_bEq {a} {b} {off} : exec (.bEq a b off) s = execBEq a b off s := rfl
theorem exec_bNe {a} {b} {off} : exec (.bNe a b off) s = execBNe a b off s := rfl
theorem exec_bLt {a} {b} {off} : exec (.bLt a b off) s = execBLt a b off s := rfl
theorem exec_bGe {a} {b} {off} : exec (.bGe a b off) s = execBGe a b off s := rfl
theorem exec_bLtu {a} {b} {off} : exec (.bLtu a b off) s = execBLtu a b off s := rfl
theorem exec_bGeu {a} {b} {off} : exec (.bGeu a b off) s = execBGeu a b off s := rfl
theorem exec_bz {a} {off} : exec (.bz a off) s = execBz a off s := rfl
theorem exec_bnz {a} {off} : exec (.bnz a off) s = execBnz a off s := rfl
theorem exec_br {off} : exec (.br off) s = execBr off s := rfl
theorem exec_call {off} : exec (.call off) s = execCall off s := rfl
theorem exec_jmp {a} : exec (.jmp a) s = execJmp a s := rfl
theorem exec_calli {a} : exec (.calli a) s = execCalli a s := rfl
theorem exec_ret : exec (.ret) s = execRet s := rfl
theorem exec_nop : exec (.nop) s = execNop s := rfl
theorem exec_loop {a} {off} : exec (.loop a off) s = execLoop a off s := rfl
theorem exec_mfs {d} {sr} : exec (.mfs d sr) s = execMfs d sr s := rfl
theorem exec_mts {a} {sr} : exec (.mts a sr) s = execMts a sr s := rfl
theorem exec_trap {imm} : exec (.trap imm) s = execTrap imm s := rfl
theorem exec_svcRecv {d} : exec (.svcRecv d) s = execSvcRecv d s := rfl
theorem exec_svcReply {a} {b} {reply} : exec (.svcReply a b reply) s = execSvcReply a b reply s := rfl
theorem exec_svcRd {d} {a} {space} {n} : exec (.svcRd d a space n) s = execSvcRd d a space n s := rfl
theorem exec_svcWr {a} {b} {space} {n} : exec (.svcWr a b space n) s = execSvcWr a b space n s := rfl
theorem exec_tcfg {d} {c} : exec (.tcfg d c) s = execTcfg d c s := rfl
theorem exec_tzero {d} : exec (.tzero d) s = execTzero d s := rfl
theorem exec_tfill {d} {a} : exec (.tfill d a) s = execTfill d a s := rfl
theorem exec_tmov {d} {a} : exec (.tmov d a) s = execTmov d a s := rfl
theorem exec_trowGet {d} {a} {b} {idx} : exec (.trowGet d a b idx) s = execTrowGet d a b idx s := rfl
theorem exec_trowPut {d} {a} {b} {idx} : exec (.trowPut d a b idx) s = execTrowPut d a b idx s := rfl
theorem exec_tcolGet {d} {a} {b} {idx} : exec (.tcolGet d a b idx) s = execTcolGet d a b idx s := rfl
theorem exec_tcolPut {d} {a} {b} {idx} : exec (.tcolPut d a b idx) s = execTcolPut d a b idx s := rfl
theorem exec_ttrans {d} {a} : exec (.ttrans d a) s = execTtrans d a s := rfl
theorem exec_tbcast {d} {a} : exec (.tbcast d a) s = execTbcast d a s := rfl
theorem exec_tcvt {d} {a} {sc} : exec (.tcvt d a sc) s = execTcvt d a sc s := rfl
theorem exec_tsclGet {d} {a} : exec (.tsclGet d a) s = execTsclGet d a s := rfl
theorem exec_tsclPut {d} {a} : exec (.tsclPut d a) s = execTsclPut d a s := rfl
theorem exec_kedge {d} {a} {b} : exec (.kedge d a b) s = execKedge d a b s := rfl
theorem exec_kand {d} {a} {b} : exec (.kand d a b) s = execKand d a b s := rfl
theorem exec_kor {d} {a} {b} : exec (.kor d a b) s = execKor d a b s := rfl
theorem exec_knot {d} {a} : exec (.knot d a) s = execKnot d a s := rfl
theorem exec_kxor {d} {a} {b} : exec (.kxor d a b) s = execKxor d a b s := rfl
theorem exec_kcnt {d} {a} : exec (.kcnt d a) s = execKcnt d a s := rfl
theorem exec_tld {d} {a} {b} {x} {off} {nt} : exec (.tld d a b x off nt) s = execTld d a b x off nt s := rfl
theorem exec_tst {d} {a} {b} {x} {off} {nt} : exec (.tst d a b x off nt) s = execTst d a b x off nt s := rfl
theorem exec_tldm {d} {a} {b} {x} {off} : exec (.tldm d a b x off) s = execTldm d a b x off s := rfl
theorem exec_tstm {d} {a} {b} {x} {off} : exec (.tstm d a b x off) s = execTstm d a b x off s := rfl
theorem exec_tcbLd {n} {a} {off} : exec (.tcbLd n a off) s = execTcbLd n a off s := rfl
theorem exec_tadd {d} {a} {b} : exec (.tadd d a b) s = execTadd d a b s := rfl
theorem exec_tsub {d} {a} {b} : exec (.tsub d a b) s = execTsub d a b s := rfl
theorem exec_tmul {d} {a} {b} : exec (.tmul d a b) s = execTmul d a b s := rfl
theorem exec_tdiv {d} {a} {b} : exec (.tdiv d a b) s = execTdiv d a b s := rfl
theorem exec_tmax {d} {a} {b} : exec (.tmax d a b) s = execTmax d a b s := rfl
theorem exec_tmin {d} {a} {b} : exec (.tmin d a b) s = execTmin d a b s := rfl
theorem exec_tfma {d} {a} {b} {x} : exec (.tfma d a b x) s = execTfma d a b x s := rfl
theorem exec_tsel {d} {a} {b} {k} : exec (.tsel d a b k) s = execTsel d a b k s := rfl
theorem exec_tsqrt {d} {a} : exec (.tsqrt d a) s = execTsqrt d a s := rfl
theorem exec_trsqrt {d} {a} : exec (.trsqrt d a) s = execTrsqrt d a s := rfl
theorem exec_trcp {d} {a} : exec (.trcp d a) s = execTrcp d a s := rfl
theorem exec_texp2 {d} {a} : exec (.texp2 d a) s = execTexp2 d a s := rfl
theorem exec_tlog2 {d} {a} : exec (.tlog2 d a) s = execTlog2 d a s := rfl
theorem exec_tabs {d} {a} : exec (.tabs d a) s = execTabs d a s := rfl
theorem exec_tneg {d} {a} : exec (.tneg d a) s = execTneg d a s := rfl
theorem exec_tcmpEq {d} {a} {b} : exec (.tcmpEq d a b) s = execTcmpEq d a b s := rfl
theorem exec_tcmpNe {d} {a} {b} : exec (.tcmpNe d a b) s = execTcmpNe d a b s := rfl
theorem exec_tcmpLt {d} {a} {b} : exec (.tcmpLt d a b) s = execTcmpLt d a b s := rfl
theorem exec_tcmpLe {d} {a} {b} : exec (.tcmpLe d a b) s = execTcmpLe d a b s := rfl
theorem exec_tcmpGt {d} {a} {b} : exec (.tcmpGt d a b) s = execTcmpGt d a b s := rfl
theorem exec_tcmpGe {d} {a} {b} : exec (.tcmpGe d a b) s = execTcmpGe d a b s := rfl
theorem exec_tredSum {d} {a} {axis} : exec (.tredSum d a axis) s = execTredSum d a axis s := rfl
theorem exec_tredMax {d} {a} {axis} : exec (.tredMax d a axis) s = execTredMax d a axis s := rfl
theorem exec_tredMin {d} {a} {axis} : exec (.tredMin d a axis) s = execTredMin d a axis s := rfl
theorem exec_mma {d} {a} {b} {f} : exec (.mma d a b f) s = execMma d a b f s := rfl
theorem exec_mmaSa {d} {a} {b} {f} {km1} {pa} : exec (.mmaSa d a b f km1 pa) s = execMmaSa d a b f km1 pa s := rfl
theorem exec_mmaSb {d} {a} {b} {f} {km1} {pb} : exec (.mmaSb d a b f km1 pb) s = execMmaSb d a b f km1 pb s := rfl
theorem exec_mmaSs {d} {a} {b} {f} {km1} {pa} {pb} : exec (.mmaSs d a b f km1 pa pb) s = execMmaSs d a b f km1 pa pb s := rfl
theorem exec_mmaZ {d} {a} {b} {f} : exec (.mmaZ d a b f) s = execMmaZ d a b f s := rfl
theorem exec_ldB {d} {a} {off} : exec (.ldB d a off) s = execLdB d a off s := rfl
theorem exec_ldBu {d} {a} {off} : exec (.ldBu d a off) s = execLdBu d a off s := rfl
theorem exec_ldH {d} {a} {off} : exec (.ldH d a off) s = execLdH d a off s := rfl
theorem exec_ldHu {d} {a} {off} : exec (.ldHu d a off) s = execLdHu d a off s := rfl
theorem exec_ldW {d} {a} {off} : exec (.ldW d a off) s = execLdW d a off s := rfl
theorem exec_ldWu {d} {a} {off} : exec (.ldWu d a off) s = execLdWu d a off s := rfl
theorem exec_ldD {d} {a} {off} : exec (.ldD d a off) s = execLdD d a off s := rfl
theorem exec_stB {a} {b} {off} : exec (.stB a b off) s = execStB a b off s := rfl
theorem exec_stH {a} {b} {off} : exec (.stH a b off) s = execStH a b off s := rfl
theorem exec_stW {a} {b} {off} : exec (.stW a b off) s = execStW a b off s := rfl
theorem exec_stD {a} {b} {off} : exec (.stD a b off) s = execStD a b off s := rfl
theorem exec_sld {d} {a} {sz} {sx} {off} : exec (.sld d a sz sx off) s = execSld d a sz sx off s := rfl
theorem exec_sst {a} {b} {sz} {off} : exec (.sst a b sz off) s = execSst a b sz off s := rfl
theorem exec_ldbit {d} {a} {wm1} {sx} {boff} : exec (.ldbit d a wm1 sx boff) s = execLdbit d a wm1 sx boff s := rfl
theorem exec_stbit {a} {b} {wm1} {boff} : exec (.stbit a b wm1 boff) s = execStbit a b wm1 boff s := rfl
theorem exec_rld {d} {a} {off} : exec (.rld d a off) s = execRld d a off s := rfl
theorem exec_rst {a} {b} {off} : exec (.rst a b off) s = execRst a b off s := rfl
theorem exec_amSend {a} {b} {x} {y} {hid} : exec (.amSend a b x y hid) s = execAmSend a b x y hid s := rfl
theorem exec_pfL1 {a} {off} : exec (.pfL1 a off) s = execPfL1 a off s := rfl
theorem exec_pfL2 {a} {off} : exec (.pfL2 a off) s = execPfL2 a off s := rfl
theorem exec_cbufTake {d} {a} {m} : exec (.cbufTake d a m) s = execCbufTake d a m s := rfl
theorem exec_cbufGive {a} {m} : exec (.cbufGive a m) s = execCbufGive a m s := rfl
theorem exec_amoAdd {d} {a} {b} {off} : exec (.amoAdd d a b off) s = execAmoAdd d a b off s := rfl
theorem exec_amoAnd {d} {a} {b} {off} : exec (.amoAnd d a b off) s = execAmoAnd d a b off s := rfl
theorem exec_amoOr {d} {a} {b} {off} : exec (.amoOr d a b off) s = execAmoOr d a b off s := rfl
theorem exec_amoXor {d} {a} {b} {off} : exec (.amoXor d a b off) s = execAmoXor d a b off s := rfl
theorem exec_amoMin {d} {a} {b} {off} : exec (.amoMin d a b off) s = execAmoMin d a b off s := rfl
theorem exec_amoMax {d} {a} {b} {off} : exec (.amoMax d a b off) s = execAmoMax d a b off s := rfl
theorem exec_amoSwap {d} {a} {b} {off} : exec (.amoSwap d a b off) s = execAmoSwap d a b off s := rfl
theorem exec_amoCas {d} {a} {b} {x} {off} : exec (.amoCas d a b x off) s = execAmoCas d a b x off s := rfl
theorem exec_redAdd {a} {b} {rf} {off} : exec (.redAdd a b rf off) s = execRedAdd a b rf off s := rfl
theorem exec_redMax {a} {b} {rf} {off} : exec (.redMax a b rf off) s = execRedMax a b rf off s := rfl
theorem exec_redMin {a} {b} {rf} {off} : exec (.redMin a b rf off) s = execRedMin a b rf off s := rfl
theorem exec_fePut {a} {b} {g} {woff} : exec (.fePut a b g woff) s = execFePut a b g woff s := rfl
theorem exec_feTake {d} {a} {g} {woff} : exec (.feTake d a g woff) s = execFeTake d a g woff s := rfl
theorem exec_fePeek {d} {a} {g} {ps} {woff} : exec (.fePeek d a g ps woff) s = execFePeek d a g ps woff s := rfl
theorem exec_fenceCore : exec (.fenceCore) s = execFenceCore s := rfl
theorem exec_fenceCluster : exec (.fenceCluster) s = execFenceCluster s := rfl
theorem exec_fencePod : exec (.fencePod) s = execFencePod s := rfl
theorem exec_fencePackage : exec (.fencePackage) s = execFencePackage s := rfl
theorem exec_fenceSystem : exec (.fenceSystem) s = execFenceSystem s := rfl
theorem exec_waitMem {a} {b} {cc} {woff} : exec (.waitMem a b cc woff) s = execWaitMem a b cc woff s := rfl
theorem exec_cpyQ {d} {a} {b} {f} {shp} : exec (.cpyQ d a b f shp) s = execCpyQ d a b f shp s := rfl
theorem exec_cpyQCfg {d} {a} {b} {cbn} {e} : exec (.cpyQCfg d a b cbn e) s = execCpyQCfg d a b cbn e s := rfl
theorem exec_cpyQClear {d} {e} : exec (.cpyQClear d e) s = execCpyQClear d e s := rfl
theorem exec_cpyFm {d} {a} {b} {f} {shp} {fo} : exec (.cpyFm d a b f shp fo) s = execCpyFm d a b f shp fo s := rfl
theorem exec_routeQ {d} {a} {b} {e} {km1} {t} {em1} {c} : exec (.routeQ d a b e km1 t em1 c) s = execRouteQ d a b e km1 t em1 c s := rfl
theorem exec_collQ {d} {a} {b} {e} {ck} {bf16} {g} {n} {cid} : exec (.collQ d a b e ck bf16 g n cid) s = execCollQ d a b e ck bf16 g n cid s := rfl
theorem exec_tlWait {a} {e} : exec (.tlWait a e) s = execTlWait a e s := rfl
theorem exec_tlRead {d} {e} {sl} : exec (.tlRead d e sl) s = execTlRead d e sl s := rfl
theorem exec_launch {d} {a} : exec (.launch d a) s = execLaunch d a s := rfl
theorem exec_yield : exec (.yield) s = execYield s := rfl
theorem exec_park {a} {z} {woff} : exec (.park a z woff) s = execPark a z woff s := rfl
theorem exec_hop {a} {dir} : exec (.hop a dir) s = execHop a dir s := rfl
theorem exec_exit : exec (.exit) s = execExit s := rfl
theorem exec_commit : exec (.commit) s = execCommit s := rfl
theorem exec_ctxStartRecord {d} {a} {b} : exec (.ctxStartRecord d a b) s = execCtxStartRecord d a b s := rfl
theorem exec_ctxStartNext {d} {a} : exec (.ctxStartNext d a) s = execCtxStartNext d a s := rfl
theorem exec_ctxStartMode {d} {b} : exec (.ctxStartMode d b) s = execCtxStartMode d b s := rfl
theorem exec_ctxStartResume {d} {a} : exec (.ctxStartResume d a) s = execCtxStartResume d a s := rfl
theorem exec_ctxStop {d} {a} : exec (.ctxStop d a) s = execCtxStop d a s := rfl
theorem exec_ctxReap {d} {a} {b} {rq} : exec (.ctxReap d a b rq) s = execCtxReap d a b rq s := rfl
theorem exec_send {a} {b} {tag} : exec (.send a b tag) s = execSend a b tag s := rfl
theorem exec_recv {d} {a} {off} : exec (.recv d a off) s = execRecv d a off s := rfl
theorem exec_gangForm {a} {tag} : exec (.gangForm a tag) s = execGangForm a tag s := rfl
theorem exec_gangJoin {tag} : exec (.gangJoin tag) s = execGangJoin tag s := rfl
theorem exec_gangLeave : exec (.gangLeave) s = execGangLeave s := rfl
theorem exec_cancelLaunch {a} {c} : exec (.cancelLaunch a c) s = execCancelLaunch a c s := rfl
theorem exec_cancelGraph {a} {c} : exec (.cancelGraph a c) s = execCancelGraph a c s := rfl
theorem exec_cancelPhase {a} {c} : exec (.cancelPhase a c) s = execCancelPhase a c s := rfl
theorem exec_cancelJob {a} {c} : exec (.cancelJob a c) s = execCancelJob a c s := rfl
theorem exec_cntRead {d} {a} : exec (.cntRead d a) s = execCntRead d a s := rfl
theorem exec_hmq {d} {a} : exec (.hmq d a) s = execHmq d a s := rfl
theorem exec_chunkCommit {c} {o} : exec (.chunkCommit c o) s = execChunkCommit c o s := rfl
theorem exec_commitTicket {cluster} : exec (.commitTicket cluster) s = execCommitTicket cluster s := rfl
theorem exec_operationCompletion {c} : exec (.operationCompletion c) s = execOperationCompletion c s := rfl
theorem exec_waitLimit {c} : exec (.waitLimit c) s = execWaitLimit c s := rfl
theorem exec_pickup {core} : exec (.pickup core) s = execPickup core s := rfl
theorem exec_aging {cluster} : exec (.aging cluster) s = execAging cluster s := rfl
theorem exec_workStealing {cluster} {victim} : exec (.workStealing cluster victim) s = execWorkStealing cluster victim s := rfl
theorem exec_messageArrival {core} : exec (.messageArrival core) s = execMessageArrival core s := rfl
theorem exec_inboxDrain {core} : exec (.inboxDrain core) s = execInboxDrain core s := rfl
theorem exec_heapReplay {core} : exec (.heapReplay core) s = execHeapReplay core s := rfl
theorem exec_courierHandlerStart {core} : exec (.courierHandlerStart core) s = execCourierHandlerStart core s := rfl
theorem exec_remoteAgentPerform {core} : exec (.remoteAgentPerform core) s = execRemoteAgentPerform core s := rfl
theorem exec_portProbe {c} : exec (.portProbe c) s = execPortProbe c s := rfl
theorem exec_probeRound {vf} {pod} : exec (.probeRound vf pod) s = execProbeRound vf pod s := rfl
theorem exec_tokenArrival {cluster} : exec (.tokenArrival cluster) s = execTokenArrival cluster s := rfl
theorem exec_burstEnd {cluster} : exec (.burstEnd cluster) s = execBurstEnd cluster s := rfl
theorem exec_powerArbiterPeriod {p} : exec (.powerArbiterPeriod p) s = execPowerArbiterPeriod p s := rfl
theorem exec_relockEnd {die} : exec (.relockEnd die) s = execRelockEnd die s := rfl
theorem exec_engineCommandStart {cluster} {e} : exec (.engineCommandStart cluster e) s = execEngineCommandStart cluster e s := rfl
theorem exec_cbufSlotClaim {cluster} {e} : exec (.cbufSlotClaim cluster e) s = execCbufSlotClaim cluster e s := rfl
theorem exec_engineLineEvent {cluster} {e} : exec (.engineLineEvent cluster e) s = execEngineLineEvent cluster e s := rfl
theorem exec_engineCommandComplete {cluster} {e} : exec (.engineCommandComplete cluster e) s = execEngineCommandComplete cluster e s := rfl
theorem exec_followOnStart {cluster} {e} : exec (.followOnStart cluster e) s = execFollowOnStart cluster e s := rfl
theorem exec_followOnInstall {cluster} {e} : exec (.followOnInstall cluster e) s = execFollowOnInstall cluster e s := rfl
theorem exec_flitIdle {l} : exec (.flitIdle l) s = execFlitIdle l s := rfl
theorem exec_flitRld {l} {o} : exec (.flitRld l o) s = execFlitRld l o s := rfl
theorem exec_flitRst {l} {o} {v} : exec (.flitRst l o v) s = execFlitRst l o v s := rfl
theorem exec_flitAm {l} {o} {body} : exec (.flitAm l o body) s = execFlitAm l o body s := rfl
theorem exec_flitFe {l} {o} {op} {v} : exec (.flitFe l o op v) s = execFlitFe l o op v s := rfl
theorem exec_flitReply {l} {o} {v} : exec (.flitReply l o v) s = execFlitReply l o v s := rfl
theorem exec_flitRefuse {l} {o} {cause} : exec (.flitRefuse l o cause) s = execFlitRefuse l o cause s := rfl
theorem exec_flitProbe {l} {o} {posted} : exec (.flitProbe l o posted) s = execFlitProbe l o posted s := rfl
theorem exec_flitEcho {l} {o} {posted} : exec (.flitEcho l o posted) s = execFlitEcho l o posted s := rfl
theorem exec_flitColl {l} {m} : exec (.flitColl l m) s = execFlitColl l m s := rfl
theorem exec_flitAbort {l} {cid} {grp} : exec (.flitAbort l cid grp) s = execFlitAbort l cid grp s := rfl
theorem exec_flitNotice {l} {interval} : exec (.flitNotice l interval) s = execFlitNotice l interval s := rfl
theorem exec_linkTimeout {rid} : exec (.linkTimeout rid) s = execLinkTimeout rid s := rfl
theorem exec_linkPortFailure {port} : exec (.linkPortFailure port) s = execLinkPortFailure port s := rfl
theorem exec_doorbell {q} {tail} : exec (.doorbell q tail) s = execDoorbell q tail s := rfl
theorem exec_queueEnable {q} {en} {logn} : exec (.queueEnable q en logn) s = execQueueEnable q en logn s := rfl
theorem exec_registerWrite {r} {v} : exec (.registerWrite r v) s = execRegisterWrite r v s := rfl
theorem exec_allocPod {h} : exec (.allocPod h) s = execAllocPod h s := rfl
theorem exec_freePod {h} : exec (.freePod h) s = execFreePod h s := rfl
theorem exec_bindVf {h} : exec (.bindVf h) s = execBindVf h s := rfl
theorem exec_unbindVf {h} : exec (.unbindVf h) s = execUnbindVf h s := rfl
theorem exec_loadImage {h} : exec (.loadImage h) s = execLoadImage h s := rfl
theorem exec_launchCommand {h} : exec (.launchCommand h) s = execLaunchCommand h s := rfl
theorem exec_pause {h} : exec (.pause h) s = execPause h s := rfl
theorem exec_resume {h} : exec (.resume h) s = execResume h s := rfl
theorem exec_evict {h} : exec (.evict h) s = execEvict h s := rfl
theorem exec_restore {h} : exec (.restore h) s = execRestore h s := rfl
theorem exec_mapWindow {h} : exec (.mapWindow h) s = execMapWindow h s := rfl
theorem exec_unmapWindow {h} : exec (.unmapWindow h) s = execUnmapWindow h s := rfl
theorem exec_setQuota {h} : exec (.setQuota h) s = execSetQuota h s := rfl
theorem exec_setSlice {h} : exec (.setSlice h) s = execSetSlice h s := rfl
theorem exec_setRecovery {h} : exec (.setRecovery h) s = execSetRecovery h s := rfl
theorem exec_attest {h} : exec (.attest h) s = execAttest h s := rfl
theorem exec_readErrlog {h} : exec (.readErrlog h) s = execReadErrlog h s := rfl
theorem exec_resetVf {h} : exec (.resetVf h) s = execResetVf h s := rfl
theorem exec_getVersion {m} : exec (.getVersion m) s = execGetVersion m s := rfl
theorem exec_getCapabilities {m} : exec (.getCapabilities m) s = execGetCapabilities m s := rfl
theorem exec_negotiateAlgorithms {m} : exec (.negotiateAlgorithms m) s = execNegotiateAlgorithms m s := rfl
theorem exec_getDigests {m} : exec (.getDigests m) s = execGetDigests m s := rfl
theorem exec_getCertificate {m} : exec (.getCertificate m) s = execGetCertificate m s := rfl
theorem exec_challenge {m} : exec (.challenge m) s = execChallenge m s := rfl
theorem exec_getMeasurements {m} : exec (.getMeasurements m) s = execGetMeasurements m s := rfl
theorem exec_keyExchange {m} : exec (.keyExchange m) s = execKeyExchange m s := rfl
theorem exec_finish {m} : exec (.finish m) s = execFinish m s := rfl
theorem exec_keyUpdate {m} : exec (.keyUpdate m) s = execKeyUpdate m s := rfl
theorem exec_heartbeat {m} : exec (.heartbeat m) s = execHeartbeat m s := rfl
theorem exec_endSession {m} : exec (.endSession m) s = execEndSession m s := rfl
theorem exec_setCmdkey {m} : exec (.setCmdkey m) s = execSetCmdkey m s := rfl
theorem exec_ideKm {m} : exec (.ideKm m) s = execIdeKm m s := rfl
theorem exec_lockInterface {vf} : exec (.lockInterface vf) s = execLockInterface vf s := rfl
theorem exec_getDeviceInterfaceReport {vf} : exec (.getDeviceInterfaceReport vf) s = execGetDeviceInterfaceReport vf s := rfl
theorem exec_getDeviceInterfaceState {vf} : exec (.getDeviceInterfaceState vf) s = execGetDeviceInterfaceState vf s := rfl
theorem exec_startInterface {vf} : exec (.startInterface vf) s = execStartInterface vf s := rfl
theorem exec_stopInterface {vf} : exec (.stopInterface vf) s = execStopInterface vf s := rfl
theorem exec_atsResponse {vf} {tag} {gen} {ok} : exec (.atsResponse vf tag gen ok) s = execAtsResponse vf tag gen ok s := rfl
theorem exec_priResponse {vf} {tag} {gen} {ok} : exec (.priResponse vf tag gen ok) s = execPriResponse vf tag gen ok s := rfl
theorem exec_stage2Fault {c} {frame} : exec (.stage2Fault c frame) s = execStage2Fault c frame s := rfl
theorem exec_clearerRewrite {frame} : exec (.clearerRewrite frame) s = execClearerRewrite frame s := rfl
theorem exec_preemptCore {core} {rows} : exec (.preemptCore core rows) s = execPreemptCore core rows s := rfl
theorem exec_coreRestore {core} : exec (.coreRestore core) s = execCoreRestore core s := rfl
theorem exec_sliceTick {group} : exec (.sliceTick group) s = execSliceTick group s := rfl
theorem exec_dieSaved {group} {die} : exec (.dieSaved group die) s = execDieSaved group die s := rfl
theorem exec_switchDeadline {group} : exec (.switchDeadline group) s = execSwitchDeadline group s := rfl
theorem exec_hbmRetrain {stack} {on} : exec (.hbmRetrain stack on) s = execHbmRetrain stack on s := rfl
theorem exec_intervalClose : exec (.intervalClose) s = execIntervalClose s := rfl
theorem exec_checkpointComplete : exec (.checkpointComplete) s = execCheckpointComplete s := rfl
theorem exec_correctableError {e} : exec (.correctableError e) s = execCorrectableError e s := rfl
theorem exec_uncorrectableError {e} : exec (.uncorrectableError e) s = execUncorrectableError e s := rfl
theorem exec_replayComplete {vf} {pod} : exec (.replayComplete vf pod) s = execReplayComplete vf pod s := rfl
theorem exec_scrubPass {stack} : exec (.scrubPass stack) s = execScrubPass stack s := rfl
theorem exec_powerGood {ok} {failAt} : exec (.powerGood ok failAt) s = execPowerGood ok failAt s := rfl
theorem exec_i3cEntdaa {addr} : exec (.i3cEntdaa addr) s = execI3cEntdaa addr s := rfl
theorem exec_i3cPrivateWrite {bytes} : exec (.i3cPrivateWrite bytes) s = execI3cPrivateWrite bytes s := rfl
theorem exec_i3cPrivateRead {n} : exec (.i3cPrivateRead n) s = execI3cPrivateRead n s := rfl
theorem exec_chipnumWrite {n} : exec (.chipnumWrite n) s = execChipnumWrite n s := rfl
theorem exec_thermalShutdown {die} {temp} : exec (.thermalShutdown die temp) s = execThermalShutdown die temp s := rfl
theorem exec_coolantFault {inlet} {flow} : exec (.coolantFault inlet flow) s = execCoolantFault inlet flow s := rfl
theorem exec_fetchFault {f} : exec (.fetchFault f) s = execFetchFault f s := rfl
theorem exec_unassignedOpc {h} : exec (.unassignedOpc h) s = execUnassignedOpc h s := rfl
theorem exec_reservedTypeFlit {l} {ty} : exec (.reservedTypeFlit l ty) s = execReservedTypeFlit l ty s := rfl
theorem exec_flitCrcFailure {l} {fixed} : exec (.flitCrcFailure l fixed) s = execFlitCrcFailure l fixed s := rfl
theorem exec_tdiError {vf} : exec (.tdiError vf) s = execTdiError vf s := rfl

end

end Sys2Proof.Machine
end

