-- ==== Sys2Proof/Laws/PerInstr.lean ====
section
/-! SUPPORT. The family `Enc`: one lemma per constructor of `Instr`, that decoding gives back what the encoder was given. -/

namespace Sys2Proof.Laws.Enc

/-- A well-formed instruction that has an encoding is what its words decode to. -/
def Statement (i : Instr) : Prop := i.wf = true → i.isEvent = false → decode (encode i) = .ok i

/-- An event has no encoding. -/
theorem event (i : Instr) (h : i.isEvent = true) : Statement i := by
  intro _ h1
  simp [h] at h1

theorem stop : Statement (.stop) := fun _ _ => rfl

theorem pad : Statement (.pad) := fun _ _ => rfl

theorem elementPrefix (p : Pfx) : Statement (.elementPrefix p) := by
  intro _ _
  have h : bits p.word 0 2 = 0 := by
    have := p.rsv.isLt
    simp only [Pfx.word, bits, Nat.reducePow]; omega
  have h1 : bits p.word 2 3 = 1 := by simp only [Pfx.word, bits, Nat.reducePow]; omega
  simp only [encode, decode, h, decodeShort, h1, pfx_word]

theorem add (d a b : SReg) : Statement (.add d a b) := by
  intro hw _
  exact enc1 (by decide) (by decide) (sreg_lt d) (sreg_lt a) (sreg_lt b) (by decide) rfl rfl (by
    have hc : 0 = 0 := rfl
    exact (if_pos (e := none) hc).trans (by simp only [sreg_field])) hw

theorem sub (d a b : SReg) : Statement (.sub d a b) := by
  intro hw _
  exact enc1 (by decide) (by decide) (sreg_lt d) (sreg_lt a) (sreg_lt b) (by decide) rfl rfl (by
    have hc : 0 = 0 := rfl
    exact (if_pos (e := none) hc).trans (by simp only [sreg_field])) hw

theorem mul (d a b : SReg) : Statement (.mul d a b) := by
  intro hw _
  exact enc1 (by decide) (by decide) (sreg_lt d) (sreg_lt a) (sreg_lt b) (by decide) rfl rfl (by
    have hc : 0 = 0 := rfl
    exact (if_pos (e := none) hc).trans (by simp only [sreg_field])) hw

theorem mulh (d a b : SReg) : Statement (.mulh d a b) := by
  intro hw _
  exact enc1 (by decide) (by decide) (sreg_lt d) (sreg_lt a) (sreg_lt b) (by decide) rfl rfl (by
    have hc : 0 = 0 := rfl
    exact (if_pos (e := none) hc).trans (by simp only [sreg_field])) hw

theorem mulhu (d a b : SReg) : Statement (.mulhu d a b) := by
  intro hw _
  exact enc1 (by decide) (by decide) (sreg_lt d) (sreg_lt a) (sreg_lt b) (by decide) rfl rfl (by
    have hc : 0 = 0 := rfl
    exact (if_pos (e := none) hc).trans (by simp only [sreg_field])) hw

theorem div (d a b : SReg) : Statement (.div d a b) := by
  intro hw _
  exact enc1 (by decide) (by decide) (sreg_lt d) (sreg_lt a) (sreg_lt b) (by decide) rfl rfl (by
    have hc : 0 = 0 := rfl
    exact (if_pos (e := none) hc).trans (by simp only [sreg_field])) hw

theorem divu (d a b : SReg) : Statement (.divu d a b) := by
  intro hw _
  exact enc1 (by decide) (by decide) (sreg_lt d) (sreg_lt a) (sreg_lt b) (by decide) rfl rfl (by
    have hc : 0 = 0 := rfl
    exact (if_pos (e := none) hc).trans (by simp only [sreg_field])) hw

theorem rem (d a b : SReg) : Statement (.rem d a b) := by
  intro hw _
  exact enc1 (by decide) (by decide) (sreg_lt d) (sreg_lt a) (sreg_lt b) (by decide) rfl rfl (by
    have hc : 0 = 0 := rfl
    exact (if_pos (e := none) hc).trans (by simp only [sreg_field])) hw

theorem remu (d a b : SReg) : Statement (.remu d a b) := by
  intro hw _
  exact enc1 (by decide) (by decide) (sreg_lt d) (sreg_lt a) (sreg_lt b) (by decide) rfl rfl (by
    have hc : 0 = 0 := rfl
    exact (if_pos (e := none) hc).trans (by simp only [sreg_field])) hw

theorem and (d a b : SReg) : Statement (.and d a b) := by
  intro hw _
  exact enc1 (by decide) (by decide) (sreg_lt d) (sreg_lt a) (sreg_lt b) (by decide) rfl rfl (by
    have hc : 0 = 0 := rfl
    exact (if_pos (e := none) hc).trans (by simp only [sreg_field])) hw

theorem or (d a b : SReg) : Statement (.or d a b) := by
  intro hw _
  exact enc1 (by decide) (by decide) (sreg_lt d) (sreg_lt a) (sreg_lt b) (by decide) rfl rfl (by
    have hc : 0 = 0 := rfl
    exact (if_pos (e := none) hc).trans (by simp only [sreg_field])) hw

theorem xor (d a b : SReg) : Statement (.xor d a b) := by
  intro hw _
  exact enc1 (by decide) (by decide) (sreg_lt d) (sreg_lt a) (sreg_lt b) (by decide) rfl rfl (by
    have hc : 0 = 0 := rfl
    exact (if_pos (e := none) hc).trans (by simp only [sreg_field])) hw

theorem andn (d a b : SReg) : Statement (.andn d a b) := by
  intro hw _
  exact enc1 (by decide) (by decide) (sreg_lt d) (sreg_lt a) (sreg_lt b) (by decide) rfl rfl (by
    have hc : 0 = 0 := rfl
    exact (if_pos (e := none) hc).trans (by simp only [sreg_field])) hw

theorem shl (d a b : SReg) : Statement (.shl d a b) := by
  intro hw _
  exact enc1 (by decide) (by decide) (sreg_lt d) (sreg_lt a) (sreg_lt b) (by decide) rfl rfl (by
    have hc : 0 = 0 := rfl
    exact (if_pos (e := none) hc).trans (by simp only [sreg_field])) hw

theorem shr (d a b : SReg) : Statement (.shr d a b) := by
  intro hw _
  exact enc1 (by decide) (by decide) (sreg_lt d) (sreg_lt a) (sreg_lt b) (by decide) rfl rfl (by
    have hc : 0 = 0 := rfl
    exact (if_pos (e := none) hc).trans (by simp only [sreg_field])) hw

theorem sar (d a b : SReg) : Statement (.sar d a b) := by
  intro hw _
  exact enc1 (by decide) (by decide) (sreg_lt d) (sreg_lt a) (sreg_lt b) (by decide) rfl rfl (by
    have hc : 0 = 0 := rfl
    exact (if_pos (e := none) hc).trans (by simp only [sreg_field])) hw

theorem rotl (d a b : SReg) : Statement (.rotl d a b) := by
  intro hw _
  exact enc1 (by decide) (by decide) (sreg_lt d) (sreg_lt a) (sreg_lt b) (by decide) rfl rfl (by
    have hc : 0 = 0 := rfl
    exact (if_pos (e := none) hc).trans (by simp only [sreg_field])) hw

theorem min (d a b : SReg) : Statement (.min d a b) := by
  intro hw _
  exact enc1 (by decide) (by decide) (sreg_lt d) (sreg_lt a) (sreg_lt b) (by decide) rfl rfl (by
    have hc : 0 = 0 := rfl
    exact (if_pos (e := none) hc).trans (by simp only [sreg_field])) hw

theorem max (d a b : SReg) : Statement (.max d a b) := by
  intro hw _
  exact enc1 (by decide) (by decide) (sreg_lt d) (sreg_lt a) (sreg_lt b) (by decide) rfl rfl (by
    have hc : 0 = 0 := rfl
    exact (if_pos (e := none) hc).trans (by simp only [sreg_field])) hw

theorem minu (d a b : SReg) : Statement (.minu d a b) := by
  intro hw _
  exact enc1 (by decide) (by decide) (sreg_lt d) (sreg_lt a) (sreg_lt b) (by decide) rfl rfl (by
    have hc : 0 = 0 := rfl
    exact (if_pos (e := none) hc).trans (by simp only [sreg_field])) hw

theorem maxu (d a b : SReg) : Statement (.maxu d a b) := by
  intro hw _
  exact enc1 (by decide) (by decide) (sreg_lt d) (sreg_lt a) (sreg_lt b) (by decide) rfl rfl (by
    have hc : 0 = 0 := rfl
    exact (if_pos (e := none) hc).trans (by simp only [sreg_field])) hw

theorem clz (d a : SReg) : Statement (.clz d a) := by
  intro hw _
  exact enc1 (by decide) (by decide) (sreg_lt d) (sreg_lt a) (by decide) (by decide) rfl rfl (by
    have hc : 0 = 0 ∧ 0 = 0 := ⟨rfl, rfl⟩
    exact (if_pos (e := none) hc).trans (by simp only [sreg_field])) hw

theorem ctz (d a : SReg) : Statement (.ctz d a) := by
  intro hw _
  exact enc1 (by decide) (by decide) (sreg_lt d) (sreg_lt a) (by decide) (by decide) rfl rfl (by
    have hc : 0 = 0 ∧ 0 = 0 := ⟨rfl, rfl⟩
    exact (if_pos (e := none) hc).trans (by simp only [sreg_field])) hw

theorem popc (d a : SReg) : Statement (.popc d a) := by
  intro hw _
  exact enc1 (by decide) (by decide) (sreg_lt d) (sreg_lt a) (by decide) (by decide) rfl rfl (by
    have hc : 0 = 0 ∧ 0 = 0 := ⟨rfl, rfl⟩
    exact (if_pos (e := none) hc).trans (by simp only [sreg_field])) hw

theorem mov (d a : SReg) : Statement (.mov d a) := by
  intro hw _
  exact enc1 (by decide) (by decide) (sreg_lt d) (sreg_lt a) (by decide) (by decide) rfl rfl (by
    have hc : 0 = 0 ∧ 0 = 0 := ⟨rfl, rfl⟩
    exact (if_pos (e := none) hc).trans (by simp only [sreg_field])) hw

theorem addi (d a : SReg) (imm : BitVec 30) : Statement (.addi d a imm) := by
  intro hw _
  have l0 := sreg_lt d
  have l1 := sreg_lt a
  have l2 := imm.isLt
  exact enc1 (by decide) (by decide) (sreg_lt d) (sreg_lt a) (by decide) (by (try simp only [Nat.reducePow] at *) <;> omega) rfl rfl (by
    have a2 : BitVec.ofNat 30 (bits imm.toNat 0 30) = imm := field_eq _ _ (by (try simp only [bits, Nat.reducePow] at *) <;> omega)
    have hc : 0 = 0 := rfl
    exact (if_pos (e := none) hc).trans (by simp only [sreg_field, a2])) hw

theorem andi (d a : SReg) (imm : BitVec 30) : Statement (.andi d a imm) := by
  intro hw _
  have l0 := sreg_lt d
  have l1 := sreg_lt a
  have l2 := imm.isLt
  exact enc1 (by decide) (by decide) (sreg_lt d) (sreg_lt a) (by decide) (by (try simp only [Nat.reducePow] at *) <;> omega) rfl rfl (by
    have a2 : BitVec.ofNat 30 (bits imm.toNat 0 30) = imm := field_eq _ _ (by (try simp only [bits, Nat.reducePow] at *) <;> omega)
    have hc : 0 = 0 := rfl
    exact (if_pos (e := none) hc).trans (by simp only [sreg_field, a2])) hw

theorem ori (d a : SReg) (imm : BitVec 30) : Statement (.ori d a imm) := by
  intro hw _
  have l0 := sreg_lt d
  have l1 := sreg_lt a
  have l2 := imm.isLt
  exact enc1 (by decide) (by decide) (sreg_lt d) (sreg_lt a) (by decide) (by (try simp only [Nat.reducePow] at *) <;> omega) rfl rfl (by
    have a2 : BitVec.ofNat 30 (bits imm.toNat 0 30) = imm := field_eq _ _ (by (try simp only [bits, Nat.reducePow] at *) <;> omega)
    have hc : 0 = 0 := rfl
    exact (if_pos (e := none) hc).trans (by simp only [sreg_field, a2])) hw

theorem xori (d a : SReg) (imm : BitVec 30) : Statement (.xori d a imm) := by
  intro hw _
  have l0 := sreg_lt d
  have l1 := sreg_lt a
  have l2 := imm.isLt
  exact enc1 (by decide) (by decide) (sreg_lt d) (sreg_lt a) (by decide) (by (try simp only [Nat.reducePow] at *) <;> omega) rfl rfl (by
    have a2 : BitVec.ofNat 30 (bits imm.toNat 0 30) = imm := field_eq _ _ (by (try simp only [bits, Nat.reducePow] at *) <;> omega)
    have hc : 0 = 0 := rfl
    exact (if_pos (e := none) hc).trans (by simp only [sreg_field, a2])) hw

theorem shli (d a : SReg) (sh : BitVec 6) : Statement (.shli d a sh) := by
  intro hw _
  have l0 := sreg_lt d
  have l1 := sreg_lt a
  have l2 := sh.isLt
  exact enc1 (by decide) (by decide) (sreg_lt d) (sreg_lt a) (by decide) (by (try simp only [Nat.reducePow] at *) <;> omega) rfl rfl (by
    have a2 : BitVec.ofNat 6 (bits sh.toNat 0 6) = sh := field_eq _ _ (by (try simp only [bits, Nat.reducePow] at *) <;> omega)
    have hc : 0 = 0 ∧ bits sh.toNat 6 24 = 0 := ⟨rfl, by (try simp only [bits, Nat.reducePow] at *) <;> omega⟩
    exact (if_pos (e := none) hc).trans (by simp only [sreg_field, a2])) hw

theorem ext (d a : SReg) (pos : BitVec 6) (wm1 : BitVec 6) (sx : Bool) : Statement (.ext d a pos wm1 sx) := by
  intro hw _
  have l0 := sreg_lt d
  have l1 := sreg_lt a
  have l2 := pos.isLt
  have l3 := wm1.isLt
  have l4 := bool_lt sx
  exact enc1 (by decide) (by decide) (sreg_lt d) (sreg_lt a) (by decide) (by (try simp only [Nat.reducePow] at *) <;> omega) rfl rfl (by
    have a2 : BitVec.ofNat 6 (bits (pos.toNat + wm1.toNat * 64 + sx.toNat * 4096) 0 6) = pos := field_eq _ _ (by (try simp only [bits, Nat.reducePow] at *) <;> omega)
    have a3 : BitVec.ofNat 6 (bits (pos.toNat + wm1.toNat * 64 + sx.toNat * 4096) 6 6) = wm1 := field_eq _ _ (by (try simp only [bits, Nat.reducePow] at *) <;> omega)
    have a4 : decide ((bits (pos.toNat + wm1.toNat * 64 + sx.toNat * 4096) 12 1) = 1) = sx := flag_eq _ _ (by (try simp only [bits, Nat.reducePow] at *) <;> omega)
    have hc : 0 = 0 ∧ bits (pos.toNat + wm1.toNat * 64 + sx.toNat * 4096) 13 17 = 0 := ⟨rfl, by (try simp only [bits, Nat.reducePow] at *) <;> omega⟩
    exact (if_pos (e := none) hc).trans (by simp only [sreg_field, a2, a3, a4])) hw

theorem ins (d a : SReg) (pos : BitVec 6) (wm1 : BitVec 6) : Statement (.ins d a pos wm1) := by
  intro hw _
  have l0 := sreg_lt d
  have l1 := sreg_lt a
  have l2 := pos.isLt
  have l3 := wm1.isLt
  exact enc1 (by decide) (by decide) (sreg_lt d) (sreg_lt a) (by decide) (by (try simp only [Nat.reducePow] at *) <;> omega) rfl rfl (by
    have a2 : BitVec.ofNat 6 (bits (pos.toNat + wm1.toNat * 64) 0 6) = pos := field_eq _ _ (by (try simp only [bits, Nat.reducePow] at *) <;> omega)
    have a3 : BitVec.ofNat 6 (bits (pos.toNat + wm1.toNat * 64) 6 6) = wm1 := field_eq _ _ (by (try simp only [bits, Nat.reducePow] at *) <;> omega)
    have hc : 0 = 0 ∧ bits (pos.toNat + wm1.toNat * 64) 12 18 = 0 := ⟨rfl, by (try simp only [bits, Nat.reducePow] at *) <;> omega⟩
    exact (if_pos (e := none) hc).trans (by simp only [sreg_field, a2, a3])) hw

theorem cmpEq (d a b : SReg) : Statement (.cmpEq d a b) := by
  intro hw _
  exact enc1 (by decide) (by decide) (sreg_lt d) (sreg_lt a) (sreg_lt b) (by decide) rfl rfl (by
    have hc : 0 = 0 := rfl
    exact (if_pos (e := none) hc).trans (by simp only [sreg_field])) hw

theorem cmpNe (d a b : SReg) : Statement (.cmpNe d a b) := by
  intro hw _
  exact enc1 (by decide) (by decide) (sreg_lt d) (sreg_lt a) (sreg_lt b) (by decide) rfl rfl (by
    have hc : 0 = 0 := rfl
    exact (if_pos (e := none) hc).trans (by simp only [sreg_field])) hw

theorem cmpLt (d a b : SReg) : Statement (.cmpLt d a b) := by
  intro hw _
  exact enc1 (by decide) (by decide) (sreg_lt d) (sreg_lt a) (sreg_lt b) (by decide) rfl rfl (by
    have hc : 0 = 0 := rfl
    exact (if_pos (e := none) hc).trans (by simp only [sreg_field])) hw

theorem cmpLtu (d a b : SReg) : Statement (.cmpLtu d a b) := by
  intro hw _
  exact enc1 (by decide) (by decide) (sreg_lt d) (sreg_lt a) (sreg_lt b) (by decide) rfl rfl (by
    have hc : 0 = 0 := rfl
    exact (if_pos (e := none) hc).trans (by simp only [sreg_field])) hw

theorem cmpLe (d a b : SReg) : Statement (.cmpLe d a b) := by
  intro hw _
  exact enc1 (by decide) (by decide) (sreg_lt d) (sreg_lt a) (sreg_lt b) (by decide) rfl rfl (by
    have hc : 0 = 0 := rfl
    exact (if_pos (e := none) hc).trans (by simp only [sreg_field])) hw

theorem cmpLeu (d a b : SReg) : Statement (.cmpLeu d a b) := by
  intro hw _
  exact enc1 (by decide) (by decide) (sreg_lt d) (sreg_lt a) (sreg_lt b) (by decide) rfl rfl (by
    have hc : 0 = 0 := rfl
    exact (if_pos (e := none) hc).trans (by simp only [sreg_field])) hw

theorem li (d : SReg) (imm : BitVec 62) : Statement (.li d imm) := by
  intro hw _
  have l0 := sreg_lt d
  have l1 := imm.isLt
  exact enc2 (by decide) (by decide) (sreg_lt d) (by decide) (by decide) (by (try simp only [Nat.reducePow] at *) <;> omega) rfl rfl (by
    have a1 : BitVec.ofNat 62 ((imm.toNat / 2 ^ 30) * 2 ^ 30 + (imm.toNat % 2 ^ 30)) = imm := field_eq _ _ (by (try simp only [bits, Nat.reducePow] at *) <;> omega)
    have hc : 0 = 0 ∧ 0 = 0 := ⟨rfl, rfl⟩
    exact (if_pos (e := none) hc).trans (by simp only [sreg_field, a1])) hw

theorem addr (d a b : SReg) (sh : BitVec 3) (off : BitVec 27) : Statement (.addr d a b sh off) := by
  intro hw _
  have l0 := sreg_lt d
  have l1 := sreg_lt a
  have l2 := sreg_lt b
  have l3 := sh.isLt
  have l4 := off.isLt
  exact enc1 (by decide) (by decide) (sreg_lt d) (sreg_lt a) (sreg_lt b) (by (try simp only [Nat.reducePow] at *) <;> omega) rfl rfl (by
    have a3 : BitVec.ofNat 3 (bits (sh.toNat + off.toNat * 8) 0 3) = sh := field_eq _ _ (by (try simp only [bits, Nat.reducePow] at *) <;> omega)
    have a4 : BitVec.ofNat 27 (bits (sh.toNat + off.toNat * 8) 3 27) = off := field_eq _ _ (by (try simp only [bits, Nat.reducePow] at *) <;> omega)
    simp only [sreg_field, a3, a4]) hw

theorem sel (d a : SReg) (b x : SReg) : Statement (.sel d a b x) := by
  intro hw _
  have l0 := sreg_lt d
  have l1 := sreg_lt a
  have l2 := sreg_lt b
  have l3 := sreg_lt x
  exact enc2 (by decide) (by decide) (sreg_lt d) (sreg_lt a) (sreg_lt b) (by decide) rfl rfl (by
    have a3 : sreg (x.field % 64) = x := by
      rw [show (x.field % 64) = x.field from by (try simp only [bits, Nat.reducePow] at *) <;> omega]; exact sreg_field x
    have hc : 0 = 0 ∧ bits x.field 6 26 = 0 := ⟨rfl, by (try simp only [bits, Nat.reducePow] at *) <;> omega⟩
    exact (if_pos (e := none) hc).trans (by simp only [sreg_field, a3])) hw

theorem bEq (a b : SReg) (off : BitVec 30) : Statement (.bEq a b off) := by
  intro hw _
  have l0 := sreg_lt a
  have l1 := sreg_lt b
  have l2 := off.isLt
  exact enc1 (by decide) (by decide) (by decide) (sreg_lt a) (sreg_lt b) (by (try simp only [Nat.reducePow] at *) <;> omega) rfl rfl (by
    have a2 : BitVec.ofNat 30 (bits off.toNat 0 30) = off := field_eq _ _ (by (try simp only [bits, Nat.reducePow] at *) <;> omega)
    have hc : 0 = 0 := rfl
    exact (if_pos (e := none) hc).trans (by simp only [sreg_field, a2])) hw

theorem bNe (a b : SReg) (off : BitVec 30) : Statement (.bNe a b off) := by
  intro hw _
  have l0 := sreg_lt a
  have l1 := sreg_lt b
  have l2 := off.isLt
  exact enc1 (by decide) (by decide) (by decide) (sreg_lt a) (sreg_lt b) (by (try simp only [Nat.reducePow] at *) <;> omega) rfl rfl (by
    have a2 : BitVec.ofNat 30 (bits off.toNat 0 30) = off := field_eq _ _ (by (try simp only [bits, Nat.reducePow] at *) <;> omega)
    have hc : 0 = 0 := rfl
    exact (if_pos (e := none) hc).trans (by simp only [sreg_field, a2])) hw

theorem bLt (a b : SReg) (off : BitVec 30) : Statement (.bLt a b off) := by
  intro hw _
  have l0 := sreg_lt a
  have l1 := sreg_lt b
  have l2 := off.isLt
  exact enc1 (by decide) (by decide) (by decide) (sreg_lt a) (sreg_lt b) (by (try simp only [Nat.reducePow] at *) <;> omega) rfl rfl (by
    have a2 : BitVec.ofNat 30 (bits off.toNat 0 30) = off := field_eq _ _ (by (try simp only [bits, Nat.reducePow] at *) <;> omega)
    have hc : 0 = 0 := rfl
    exact (if_pos (e := none) hc).trans (by simp only [sreg_field, a2])) hw

theorem bGe (a b : SReg) (off : BitVec 30) : Statement (.bGe a b off) := by
  intro hw _
  have l0 := sreg_lt a
  have l1 := sreg_lt b
  have l2 := off.isLt
  exact enc1 (by decide) (by decide) (by decide) (sreg_lt a) (sreg_lt b) (by (try simp only [Nat.reducePow] at *) <;> omega) rfl rfl (by
    have a2 : BitVec.ofNat 30 (bits off.toNat 0 30) = off := field_eq _ _ (by (try simp only [bits, Nat.reducePow] at *) <;> omega)
    have hc : 0 = 0 := rfl
    exact (if_pos (e := none) hc).trans (by simp only [sreg_field, a2])) hw

theorem bLtu (a b : SReg) (off : BitVec 30) : Statement (.bLtu a b off) := by
  intro hw _
  have l0 := sreg_lt a
  have l1 := sreg_lt b
  have l2 := off.isLt
  exact enc1 (by decide) (by decide) (by decide) (sreg_lt a) (sreg_lt b) (by (try simp only [Nat.reducePow] at *) <;> omega) rfl rfl (by
    have a2 : BitVec.ofNat 30 (bits off.toNat 0 30) = off := field_eq _ _ (by (try simp only [bits, Nat.reducePow] at *) <;> omega)
    have hc : 0 = 0 := rfl
    exact (if_pos (e := none) hc).trans (by simp only [sreg_field, a2])) hw

theorem bGeu (a b : SReg) (off : BitVec 30) : Statement (.bGeu a b off) := by
  intro hw _
  have l0 := sreg_lt a
  have l1 := sreg_lt b
  have l2 := off.isLt
  exact enc1 (by decide) (by decide) (by decide) (sreg_lt a) (sreg_lt b) (by (try simp only [Nat.reducePow] at *) <;> omega) rfl rfl (by
    have a2 : BitVec.ofNat 30 (bits off.toNat 0 30) = off := field_eq _ _ (by (try simp only [bits, Nat.reducePow] at *) <;> omega)
    have hc : 0 = 0 := rfl
    exact (if_pos (e := none) hc).trans (by simp only [sreg_field, a2])) hw

theorem bz (a : SReg) (off : BitVec 30) : Statement (.bz a off) := by
  intro hw _
  have l0 := sreg_lt a
  have l1 := off.isLt
  exact enc1 (by decide) (by decide) (by decide) (sreg_lt a) (by decide) (by (try simp only [Nat.reducePow] at *) <;> omega) rfl rfl (by
    have a1 : BitVec.ofNat 30 (bits off.toNat 0 30) = off := field_eq _ _ (by (try simp only [bits, Nat.reducePow] at *) <;> omega)
    have hc : 0 = 0 ∧ 0 = 0 := ⟨rfl, rfl⟩
    exact (if_pos (e := none) hc).trans (by simp only [sreg_field, a1])) hw

theorem bnz (a : SReg) (off : BitVec 30) : Statement (.bnz a off) := by
  intro hw _
  have l0 := sreg_lt a
  have l1 := off.isLt
  exact enc1 (by decide) (by decide) (by decide) (sreg_lt a) (by decide) (by (try simp only [Nat.reducePow] at *) <;> omega) rfl rfl (by
    have a1 : BitVec.ofNat 30 (bits off.toNat 0 30) = off := field_eq _ _ (by (try simp only [bits, Nat.reducePow] at *) <;> omega)
    have hc : 0 = 0 ∧ 0 = 0 := ⟨rfl, rfl⟩
    exact (if_pos (e := none) hc).trans (by simp only [sreg_field, a1])) hw

theorem br (off : BitVec 30) : Statement (.br off) := by
  intro hw _
  have l0 := off.isLt
  exact enc1 (by decide) (by decide) (by decide) (by decide) (by decide) (by (try simp only [Nat.reducePow] at *) <;> omega) rfl rfl (by
    have a0 : BitVec.ofNat 30 (bits off.toNat 0 30) = off := field_eq _ _ (by (try simp only [bits, Nat.reducePow] at *) <;> omega)
    have hc : 0 = 0 ∧ 0 = 0 ∧ 0 = 0 := ⟨rfl, rfl, rfl⟩
    exact (if_pos (e := none) hc).trans (by simp only [a0])) hw

theorem call (off : BitVec 30) : Statement (.call off) := by
  intro hw _
  have l0 := off.isLt
  exact enc1 (by decide) (by decide) (by decide) (by decide) (by decide) (by (try simp only [Nat.reducePow] at *) <;> omega) rfl rfl (by
    have a0 : BitVec.ofNat 30 (bits off.toNat 0 30) = off := field_eq _ _ (by (try simp only [bits, Nat.reducePow] at *) <;> omega)
    have hc : 0 = 0 ∧ 0 = 0 ∧ 0 = 0 := ⟨rfl, rfl, rfl⟩
    exact (if_pos (e := none) hc).trans (by simp only [a0])) hw

theorem jmp (a : SReg) : Statement (.jmp a) := by
  intro hw _
  exact enc1 (by decide) (by decide) (by decide) (sreg_lt a) (by decide) (by decide) rfl rfl (by
    have hc : 0 = 0 ∧ 0 = 0 ∧ 0 = 0 := ⟨rfl, rfl, rfl⟩
    exact (if_pos (e := none) hc).trans (by simp only [sreg_field])) hw

theorem calli (a : SReg) : Statement (.calli a) := by
  intro hw _
  exact enc1 (by decide) (by decide) (by decide) (sreg_lt a) (by decide) (by decide) rfl rfl (by
    have hc : 0 = 0 ∧ 0 = 0 ∧ 0 = 0 := ⟨rfl, rfl, rfl⟩
    exact (if_pos (e := none) hc).trans (by simp only [sreg_field])) hw

theorem ret : Statement (.ret) := by
  intro hw _
  exact enc1 (by decide) (by decide) (by decide) (by decide) (by decide) (by decide) rfl rfl (by
    have hc : 0 = 0 ∧ 0 = 0 ∧ 0 = 0 ∧ 0 = 0 := ⟨rfl, rfl, rfl, rfl⟩
    exact (if_pos (e := none) hc).trans rfl) hw

theorem nop : Statement (.nop) := by
  intro hw _
  exact enc1 (by decide) (by decide) (by decide) (by decide) (by decide) (by decide) rfl rfl (by
    have hc : 0 = 0 ∧ 0 = 0 ∧ 0 = 0 ∧ 0 = 0 := ⟨rfl, rfl, rfl, rfl⟩
    exact (if_pos (e := none) hc).trans rfl) hw

theorem loop (a : SReg) (off : BitVec 30) : Statement (.loop a off) := by
  intro hw _
  have l0 := sreg_lt a
  have l1 := off.isLt
  exact enc1 (by decide) (by decide) (by decide) (sreg_lt a) (by decide) (by (try simp only [Nat.reducePow] at *) <;> omega) rfl rfl (by
    have a1 : BitVec.ofNat 30 (bits off.toNat 0 30) = off := field_eq _ _ (by (try simp only [bits, Nat.reducePow] at *) <;> omega)
    have hc : 0 = 0 ∧ 0 = 0 := ⟨rfl, rfl⟩
    exact (if_pos (e := none) hc).trans (by simp only [sreg_field, a1])) hw

theorem mfs (d : SReg) (sr : BitVec 10) : Statement (.mfs d sr) := by
  intro hw _
  have l0 := sreg_lt d
  have l1 := sr.isLt
  exact enc1 (by decide) (by decide) (sreg_lt d) (by decide) (by decide) (by (try simp only [Nat.reducePow] at *) <;> omega) rfl rfl (by
    have a1 : BitVec.ofNat 10 (bits sr.toNat 0 10) = sr := field_eq _ _ (by (try simp only [bits, Nat.reducePow] at *) <;> omega)
    have hc : 0 = 0 ∧ 0 = 0 ∧ bits sr.toNat 10 20 = 0 := ⟨rfl, rfl, by (try simp only [bits, Nat.reducePow] at *) <;> omega⟩
    exact (if_pos (e := none) hc).trans (by simp only [sreg_field, a1])) hw

theorem mts (a : SReg) (sr : BitVec 10) : Statement (.mts a sr) := by
  intro hw _
  have l0 := sreg_lt a
  have l1 := sr.isLt
  exact enc1 (by decide) (by decide) (by decide) (sreg_lt a) (by decide) (by (try simp only [Nat.reducePow] at *) <;> omega) rfl rfl (by
    have a1 : BitVec.ofNat 10 (bits sr.toNat 0 10) = sr := field_eq _ _ (by (try simp only [bits, Nat.reducePow] at *) <;> omega)
    have hc : 0 = 0 ∧ 0 = 0 ∧ bits sr.toNat 10 20 = 0 := ⟨rfl, rfl, by (try simp only [bits, Nat.reducePow] at *) <;> omega⟩
    exact (if_pos (e := none) hc).trans (by simp only [sreg_field, a1])) hw

theorem trap (imm : BitVec 30) : Statement (.trap imm) := by
  intro hw _
  have l0 := imm.isLt
  exact enc1 (by decide) (by decide) (by decide) (by decide) (by decide) (by (try simp only [Nat.reducePow] at *) <;> omega) rfl rfl (by
    have a0 : BitVec.ofNat 30 (bits imm.toNat 0 30) = imm := field_eq _ _ (by (try simp only [bits, Nat.reducePow] at *) <;> omega)
    have hc : 0 = 0 ∧ 0 = 0 ∧ 0 = 0 := ⟨rfl, rfl, rfl⟩
    exact (if_pos (e := none) hc).trans (by simp only [a0])) hw

theorem svcRecv (d : SReg) : Statement (.svcRecv d) := by
  intro hw _
  exact enc1 (by decide) (by decide) (sreg_lt d) (by decide) (by decide) (by decide) rfl rfl (by
    have hc : 0 = 0 ∧ 0 = 0 ∧ 0 = 0 := ⟨rfl, rfl, rfl⟩
    exact (if_pos (e := none) hc).trans (by simp only [sreg_field])) hw

theorem svcReply (a b : SReg) (reply : Reply) : Statement (.svcReply a b reply) := by
  intro hw _
  have l0 := sreg_lt a
  have l1 := sreg_lt b
  have l2 := reply_lt reply
  exact enc1 (by decide) (by decide) (by decide) (sreg_lt a) (sreg_lt b) (by (try simp only [Nat.reducePow] at *) <;> omega) rfl rfl (by
    have b0 : Reply.ofCode (bits reply.code 0 2) = some reply := by
      rw [show (bits reply.code 0 2) = reply.code from by (try simp only [bits, Nat.reducePow] at *) <;> omega]; exact reply_code reply
    have hc : 0 = 0 ∧ bits reply.code 2 28 = 0 := ⟨rfl, by (try simp only [bits, Nat.reducePow] at *) <;> omega⟩
    exact (if_pos (e := none) hc).trans (by simp only [b0, sreg_field, Option.bind_eq_bind, Option.bind_some])) hw

theorem svcRd (d a : SReg) (space : BitVec 2) (n : BitVec 10) : Statement (.svcRd d a space n) := by
  intro hw _
  have l0 := sreg_lt d
  have l1 := sreg_lt a
  have l2 := space.isLt
  have l3 := n.isLt
  exact enc1 (by decide) (by decide) (sreg_lt d) (sreg_lt a) (by decide) (by (try simp only [Nat.reducePow] at *) <;> omega) rfl rfl (by
    have a2 : BitVec.ofNat 2 (bits (space.toNat * 4096 + n.toNat) 12 2) = space := field_eq _ _ (by (try simp only [bits, Nat.reducePow] at *) <;> omega)
    have a3 : BitVec.ofNat 10 (bits (space.toNat * 4096 + n.toNat) 0 10) = n := field_eq _ _ (by (try simp only [bits, Nat.reducePow] at *) <;> omega)
    have hc : 0 = 0 ∧ bits (space.toNat * 4096 + n.toNat) 10 2 = 0 ∧ bits (space.toNat * 4096 + n.toNat) 14 16 = 0 := ⟨rfl, by (try simp only [bits, Nat.reducePow] at *) <;> omega, by (try simp only [bits, Nat.reducePow] at *) <;> omega⟩
    exact (if_pos (e := none) hc).trans (by simp only [sreg_field, a2, a3])) hw

theorem svcWr (a b : SReg) (space : BitVec 2) (n : BitVec 10) : Statement (.svcWr a b space n) := by
  intro hw _
  have l0 := sreg_lt a
  have l1 := sreg_lt b
  have l2 := space.isLt
  have l3 := n.isLt
  exact enc1 (by decide) (by decide) (by decide) (sreg_lt a) (sreg_lt b) (by (try simp only [Nat.reducePow] at *) <;> omega) rfl rfl (by
    have a2 : BitVec.ofNat 2 (bits (space.toNat * 4096 + n.toNat) 12 2) = space := field_eq _ _ (by (try simp only [bits, Nat.reducePow] at *) <;> omega)
    have a3 : BitVec.ofNat 10 (bits (space.toNat * 4096 + n.toNat) 0 10) = n := field_eq _ _ (by (try simp only [bits, Nat.reducePow] at *) <;> omega)
    have hc : 0 = 0 ∧ bits (space.toNat * 4096 + n.toNat) 10 2 = 0 ∧ bits (space.toNat * 4096 + n.toNat) 14 16 = 0 := ⟨rfl, by (try simp only [bits, Nat.reducePow] at *) <;> omega, by (try simp only [bits, Nat.reducePow] at *) <;> omega⟩
    exact (if_pos (e := none) hc).trans (by simp only [sreg_field, a2, a3])) hw

theorem tcfg (d : TReg) (c : TCfg) : Statement (.tcfg d c) := by
  intro hw _
  have l0 := treg_lt d
  have l1 := tcfg_enc_lt c
  exact enc1 (by decide) (by decide) (treg_lt d) (by decide) (by decide) (by (try simp only [Nat.reducePow] at *) <;> omega) rfl rfl (by
    have hc : 0 = 0 ∧ 0 = 0 := ⟨rfl, rfl⟩
    exact (if_pos (e := none) hc).trans (by simp only [treg_field, tcfgArg_enc, Option.bind_eq_bind, Option.bind_some])) hw

theorem tzero (d : TReg) : Statement (.tzero d) := by
  intro hw _
  exact enc1 (by decide) (by decide) (treg_lt d) (by decide) (by decide) (by decide) rfl rfl (by
    have hc : 0 = 0 ∧ 0 = 0 ∧ 0 = 0 := ⟨rfl, rfl, rfl⟩
    exact (if_pos (e := none) hc).trans (by simp only [treg_field, Option.bind_eq_bind, Option.bind_some])) hw

theorem tfill (d : TReg) (a : SReg) : Statement (.tfill d a) := by
  intro hw _
  have l0 := treg_lt d
  have l1 := sreg_lt a
  exact enc1 (by decide) (by decide) (treg_lt d) (sreg_lt a) (by decide) (by decide) rfl rfl (by
    have hc : 0 = 0 ∧ bits 2 0 1 = 0 ∧ bits 2 2 28 = 0 ∧ bits 2 1 1 = 1 := ⟨rfl, by (try simp only [bits, Nat.reducePow] at *) <;> omega, by (try simp only [bits, Nat.reducePow] at *) <;> omega, by (try simp only [bits, Nat.reducePow] at *) <;> omega⟩
    exact (if_pos (e := none) hc).trans (by simp only [treg_field, sreg_field, Option.bind_eq_bind, Option.bind_some])) hw

theorem tmov (d a : TReg) : Statement (.tmov d a) := by
  intro hw _
  exact enc1 (by decide) (by decide) (treg_lt d) (treg_lt a) (by decide) (by decide) rfl rfl (by
    have hc : 0 = 0 ∧ 0 = 0 := ⟨rfl, rfl⟩
    exact (if_pos (e := none) hc).trans (by simp only [treg_field, Option.bind_eq_bind, Option.bind_some])) hw

theorem trowGet (d a : TReg) (b : SReg) (idx : BitVec 9) : Statement (.trowGet d a b idx) := by
  intro hw _
  have l0 := treg_lt d
  have l1 := treg_lt a
  have l2 := sreg_lt b
  have l3 := idx.isLt
  exact enc1 (by decide) (by decide) (treg_lt d) (treg_lt a) (sreg_lt b) (by (try simp only [Nat.reducePow] at *) <;> omega) rfl rfl (by
    have a3 : BitVec.ofNat 9 (bits (4 + idx.toNat * 16) 4 9) = idx := field_eq _ _ (by (try simp only [bits, Nat.reducePow] at *) <;> omega)
    have hc : bits (4 + idx.toNat * 16) 0 2 = 0 ∧ bits (4 + idx.toNat * 16) 3 1 = 0 ∧ bits (4 + idx.toNat * 16) 13 17 = 0 ∧ bits (4 + idx.toNat * 16) 2 1 = 1 := ⟨by (try simp only [bits, Nat.reducePow] at *) <;> omega, by (try simp only [bits, Nat.reducePow] at *) <;> omega, by (try simp only [bits, Nat.reducePow] at *) <;> omega, by (try simp only [bits, Nat.reducePow] at *) <;> omega⟩
    exact (if_pos (e := none) hc).trans (by simp only [treg_field, sreg_field, a3, Option.bind_eq_bind, Option.bind_some])) hw

theorem trowPut (d a : TReg) (b : SReg) (idx : BitVec 9) : Statement (.trowPut d a b idx) := by
  intro hw _
  have l0 := treg_lt d
  have l1 := treg_lt a
  have l2 := sreg_lt b
  have l3 := idx.isLt
  exact enc1 (by decide) (by decide) (treg_lt d) (treg_lt a) (sreg_lt b) (by (try simp only [Nat.reducePow] at *) <;> omega) rfl rfl (by
    have a3 : BitVec.ofNat 9 (bits (4 + idx.toNat * 16) 4 9) = idx := field_eq _ _ (by (try simp only [bits, Nat.reducePow] at *) <;> omega)
    have hc : bits (4 + idx.toNat * 16) 0 2 = 0 ∧ bits (4 + idx.toNat * 16) 3 1 = 0 ∧ bits (4 + idx.toNat * 16) 13 17 = 0 ∧ bits (4 + idx.toNat * 16) 2 1 = 1 := ⟨by (try simp only [bits, Nat.reducePow] at *) <;> omega, by (try simp only [bits, Nat.reducePow] at *) <;> omega, by (try simp only [bits, Nat.reducePow] at *) <;> omega, by (try simp only [bits, Nat.reducePow] at *) <;> omega⟩
    exact (if_pos (e := none) hc).trans (by simp only [treg_field, sreg_field, a3, Option.bind_eq_bind, Option.bind_some])) hw

theorem tcolGet (d a : TReg) (b : SReg) (idx : BitVec 9) : Statement (.tcolGet d a b idx) := by
  intro hw _
  have l0 := treg_lt d
  have l1 := treg_lt a
  have l2 := sreg_lt b
  have l3 := idx.isLt
  exact enc1 (by decide) (by decide) (treg_lt d) (treg_lt a) (sreg_lt b) (by (try simp only [Nat.reducePow] at *) <;> omega) rfl rfl (by
    have a3 : BitVec.ofNat 9 (bits (4 + idx.toNat * 16) 4 9) = idx := field_eq _ _ (by (try simp only [bits, Nat.reducePow] at *) <;> omega)
    have hc : bits (4 + idx.toNat * 16) 0 2 = 0 ∧ bits (4 + idx.toNat * 16) 3 1 = 0 ∧ bits (4 + idx.toNat * 16) 13 17 = 0 ∧ bits (4 + idx.toNat * 16) 2 1 = 1 := ⟨by (try simp only [bits, Nat.reducePow] at *) <;> omega, by (try simp only [bits, Nat.reducePow] at *) <;> omega, by (try simp only [bits, Nat.reducePow] at *) <;> omega, by (try simp only [bits, Nat.reducePow] at *) <;> omega⟩
    exact (if_pos (e := none) hc).trans (by simp only [treg_field, sreg_field, a3, Option.bind_eq_bind, Option.bind_some])) hw

theorem tcolPut (d a : TReg) (b : SReg) (idx : BitVec 9) : Statement (.tcolPut d a b idx) := by
  intro hw _
  have l0 := treg_lt d
  have l1 := treg_lt a
  have l2 := sreg_lt b
  have l3 := idx.isLt
  exact enc1 (by decide) (by decide) (treg_lt d) (treg_lt a) (sreg_lt b) (by (try simp only [Nat.reducePow] at *) <;> omega) rfl rfl (by
    have a3 : BitVec.ofNat 9 (bits (4 + idx.toNat * 16) 4 9) = idx := field_eq _ _ (by (try simp only [bits, Nat.reducePow] at *) <;> omega)
    have hc : bits (4 + idx.toNat * 16) 0 2 = 0 ∧ bits (4 + idx.toNat * 16) 3 1 = 0 ∧ bits (4 + idx.toNat * 16) 13 17 = 0 ∧ bits (4 + idx.toNat * 16) 2 1 = 1 := ⟨by (try simp only [bits, Nat.reducePow] at *) <;> omega, by (try simp only [bits, Nat.reducePow] at *) <;> omega, by (try simp only [bits, Nat.reducePow] at *) <;> omega, by (try simp only [bits, Nat.reducePow] at *) <;> omega⟩
    exact (if_pos (e := none) hc).trans (by simp only [treg_field, sreg_field, a3, Option.bind_eq_bind, Option.bind_some])) hw

theorem ttrans (d a : TReg) : Statement (.ttrans d a) := by
  intro hw _
  exact enc1 (by decide) (by decide) (treg_lt d) (treg_lt a) (by decide) (by decide) rfl rfl (by
    have hc : 0 = 0 ∧ 0 = 0 := ⟨rfl, rfl⟩
    exact (if_pos (e := none) hc).trans (by simp only [treg_field, Option.bind_eq_bind, Option.bind_some])) hw

theorem tbcast (d a : TReg) : Statement (.tbcast d a) := by
  intro hw _
  exact enc1 (by decide) (by decide) (treg_lt d) (treg_lt a) (by decide) (by decide) rfl rfl (by
    have hc : 0 = 0 ∧ 0 = 0 := ⟨rfl, rfl⟩
    exact (if_pos (e := none) hc).trans (by simp only [treg_field, Option.bind_eq_bind, Option.bind_some])) hw

theorem tcvt (d a : TS) (sc : Bool) : Statement (.tcvt d a sc) := by
  intro hw _
  have l0 := ts_lt d
  have l1 := kind_lt d
  have l2 := ts_lt a
  have l3 := kind_lt a
  have l4 := bool_lt sc
  exact enc1 (by decide) (by decide) (ts_lt d) (ts_lt a) (by decide) (by (try simp only [Nat.reducePow] at *) <;> omega) rfl rfl (by
    have b0 : tsreg (bits (d.kind + a.kind * 2 + sc.toNat * 16) 0 1) d.field = some d := by
      rw [show (bits (d.kind + a.kind * 2 + sc.toNat * 16) 0 1) = d.kind from by (try simp only [bits, Nat.reducePow] at *) <;> omega]; exact tsreg_field d
    have b1 : tsreg (bits (d.kind + a.kind * 2 + sc.toNat * 16) 1 1) a.field = some a := by
      rw [show (bits (d.kind + a.kind * 2 + sc.toNat * 16) 1 1) = a.kind from by (try simp only [bits, Nat.reducePow] at *) <;> omega]; exact tsreg_field a
    have a2 : decide ((bits (d.kind + a.kind * 2 + sc.toNat * 16) 4 1) = 1) = sc := flag_eq _ _ (by (try simp only [bits, Nat.reducePow] at *) <;> omega)
    have hc : 0 = 0 ∧ bits (d.kind + a.kind * 2 + sc.toNat * 16) 2 2 = 0 ∧ bits (d.kind + a.kind * 2 + sc.toNat * 16) 5 25 = 0 := ⟨rfl, by (try simp only [bits, Nat.reducePow] at *) <;> omega, by (try simp only [bits, Nat.reducePow] at *) <;> omega⟩
    exact (if_pos (e := none) hc).trans (by simp only [b0, b1, a2, Option.bind_eq_bind, Option.bind_some])) hw

theorem tsclGet (d a : TReg) : Statement (.tsclGet d a) := by
  intro hw _
  exact enc1 (by decide) (by decide) (treg_lt d) (treg_lt a) (by decide) (by decide) rfl rfl (by
    have hc : 0 = 0 ∧ 0 = 0 := ⟨rfl, rfl⟩
    exact (if_pos (e := none) hc).trans (by simp only [treg_field, Option.bind_eq_bind, Option.bind_some])) hw

theorem tsclPut (d a : TReg) : Statement (.tsclPut d a) := by
  intro hw _
  exact enc1 (by decide) (by decide) (treg_lt d) (treg_lt a) (by decide) (by decide) rfl rfl (by
    have hc : 0 = 0 ∧ 0 = 0 := ⟨rfl, rfl⟩
    exact (if_pos (e := none) hc).trans (by simp only [treg_field, Option.bind_eq_bind, Option.bind_some])) hw

theorem kedge (d : KReg) (a b : SReg) : Statement (.kedge d a b) := by
  intro hw _
  have l0 := d.isLt
  have l1 := sreg_lt a
  have l2 := sreg_lt b
  exact enc1 (by decide) (by decide) (by omega) (sreg_lt a) (sreg_lt b) (by decide) rfl rfl (by
    have hc : bits 6 0 1 = 0 ∧ bits 6 3 27 = 0 ∧ bits 6 1 1 = 1 ∧ bits 6 2 1 = 1 := ⟨by (try simp only [bits, Nat.reducePow] at *) <;> omega, by (try simp only [bits, Nat.reducePow] at *) <;> omega, by (try simp only [bits, Nat.reducePow] at *) <;> omega, by (try simp only [bits, Nat.reducePow] at *) <;> omega⟩
    exact (if_pos (e := none) hc).trans (by simp only [kreg_val, sreg_field, Option.bind_eq_bind, Option.bind_some])) hw

theorem kand (d a b : KReg) : Statement (.kand d a b) := by
  intro hw _
  have l0 := d.isLt
  have l1 := a.isLt
  have l2 := b.isLt
  exact enc1 (by decide) (by decide) (by omega) (by omega) (by omega) (by decide) rfl rfl (by
    have hc : 0 = 0 := rfl
    exact (if_pos (e := none) hc).trans (by simp only [kreg_val, Option.bind_eq_bind, Option.bind_some])) hw

theorem kor (d a b : KReg) : Statement (.kor d a b) := by
  intro hw _
  have l0 := d.isLt
  have l1 := a.isLt
  have l2 := b.isLt
  exact enc1 (by decide) (by decide) (by omega) (by omega) (by omega) (by decide) rfl rfl (by
    have hc : 0 = 0 := rfl
    exact (if_pos (e := none) hc).trans (by simp only [kreg_val, Option.bind_eq_bind, Option.bind_some])) hw

theorem knot (d a : KReg) : Statement (.knot d a) := by
  intro hw _
  have l0 := d.isLt
  have l1 := a.isLt
  exact enc1 (by decide) (by decide) (by omega) (by omega) (by decide) (by decide) rfl rfl (by
    have hc : 0 = 0 ∧ 0 = 0 := ⟨rfl, rfl⟩
    exact (if_pos (e := none) hc).trans (by simp only [kreg_val, Option.bind_eq_bind, Option.bind_some])) hw

theorem kxor (d a b : KReg) : Statement (.kxor d a b) := by
  intro hw _
  have l0 := d.isLt
  have l1 := a.isLt
  have l2 := b.isLt
  exact enc1 (by decide) (by decide) (by omega) (by omega) (by omega) (by decide) rfl rfl (by
    have hc : 0 = 0 := rfl
    exact (if_pos (e := none) hc).trans (by simp only [kreg_val, Option.bind_eq_bind, Option.bind_some])) hw

theorem kcnt (d : SReg) (a : KReg) : Statement (.kcnt d a) := by
  intro hw _
  have l0 := sreg_lt d
  have l1 := a.isLt
  exact enc1 (by decide) (by decide) (sreg_lt d) (by omega) (by decide) (by decide) rfl rfl (by
    have hc : 0 = 0 ∧ bits 1 1 29 = 0 ∧ bits 1 0 1 = 1 := ⟨rfl, by (try simp only [bits, Nat.reducePow] at *) <;> omega, by (try simp only [bits, Nat.reducePow] at *) <;> omega⟩
    exact (if_pos (e := none) hc).trans (by simp only [kreg_val, sreg_field, Option.bind_eq_bind, Option.bind_some])) hw

theorem tld (d : TReg) (a b x : SReg) (off : BitVec 30) (nt : Bool) : Statement (.tld d a b x off nt) := by
  intro hw _
  have l0 := treg_lt d
  have l1 := sreg_lt a
  have l2 := sreg_lt b
  have l3 := sreg_lt x
  have l4 := off.isLt
  have l5 := bool_lt nt
  exact enc2 (by decide) (by decide) (treg_lt d) (sreg_lt a) (sreg_lt b) (by (try simp only [Nat.reducePow] at *) <;> omega) rfl rfl (by
    have a3 : sreg ((x.field + nt.toNat * 4096) % 64) = x := by
      rw [show ((x.field + nt.toNat * 4096) % 64) = x.field from by (try simp only [bits, Nat.reducePow] at *) <;> omega]; exact sreg_field x
    have a4 : BitVec.ofNat 30 (bits off.toNat 0 30) = off := field_eq _ _ (by (try simp only [bits, Nat.reducePow] at *) <;> omega)
    have a5 : decide ((bits (x.field + nt.toNat * 4096) 12 1) = 1) = nt := flag_eq _ _ (by (try simp only [bits, Nat.reducePow] at *) <;> omega)
    have hc : bits (x.field + nt.toNat * 4096) 6 6 = 0 ∧ bits (x.field + nt.toNat * 4096) 13 19 = 0 := ⟨by (try simp only [bits, Nat.reducePow] at *) <;> omega, by (try simp only [bits, Nat.reducePow] at *) <;> omega⟩
    exact (if_pos (e := none) hc).trans (by simp only [treg_field, sreg_field, a3, a4, a5, Option.bind_eq_bind, Option.bind_some])) hw

theorem tst (d : TReg) (a b x : SReg) (off : BitVec 30) (nt : Bool) : Statement (.tst d a b x off nt) := by
  intro hw _
  have l0 := treg_lt d
  have l1 := sreg_lt a
  have l2 := sreg_lt b
  have l3 := sreg_lt x
  have l4 := off.isLt
  have l5 := bool_lt nt
  exact enc2 (by decide) (by decide) (treg_lt d) (sreg_lt a) (sreg_lt b) (by (try simp only [Nat.reducePow] at *) <;> omega) rfl rfl (by
    have a3 : sreg ((x.field + nt.toNat * 4096) % 64) = x := by
      rw [show ((x.field + nt.toNat * 4096) % 64) = x.field from by (try simp only [bits, Nat.reducePow] at *) <;> omega]; exact sreg_field x
    have a4 : BitVec.ofNat 30 (bits off.toNat 0 30) = off := field_eq _ _ (by (try simp only [bits, Nat.reducePow] at *) <;> omega)
    have a5 : decide ((bits (x.field + nt.toNat * 4096) 12 1) = 1) = nt := flag_eq _ _ (by (try simp only [bits, Nat.reducePow] at *) <;> omega)
    have hc : bits (x.field + nt.toNat * 4096) 6 6 = 0 ∧ bits (x.field + nt.toNat * 4096) 13 19 = 0 := ⟨by (try simp only [bits, Nat.reducePow] at *) <;> omega, by (try simp only [bits, Nat.reducePow] at *) <;> omega⟩
    exact (if_pos (e := none) hc).trans (by simp only [treg_field, sreg_field, a3, a4, a5, Option.bind_eq_bind, Option.bind_some])) hw

theorem tldm (d : TReg) (a b x : SReg) (off : BitVec 30) : Statement (.tldm d a b x off) := by
  intro hw _
  have l0 := treg_lt d
  have l1 := sreg_lt a
  have l2 := sreg_lt b
  have l3 := sreg_lt x
  have l4 := off.isLt
  exact enc2 (by decide) (by decide) (treg_lt d) (sreg_lt a) (sreg_lt b) (by (try simp only [Nat.reducePow] at *) <;> omega) rfl rfl (by
    have a3 : sreg (x.field % 64) = x := by
      rw [show (x.field % 64) = x.field from by (try simp only [bits, Nat.reducePow] at *) <;> omega]; exact sreg_field x
    have a4 : BitVec.ofNat 30 (bits off.toNat 0 30) = off := field_eq _ _ (by (try simp only [bits, Nat.reducePow] at *) <;> omega)
    have hc : bits x.field 6 26 = 0 := by (try simp only [bits, Nat.reducePow] at *) <;> omega
    exact (if_pos (e := none) hc).trans (by simp only [treg_field, sreg_field, a3, a4, Option.bind_eq_bind, Option.bind_some])) hw

theorem tstm (d : TReg) (a b x : SReg) (off : BitVec 30) : Statement (.tstm d a b x off) := by
  intro hw _
  have l0 := treg_lt d
  have l1 := sreg_lt a
  have l2 := sreg_lt b
  have l3 := sreg_lt x
  have l4 := off.isLt
  exact enc2 (by decide) (by decide) (treg_lt d) (sreg_lt a) (sreg_lt b) (by (try simp only [Nat.reducePow] at *) <;> omega) rfl rfl (by
    have a3 : sreg (x.field % 64) = x := by
      rw [show (x.field % 64) = x.field from by (try simp only [bits, Nat.reducePow] at *) <;> omega]; exact sreg_field x
    have a4 : BitVec.ofNat 30 (bits off.toNat 0 30) = off := field_eq _ _ (by (try simp only [bits, Nat.reducePow] at *) <;> omega)
    have hc : bits x.field 6 26 = 0 := by (try simp only [bits, Nat.reducePow] at *) <;> omega
    exact (if_pos (e := none) hc).trans (by simp only [treg_field, sreg_field, a3, a4, Option.bind_eq_bind, Option.bind_some])) hw

theorem tcbLd (n : Fin 4) (a : SReg) (off : BitVec 30) : Statement (.tcbLd n a off) := by
  intro hw _
  have l0 := n.isLt
  have l1 := sreg_lt a
  have l2 := off.isLt
  exact enc2 (by decide) (by decide) (by omega) (sreg_lt a) (by decide) (by (try simp only [Nat.reducePow] at *) <;> omega) rfl rfl (by
    have a2 : BitVec.ofNat 30 (bits off.toNat 0 30) = off := field_eq _ _ (by (try simp only [bits, Nat.reducePow] at *) <;> omega)
    have hc : 0 = 0 ∧ 0 = 0 := ⟨rfl, rfl⟩
    exact (if_pos (e := none) hc).trans (by simp only [cbreg_val, sreg_field, a2, Option.bind_eq_bind, Option.bind_some])) hw

theorem tadd (d : TReg) (a b : TS) : Statement (.tadd d a b) := by
  intro hw _
  have l0 := treg_lt d
  have l1 := ts_lt a
  have l2 := kind_lt a
  have l3 := ts_lt b
  have l4 := kind_lt b
  exact enc1 (by decide) (by decide) (treg_lt d) (ts_lt a) (ts_lt b) (by (try simp only [Nat.reducePow] at *) <;> omega) rfl rfl (by
    have b1 : tsreg (bits (a.kind * 2 + b.kind * 4) 1 1) a.field = some a := by
      rw [show (bits (a.kind * 2 + b.kind * 4) 1 1) = a.kind from by (try simp only [bits, Nat.reducePow] at *) <;> omega]; exact tsreg_field a
    have b2 : tsreg (bits (a.kind * 2 + b.kind * 4) 2 1) b.field = some b := by
      rw [show (bits (a.kind * 2 + b.kind * 4) 2 1) = b.kind from by (try simp only [bits, Nat.reducePow] at *) <;> omega]; exact tsreg_field b
    have hc : bits (a.kind * 2 + b.kind * 4) 0 1 = 0 ∧ bits (a.kind * 2 + b.kind * 4) 3 27 = 0 := ⟨by (try simp only [bits, Nat.reducePow] at *) <;> omega, by (try simp only [bits, Nat.reducePow] at *) <;> omega⟩
    exact (if_pos (e := none) hc).trans (by simp only [treg_field, b1, b2, Option.bind_eq_bind, Option.bind_some])) hw

theorem tsub (d : TReg) (a b : TS) : Statement (.tsub d a b) := by
  intro hw _
  have l0 := treg_lt d
  have l1 := ts_lt a
  have l2 := kind_lt a
  have l3 := ts_lt b
  have l4 := kind_lt b
  exact enc1 (by decide) (by decide) (treg_lt d) (ts_lt a) (ts_lt b) (by (try simp only [Nat.reducePow] at *) <;> omega) rfl rfl (by
    have b1 : tsreg (bits (a.kind * 2 + b.kind * 4) 1 1) a.field = some a := by
      rw [show (bits (a.kind * 2 + b.kind * 4) 1 1) = a.kind from by (try simp only [bits, Nat.reducePow] at *) <;> omega]; exact tsreg_field a
    have b2 : tsreg (bits (a.kind * 2 + b.kind * 4) 2 1) b.field = some b := by
      rw [show (bits (a.kind * 2 + b.kind * 4) 2 1) = b.kind from by (try simp only [bits, Nat.reducePow] at *) <;> omega]; exact tsreg_field b
    have hc : bits (a.kind * 2 + b.kind * 4) 0 1 = 0 ∧ bits (a.kind * 2 + b.kind * 4) 3 27 = 0 := ⟨by (try simp only [bits, Nat.reducePow] at *) <;> omega, by (try simp only [bits, Nat.reducePow] at *) <;> omega⟩
    exact (if_pos (e := none) hc).trans (by simp only [treg_field, b1, b2, Option.bind_eq_bind, Option.bind_some])) hw

theorem tmul (d : TReg) (a b : TS) : Statement (.tmul d a b) := by
  intro hw _
  have l0 := treg_lt d
  have l1 := ts_lt a
  have l2 := kind_lt a
  have l3 := ts_lt b
  have l4 := kind_lt b
  exact enc1 (by decide) (by decide) (treg_lt d) (ts_lt a) (ts_lt b) (by (try simp only [Nat.reducePow] at *) <;> omega) rfl rfl (by
    have b1 : tsreg (bits (a.kind * 2 + b.kind * 4) 1 1) a.field = some a := by
      rw [show (bits (a.kind * 2 + b.kind * 4) 1 1) = a.kind from by (try simp only [bits, Nat.reducePow] at *) <;> omega]; exact tsreg_field a
    have b2 : tsreg (bits (a.kind * 2 + b.kind * 4) 2 1) b.field = some b := by
      rw [show (bits (a.kind * 2 + b.kind * 4) 2 1) = b.kind from by (try simp only [bits, Nat.reducePow] at *) <;> omega]; exact tsreg_field b
    have hc : bits (a.kind * 2 + b.kind * 4) 0 1 = 0 ∧ bits (a.kind * 2 + b.kind * 4) 3 27 = 0 := ⟨by (try simp only [bits, Nat.reducePow] at *) <;> omega, by (try simp only [bits, Nat.reducePow] at *) <;> omega⟩
    exact (if_pos (e := none) hc).trans (by simp only [treg_field, b1, b2, Option.bind_eq_bind, Option.bind_some])) hw

theorem tdiv (d : TReg) (a b : TS) : Statement (.tdiv d a b) := by
  intro hw _
  have l0 := treg_lt d
  have l1 := ts_lt a
  have l2 := kind_lt a
  have l3 := ts_lt b
  have l4 := kind_lt b
  exact enc1 (by decide) (by decide) (treg_lt d) (ts_lt a) (ts_lt b) (by (try simp only [Nat.reducePow] at *) <;> omega) rfl rfl (by
    have b1 : tsreg (bits (a.kind * 2 + b.kind * 4) 1 1) a.field = some a := by
      rw [show (bits (a.kind * 2 + b.kind * 4) 1 1) = a.kind from by (try simp only [bits, Nat.reducePow] at *) <;> omega]; exact tsreg_field a
    have b2 : tsreg (bits (a.kind * 2 + b.kind * 4) 2 1) b.field = some b := by
      rw [show (bits (a.kind * 2 + b.kind * 4) 2 1) = b.kind from by (try simp only [bits, Nat.reducePow] at *) <;> omega]; exact tsreg_field b
    have hc : bits (a.kind * 2 + b.kind * 4) 0 1 = 0 ∧ bits (a.kind * 2 + b.kind * 4) 3 27 = 0 := ⟨by (try simp only [bits, Nat.reducePow] at *) <;> omega, by (try simp only [bits, Nat.reducePow] at *) <;> omega⟩
    exact (if_pos (e := none) hc).trans (by simp only [treg_field, b1, b2, Option.bind_eq_bind, Option.bind_some])) hw

theorem tmax (d : TReg) (a b : TS) : Statement (.tmax d a b) := by
  intro hw _
  have l0 := treg_lt d
  have l1 := ts_lt a
  have l2 := kind_lt a
  have l3 := ts_lt b
  have l4 := kind_lt b
  exact enc1 (by decide) (by decide) (treg_lt d) (ts_lt a) (ts_lt b) (by (try simp only [Nat.reducePow] at *) <;> omega) rfl rfl (by
    have b1 : tsreg (bits (a.kind * 2 + b.kind * 4) 1 1) a.field = some a := by
      rw [show (bits (a.kind * 2 + b.kind * 4) 1 1) = a.kind from by (try simp only [bits, Nat.reducePow] at *) <;> omega]; exact tsreg_field a
    have b2 : tsreg (bits (a.kind * 2 + b.kind * 4) 2 1) b.field = some b := by
      rw [show (bits (a.kind * 2 + b.kind * 4) 2 1) = b.kind from by (try simp only [bits, Nat.reducePow] at *) <;> omega]; exact tsreg_field b
    have hc : bits (a.kind * 2 + b.kind * 4) 0 1 = 0 ∧ bits (a.kind * 2 + b.kind * 4) 3 27 = 0 := ⟨by (try simp only [bits, Nat.reducePow] at *) <;> omega, by (try simp only [bits, Nat.reducePow] at *) <;> omega⟩
    exact (if_pos (e := none) hc).trans (by simp only [treg_field, b1, b2, Option.bind_eq_bind, Option.bind_some])) hw

theorem tmin (d : TReg) (a b : TS) : Statement (.tmin d a b) := by
  intro hw _
  have l0 := treg_lt d
  have l1 := ts_lt a
  have l2 := kind_lt a
  have l3 := ts_lt b
  have l4 := kind_lt b
  exact enc1 (by decide) (by decide) (treg_lt d) (ts_lt a) (ts_lt b) (by (try simp only [Nat.reducePow] at *) <;> omega) rfl rfl (by
    have b1 : tsreg (bits (a.kind * 2 + b.kind * 4) 1 1) a.field = some a := by
      rw [show (bits (a.kind * 2 + b.kind * 4) 1 1) = a.kind from by (try simp only [bits, Nat.reducePow] at *) <;> omega]; exact tsreg_field a
    have b2 : tsreg (bits (a.kind * 2 + b.kind * 4) 2 1) b.field = some b := by
      rw [show (bits (a.kind * 2 + b.kind * 4) 2 1) = b.kind from by (try simp only [bits, Nat.reducePow] at *) <;> omega]; exact tsreg_field b
    have hc : bits (a.kind * 2 + b.kind * 4) 0 1 = 0 ∧ bits (a.kind * 2 + b.kind * 4) 3 27 = 0 := ⟨by (try simp only [bits, Nat.reducePow] at *) <;> omega, by (try simp only [bits, Nat.reducePow] at *) <;> omega⟩
    exact (if_pos (e := none) hc).trans (by simp only [treg_field, b1, b2, Option.bind_eq_bind, Option.bind_some])) hw

theorem tfma (d : TReg) (a b x : TS) : Statement (.tfma d a b x) := by
  intro hw _
  have l0 := treg_lt d
  have l1 := ts_lt a
  have l2 := kind_lt a
  have l3 := ts_lt b
  have l4 := kind_lt b
  have l5 := ts_lt x
  have l6 := kind_lt x
  exact enc2 (by decide) (by decide) (treg_lt d) (ts_lt a) (ts_lt b) (by (try simp only [Nat.reducePow] at *) <;> omega) rfl rfl (by
    have b1 : tsreg (bits (a.kind * 2 + b.kind * 4 + x.kind * 8) 1 1) a.field = some a := by
      rw [show (bits (a.kind * 2 + b.kind * 4 + x.kind * 8) 1 1) = a.kind from by (try simp only [bits, Nat.reducePow] at *) <;> omega]; exact tsreg_field a
    have b2 : tsreg (bits (a.kind * 2 + b.kind * 4 + x.kind * 8) 2 1) b.field = some b := by
      rw [show (bits (a.kind * 2 + b.kind * 4 + x.kind * 8) 2 1) = b.kind from by (try simp only [bits, Nat.reducePow] at *) <;> omega]; exact tsreg_field b
    have b3 : tsreg (bits (a.kind * 2 + b.kind * 4 + x.kind * 8) 3 1) (x.field % 64) = some x := by
      rw [show (bits (a.kind * 2 + b.kind * 4 + x.kind * 8) 3 1) = x.kind from by (try simp only [bits, Nat.reducePow] at *) <;> omega, show (x.field % 64) = x.field from by (try simp only [bits, Nat.reducePow] at *) <;> omega]; exact tsreg_field x
    have hc : bits (a.kind * 2 + b.kind * 4 + x.kind * 8) 0 1 = 0 ∧ bits (a.kind * 2 + b.kind * 4 + x.kind * 8) 4 26 = 0 ∧ bits x.field 6 26 = 0 := ⟨by (try simp only [bits, Nat.reducePow] at *) <;> omega, by (try simp only [bits, Nat.reducePow] at *) <;> omega, by (try simp only [bits, Nat.reducePow] at *) <;> omega⟩
    exact (if_pos (e := none) hc).trans (by simp only [treg_field, b1, b2, b3, Option.bind_eq_bind, Option.bind_some])) hw

theorem tsel (d : TReg) (a b : TS) (k : KReg) : Statement (.tsel d a b k) := by
  intro hw _
  have l0 := treg_lt d
  have l1 := ts_lt a
  have l2 := kind_lt a
  have l3 := ts_lt b
  have l4 := kind_lt b
  have l5 := k.isLt
  exact enc2 (by decide) (by decide) (treg_lt d) (ts_lt a) (ts_lt b) (by (try simp only [Nat.reducePow] at *) <;> omega) rfl rfl (by
    have b1 : tsreg (bits (a.kind * 2 + b.kind * 4) 1 1) a.field = some a := by
      rw [show (bits (a.kind * 2 + b.kind * 4) 1 1) = a.kind from by (try simp only [bits, Nat.reducePow] at *) <;> omega]; exact tsreg_field a
    have b2 : tsreg (bits (a.kind * 2 + b.kind * 4) 2 1) b.field = some b := by
      rw [show (bits (a.kind * 2 + b.kind * 4) 2 1) = b.kind from by (try simp only [bits, Nat.reducePow] at *) <;> omega]; exact tsreg_field b
    have b3 : kreg (k.val % 64) = some k := by
      rw [show (k.val % 64) = k.val from by (try simp only [bits, Nat.reducePow] at *) <;> omega]; exact kreg_val k
    have hc : bits (a.kind * 2 + b.kind * 4) 0 1 = 0 ∧ bits (a.kind * 2 + b.kind * 4) 3 27 = 0 ∧ bits k.val 6 26 = 0 := ⟨by (try simp only [bits, Nat.reducePow] at *) <;> omega, by (try simp only [bits, Nat.reducePow] at *) <;> omega, by (try simp only [bits, Nat.reducePow] at *) <;> omega⟩
    exact (if_pos (e := none) hc).trans (by simp only [treg_field, b1, b2, b3, Option.bind_eq_bind, Option.bind_some])) hw

theorem tsqrt (d : TReg) (a : TS) : Statement (.tsqrt d a) := by
  intro hw _
  have l0 := treg_lt d
  have l1 := ts_lt a
  have l2 := kind_lt a
  exact enc1 (by decide) (by decide) (treg_lt d) (ts_lt a) (by decide) (by (try simp only [Nat.reducePow] at *) <;> omega) rfl rfl (by
    have b1 : tsreg (bits (a.kind * 2) 1 1) a.field = some a := by
      rw [show (bits (a.kind * 2) 1 1) = a.kind from by (try simp only [bits, Nat.reducePow] at *) <;> omega]; exact tsreg_field a
    have hc : 0 = 0 ∧ bits (a.kind * 2) 0 1 = 0 ∧ bits (a.kind * 2) 2 28 = 0 := ⟨rfl, by (try simp only [bits, Nat.reducePow] at *) <;> omega, by (try simp only [bits, Nat.reducePow] at *) <;> omega⟩
    exact (if_pos (e := none) hc).trans (by simp only [treg_field, b1, Option.bind_eq_bind, Option.bind_some])) hw

theorem trsqrt (d : TReg) (a : TS) : Statement (.trsqrt d a) := by
  intro hw _
  have l0 := treg_lt d
  have l1 := ts_lt a
  have l2 := kind_lt a
  exact enc1 (by decide) (by decide) (treg_lt d) (ts_lt a) (by decide) (by (try simp only [Nat.reducePow] at *) <;> omega) rfl rfl (by
    have b1 : tsreg (bits (a.kind * 2) 1 1) a.field = some a := by
      rw [show (bits (a.kind * 2) 1 1) = a.kind from by (try simp only [bits, Nat.reducePow] at *) <;> omega]; exact tsreg_field a
    have hc : 0 = 0 ∧ bits (a.kind * 2) 0 1 = 0 ∧ bits (a.kind * 2) 2 28 = 0 := ⟨rfl, by (try simp only [bits, Nat.reducePow] at *) <;> omega, by (try simp only [bits, Nat.reducePow] at *) <;> omega⟩
    exact (if_pos (e := none) hc).trans (by simp only [treg_field, b1, Option.bind_eq_bind, Option.bind_some])) hw

theorem trcp (d : TReg) (a : TS) : Statement (.trcp d a) := by
  intro hw _
  have l0 := treg_lt d
  have l1 := ts_lt a
  have l2 := kind_lt a
  exact enc1 (by decide) (by decide) (treg_lt d) (ts_lt a) (by decide) (by (try simp only [Nat.reducePow] at *) <;> omega) rfl rfl (by
    have b1 : tsreg (bits (a.kind * 2) 1 1) a.field = some a := by
      rw [show (bits (a.kind * 2) 1 1) = a.kind from by (try simp only [bits, Nat.reducePow] at *) <;> omega]; exact tsreg_field a
    have hc : 0 = 0 ∧ bits (a.kind * 2) 0 1 = 0 ∧ bits (a.kind * 2) 2 28 = 0 := ⟨rfl, by (try simp only [bits, Nat.reducePow] at *) <;> omega, by (try simp only [bits, Nat.reducePow] at *) <;> omega⟩
    exact (if_pos (e := none) hc).trans (by simp only [treg_field, b1, Option.bind_eq_bind, Option.bind_some])) hw

theorem texp2 (d : TReg) (a : TS) : Statement (.texp2 d a) := by
  intro hw _
  have l0 := treg_lt d
  have l1 := ts_lt a
  have l2 := kind_lt a
  exact enc1 (by decide) (by decide) (treg_lt d) (ts_lt a) (by decide) (by (try simp only [Nat.reducePow] at *) <;> omega) rfl rfl (by
    have b1 : tsreg (bits (a.kind * 2) 1 1) a.field = some a := by
      rw [show (bits (a.kind * 2) 1 1) = a.kind from by (try simp only [bits, Nat.reducePow] at *) <;> omega]; exact tsreg_field a
    have hc : 0 = 0 ∧ bits (a.kind * 2) 0 1 = 0 ∧ bits (a.kind * 2) 2 28 = 0 := ⟨rfl, by (try simp only [bits, Nat.reducePow] at *) <;> omega, by (try simp only [bits, Nat.reducePow] at *) <;> omega⟩
    exact (if_pos (e := none) hc).trans (by simp only [treg_field, b1, Option.bind_eq_bind, Option.bind_some])) hw

theorem tlog2 (d : TReg) (a : TS) : Statement (.tlog2 d a) := by
  intro hw _
  have l0 := treg_lt d
  have l1 := ts_lt a
  have l2 := kind_lt a
  exact enc1 (by decide) (by decide) (treg_lt d) (ts_lt a) (by decide) (by (try simp only [Nat.reducePow] at *) <;> omega) rfl rfl (by
    have b1 : tsreg (bits (a.kind * 2) 1 1) a.field = some a := by
      rw [show (bits (a.kind * 2) 1 1) = a.kind from by (try simp only [bits, Nat.reducePow] at *) <;> omega]; exact tsreg_field a
    have hc : 0 = 0 ∧ bits (a.kind * 2) 0 1 = 0 ∧ bits (a.kind * 2) 2 28 = 0 := ⟨rfl, by (try simp only [bits, Nat.reducePow] at *) <;> omega, by (try simp only [bits, Nat.reducePow] at *) <;> omega⟩
    exact (if_pos (e := none) hc).trans (by simp only [treg_field, b1, Option.bind_eq_bind, Option.bind_some])) hw

theorem tabs (d : TReg) (a : TS) : Statement (.tabs d a) := by
  intro hw _
  have l0 := treg_lt d
  have l1 := ts_lt a
  have l2 := kind_lt a
  exact enc1 (by decide) (by decide) (treg_lt d) (ts_lt a) (by decide) (by (try simp only [Nat.reducePow] at *) <;> omega) rfl rfl (by
    have b1 : tsreg (bits (a.kind * 2) 1 1) a.field = some a := by
      rw [show (bits (a.kind * 2) 1 1) = a.kind from by (try simp only [bits, Nat.reducePow] at *) <;> omega]; exact tsreg_field a
    have hc : 0 = 0 ∧ bits (a.kind * 2) 0 1 = 0 ∧ bits (a.kind * 2) 2 28 = 0 := ⟨rfl, by (try simp only [bits, Nat.reducePow] at *) <;> omega, by (try simp only [bits, Nat.reducePow] at *) <;> omega⟩
    exact (if_pos (e := none) hc).trans (by simp only [treg_field, b1, Option.bind_eq_bind, Option.bind_some])) hw

theorem tneg (d : TReg) (a : TS) : Statement (.tneg d a) := by
  intro hw _
  have l0 := treg_lt d
  have l1 := ts_lt a
  have l2 := kind_lt a
  exact enc1 (by decide) (by decide) (treg_lt d) (ts_lt a) (by decide) (by (try simp only [Nat.reducePow] at *) <;> omega) rfl rfl (by
    have b1 : tsreg (bits (a.kind * 2) 1 1) a.field = some a := by
      rw [show (bits (a.kind * 2) 1 1) = a.kind from by (try simp only [bits, Nat.reducePow] at *) <;> omega]; exact tsreg_field a
    have hc : 0 = 0 ∧ bits (a.kind * 2) 0 1 = 0 ∧ bits (a.kind * 2) 2 28 = 0 := ⟨rfl, by (try simp only [bits, Nat.reducePow] at *) <;> omega, by (try simp only [bits, Nat.reducePow] at *) <;> omega⟩
    exact (if_pos (e := none) hc).trans (by simp only [treg_field, b1, Option.bind_eq_bind, Option.bind_some])) hw

theorem tcmpEq (d : KReg) (a b : TS) : Statement (.tcmpEq d a b) := by
  intro hw _
  have l0 := d.isLt
  have l1 := ts_lt a
  have l2 := kind_lt a
  have l3 := ts_lt b
  have l4 := kind_lt b
  exact enc1 (by decide) (by decide) (by omega) (ts_lt a) (ts_lt b) (by (try simp only [Nat.reducePow] at *) <;> omega) rfl rfl (by
    have b1 : tsreg (bits (a.kind * 2 + b.kind * 4) 1 1) a.field = some a := by
      rw [show (bits (a.kind * 2 + b.kind * 4) 1 1) = a.kind from by (try simp only [bits, Nat.reducePow] at *) <;> omega]; exact tsreg_field a
    have b2 : tsreg (bits (a.kind * 2 + b.kind * 4) 2 1) b.field = some b := by
      rw [show (bits (a.kind * 2 + b.kind * 4) 2 1) = b.kind from by (try simp only [bits, Nat.reducePow] at *) <;> omega]; exact tsreg_field b
    have hc : bits (a.kind * 2 + b.kind * 4) 0 1 = 0 ∧ bits (a.kind * 2 + b.kind * 4) 3 27 = 0 := ⟨by (try simp only [bits, Nat.reducePow] at *) <;> omega, by (try simp only [bits, Nat.reducePow] at *) <;> omega⟩
    exact (if_pos (e := none) hc).trans (by simp only [kreg_val, b1, b2, Option.bind_eq_bind, Option.bind_some])) hw

theorem tcmpNe (d : KReg) (a b : TS) : Statement (.tcmpNe d a b) := by
  intro hw _
  have l0 := d.isLt
  have l1 := ts_lt a
  have l2 := kind_lt a
  have l3 := ts_lt b
  have l4 := kind_lt b
  exact enc1 (by decide) (by decide) (by omega) (ts_lt a) (ts_lt b) (by (try simp only [Nat.reducePow] at *) <;> omega) rfl rfl (by
    have b1 : tsreg (bits (a.kind * 2 + b.kind * 4) 1 1) a.field = some a := by
      rw [show (bits (a.kind * 2 + b.kind * 4) 1 1) = a.kind from by (try simp only [bits, Nat.reducePow] at *) <;> omega]; exact tsreg_field a
    have b2 : tsreg (bits (a.kind * 2 + b.kind * 4) 2 1) b.field = some b := by
      rw [show (bits (a.kind * 2 + b.kind * 4) 2 1) = b.kind from by (try simp only [bits, Nat.reducePow] at *) <;> omega]; exact tsreg_field b
    have hc : bits (a.kind * 2 + b.kind * 4) 0 1 = 0 ∧ bits (a.kind * 2 + b.kind * 4) 3 27 = 0 := ⟨by (try simp only [bits, Nat.reducePow] at *) <;> omega, by (try simp only [bits, Nat.reducePow] at *) <;> omega⟩
    exact (if_pos (e := none) hc).trans (by simp only [kreg_val, b1, b2, Option.bind_eq_bind, Option.bind_some])) hw

theorem tcmpLt (d : KReg) (a b : TS) : Statement (.tcmpLt d a b) := by
  intro hw _
  have l0 := d.isLt
  have l1 := ts_lt a
  have l2 := kind_lt a
  have l3 := ts_lt b
  have l4 := kind_lt b
  exact enc1 (by decide) (by decide) (by omega) (ts_lt a) (ts_lt b) (by (try simp only [Nat.reducePow] at *) <;> omega) rfl rfl (by
    have b1 : tsreg (bits (a.kind * 2 + b.kind * 4) 1 1) a.field = some a := by
      rw [show (bits (a.kind * 2 + b.kind * 4) 1 1) = a.kind from by (try simp only [bits, Nat.reducePow] at *) <;> omega]; exact tsreg_field a
    have b2 : tsreg (bits (a.kind * 2 + b.kind * 4) 2 1) b.field = some b := by
      rw [show (bits (a.kind * 2 + b.kind * 4) 2 1) = b.kind from by (try simp only [bits, Nat.reducePow] at *) <;> omega]; exact tsreg_field b
    have hc : bits (a.kind * 2 + b.kind * 4) 0 1 = 0 ∧ bits (a.kind * 2 + b.kind * 4) 3 27 = 0 := ⟨by (try simp only [bits, Nat.reducePow] at *) <;> omega, by (try simp only [bits, Nat.reducePow] at *) <;> omega⟩
    exact (if_pos (e := none) hc).trans (by simp only [kreg_val, b1, b2, Option.bind_eq_bind, Option.bind_some])) hw

theorem tcmpLe (d : KReg) (a b : TS) : Statement (.tcmpLe d a b) := by
  intro hw _
  have l0 := d.isLt
  have l1 := ts_lt a
  have l2 := kind_lt a
  have l3 := ts_lt b
  have l4 := kind_lt b
  exact enc1 (by decide) (by decide) (by omega) (ts_lt a) (ts_lt b) (by (try simp only [Nat.reducePow] at *) <;> omega) rfl rfl (by
    have b1 : tsreg (bits (a.kind * 2 + b.kind * 4) 1 1) a.field = some a := by
      rw [show (bits (a.kind * 2 + b.kind * 4) 1 1) = a.kind from by (try simp only [bits, Nat.reducePow] at *) <;> omega]; exact tsreg_field a
    have b2 : tsreg (bits (a.kind * 2 + b.kind * 4) 2 1) b.field = some b := by
      rw [show (bits (a.kind * 2 + b.kind * 4) 2 1) = b.kind from by (try simp only [bits, Nat.reducePow] at *) <;> omega]; exact tsreg_field b
    have hc : bits (a.kind * 2 + b.kind * 4) 0 1 = 0 ∧ bits (a.kind * 2 + b.kind * 4) 3 27 = 0 := ⟨by (try simp only [bits, Nat.reducePow] at *) <;> omega, by (try simp only [bits, Nat.reducePow] at *) <;> omega⟩
    exact (if_pos (e := none) hc).trans (by simp only [kreg_val, b1, b2, Option.bind_eq_bind, Option.bind_some])) hw

theorem tcmpGt (d : KReg) (a b : TS) : Statement (.tcmpGt d a b) := by
  intro hw _
  have l0 := d.isLt
  have l1 := ts_lt a
  have l2 := kind_lt a
  have l3 := ts_lt b
  have l4 := kind_lt b
  exact enc1 (by decide) (by decide) (by omega) (ts_lt a) (ts_lt b) (by (try simp only [Nat.reducePow] at *) <;> omega) rfl rfl (by
    have b1 : tsreg (bits (a.kind * 2 + b.kind * 4) 1 1) a.field = some a := by
      rw [show (bits (a.kind * 2 + b.kind * 4) 1 1) = a.kind from by (try simp only [bits, Nat.reducePow] at *) <;> omega]; exact tsreg_field a
    have b2 : tsreg (bits (a.kind * 2 + b.kind * 4) 2 1) b.field = some b := by
      rw [show (bits (a.kind * 2 + b.kind * 4) 2 1) = b.kind from by (try simp only [bits, Nat.reducePow] at *) <;> omega]; exact tsreg_field b
    have hc : bits (a.kind * 2 + b.kind * 4) 0 1 = 0 ∧ bits (a.kind * 2 + b.kind * 4) 3 27 = 0 := ⟨by (try simp only [bits, Nat.reducePow] at *) <;> omega, by (try simp only [bits, Nat.reducePow] at *) <;> omega⟩
    exact (if_pos (e := none) hc).trans (by simp only [kreg_val, b1, b2, Option.bind_eq_bind, Option.bind_some])) hw

theorem tcmpGe (d : KReg) (a b : TS) : Statement (.tcmpGe d a b) := by
  intro hw _
  have l0 := d.isLt
  have l1 := ts_lt a
  have l2 := kind_lt a
  have l3 := ts_lt b
  have l4 := kind_lt b
  exact enc1 (by decide) (by decide) (by omega) (ts_lt a) (ts_lt b) (by (try simp only [Nat.reducePow] at *) <;> omega) rfl rfl (by
    have b1 : tsreg (bits (a.kind * 2 + b.kind * 4) 1 1) a.field = some a := by
      rw [show (bits (a.kind * 2 + b.kind * 4) 1 1) = a.kind from by (try simp only [bits, Nat.reducePow] at *) <;> omega]; exact tsreg_field a
    have b2 : tsreg (bits (a.kind * 2 + b.kind * 4) 2 1) b.field = some b := by
      rw [show (bits (a.kind * 2 + b.kind * 4) 2 1) = b.kind from by (try simp only [bits, Nat.reducePow] at *) <;> omega]; exact tsreg_field b
    have hc : bits (a.kind * 2 + b.kind * 4) 0 1 = 0 ∧ bits (a.kind * 2 + b.kind * 4) 3 27 = 0 := ⟨by (try simp only [bits, Nat.reducePow] at *) <;> omega, by (try simp only [bits, Nat.reducePow] at *) <;> omega⟩
    exact (if_pos (e := none) hc).trans (by simp only [kreg_val, b1, b2, Option.bind_eq_bind, Option.bind_some])) hw

theorem tredSum (d : TS) (a : TReg) (axis : Axis) : Statement (.tredSum d a axis) := by
  intro hw _
  have l0 := ts_lt d
  have l1 := kind_lt d
  have l2 := treg_lt a
  have l3 := axis_lt axis
  exact enc1 (by decide) (by decide) (ts_lt d) (treg_lt a) (by decide) (by (try simp only [Nat.reducePow] at *) <;> omega) rfl rfl (by
    have b0 : tsreg (bits (d.kind + axis.code * 16) 0 1) d.field = some d := by
      rw [show (bits (d.kind + axis.code * 16) 0 1) = d.kind from by (try simp only [bits, Nat.reducePow] at *) <;> omega]; exact tsreg_field d
    have b2 : Axis.ofCode (bits (d.kind + axis.code * 16) 4 2) = some axis := by
      rw [show (bits (d.kind + axis.code * 16) 4 2) = axis.code from by (try simp only [bits, Nat.reducePow] at *) <;> omega]; exact axis_code axis
    have hc : 0 = 0 ∧ bits (d.kind + axis.code * 16) 1 3 = 0 ∧ bits (d.kind + axis.code * 16) 6 24 = 0 := ⟨rfl, by (try simp only [bits, Nat.reducePow] at *) <;> omega, by (try simp only [bits, Nat.reducePow] at *) <;> omega⟩
    exact (if_pos (e := none) hc).trans (by simp only [b0, treg_field, b2, Option.bind_eq_bind, Option.bind_some])) hw

theorem tredMax (d : TS) (a : TReg) (axis : Axis) : Statement (.tredMax d a axis) := by
  intro hw _
  have l0 := ts_lt d
  have l1 := kind_lt d
  have l2 := treg_lt a
  have l3 := axis_lt axis
  exact enc1 (by decide) (by decide) (ts_lt d) (treg_lt a) (by decide) (by (try simp only [Nat.reducePow] at *) <;> omega) rfl rfl (by
    have b0 : tsreg (bits (d.kind + axis.code * 16) 0 1) d.field = some d := by
      rw [show (bits (d.kind + axis.code * 16) 0 1) = d.kind from by (try simp only [bits, Nat.reducePow] at *) <;> omega]; exact tsreg_field d
    have b2 : Axis.ofCode (bits (d.kind + axis.code * 16) 4 2) = some axis := by
      rw [show (bits (d.kind + axis.code * 16) 4 2) = axis.code from by (try simp only [bits, Nat.reducePow] at *) <;> omega]; exact axis_code axis
    have hc : 0 = 0 ∧ bits (d.kind + axis.code * 16) 1 3 = 0 ∧ bits (d.kind + axis.code * 16) 6 24 = 0 := ⟨rfl, by (try simp only [bits, Nat.reducePow] at *) <;> omega, by (try simp only [bits, Nat.reducePow] at *) <;> omega⟩
    exact (if_pos (e := none) hc).trans (by simp only [b0, treg_field, b2, Option.bind_eq_bind, Option.bind_some])) hw

theorem tredMin (d : TS) (a : TReg) (axis : Axis) : Statement (.tredMin d a axis) := by
  intro hw _
  have l0 := ts_lt d
  have l1 := kind_lt d
  have l2 := treg_lt a
  have l3 := axis_lt axis
  exact enc1 (by decide) (by decide) (ts_lt d) (treg_lt a) (by decide) (by (try simp only [Nat.reducePow] at *) <;> omega) rfl rfl (by
    have b0 : tsreg (bits (d.kind + axis.code * 16) 0 1) d.field = some d := by
      rw [show (bits (d.kind + axis.code * 16) 0 1) = d.kind from by (try simp only [bits, Nat.reducePow] at *) <;> omega]; exact tsreg_field d
    have b2 : Axis.ofCode (bits (d.kind + axis.code * 16) 4 2) = some axis := by
      rw [show (bits (d.kind + axis.code * 16) 4 2) = axis.code from by (try simp only [bits, Nat.reducePow] at *) <;> omega]; exact axis_code axis
    have hc : 0 = 0 ∧ bits (d.kind + axis.code * 16) 1 3 = 0 ∧ bits (d.kind + axis.code * 16) 6 24 = 0 := ⟨rfl, by (try simp only [bits, Nat.reducePow] at *) <;> omega, by (try simp only [bits, Nat.reducePow] at *) <;> omega⟩
    exact (if_pos (e := none) hc).trans (by simp only [b0, treg_field, b2, Option.bind_eq_bind, Option.bind_some])) hw

theorem mma (d a b : TReg) (f : MmaFmt) : Statement (.mma d a b f) := by
  intro hw _
  have l0 := treg_lt d
  have l1 := treg_lt a
  have l2 := treg_lt b
  have l3 := mma_imm_lt f
  exact enc1 (by decide) (by decide) (treg_lt d) (treg_lt a) (treg_lt b) (by (try simp only [Nat.reducePow] at *) <;> omega) rfl rfl (by
    have b3 : mmaFmt f.imm = some f := mmaFmt_imm f _ (by (try simp only [Nat.reducePow] at *) <;> omega)
    have hc : bits f.imm 11 19 = 0 := by (try simp only [bits, Nat.reducePow] at *) <;> omega
    exact (if_pos (e := none) hc).trans (by simp only [treg_field, b3, Option.bind_eq_bind, Option.bind_some])) hw

theorem mmaSa (d : TReg) (a : SReg) (b : TReg) (f : MmaFmt) (km1 : BitVec 7) (pa : SpSel) : Statement (.mmaSa d a b f km1 pa) := by
  intro hw _
  have l0 := treg_lt d
  have l1 := sreg_lt a
  have l2 := treg_lt b
  have l3 := mma_imm_lt f
  have l4 := km1.isLt
  have l5 := pa.cb.isLt
  have l6 := pa.ti.isLt
  exact enc1 (by decide) (by decide) (treg_lt d) (sreg_lt a) (treg_lt b) (by (try simp only [Nat.reducePow] at *) <;> omega) rfl rfl (by
    have b2 : mmaFmt (f.imm + km1.toNat * 2048 + pa.cb.toNat * 262144 + pa.ti.toNat * 4194304) = some f := mmaFmt_imm f _ (by (try simp only [Nat.reducePow] at *) <;> omega)
    have a4 : BitVec.ofNat 7 (bits (f.imm + km1.toNat * 2048 + pa.cb.toNat * 262144 + pa.ti.toNat * 4194304) 11 7) = km1 := field_eq _ _ (by (try simp only [bits, Nat.reducePow] at *) <;> omega)
    have a5c : BitVec.ofNat 2 (bits (f.imm + km1.toNat * 2048 + pa.cb.toNat * 262144 + pa.ti.toNat * 4194304) 18 2) = pa.cb := field_eq _ _ (by (try simp only [bits, Nat.reducePow] at *) <;> omega)
    have a5t : BitVec.ofNat 4 (bits (f.imm + km1.toNat * 2048 + pa.cb.toNat * 262144 + pa.ti.toNat * 4194304) 22 4) = pa.ti := field_eq _ _ (by (try simp only [bits, Nat.reducePow] at *) <;> omega)
    have hc : bits (f.imm + km1.toNat * 2048 + pa.cb.toNat * 262144 + pa.ti.toNat * 4194304) 20 2 = 0 ∧ bits (f.imm + km1.toNat * 2048 + pa.cb.toNat * 262144 + pa.ti.toNat * 4194304) 26 4 = 0 := ⟨by (try simp only [bits, Nat.reducePow] at *) <;> omega, by (try simp only [bits, Nat.reducePow] at *) <;> omega⟩
    exact (if_pos (e := none) hc).trans (by simp only [treg_field, b2, sreg_field, a4, a5c, a5t, Option.bind_eq_bind, Option.bind_some])) hw

theorem mmaSb (d a : TReg) (b : SReg) (f : MmaFmt) (km1 : BitVec 7) (pb : SpSel) : Statement (.mmaSb d a b f km1 pb) := by
  intro hw _
  have l0 := treg_lt d
  have l1 := treg_lt a
  have l2 := sreg_lt b
  have l3 := mma_imm_lt f
  have l4 := km1.isLt
  have l5 := pb.cb.isLt
  have l6 := pb.ti.isLt
  exact enc1 (by decide) (by decide) (treg_lt d) (treg_lt a) (sreg_lt b) (by (try simp only [Nat.reducePow] at *) <;> omega) rfl rfl (by
    have b2 : mmaFmt (f.imm + km1.toNat * 2048 + pb.cb.toNat * 1048576 + pb.ti.toNat * 67108864) = some f := mmaFmt_imm f _ (by (try simp only [Nat.reducePow] at *) <;> omega)
    have a4 : BitVec.ofNat 7 (bits (f.imm + km1.toNat * 2048 + pb.cb.toNat * 1048576 + pb.ti.toNat * 67108864) 11 7) = km1 := field_eq _ _ (by (try simp only [bits, Nat.reducePow] at *) <;> omega)
    have a5c : BitVec.ofNat 2 (bits (f.imm + km1.toNat * 2048 + pb.cb.toNat * 1048576 + pb.ti.toNat * 67108864) 20 2) = pb.cb := field_eq _ _ (by (try simp only [bits, Nat.reducePow] at *) <;> omega)
    have a5t : BitVec.ofNat 4 (bits (f.imm + km1.toNat * 2048 + pb.cb.toNat * 1048576 + pb.ti.toNat * 67108864) 26 4) = pb.ti := field_eq _ _ (by (try simp only [bits, Nat.reducePow] at *) <;> omega)
    have hc : bits (f.imm + km1.toNat * 2048 + pb.cb.toNat * 1048576 + pb.ti.toNat * 67108864) 18 2 = 0 ∧ bits (f.imm + km1.toNat * 2048 + pb.cb.toNat * 1048576 + pb.ti.toNat * 67108864) 22 4 = 0 := ⟨by (try simp only [bits, Nat.reducePow] at *) <;> omega, by (try simp only [bits, Nat.reducePow] at *) <;> omega⟩
    exact (if_pos (e := none) hc).trans (by simp only [treg_field, b2, sreg_field, a4, a5c, a5t, Option.bind_eq_bind, Option.bind_some])) hw

theorem mmaSs (d : TReg) (a b : SReg) (f : MmaFmt) (km1 : BitVec 7) (pa pb : SpSel) : Statement (.mmaSs d a b f km1 pa pb) := by
  intro hw _
  have l0 := treg_lt d
  have l1 := sreg_lt a
  have l2 := sreg_lt b
  have l3 := mma_imm_lt f
  have l4 := km1.isLt
  have l5 := pa.cb.isLt
  have l6 := pa.ti.isLt
  have l7 := pb.cb.isLt
  have l8 := pb.ti.isLt
  exact enc1 (by decide) (by decide) (treg_lt d) (sreg_lt a) (sreg_lt b) (by (try simp only [Nat.reducePow] at *) <;> omega) rfl rfl (by
    have b1 : mmaFmt (f.imm + km1.toNat * 2048 + pa.cb.toNat * 262144 + pa.ti.toNat * 4194304 + pb.cb.toNat * 1048576 + pb.ti.toNat * 67108864) = some f := mmaFmt_imm f _ (by (try simp only [Nat.reducePow] at *) <;> omega)
    have a4 : BitVec.ofNat 7 (bits (f.imm + km1.toNat * 2048 + pa.cb.toNat * 262144 + pa.ti.toNat * 4194304 + pb.cb.toNat * 1048576 + pb.ti.toNat * 67108864) 11 7) = km1 := field_eq _ _ (by (try simp only [bits, Nat.reducePow] at *) <;> omega)
    have a5c : BitVec.ofNat 2 (bits (f.imm + km1.toNat * 2048 + pa.cb.toNat * 262144 + pa.ti.toNat * 4194304 + pb.cb.toNat * 1048576 + pb.ti.toNat * 67108864) 18 2) = pa.cb := field_eq _ _ (by (try simp only [bits, Nat.reducePow] at *) <;> omega)
    have a5t : BitVec.ofNat 4 (bits (f.imm + km1.toNat * 2048 + pa.cb.toNat * 262144 + pa.ti.toNat * 4194304 + pb.cb.toNat * 1048576 + pb.ti.toNat * 67108864) 22 4) = pa.ti := field_eq _ _ (by (try simp only [bits, Nat.reducePow] at *) <;> omega)
    have a6c : BitVec.ofNat 2 (bits (f.imm + km1.toNat * 2048 + pa.cb.toNat * 262144 + pa.ti.toNat * 4194304 + pb.cb.toNat * 1048576 + pb.ti.toNat * 67108864) 20 2) = pb.cb := field_eq _ _ (by (try simp only [bits, Nat.reducePow] at *) <;> omega)
    have a6t : BitVec.ofNat 4 (bits (f.imm + km1.toNat * 2048 + pa.cb.toNat * 262144 + pa.ti.toNat * 4194304 + pb.cb.toNat * 1048576 + pb.ti.toNat * 67108864) 26 4) = pb.ti := field_eq _ _ (by (try simp only [bits, Nat.reducePow] at *) <;> omega)
    simp only [treg_field, b1, sreg_field, a4, a5c, a5t, a6c, a6t, Option.bind_eq_bind, Option.bind_some]) hw

theorem mmaZ (d a b : TReg) (f : MmaFmt) : Statement (.mmaZ d a b f) := by
  intro hw _
  have l0 := treg_lt d
  have l1 := treg_lt a
  have l2 := treg_lt b
  have l3 := mma_imm_lt f
  exact enc1 (by decide) (by decide) (treg_lt d) (treg_lt a) (treg_lt b) (by (try simp only [Nat.reducePow] at *) <;> omega) rfl rfl (by
    have b3 : mmaFmt f.imm = some f := mmaFmt_imm f _ (by (try simp only [Nat.reducePow] at *) <;> omega)
    have hc : bits f.imm 11 19 = 0 := by (try simp only [bits, Nat.reducePow] at *) <;> omega
    exact (if_pos (e := none) hc).trans (by simp only [treg_field, b3, Option.bind_eq_bind, Option.bind_some])) hw

theorem ldB (d a : SReg) (off : BitVec 30) : Statement (.ldB d a off) := by
  intro hw _
  have l0 := sreg_lt d
  have l1 := sreg_lt a
  have l2 := off.isLt
  exact enc1 (by decide) (by decide) (sreg_lt d) (sreg_lt a) (by decide) (by (try simp only [Nat.reducePow] at *) <;> omega) rfl rfl (by
    have a2 : BitVec.ofNat 30 (bits off.toNat 0 30) = off := field_eq _ _ (by (try simp only [bits, Nat.reducePow] at *) <;> omega)
    have hc : 0 = 0 := rfl
    exact (if_pos (e := none) hc).trans (by simp only [sreg_field, a2])) hw

theorem ldBu (d a : SReg) (off : BitVec 30) : Statement (.ldBu d a off) := by
  intro hw _
  have l0 := sreg_lt d
  have l1 := sreg_lt a
  have l2 := off.isLt
  exact enc1 (by decide) (by decide) (sreg_lt d) (sreg_lt a) (by decide) (by (try simp only [Nat.reducePow] at *) <;> omega) rfl rfl (by
    have a2 : BitVec.ofNat 30 (bits off.toNat 0 30) = off := field_eq _ _ (by (try simp only [bits, Nat.reducePow] at *) <;> omega)
    have hc : 0 = 0 := rfl
    exact (if_pos (e := none) hc).trans (by simp only [sreg_field, a2])) hw

theorem ldH (d a : SReg) (off : BitVec 30) : Statement (.ldH d a off) := by
  intro hw _
  have l0 := sreg_lt d
  have l1 := sreg_lt a
  have l2 := off.isLt
  exact enc1 (by decide) (by decide) (sreg_lt d) (sreg_lt a) (by decide) (by (try simp only [Nat.reducePow] at *) <;> omega) rfl rfl (by
    have a2 : BitVec.ofNat 30 (bits off.toNat 0 30) = off := field_eq _ _ (by (try simp only [bits, Nat.reducePow] at *) <;> omega)
    have hc : 0 = 0 := rfl
    exact (if_pos (e := none) hc).trans (by simp only [sreg_field, a2])) hw

theorem ldHu (d a : SReg) (off : BitVec 30) : Statement (.ldHu d a off) := by
  intro hw _
  have l0 := sreg_lt d
  have l1 := sreg_lt a
  have l2 := off.isLt
  exact enc1 (by decide) (by decide) (sreg_lt d) (sreg_lt a) (by decide) (by (try simp only [Nat.reducePow] at *) <;> omega) rfl rfl (by
    have a2 : BitVec.ofNat 30 (bits off.toNat 0 30) = off := field_eq _ _ (by (try simp only [bits, Nat.reducePow] at *) <;> omega)
    have hc : 0 = 0 := rfl
    exact (if_pos (e := none) hc).trans (by simp only [sreg_field, a2])) hw

theorem ldW (d a : SReg) (off : BitVec 30) : Statement (.ldW d a off) := by
  intro hw _
  have l0 := sreg_lt d
  have l1 := sreg_lt a
  have l2 := off.isLt
  exact enc1 (by decide) (by decide) (sreg_lt d) (sreg_lt a) (by decide) (by (try simp only [Nat.reducePow] at *) <;> omega) rfl rfl (by
    have a2 : BitVec.ofNat 30 (bits off.toNat 0 30) = off := field_eq _ _ (by (try simp only [bits, Nat.reducePow] at *) <;> omega)
    have hc : 0 = 0 := rfl
    exact (if_pos (e := none) hc).trans (by simp only [sreg_field, a2])) hw

theorem ldWu (d a : SReg) (off : BitVec 30) : Statement (.ldWu d a off) := by
  intro hw _
  have l0 := sreg_lt d
  have l1 := sreg_lt a
  have l2 := off.isLt
  exact enc1 (by decide) (by decide) (sreg_lt d) (sreg_lt a) (by decide) (by (try simp only [Nat.reducePow] at *) <;> omega) rfl rfl (by
    have a2 : BitVec.ofNat 30 (bits off.toNat 0 30) = off := field_eq _ _ (by (try simp only [bits, Nat.reducePow] at *) <;> omega)
    have hc : 0 = 0 := rfl
    exact (if_pos (e := none) hc).trans (by simp only [sreg_field, a2])) hw

theorem ldD (d a : SReg) (off : BitVec 30) : Statement (.ldD d a off) := by
  intro hw _
  have l0 := sreg_lt d
  have l1 := sreg_lt a
  have l2 := off.isLt
  exact enc1 (by decide) (by decide) (sreg_lt d) (sreg_lt a) (by decide) (by (try simp only [Nat.reducePow] at *) <;> omega) rfl rfl (by
    have a2 : BitVec.ofNat 30 (bits off.toNat 0 30) = off := field_eq _ _ (by (try simp only [bits, Nat.reducePow] at *) <;> omega)
    have hc : 0 = 0 := rfl
    exact (if_pos (e := none) hc).trans (by simp only [sreg_field, a2])) hw

theorem stB (a b : SReg) (off : BitVec 30) : Statement (.stB a b off) := by
  intro hw _
  have l0 := sreg_lt a
  have l1 := sreg_lt b
  have l2 := off.isLt
  exact enc1 (by decide) (by decide) (by decide) (sreg_lt a) (sreg_lt b) (by (try simp only [Nat.reducePow] at *) <;> omega) rfl rfl (by
    have a2 : BitVec.ofNat 30 (bits off.toNat 0 30) = off := field_eq _ _ (by (try simp only [bits, Nat.reducePow] at *) <;> omega)
    have hc : 0 = 0 := rfl
    exact (if_pos (e := none) hc).trans (by simp only [sreg_field, a2])) hw

theorem stH (a b : SReg) (off : BitVec 30) : Statement (.stH a b off) := by
  intro hw _
  have l0 := sreg_lt a
  have l1 := sreg_lt b
  have l2 := off.isLt
  exact enc1 (by decide) (by decide) (by decide) (sreg_lt a) (sreg_lt b) (by (try simp only [Nat.reducePow] at *) <;> omega) rfl rfl (by
    have a2 : BitVec.ofNat 30 (bits off.toNat 0 30) = off := field_eq _ _ (by (try simp only [bits, Nat.reducePow] at *) <;> omega)
    have hc : 0 = 0 := rfl
    exact (if_pos (e := none) hc).trans (by simp only [sreg_field, a2])) hw

theorem stW (a b : SReg) (off : BitVec 30) : Statement (.stW a b off) := by
  intro hw _
  have l0 := sreg_lt a
  have l1 := sreg_lt b
  have l2 := off.isLt
  exact enc1 (by decide) (by decide) (by decide) (sreg_lt a) (sreg_lt b) (by (try simp only [Nat.reducePow] at *) <;> omega) rfl rfl (by
    have a2 : BitVec.ofNat 30 (bits off.toNat 0 30) = off := field_eq _ _ (by (try simp only [bits, Nat.reducePow] at *) <;> omega)
    have hc : 0 = 0 := rfl
    exact (if_pos (e := none) hc).trans (by simp only [sreg_field, a2])) hw

theorem stD (a b : SReg) (off : BitVec 30) : Statement (.stD a b off) := by
  intro hw _
  have l0 := sreg_lt a
  have l1 := sreg_lt b
  have l2 := off.isLt
  exact enc1 (by decide) (by decide) (by decide) (sreg_lt a) (sreg_lt b) (by (try simp only [Nat.reducePow] at *) <;> omega) rfl rfl (by
    have a2 : BitVec.ofNat 30 (bits off.toNat 0 30) = off := field_eq _ _ (by (try simp only [bits, Nat.reducePow] at *) <;> omega)
    have hc : 0 = 0 := rfl
    exact (if_pos (e := none) hc).trans (by simp only [sreg_field, a2])) hw

theorem sld (d a : SReg) (sz : BitVec 2) (sx : Bool) (off : BitVec 27) : Statement (.sld d a sz sx off) := by
  intro hw _
  have l0 := sreg_lt d
  have l1 := sreg_lt a
  have l2 := sz.isLt
  have l3 := bool_lt sx
  have l4 := off.isLt
  exact enc1 (by decide) (by decide) (sreg_lt d) (sreg_lt a) (by decide) (by (try simp only [Nat.reducePow] at *) <;> omega) rfl rfl (by
    have a2 : BitVec.ofNat 2 (bits (sz.toNat + sx.toNat * 4 + off.toNat * 8) 0 2) = sz := field_eq _ _ (by (try simp only [bits, Nat.reducePow] at *) <;> omega)
    have a3 : decide ((bits (sz.toNat + sx.toNat * 4 + off.toNat * 8) 2 1) = 1) = sx := flag_eq _ _ (by (try simp only [bits, Nat.reducePow] at *) <;> omega)
    have a4 : BitVec.ofNat 27 (bits (sz.toNat + sx.toNat * 4 + off.toNat * 8) 3 27) = off := field_eq _ _ (by (try simp only [bits, Nat.reducePow] at *) <;> omega)
    have hc : 0 = 0 := rfl
    exact (if_pos (e := none) hc).trans (by simp only [sreg_field, a2, a3, a4])) hw

theorem sst (a b : SReg) (sz : BitVec 2) (off : BitVec 27) : Statement (.sst a b sz off) := by
  intro hw _
  have l0 := sreg_lt a
  have l1 := sreg_lt b
  have l2 := sz.isLt
  have l3 := off.isLt
  exact enc1 (by decide) (by decide) (by decide) (sreg_lt a) (sreg_lt b) (by (try simp only [Nat.reducePow] at *) <;> omega) rfl rfl (by
    have a2 : BitVec.ofNat 2 (bits (sz.toNat + off.toNat * 8) 0 2) = sz := field_eq _ _ (by (try simp only [bits, Nat.reducePow] at *) <;> omega)
    have a3 : BitVec.ofNat 27 (bits (sz.toNat + off.toNat * 8) 3 27) = off := field_eq _ _ (by (try simp only [bits, Nat.reducePow] at *) <;> omega)
    have hc : 0 = 0 ∧ bits (sz.toNat + off.toNat * 8) 2 1 = 0 := ⟨rfl, by (try simp only [bits, Nat.reducePow] at *) <;> omega⟩
    exact (if_pos (e := none) hc).trans (by simp only [sreg_field, a2, a3])) hw

theorem ldbit (d a : SReg) (wm1 : BitVec 6) (sx : Bool) (boff : BitVec 23) : Statement (.ldbit d a wm1 sx boff) := by
  intro hw _
  have l0 := sreg_lt d
  have l1 := sreg_lt a
  have l2 := wm1.isLt
  have l3 := bool_lt sx
  have l4 := boff.isLt
  exact enc1 (by decide) (by decide) (sreg_lt d) (sreg_lt a) (by decide) (by (try simp only [Nat.reducePow] at *) <;> omega) rfl rfl (by
    have a2 : BitVec.ofNat 6 (bits (wm1.toNat + sx.toNat * 64 + boff.toNat * 128) 0 6) = wm1 := field_eq _ _ (by (try simp only [bits, Nat.reducePow] at *) <;> omega)
    have a3 : decide ((bits (wm1.toNat + sx.toNat * 64 + boff.toNat * 128) 6 1) = 1) = sx := flag_eq _ _ (by (try simp only [bits, Nat.reducePow] at *) <;> omega)
    have a4 : BitVec.ofNat 23 (bits (wm1.toNat + sx.toNat * 64 + boff.toNat * 128) 7 23) = boff := field_eq _ _ (by (try simp only [bits, Nat.reducePow] at *) <;> omega)
    have hc : 0 = 0 := rfl
    exact (if_pos (e := none) hc).trans (by simp only [sreg_field, a2, a3, a4])) hw

theorem stbit (a b : SReg) (wm1 : BitVec 6) (boff : BitVec 23) : Statement (.stbit a b wm1 boff) := by
  intro hw _
  have l0 := sreg_lt a
  have l1 := sreg_lt b
  have l2 := wm1.isLt
  have l3 := boff.isLt
  exact enc1 (by decide) (by decide) (by decide) (sreg_lt a) (sreg_lt b) (by (try simp only [Nat.reducePow] at *) <;> omega) rfl rfl (by
    have a2 : BitVec.ofNat 6 (bits (wm1.toNat + boff.toNat * 128) 0 6) = wm1 := field_eq _ _ (by (try simp only [bits, Nat.reducePow] at *) <;> omega)
    have a3 : BitVec.ofNat 23 (bits (wm1.toNat + boff.toNat * 128) 7 23) = boff := field_eq _ _ (by (try simp only [bits, Nat.reducePow] at *) <;> omega)
    have hc : 0 = 0 ∧ bits (wm1.toNat + boff.toNat * 128) 6 1 = 0 := ⟨rfl, by (try simp only [bits, Nat.reducePow] at *) <;> omega⟩
    exact (if_pos (e := none) hc).trans (by simp only [sreg_field, a2, a3])) hw

theorem rld (d a : SReg) (off : BitVec 30) : Statement (.rld d a off) := by
  intro hw _
  have l0 := sreg_lt d
  have l1 := sreg_lt a
  have l2 := off.isLt
  exact enc1 (by decide) (by decide) (sreg_lt d) (sreg_lt a) (by decide) (by (try simp only [Nat.reducePow] at *) <;> omega) rfl rfl (by
    have a2 : BitVec.ofNat 30 (bits off.toNat 0 30) = off := field_eq _ _ (by (try simp only [bits, Nat.reducePow] at *) <;> omega)
    have hc : 0 = 0 := rfl
    exact (if_pos (e := none) hc).trans (by simp only [sreg_field, a2])) hw

theorem rst (a b : SReg) (off : BitVec 30) : Statement (.rst a b off) := by
  intro hw _
  have l0 := sreg_lt a
  have l1 := sreg_lt b
  have l2 := off.isLt
  exact enc1 (by decide) (by decide) (by decide) (sreg_lt a) (sreg_lt b) (by (try simp only [Nat.reducePow] at *) <;> omega) rfl rfl (by
    have a2 : BitVec.ofNat 30 (bits off.toNat 0 30) = off := field_eq _ _ (by (try simp only [bits, Nat.reducePow] at *) <;> omega)
    have hc : 0 = 0 := rfl
    exact (if_pos (e := none) hc).trans (by simp only [sreg_field, a2])) hw

theorem amSend (a b : SReg) (x y : SReg) (hid : BitVec 10) : Statement (.amSend a b x y hid) := by
  intro hw _
  have l0 := sreg_lt a
  have l1 := sreg_lt b
  have l2 := sreg_lt x
  have l3 := sreg_lt y
  have l4 := hid.isLt
  exact enc2 (by decide) (by decide) (by decide) (sreg_lt a) (sreg_lt b) (by (try simp only [Nat.reducePow] at *) <;> omega) rfl rfl (by
    have a2 : sreg ((x.field + y.field * 64) % 64) = x := by
      rw [show ((x.field + y.field * 64) % 64) = x.field from by (try simp only [bits, Nat.reducePow] at *) <;> omega]; exact sreg_field x
    have a3 : sreg (bits (x.field + y.field * 64) 6 6) = y := by
      rw [show (bits (x.field + y.field * 64) 6 6) = y.field from by (try simp only [bits, Nat.reducePow] at *) <;> omega]; exact sreg_field y
    have a4 : BitVec.ofNat 10 (bits hid.toNat 0 10) = hid := field_eq _ _ (by (try simp only [bits, Nat.reducePow] at *) <;> omega)
    have hc : 0 = 0 ∧ bits hid.toNat 10 20 = 0 ∧ bits (x.field + y.field * 64) 12 20 = 0 := ⟨rfl, by (try simp only [bits, Nat.reducePow] at *) <;> omega, by (try simp only [bits, Nat.reducePow] at *) <;> omega⟩
    exact (if_pos (e := none) hc).trans (by simp only [sreg_field, a2, a3, a4])) hw

theorem pfL1 (a : SReg) (off : BitVec 30) : Statement (.pfL1 a off) := by
  intro hw _
  have l0 := sreg_lt a
  have l1 := off.isLt
  exact enc1 (by decide) (by decide) (by decide) (sreg_lt a) (by decide) (by (try simp only [Nat.reducePow] at *) <;> omega) rfl rfl (by
    have a1 : BitVec.ofNat 30 (bits off.toNat 0 30) = off := field_eq _ _ (by (try simp only [bits, Nat.reducePow] at *) <;> omega)
    have hc : 0 = 0 ∧ 0 = 0 := ⟨rfl, rfl⟩
    exact (if_pos (e := none) hc).trans (by simp only [sreg_field, a1])) hw

theorem pfL2 (a : SReg) (off : BitVec 30) : Statement (.pfL2 a off) := by
  intro hw _
  have l0 := sreg_lt a
  have l1 := off.isLt
  exact enc1 (by decide) (by decide) (by decide) (sreg_lt a) (by decide) (by (try simp only [Nat.reducePow] at *) <;> omega) rfl rfl (by
    have a1 : BitVec.ofNat 30 (bits off.toNat 0 30) = off := field_eq _ _ (by (try simp only [bits, Nat.reducePow] at *) <;> omega)
    have hc : 0 = 0 ∧ 0 = 0 := ⟨rfl, rfl⟩
    exact (if_pos (e := none) hc).trans (by simp only [sreg_field, a1])) hw

theorem cbufTake (d a : SReg) (m : BitVec 5) : Statement (.cbufTake d a m) := by
  intro hw _
  have l0 := sreg_lt d
  have l1 := sreg_lt a
  have l2 := m.isLt
  exact enc1 (by decide) (by decide) (sreg_lt d) (sreg_lt a) (by decide) (by (try simp only [Nat.reducePow] at *) <;> omega) rfl rfl (by
    have a2 : BitVec.ofNat 5 (bits m.toNat 0 5) = m := field_eq _ _ (by (try simp only [bits, Nat.reducePow] at *) <;> omega)
    have hc : 0 = 0 ∧ bits m.toNat 5 25 = 0 := ⟨rfl, by (try simp only [bits, Nat.reducePow] at *) <;> omega⟩
    exact (if_pos (e := none) hc).trans (by simp only [sreg_field, a2])) hw

theorem cbufGive (a : SReg) (m : BitVec 5) : Statement (.cbufGive a m) := by
  intro hw _
  have l0 := sreg_lt a
  have l1 := m.isLt
  exact enc1 (by decide) (by decide) (by decide) (sreg_lt a) (by decide) (by (try simp only [Nat.reducePow] at *) <;> omega) rfl rfl (by
    have a1 : BitVec.ofNat 5 (bits m.toNat 0 5) = m := field_eq _ _ (by (try simp only [bits, Nat.reducePow] at *) <;> omega)
    have hc : 0 = 0 ∧ 0 = 0 ∧ bits m.toNat 5 25 = 0 := ⟨rfl, rfl, by (try simp only [bits, Nat.reducePow] at *) <;> omega⟩
    exact (if_pos (e := none) hc).trans (by simp only [sreg_field, a1])) hw

theorem amoAdd (d a b : SReg) (off : BitVec 30) : Statement (.amoAdd d a b off) := by
  intro hw _
  have l0 := sreg_lt d
  have l1 := sreg_lt a
  have l2 := sreg_lt b
  have l3 := off.isLt
  exact enc1 (by decide) (by decide) (sreg_lt d) (sreg_lt a) (sreg_lt b) (by (try simp only [Nat.reducePow] at *) <;> omega) rfl rfl (by
    have a3 : BitVec.ofNat 30 (bits off.toNat 0 30) = off := field_eq _ _ (by (try simp only [bits, Nat.reducePow] at *) <;> omega)
    simp only [sreg_field, a3]) hw

theorem amoAnd (d a b : SReg) (off : BitVec 30) : Statement (.amoAnd d a b off) := by
  intro hw _
  have l0 := sreg_lt d
  have l1 := sreg_lt a
  have l2 := sreg_lt b
  have l3 := off.isLt
  exact enc1 (by decide) (by decide) (sreg_lt d) (sreg_lt a) (sreg_lt b) (by (try simp only [Nat.reducePow] at *) <;> omega) rfl rfl (by
    have a3 : BitVec.ofNat 30 (bits off.toNat 0 30) = off := field_eq _ _ (by (try simp only [bits, Nat.reducePow] at *) <;> omega)
    simp only [sreg_field, a3]) hw

theorem amoOr (d a b : SReg) (off : BitVec 30) : Statement (.amoOr d a b off) := by
  intro hw _
  have l0 := sreg_lt d
  have l1 := sreg_lt a
  have l2 := sreg_lt b
  have l3 := off.isLt
  exact enc1 (by decide) (by decide) (sreg_lt d) (sreg_lt a) (sreg_lt b) (by (try simp only [Nat.reducePow] at *) <;> omega) rfl rfl (by
    have a3 : BitVec.ofNat 30 (bits off.toNat 0 30) = off := field_eq _ _ (by (try simp only [bits, Nat.reducePow] at *) <;> omega)
    simp only [sreg_field, a3]) hw

theorem amoXor (d a b : SReg) (off : BitVec 30) : Statement (.amoXor d a b off) := by
  intro hw _
  have l0 := sreg_lt d
  have l1 := sreg_lt a
  have l2 := sreg_lt b
  have l3 := off.isLt
  exact enc1 (by decide) (by decide) (sreg_lt d) (sreg_lt a) (sreg_lt b) (by (try simp only [Nat.reducePow] at *) <;> omega) rfl rfl (by
    have a3 : BitVec.ofNat 30 (bits off.toNat 0 30) = off := field_eq _ _ (by (try simp only [bits, Nat.reducePow] at *) <;> omega)
    simp only [sreg_field, a3]) hw

theorem amoMin (d a b : SReg) (off : BitVec 30) : Statement (.amoMin d a b off) := by
  intro hw _
  have l0 := sreg_lt d
  have l1 := sreg_lt a
  have l2 := sreg_lt b
  have l3 := off.isLt
  exact enc1 (by decide) (by decide) (sreg_lt d) (sreg_lt a) (sreg_lt b) (by (try simp only [Nat.reducePow] at *) <;> omega) rfl rfl (by
    have a3 : BitVec.ofNat 30 (bits off.toNat 0 30) = off := field_eq _ _ (by (try simp only [bits, Nat.reducePow] at *) <;> omega)
    simp only [sreg_field, a3]) hw

theorem amoMax (d a b : SReg) (off : BitVec 30) : Statement (.amoMax d a b off) := by
  intro hw _
  have l0 := sreg_lt d
  have l1 := sreg_lt a
  have l2 := sreg_lt b
  have l3 := off.isLt
  exact enc1 (by decide) (by decide) (sreg_lt d) (sreg_lt a) (sreg_lt b) (by (try simp only [Nat.reducePow] at *) <;> omega) rfl rfl (by
    have a3 : BitVec.ofNat 30 (bits off.toNat 0 30) = off := field_eq _ _ (by (try simp only [bits, Nat.reducePow] at *) <;> omega)
    simp only [sreg_field, a3]) hw

theorem amoSwap (d a b : SReg) (off : BitVec 30) : Statement (.amoSwap d a b off) := by
  intro hw _
  have l0 := sreg_lt d
  have l1 := sreg_lt a
  have l2 := sreg_lt b
  have l3 := off.isLt
  exact enc1 (by decide) (by decide) (sreg_lt d) (sreg_lt a) (sreg_lt b) (by (try simp only [Nat.reducePow] at *) <;> omega) rfl rfl (by
    have a3 : BitVec.ofNat 30 (bits off.toNat 0 30) = off := field_eq _ _ (by (try simp only [bits, Nat.reducePow] at *) <;> omega)
    simp only [sreg_field, a3]) hw

theorem amoCas (d a : SReg) (b x : SReg) (off : BitVec 30) : Statement (.amoCas d a b x off) := by
  intro hw _
  have l0 := sreg_lt d
  have l1 := sreg_lt a
  have l2 := sreg_lt b
  have l3 := sreg_lt x
  have l4 := off.isLt
  exact enc2 (by decide) (by decide) (sreg_lt d) (sreg_lt a) (sreg_lt b) (by (try simp only [Nat.reducePow] at *) <;> omega) rfl rfl (by
    have a3 : sreg (x.field % 64) = x := by
      rw [show (x.field % 64) = x.field from by (try simp only [bits, Nat.reducePow] at *) <;> omega]; exact sreg_field x
    have a4 : BitVec.ofNat 30 (bits off.toNat 0 30) = off := field_eq _ _ (by (try simp only [bits, Nat.reducePow] at *) <;> omega)
    have hc : bits x.field 6 26 = 0 := by (try simp only [bits, Nat.reducePow] at *) <;> omega
    exact (if_pos (e := none) hc).trans (by simp only [sreg_field, a3, a4])) hw

theorem redAdd (a b : SReg) (rf : RedFmt) (off : BitVec 28) : Statement (.redAdd a b rf off) := by
  intro hw _
  have l0 := sreg_lt a
  have l1 := sreg_lt b
  have l2 := off.isLt
  have l3 := redFmt_lt rf
  exact enc1 (by decide) (by decide) (by decide) (sreg_lt a) (sreg_lt b) (by (try simp only [Nat.reducePow] at *) <;> omega) rfl rfl (by
    have b0 : RedFmt.ofCode (bits (rf.code + off.toNat * 4) 0 2) = some rf := by
      rw [show (bits (rf.code + off.toNat * 4) 0 2) = rf.code from by (try simp only [bits, Nat.reducePow] at *) <;> omega]; exact redFmt_code rf
    have a3 : BitVec.ofNat 28 (bits (rf.code + off.toNat * 4) 2 28) = off := field_eq _ _ (by (try simp only [bits, Nat.reducePow] at *) <;> omega)
    have hc : 0 = 0 := rfl
    exact (if_pos (e := none) hc).trans (by simp only [b0, sreg_field, a3, Option.bind_eq_bind, Option.bind_some])) hw

theorem redMax (a b : SReg) (rf : RedFmt) (off : BitVec 28) : Statement (.redMax a b rf off) := by
  intro hw _
  have l0 := sreg_lt a
  have l1 := sreg_lt b
  have l2 := off.isLt
  have l3 := redFmt_lt rf
  exact enc1 (by decide) (by decide) (by decide) (sreg_lt a) (sreg_lt b) (by (try simp only [Nat.reducePow] at *) <;> omega) rfl rfl (by
    have b0 : RedFmt.ofCode (bits (rf.code + off.toNat * 4) 0 2) = some rf := by
      rw [show (bits (rf.code + off.toNat * 4) 0 2) = rf.code from by (try simp only [bits, Nat.reducePow] at *) <;> omega]; exact redFmt_code rf
    have a3 : BitVec.ofNat 28 (bits (rf.code + off.toNat * 4) 2 28) = off := field_eq _ _ (by (try simp only [bits, Nat.reducePow] at *) <;> omega)
    have hc : 0 = 0 := rfl
    exact (if_pos (e := none) hc).trans (by simp only [b0, sreg_field, a3, Option.bind_eq_bind, Option.bind_some])) hw

theorem redMin (a b : SReg) (rf : RedFmt) (off : BitVec 28) : Statement (.redMin a b rf off) := by
  intro hw _
  have l0 := sreg_lt a
  have l1 := sreg_lt b
  have l2 := off.isLt
  have l3 := redFmt_lt rf
  exact enc1 (by decide) (by decide) (by decide) (sreg_lt a) (sreg_lt b) (by (try simp only [Nat.reducePow] at *) <;> omega) rfl rfl (by
    have b0 : RedFmt.ofCode (bits (rf.code + off.toNat * 4) 0 2) = some rf := by
      rw [show (bits (rf.code + off.toNat * 4) 0 2) = rf.code from by (try simp only [bits, Nat.reducePow] at *) <;> omega]; exact redFmt_code rf
    have a3 : BitVec.ofNat 28 (bits (rf.code + off.toNat * 4) 2 28) = off := field_eq _ _ (by (try simp only [bits, Nat.reducePow] at *) <;> omega)
    have hc : 0 = 0 := rfl
    exact (if_pos (e := none) hc).trans (by simp only [b0, sreg_field, a3, Option.bind_eq_bind, Option.bind_some])) hw

theorem fePut (a b : SReg) (g : Bool) (woff : BitVec 27) : Statement (.fePut a b g woff) := by
  intro hw _
  have l0 := sreg_lt a
  have l1 := sreg_lt b
  have l2 := bool_lt g
  have l3 := woff.isLt
  exact enc1 (by decide) (by decide) (by decide) (sreg_lt a) (sreg_lt b) (by (try simp only [Nat.reducePow] at *) <;> omega) rfl rfl (by
    have a2 : decide ((bits (g.toNat + woff.toNat * 8) 0 1) = 1) = g := flag_eq _ _ (by (try simp only [bits, Nat.reducePow] at *) <;> omega)
    have a3 : BitVec.ofNat 27 (bits (g.toNat + woff.toNat * 8) 3 27) = woff := field_eq _ _ (by (try simp only [bits, Nat.reducePow] at *) <;> omega)
    have hc : 0 = 0 ∧ bits (g.toNat + woff.toNat * 8) 1 2 = 0 := ⟨rfl, by (try simp only [bits, Nat.reducePow] at *) <;> omega⟩
    exact (if_pos (e := none) hc).trans (by simp only [sreg_field, a2, a3])) hw

theorem feTake (d a : SReg) (g : Bool) (woff : BitVec 27) : Statement (.feTake d a g woff) := by
  intro hw _
  have l0 := sreg_lt d
  have l1 := sreg_lt a
  have l2 := bool_lt g
  have l3 := woff.isLt
  exact enc1 (by decide) (by decide) (sreg_lt d) (sreg_lt a) (by decide) (by (try simp only [Nat.reducePow] at *) <;> omega) rfl rfl (by
    have a2 : decide ((bits (g.toNat + woff.toNat * 8) 0 1) = 1) = g := flag_eq _ _ (by (try simp only [bits, Nat.reducePow] at *) <;> omega)
    have a3 : BitVec.ofNat 27 (bits (g.toNat + woff.toNat * 8) 3 27) = woff := field_eq _ _ (by (try simp only [bits, Nat.reducePow] at *) <;> omega)
    have hc : 0 = 0 ∧ bits (g.toNat + woff.toNat * 8) 1 2 = 0 := ⟨rfl, by (try simp only [bits, Nat.reducePow] at *) <;> omega⟩
    exact (if_pos (e := none) hc).trans (by simp only [sreg_field, a2, a3])) hw

theorem fePeek (d a : SReg) (g : Bool) (ps : Bool) (woff : BitVec 27) : Statement (.fePeek d a g ps woff) := by
  intro hw _
  have l0 := sreg_lt d
  have l1 := sreg_lt a
  have l2 := bool_lt g
  have l3 := bool_lt ps
  have l4 := woff.isLt
  exact enc1 (by decide) (by decide) (sreg_lt d) (sreg_lt a) (by decide) (by (try simp only [Nat.reducePow] at *) <;> omega) rfl rfl (by
    have a2 : decide ((bits (g.toNat + ps.toNat * 2 + woff.toNat * 8) 0 1) = 1) = g := flag_eq _ _ (by (try simp only [bits, Nat.reducePow] at *) <;> omega)
    have a3 : decide ((bits (g.toNat + ps.toNat * 2 + woff.toNat * 8) 1 1) = 1) = ps := flag_eq _ _ (by (try simp only [bits, Nat.reducePow] at *) <;> omega)
    have a4 : BitVec.ofNat 27 (bits (g.toNat + ps.toNat * 2 + woff.toNat * 8) 3 27) = woff := field_eq _ _ (by (try simp only [bits, Nat.reducePow] at *) <;> omega)
    have hc : 0 = 0 ∧ bits (g.toNat + ps.toNat * 2 + woff.toNat * 8) 2 1 = 0 := ⟨rfl, by (try simp only [bits, Nat.reducePow] at *) <;> omega⟩
    exact (if_pos (e := none) hc).trans (by simp only [sreg_field, a2, a3, a4])) hw

theorem fenceCore : Statement (.fenceCore) := by
  intro hw _
  exact enc1 (by decide) (by decide) (by decide) (by decide) (by decide) (by decide) rfl rfl (by
    have hc : 0 = 0 ∧ 0 = 0 ∧ 0 = 0 ∧ 0 = 0 := ⟨rfl, rfl, rfl, rfl⟩
    exact (if_pos (e := none) hc).trans rfl) hw

theorem fenceCluster : Statement (.fenceCluster) := by
  intro hw _
  exact enc1 (by decide) (by decide) (by decide) (by decide) (by decide) (by decide) rfl rfl (by
    have hc : 0 = 0 ∧ 0 = 0 ∧ 0 = 0 ∧ 0 = 0 := ⟨rfl, rfl, rfl, rfl⟩
    exact (if_pos (e := none) hc).trans rfl) hw

theorem fencePod : Statement (.fencePod) := by
  intro hw _
  exact enc1 (by decide) (by decide) (by decide) (by decide) (by decide) (by decide) rfl rfl (by
    have hc : 0 = 0 ∧ 0 = 0 ∧ 0 = 0 ∧ 0 = 0 := ⟨rfl, rfl, rfl, rfl⟩
    exact (if_pos (e := none) hc).trans rfl) hw

theorem fencePackage : Statement (.fencePackage) := by
  intro hw _
  exact enc1 (by decide) (by decide) (by decide) (by decide) (by decide) (by decide) rfl rfl (by
    have hc : 0 = 0 ∧ 0 = 0 ∧ 0 = 0 ∧ 0 = 0 := ⟨rfl, rfl, rfl, rfl⟩
    exact (if_pos (e := none) hc).trans rfl) hw

theorem fenceSystem : Statement (.fenceSystem) := by
  intro hw _
  exact enc1 (by decide) (by decide) (by decide) (by decide) (by decide) (by decide) rfl rfl (by
    have hc : 0 = 0 ∧ 0 = 0 ∧ 0 = 0 ∧ 0 = 0 := ⟨rfl, rfl, rfl, rfl⟩
    exact (if_pos (e := none) hc).trans rfl) hw

theorem waitMem (a b : SReg) (cc : Cc) (woff : BitVec 27) : Statement (.waitMem a b cc woff) := by
  intro hw _
  have l0 := sreg_lt a
  have l1 := sreg_lt b
  have l2 := woff.isLt
  have l3 := cc_lt cc
  exact enc1 (by decide) (by decide) (by decide) (sreg_lt a) (sreg_lt b) (by (try simp only [Nat.reducePow] at *) <;> omega) rfl rfl (by
    have b0 : Cc.ofCode (bits (cc.code + woff.toNat * 8) 0 3) = some cc := by
      rw [show (bits (cc.code + woff.toNat * 8) 0 3) = cc.code from by (try simp only [bits, Nat.reducePow] at *) <;> omega]; exact cc_code cc
    have a3 : BitVec.ofNat 27 (bits (cc.code + woff.toNat * 8) 3 27) = woff := field_eq _ _ (by (try simp only [bits, Nat.reducePow] at *) <;> omega)
    have hc : 0 = 0 := rfl
    exact (if_pos (e := none) hc).trans (by simp only [b0, sreg_field, a3, Option.bind_eq_bind, Option.bind_some])) hw

theorem cpyQ (d a b : SReg) (f : CpyF) (shp : BitVec 32) : Statement (.cpyQ d a b f shp) := by
  intro hw _
  have l0 := sreg_lt d
  have l1 := sreg_lt a
  have l2 := sreg_lt b
  have l3 := cpy_imm_lt f
  have l4 := shp.isLt
  exact enc3 (by decide) (by decide) (sreg_lt d) (sreg_lt a) (sreg_lt b) (by (try simp only [Nat.reducePow] at *) <;> omega) rfl rfl (by
    simp only [buildCpyQ, cpy_imm_kind, cpy_imm_high, sreg_field, cpyF_imm, and_self, if_true, BitVec.ofNat_toNat, BitVec.setWidth_eq]) hw

theorem cpyQCfg (d a b : SReg) (cbn : BitVec 5) (e : BitVec 4) : Statement (.cpyQCfg d a b cbn e) := by
  intro hw _
  have l0 := sreg_lt d
  have l1 := sreg_lt a
  have l2 := sreg_lt b
  have l3 := cbn.isLt
  have l4 := e.isLt
  exact enc3 (by decide) (by decide) (sreg_lt d) (sreg_lt a) (sreg_lt b) (by (try simp only [Nat.reducePow] at *) <;> omega) rfl rfl (by
    have h1 : bits (e.toNat + 16 + cbn.toNat * 8192) 20 10 = 0 := by (try simp only [bits, Nat.reducePow] at *) <;> omega
    have h2 : bits (e.toNat + 16 + cbn.toNat * 8192) 4 2 = 1 := by (try simp only [bits, Nat.reducePow] at *) <;> omega
    have h3 : bits (e.toNat + 16 + cbn.toNat * 8192) 6 7 = 0 := by (try simp only [bits, Nat.reducePow] at *) <;> omega
    have h4 : bits (e.toNat + 16 + cbn.toNat * 8192) 18 2 = 0 := by (try simp only [bits, Nat.reducePow] at *) <;> omega
    have h5 : BitVec.ofNat 5 (bits (e.toNat + 16 + cbn.toNat * 8192) 13 5) = cbn := field_eq _ _ (by (try simp only [bits, Nat.reducePow] at *) <;> omega)
    have h6 : BitVec.ofNat 4 (bits (e.toNat + 16 + cbn.toNat * 8192) 0 4) = e := field_eq _ _ (by (try simp only [bits, Nat.reducePow] at *) <;> omega)
    simp only [buildCpyQ, h1, h2, h3, h4, h5, h6, sreg_field, and_self, if_true]) hw

theorem cpyQClear (d : SReg) (e : BitVec 4) : Statement (.cpyQClear d e) := by
  intro hw _
  have l0 := sreg_lt d
  have l1 := e.isLt
  exact enc3 (by decide) (by decide) (sreg_lt d) (by decide) (by decide) (by (try simp only [Nat.reducePow] at *) <;> omega) rfl rfl (by
    have h1 : bits (e.toNat + 32) 20 10 = 0 := by (try simp only [bits, Nat.reducePow] at *) <;> omega
    have h2 : bits (e.toNat + 32) 4 2 = 2 := by (try simp only [bits, Nat.reducePow] at *) <;> omega
    have h3 : bits (e.toNat + 32) 6 14 = 0 := by (try simp only [bits, Nat.reducePow] at *) <;> omega
    have h6 : BitVec.ofNat 4 (bits (e.toNat + 32) 0 4) = e := field_eq _ _ (by (try simp only [bits, Nat.reducePow] at *) <;> omega)
    simp only [buildCpyQ, h1, h2, h3, h6, sreg_field, and_self, if_true]) hw

theorem cpyFm (d a b : SReg) (f : CpyF) (shp : BitVec 32) (fo : BitVec 32) : Statement (.cpyFm d a b f shp fo) := by
  intro hw _
  have l0 := sreg_lt d
  have l1 := sreg_lt a
  have l2 := sreg_lt b
  have l3 := cpy_imm_lt f
  have l4 := shp.isLt
  have l5 := fo.isLt
  exact enc3 (by decide) (by decide) (sreg_lt d) (sreg_lt a) (sreg_lt b) (by (try simp only [Nat.reducePow] at *) <;> omega) rfl rfl (by
    have a4 : BitVec.ofNat 32 shp.toNat = shp := field_eq _ _ (by (try simp only [bits, Nat.reducePow] at *) <;> omega)
    have a5 : BitVec.ofNat 32 fo.toNat = fo := field_eq _ _ (by (try simp only [bits, Nat.reducePow] at *) <;> omega)
    have hc : bits f.imm 4 2 = 0 ∧ bits f.imm 20 10 = 0 := ⟨cpy_imm_kind f, cpy_imm_high f⟩
    exact (if_pos (e := none) hc).trans (by simp only [sreg_field, cpyF_imm, a4, a5])) hw

theorem routeQ (d a b : SReg) (e : BitVec 4) (km1 : BitVec 3) (t : BitVec 16) (em1 : BitVec 12) (c : BitVec 16) : Statement (.routeQ d a b e km1 t em1 c) := by
  intro hw _
  have l0 := sreg_lt d
  have l1 := sreg_lt a
  have l2 := sreg_lt b
  have l3 := e.isLt
  have l4 := km1.isLt
  have l5 := t.isLt
  have l6 := em1.isLt
  have l7 := c.isLt
  exact enc3 (by decide) (by decide) (sreg_lt d) (sreg_lt a) (sreg_lt b) (by (try simp only [Nat.reducePow] at *) <;> omega) rfl rfl (by
    have a3 : BitVec.ofNat 4 (bits (e.toNat + km1.toNat * 16) 0 4) = e := field_eq _ _ (by (try simp only [bits, Nat.reducePow] at *) <;> omega)
    have a4 : BitVec.ofNat 3 (bits (e.toNat + km1.toNat * 16) 4 3) = km1 := field_eq _ _ (by (try simp only [bits, Nat.reducePow] at *) <;> omega)
    have a5 : BitVec.ofNat 16 (bits (t.toNat + em1.toNat * 65536) 0 16) = t := field_eq _ _ (by (try simp only [bits, Nat.reducePow] at *) <;> omega)
    have a6 : BitVec.ofNat 12 (bits (t.toNat + em1.toNat * 65536) 16 12) = em1 := field_eq _ _ (by (try simp only [bits, Nat.reducePow] at *) <;> omega)
    have a7 : BitVec.ofNat 16 (bits c.toNat 0 16) = c := field_eq _ _ (by (try simp only [bits, Nat.reducePow] at *) <;> omega)
    have hc : bits (e.toNat + km1.toNat * 16) 7 23 = 0 ∧ bits (t.toNat + em1.toNat * 65536) 28 4 = 0 ∧ bits c.toNat 16 16 = 0 := ⟨by (try simp only [bits, Nat.reducePow] at *) <;> omega, by (try simp only [bits, Nat.reducePow] at *) <;> omega, by (try simp only [bits, Nat.reducePow] at *) <;> omega⟩
    exact (if_pos (e := none) hc).trans (by simp only [sreg_field, a3, a4, a5, a6, a7])) hw

theorem collQ (d a b : SReg) (e : BitVec 4) (ck : CollKind) (bf16 : Bool) (g : BitVec 6) (n : BitVec 32) (cid : BitVec 32) : Statement (.collQ d a b e ck bf16 g n cid) := by
  intro hw _
  have l0 := sreg_lt d
  have l1 := sreg_lt a
  have l2 := sreg_lt b
  have l3 := e.isLt
  have l4 := bool_lt bf16
  have l5 := g.isLt
  have l6 := n.isLt
  have l7 := cid.isLt
  have l8 := collKind_lt ck
  exact enc3 (by decide) (by decide) (sreg_lt d) (sreg_lt a) (sreg_lt b) (by (try simp only [Nat.reducePow] at *) <;> omega) rfl rfl (by
    have b0 : CollKind.ofCode (bits (e.toNat + ck.code * 16 + bf16.toNat * 64 + g.toNat * 128) 4 2) = some ck := by
      rw [show (bits (e.toNat + ck.code * 16 + bf16.toNat * 64 + g.toNat * 128) 4 2) = ck.code from by (try simp only [bits, Nat.reducePow] at *) <;> omega]; exact collKind_code ck
    have a3 : BitVec.ofNat 4 (bits (e.toNat + ck.code * 16 + bf16.toNat * 64 + g.toNat * 128) 0 4) = e := field_eq _ _ (by (try simp only [bits, Nat.reducePow] at *) <;> omega)
    have a5 : decide ((bits (e.toNat + ck.code * 16 + bf16.toNat * 64 + g.toNat * 128) 6 1) = 1) = bf16 := flag_eq _ _ (by (try simp only [bits, Nat.reducePow] at *) <;> omega)
    have a6 : BitVec.ofNat 6 (bits (e.toNat + ck.code * 16 + bf16.toNat * 64 + g.toNat * 128) 7 6) = g := field_eq _ _ (by (try simp only [bits, Nat.reducePow] at *) <;> omega)
    have a7 : BitVec.ofNat 32 (bits n.toNat 0 32) = n := field_eq _ _ (by (try simp only [bits, Nat.reducePow] at *) <;> omega)
    have a8 : BitVec.ofNat 32 (bits cid.toNat 0 32) = cid := field_eq _ _ (by (try simp only [bits, Nat.reducePow] at *) <;> omega)
    have hc : bits (e.toNat + ck.code * 16 + bf16.toNat * 64 + g.toNat * 128) 13 17 = 0 := by (try simp only [bits, Nat.reducePow] at *) <;> omega
    exact (if_pos (e := none) hc).trans (by simp only [b0, sreg_field, a3, a5, a6, a7, a8, Option.bind_eq_bind, Option.bind_some])) hw

theorem tlWait (a : SReg) (e : BitVec 4) : Statement (.tlWait a e) := by
  intro hw _
  have l0 := sreg_lt a
  have l1 := e.isLt
  exact enc1 (by decide) (by decide) (by decide) (sreg_lt a) (by decide) (by (try simp only [Nat.reducePow] at *) <;> omega) rfl rfl (by
    have a1 : BitVec.ofNat 4 (bits e.toNat 0 4) = e := field_eq _ _ (by (try simp only [bits, Nat.reducePow] at *) <;> omega)
    have hc : 0 = 0 ∧ 0 = 0 ∧ bits e.toNat 4 26 = 0 := ⟨rfl, rfl, by (try simp only [bits, Nat.reducePow] at *) <;> omega⟩
    exact (if_pos (e := none) hc).trans (by simp only [sreg_field, a1])) hw

theorem tlRead (d : SReg) (e : BitVec 4) (sl : BitVec 2) : Statement (.tlRead d e sl) := by
  intro hw _
  have l0 := sreg_lt d
  have l1 := e.isLt
  have l2 := sl.isLt
  exact enc1 (by decide) (by decide) (sreg_lt d) (by decide) (by decide) (by (try simp only [Nat.reducePow] at *) <;> omega) rfl rfl (by
    have a1 : BitVec.ofNat 4 (bits (e.toNat + sl.toNat * 16) 0 4) = e := field_eq _ _ (by (try simp only [bits, Nat.reducePow] at *) <;> omega)
    have a2 : BitVec.ofNat 2 (bits (e.toNat + sl.toNat * 16) 4 2) = sl := field_eq _ _ (by (try simp only [bits, Nat.reducePow] at *) <;> omega)
    have hc : 0 = 0 ∧ 0 = 0 ∧ bits (e.toNat + sl.toNat * 16) 6 24 = 0 := ⟨rfl, rfl, by (try simp only [bits, Nat.reducePow] at *) <;> omega⟩
    exact (if_pos (e := none) hc).trans (by simp only [sreg_field, a1, a2])) hw

theorem launch (d a : SReg) : Statement (.launch d a) := by
  intro hw _
  exact enc1 (by decide) (by decide) (sreg_lt d) (sreg_lt a) (by decide) (by decide) rfl rfl (by
    have hc : 0 = 0 ∧ 0 = 0 := ⟨rfl, rfl⟩
    exact (if_pos (e := none) hc).trans (by simp only [sreg_field])) hw

theorem yield : Statement (.yield) := by
  intro hw _
  exact enc1 (by decide) (by decide) (by decide) (by decide) (by decide) (by decide) rfl rfl (by
    have hc : 0 = 0 ∧ 0 = 0 ∧ 0 = 0 ∧ 0 = 0 := ⟨rfl, rfl, rfl, rfl⟩
    exact (if_pos (e := none) hc).trans rfl) hw

theorem park (a : SReg) (z : Bool) (woff : BitVec 27) : Statement (.park a z woff) := by
  intro hw _
  have l0 := sreg_lt a
  have l1 := bool_lt z
  have l2 := woff.isLt
  exact enc1 (by decide) (by decide) (by decide) (sreg_lt a) (by decide) (by (try simp only [Nat.reducePow] at *) <;> omega) rfl rfl (by
    have a1 : decide ((bits (z.toNat + woff.toNat * 8) 0 1) = 1) = z := flag_eq _ _ (by (try simp only [bits, Nat.reducePow] at *) <;> omega)
    have a2 : BitVec.ofNat 27 (bits (z.toNat + woff.toNat * 8) 3 27) = woff := field_eq _ _ (by (try simp only [bits, Nat.reducePow] at *) <;> omega)
    have hc : 0 = 0 ∧ 0 = 0 ∧ bits (z.toNat + woff.toNat * 8) 1 2 = 0 := ⟨rfl, rfl, by (try simp only [bits, Nat.reducePow] at *) <;> omega⟩
    exact (if_pos (e := none) hc).trans (by simp only [sreg_field, a1, a2])) hw

theorem hop (a : SReg) (dir : Bool) : Statement (.hop a dir) := by
  intro hw _
  have l0 := sreg_lt a
  have l1 := bool_lt dir
  exact enc1 (by decide) (by decide) (by decide) (sreg_lt a) (by decide) (by (try simp only [Nat.reducePow] at *) <;> omega) rfl rfl (by
    have a1 : decide ((bits dir.toNat 0 1) = 1) = dir := flag_eq _ _ (by (try simp only [bits, Nat.reducePow] at *) <;> omega)
    have hc : 0 = 0 ∧ 0 = 0 ∧ bits dir.toNat 1 29 = 0 := ⟨rfl, rfl, by (try simp only [bits, Nat.reducePow] at *) <;> omega⟩
    exact (if_pos (e := none) hc).trans (by simp only [sreg_field, a1])) hw

theorem exit : Statement (.exit) := by
  intro hw _
  exact enc1 (by decide) (by decide) (by decide) (by decide) (by decide) (by decide) rfl rfl (by
    have hc : 0 = 0 ∧ 0 = 0 ∧ 0 = 0 ∧ 0 = 0 := ⟨rfl, rfl, rfl, rfl⟩
    exact (if_pos (e := none) hc).trans rfl) hw

theorem commit : Statement (.commit) := by
  intro hw _
  exact enc1 (by decide) (by decide) (by decide) (by decide) (by decide) (by decide) rfl rfl (by
    have hc : 0 = 0 ∧ 0 = 0 ∧ 0 = 0 ∧ 0 = 0 := ⟨rfl, rfl, rfl, rfl⟩
    exact (if_pos (e := none) hc).trans rfl) hw

theorem ctxStartRecord (d a b : SReg) : Statement (.ctxStartRecord d a b) := by
  intro hw _
  exact enc1 (by decide) (by decide) (sreg_lt d) (sreg_lt a) (sreg_lt b) (by decide) rfl rfl (by
    simp only [buildCtxStart, sreg_field, if_true]) hw

theorem ctxStartNext (d a : SReg) : Statement (.ctxStartNext d a) := by
  intro hw _
  exact enc1 (by decide) (by decide) (sreg_lt d) (sreg_lt a) (by decide) (by decide) rfl rfl (by
    simp only [buildCtxStart, sreg_field, if_true]) hw

theorem ctxStartMode (d b : SReg) : Statement (.ctxStartMode d b) := by
  intro hw _
  exact enc1 (by decide) (by decide) (sreg_lt d) (by decide) (sreg_lt b) (by decide) rfl rfl (by
    simp only [buildCtxStart, sreg_field, if_true]) hw

theorem ctxStartResume (d a : SReg) : Statement (.ctxStartResume d a) := by
  intro hw _
  exact enc1 (by decide) (by decide) (sreg_lt d) (sreg_lt a) (by decide) (by decide) rfl rfl (by
    simp only [buildCtxStart, sreg_field, if_true]) hw

theorem ctxStop (d a : SReg) : Statement (.ctxStop d a) := by
  intro hw _
  exact enc1 (by decide) (by decide) (sreg_lt d) (sreg_lt a) (by decide) (by decide) rfl rfl (by
    have hc : 0 = 0 ∧ 0 = 0 := ⟨rfl, rfl⟩
    exact (if_pos (e := none) hc).trans (by simp only [sreg_field])) hw

theorem ctxReap (d a b : SReg) (rq : Bool) : Statement (.ctxReap d a b rq) := by
  intro hw _
  have l0 := sreg_lt d
  have l1 := sreg_lt a
  have l2 := sreg_lt b
  have l3 := bool_lt rq
  exact enc1 (by decide) (by decide) (sreg_lt d) (sreg_lt a) (sreg_lt b) (by (try simp only [Nat.reducePow] at *) <;> omega) rfl rfl (by
    have a3 : decide ((bits rq.toNat 0 1) = 1) = rq := flag_eq _ _ (by (try simp only [bits, Nat.reducePow] at *) <;> omega)
    have hc : bits rq.toNat 1 29 = 0 := by (try simp only [bits, Nat.reducePow] at *) <;> omega
    have hb : rq.toNat = 0 ∨ b.field = 0 := by
      have h : (!rq || b = .s 0) = true := hw
      cases rq with
      | false => exact .inl rfl
      | true => exact .inr (by simp at h; subst h; rfl)
    exact (if_pos (e := none) (by
      have h0 : bits rq.toNat 0 1 = rq.toNat := by (try simp only [bits, Nat.reducePow] at *) <;> omega
      show (decide (bits rq.toNat 1 29 = 0) && (decide (bits rq.toNat 0 1 = 0) || decide (b.field = 0))) = true
      rw [hc, h0, Bool.and_eq_true, Bool.or_eq_true, decide_eq_true_eq, decide_eq_true_eq]
      exact ⟨by simp, hb.imp id (fun h => by simp [h])⟩)).trans (by simp only [sreg_field, a3])) hw

theorem send (a b : SReg) (tag : BitVec 10) : Statement (.send a b tag) := by
  intro hw _
  have l0 := sreg_lt a
  have l1 := sreg_lt b
  have l2 := tag.isLt
  exact enc1 (by decide) (by decide) (by decide) (sreg_lt a) (sreg_lt b) (by (try simp only [Nat.reducePow] at *) <;> omega) rfl rfl (by
    have a2 : BitVec.ofNat 10 (bits tag.toNat 0 10) = tag := field_eq _ _ (by (try simp only [bits, Nat.reducePow] at *) <;> omega)
    have hc : 0 = 0 ∧ bits tag.toNat 10 20 = 0 := ⟨rfl, by (try simp only [bits, Nat.reducePow] at *) <;> omega⟩
    exact (if_pos (e := none) hc).trans (by simp only [sreg_field, a2])) hw

theorem recv (d a : SReg) (off : BitVec 30) : Statement (.recv d a off) := by
  intro hw _
  have l0 := sreg_lt d
  have l1 := sreg_lt a
  have l2 := off.isLt
  exact enc1 (by decide) (by decide) (sreg_lt d) (sreg_lt a) (by decide) (by (try simp only [Nat.reducePow] at *) <;> omega) rfl rfl (by
    have a2 : BitVec.ofNat 30 (bits off.toNat 0 30) = off := field_eq _ _ (by (try simp only [bits, Nat.reducePow] at *) <;> omega)
    have hc : 0 = 0 := rfl
    exact (if_pos (e := none) hc).trans (by simp only [sreg_field, a2])) hw

theorem gangForm (a : SReg) (tag : BitVec 16) : Statement (.gangForm a tag) := by
  intro hw _
  have l0 := sreg_lt a
  have l1 := tag.isLt
  exact enc1 (by decide) (by decide) (by decide) (sreg_lt a) (by decide) (by (try simp only [Nat.reducePow] at *) <;> omega) rfl rfl (by
    have a1 : BitVec.ofNat 16 (bits tag.toNat 0 16) = tag := field_eq _ _ (by (try simp only [bits, Nat.reducePow] at *) <;> omega)
    have hc : 0 = 0 ∧ 0 = 0 ∧ bits tag.toNat 16 14 = 0 := ⟨rfl, rfl, by (try simp only [bits, Nat.reducePow] at *) <;> omega⟩
    exact (if_pos (e := none) hc).trans (by simp only [sreg_field, a1])) hw

theorem gangJoin (tag : BitVec 16) : Statement (.gangJoin tag) := by
  intro hw _
  have l0 := tag.isLt
  exact enc1 (by decide) (by decide) (by decide) (by decide) (by decide) (by (try simp only [Nat.reducePow] at *) <;> omega) rfl rfl (by
    have a0 : BitVec.ofNat 16 (bits tag.toNat 0 16) = tag := field_eq _ _ (by (try simp only [bits, Nat.reducePow] at *) <;> omega)
    have hc : 0 = 0 ∧ 0 = 0 ∧ 0 = 0 ∧ bits tag.toNat 16 14 = 0 := ⟨rfl, rfl, rfl, by (try simp only [bits, Nat.reducePow] at *) <;> omega⟩
    exact (if_pos (e := none) hc).trans (by simp only [a0])) hw

theorem gangLeave : Statement (.gangLeave) := by
  intro hw _
  exact enc1 (by decide) (by decide) (by decide) (by decide) (by decide) (by decide) rfl rfl (by
    have hc : 0 = 0 ∧ 0 = 0 ∧ 0 = 0 ∧ 0 = 0 := ⟨rfl, rfl, rfl, rfl⟩
    exact (if_pos (e := none) hc).trans rfl) hw

theorem cancelLaunch (a : SReg) (c : BitVec 8) : Statement (.cancelLaunch a c) := by
  intro hw _
  have l0 := sreg_lt a
  have l1 := c.isLt
  exact enc1 (by decide) (by decide) (by decide) (sreg_lt a) (by decide) (by (try simp only [Nat.reducePow] at *) <;> omega) rfl rfl (by
    have a1 : BitVec.ofNat 8 (bits c.toNat 0 8) = c := field_eq _ _ (by (try simp only [bits, Nat.reducePow] at *) <;> omega)
    have hc : 0 = 0 ∧ 0 = 0 ∧ bits c.toNat 8 22 = 0 := ⟨rfl, rfl, by (try simp only [bits, Nat.reducePow] at *) <;> omega⟩
    exact (if_pos (e := none) hc).trans (by simp only [sreg_field, a1])) hw

theorem cancelGraph (a : SReg) (c : BitVec 8) : Statement (.cancelGraph a c) := by
  intro hw _
  have l0 := sreg_lt a
  have l1 := c.isLt
  exact enc1 (by decide) (by decide) (by decide) (sreg_lt a) (by decide) (by (try simp only [Nat.reducePow] at *) <;> omega) rfl rfl (by
    have a1 : BitVec.ofNat 8 (bits c.toNat 0 8) = c := field_eq _ _ (by (try simp only [bits, Nat.reducePow] at *) <;> omega)
    have hc : 0 = 0 ∧ 0 = 0 ∧ bits c.toNat 8 22 = 0 := ⟨rfl, rfl, by (try simp only [bits, Nat.reducePow] at *) <;> omega⟩
    exact (if_pos (e := none) hc).trans (by simp only [sreg_field, a1])) hw

theorem cancelPhase (a : SReg) (c : BitVec 8) : Statement (.cancelPhase a c) := by
  intro hw _
  have l0 := sreg_lt a
  have l1 := c.isLt
  exact enc1 (by decide) (by decide) (by decide) (sreg_lt a) (by decide) (by (try simp only [Nat.reducePow] at *) <;> omega) rfl rfl (by
    have a1 : BitVec.ofNat 8 (bits c.toNat 0 8) = c := field_eq _ _ (by (try simp only [bits, Nat.reducePow] at *) <;> omega)
    have hc : 0 = 0 ∧ 0 = 0 ∧ bits c.toNat 8 22 = 0 := ⟨rfl, rfl, by (try simp only [bits, Nat.reducePow] at *) <;> omega⟩
    exact (if_pos (e := none) hc).trans (by simp only [sreg_field, a1])) hw

theorem cancelJob (a : SReg) (c : BitVec 8) : Statement (.cancelJob a c) := by
  intro hw _
  have l0 := sreg_lt a
  have l1 := c.isLt
  exact enc1 (by decide) (by decide) (by decide) (sreg_lt a) (by decide) (by (try simp only [Nat.reducePow] at *) <;> omega) rfl rfl (by
    have a1 : BitVec.ofNat 8 (bits c.toNat 0 8) = c := field_eq _ _ (by (try simp only [bits, Nat.reducePow] at *) <;> omega)
    have hc : 0 = 0 ∧ 0 = 0 ∧ bits c.toNat 8 22 = 0 := ⟨rfl, rfl, by (try simp only [bits, Nat.reducePow] at *) <;> omega⟩
    exact (if_pos (e := none) hc).trans (by simp only [sreg_field, a1])) hw

theorem cntRead (d a : SReg) : Statement (.cntRead d a) := by
  intro hw _
  exact enc1 (by decide) (by decide) (sreg_lt d) (sreg_lt a) (by decide) (by decide) rfl rfl (by
    have hc : 0 = 0 ∧ 0 = 0 := ⟨rfl, rfl⟩
    exact (if_pos (e := none) hc).trans (by simp only [sreg_field])) hw

theorem hmq (d a : SReg) : Statement (.hmq d a) := by
  intro hw _
  exact enc1 (by decide) (by decide) (sreg_lt d) (sreg_lt a) (by decide) (by decide) rfl rfl (by
    have hc : 0 = 0 ∧ 0 = 0 := ⟨rfl, rfl⟩
    exact (if_pos (e := none) hc).trans (by simp only [sreg_field])) hw

theorem chunkCommit (c : Nat) (o : CommitObs) : Statement (.chunkCommit c o) := event _ rfl

theorem commitTicket (cluster : Nat) : Statement (.commitTicket cluster) := event _ rfl

theorem operationCompletion (c : Nat) : Statement (.operationCompletion c) := event _ rfl

theorem waitLimit (c : Nat) : Statement (.waitLimit c) := event _ rfl

theorem pickup (core : Nat) : Statement (.pickup core) := event _ rfl

theorem aging (cluster : Nat) : Statement (.aging cluster) := event _ rfl

theorem workStealing (cluster : Nat) (victim : Nat) : Statement (.workStealing cluster victim) := event _ rfl

theorem messageArrival (core : Nat) : Statement (.messageArrival core) := event _ rfl

theorem inboxDrain (core : Nat) : Statement (.inboxDrain core) := event _ rfl

theorem heapReplay (core : Nat) : Statement (.heapReplay core) := event _ rfl

theorem courierHandlerStart (core : Nat) : Statement (.courierHandlerStart core) := event _ rfl

theorem remoteAgentPerform (core : Nat) : Statement (.remoteAgentPerform core) := event _ rfl

theorem portProbe (c : Nat) : Statement (.portProbe c) := event _ rfl

theorem probeRound (vf : Nat) (pod : Nat) : Statement (.probeRound vf pod) := event _ rfl

theorem tokenArrival (cluster : Nat) : Statement (.tokenArrival cluster) := event _ rfl

theorem burstEnd (cluster : Nat) : Statement (.burstEnd cluster) := event _ rfl

theorem relockEnd (die : Nat) : Statement (.relockEnd die) := event _ rfl

theorem engineCommandStart (cluster : Nat) (e : Nat) : Statement (.engineCommandStart cluster e) := event _ rfl

theorem cbufSlotClaim (cluster : Nat) (e : Nat) : Statement (.cbufSlotClaim cluster e) := event _ rfl

theorem engineLineEvent (cluster : Nat) (e : Nat) : Statement (.engineLineEvent cluster e) := event _ rfl

theorem engineCommandComplete (cluster : Nat) (e : Nat) : Statement (.engineCommandComplete cluster e) := event _ rfl

theorem followOnStart (cluster : Nat) (e : Nat) : Statement (.followOnStart cluster e) := event _ rfl

theorem followOnInstall (cluster : Nat) (e : Nat) : Statement (.followOnInstall cluster e) := event _ rfl

theorem linkTimeout (rid : Nat) : Statement (.linkTimeout rid) := event _ rfl

theorem stage2Fault (c : Nat) (frame : Nat) : Statement (.stage2Fault c frame) := event _ rfl

theorem clearerRewrite (frame : Nat) : Statement (.clearerRewrite frame) := event _ rfl

theorem coreRestore (core : Nat) : Statement (.coreRestore core) := event _ rfl

theorem sliceTick (group : Nat) : Statement (.sliceTick group) := event _ rfl

theorem dieSaved (group : Nat) (die : Nat) : Statement (.dieSaved group die) := event _ rfl

theorem switchDeadline (group : Nat) : Statement (.switchDeadline group) := event _ rfl

theorem intervalClose : Statement (.intervalClose) := event _ rfl

theorem checkpointComplete : Statement (.checkpointComplete) := event _ rfl

theorem replayComplete (vf : Nat) (pod : Nat) : Statement (.replayComplete vf pod) := event _ rfl

theorem scrubPass (stack : Nat) : Statement (.scrubPass stack) := event _ rfl

theorem fetchFault (f : FetchFault) : Statement (.fetchFault f) := event _ rfl

theorem powerArbiterPeriod (p : PowerPeriod) : Statement (.powerArbiterPeriod p) := event _ rfl

theorem flitIdle (l : LinkHdr) : Statement (.flitIdle l) := event _ rfl

theorem flitRld (l : LinkHdr) (o : OpHdr) : Statement (.flitRld l o) := event _ rfl

theorem flitRst (l : LinkHdr) (o : OpHdr) (v : Word) : Statement (.flitRst l o v) := event _ rfl

theorem flitAm (l : LinkHdr) (o : OpHdr) (body : List Word) : Statement (.flitAm l o body) := event _ rfl

theorem flitFe (l : LinkHdr) (o : OpHdr) (op : FeOp) (v : Word) : Statement (.flitFe l o op v) := event _ rfl

theorem flitReply (l : LinkHdr) (o : OpHdr) (v : Word) : Statement (.flitReply l o v) := event _ rfl

theorem flitRefuse (l : LinkHdr) (o : OpHdr) (cause : Nat) : Statement (.flitRefuse l o cause) := event _ rfl

theorem flitProbe (l : LinkHdr) (o : OpHdr) (posted : BitVec 32) : Statement (.flitProbe l o posted) := event _ rfl

theorem flitEcho (l : LinkHdr) (o : OpHdr) (posted : BitVec 32) : Statement (.flitEcho l o posted) := event _ rfl

theorem flitColl (l : LinkHdr) (m : CollMsg) : Statement (.flitColl l m) := event _ rfl

theorem flitAbort (l : LinkHdr) (cid : BitVec 32) (grp : Nat) : Statement (.flitAbort l cid grp) := event _ rfl

theorem flitNotice (l : LinkHdr) (interval : BitVec 32) : Statement (.flitNotice l interval) := event _ rfl

theorem linkPortFailure (port : Nat) : Statement (.linkPortFailure port) := event _ rfl

theorem doorbell (q : Nat) (tail : BitVec 32) : Statement (.doorbell q tail) := event _ rfl

theorem queueEnable (q : Nat) (en : Bool) (logn : BitVec 5) : Statement (.queueEnable q en logn) := event _ rfl

theorem registerWrite (r : HostReg) (v : Word) : Statement (.registerWrite r v) := event _ rfl

theorem allocPod (h : HostIn) : Statement (.allocPod h) := event _ rfl

theorem freePod (h : HostIn) : Statement (.freePod h) := event _ rfl

theorem bindVf (h : HostIn) : Statement (.bindVf h) := event _ rfl

theorem unbindVf (h : HostIn) : Statement (.unbindVf h) := event _ rfl

theorem loadImage (h : HostIn) : Statement (.loadImage h) := event _ rfl

theorem launchCommand (h : HostIn) : Statement (.launchCommand h) := event _ rfl

theorem pause (h : HostIn) : Statement (.pause h) := event _ rfl

theorem resume (h : HostIn) : Statement (.resume h) := event _ rfl

theorem evict (h : HostIn) : Statement (.evict h) := event _ rfl

theorem restore (h : HostIn) : Statement (.restore h) := event _ rfl

theorem mapWindow (h : HostIn) : Statement (.mapWindow h) := event _ rfl

theorem unmapWindow (h : HostIn) : Statement (.unmapWindow h) := event _ rfl

theorem setQuota (h : HostIn) : Statement (.setQuota h) := event _ rfl

theorem setSlice (h : HostIn) : Statement (.setSlice h) := event _ rfl

theorem setRecovery (h : HostIn) : Statement (.setRecovery h) := event _ rfl

theorem attest (h : HostIn) : Statement (.attest h) := event _ rfl

theorem readErrlog (h : HostIn) : Statement (.readErrlog h) := event _ rfl

theorem resetVf (h : HostIn) : Statement (.resetVf h) := event _ rfl

theorem getVersion (m : SpdmIn) : Statement (.getVersion m) := event _ rfl

theorem getCapabilities (m : SpdmIn) : Statement (.getCapabilities m) := event _ rfl

theorem negotiateAlgorithms (m : SpdmIn) : Statement (.negotiateAlgorithms m) := event _ rfl

theorem getDigests (m : SpdmIn) : Statement (.getDigests m) := event _ rfl

theorem getCertificate (m : SpdmIn) : Statement (.getCertificate m) := event _ rfl

theorem challenge (m : SpdmIn) : Statement (.challenge m) := event _ rfl

theorem getMeasurements (m : SpdmIn) : Statement (.getMeasurements m) := event _ rfl

theorem keyExchange (m : SpdmIn) : Statement (.keyExchange m) := event _ rfl

theorem finish (m : SpdmIn) : Statement (.finish m) := event _ rfl

theorem keyUpdate (m : SpdmIn) : Statement (.keyUpdate m) := event _ rfl

theorem heartbeat (m : SpdmIn) : Statement (.heartbeat m) := event _ rfl

theorem endSession (m : SpdmIn) : Statement (.endSession m) := event _ rfl

theorem setCmdkey (m : SpdmIn) : Statement (.setCmdkey m) := event _ rfl

theorem ideKm (m : SpdmIn) : Statement (.ideKm m) := event _ rfl

theorem lockInterface (vf : Nat) : Statement (.lockInterface vf) := event _ rfl

theorem getDeviceInterfaceReport (vf : Nat) : Statement (.getDeviceInterfaceReport vf) := event _ rfl

theorem getDeviceInterfaceState (vf : Nat) : Statement (.getDeviceInterfaceState vf) := event _ rfl

theorem startInterface (vf : Nat) : Statement (.startInterface vf) := event _ rfl

theorem stopInterface (vf : Nat) : Statement (.stopInterface vf) := event _ rfl

theorem atsResponse (vf : Nat) (tag : Nat) (gen : BitVec 8) (ok : Bool) : Statement (.atsResponse vf tag gen ok) := event _ rfl

theorem priResponse (vf : Nat) (tag : Nat) (gen : BitVec 8) (ok : Bool) : Statement (.priResponse vf tag gen ok) := event _ rfl

theorem preemptCore (core : Nat) (rows : List (Nat × Nat)) : Statement (.preemptCore core rows) := event _ rfl

theorem hbmRetrain (stack : Nat) (on : Bool) : Statement (.hbmRetrain stack on) := event _ rfl

theorem correctableError (e : ErrLoc) : Statement (.correctableError e) := event _ rfl

theorem uncorrectableError (e : ErrLoc) : Statement (.uncorrectableError e) := event _ rfl

theorem powerGood (ok : Bool) (failAt : Nat) : Statement (.powerGood ok failAt) := event _ rfl

theorem i3cEntdaa (addr : BitVec 7) : Statement (.i3cEntdaa addr) := event _ rfl

theorem i3cPrivateWrite (bytes : List Byte) : Statement (.i3cPrivateWrite bytes) := event _ rfl

theorem i3cPrivateRead (n : Nat) : Statement (.i3cPrivateRead n) := event _ rfl

theorem chipnumWrite (n : BitVec 8) : Statement (.chipnumWrite n) := event _ rfl

theorem thermalShutdown (die : Nat) (temp : BitVec 16) : Statement (.thermalShutdown die temp) := event _ rfl

theorem coolantFault (inlet : BitVec 16) (flow : BitVec 16) : Statement (.coolantFault inlet flow) := event _ rfl

theorem unassignedOpc (h : HostIn) : Statement (.unassignedOpc h) := event _ rfl

theorem reservedTypeFlit (l : LinkHdr) (ty : BitVec 8) : Statement (.reservedTypeFlit l ty) := event _ rfl

theorem flitCrcFailure (l : LinkHdr) (fixed : Bool) : Statement (.flitCrcFailure l fixed) := event _ rfl

theorem tdiError (vf : Nat) : Statement (.tdiError vf) := event _ rfl

end Sys2Proof.Laws.Enc
end

