-- ==== Sys2Proof/Laws/Perform.lean ====
section
/-! SUPPORT. How an instruction inside a chunk ends, and what writing a scalar, private registers, a tile or a mask does: one lemma
per operation, from which the statements about results follow. -/

namespace Sys2Proof

open Machine

theorem SameG.trans {s t u : State} (h : SameG s t) (k : SameG t u) : SameG s u := fun n => (k n).trans (h n)
theorem SameH.trans {s t u : State} (h : SameH s t) (k : SameH t u) : SameH s u := fun n => (k n).trans (h n)
theorem SameMem.trans {s t u : State} (h : SameMem s t) (k : SameMem t u) : SameMem s u :=
  ⟨fun a => (k.1 a).trans (h.1 a), fun o => (k.2 o).trans (h.2 o)⟩
theorem SameFx.trans {s t u : State} (h : SameFx s t) (k : SameFx t u) : SameFx s u := ⟨k.1.trans h.1, k.2.trans h.2⟩

end Sys2Proof

namespace Sys2Proof.Machine

theorem perform_ok {s u : State} {ops : List Opnd} {len : Nat} {f : State → Res} (h : f s.openChunk = .ok u) :
    perform s ops len f = .next (u.retire len) := by
  unfold perform settle
  dsimp only
  rw [h]
  rfl

theorem performOut_ok {s u : State} {ops : List Opnd} {len : Nat} {f : State → Res} (h : f s.openChunk = .ok u) :
    performOut s ops len f = .next ((u.retire len).outFor .operation) := by
  unfold performOut settle
  dsimp only
  rw [h]
  rfl

theorem perform_trap {s : State} {ops : List Opnd} {len : Nat} {f : State → Res} {t : TrapReq}
    (h : f s.openChunk = .error (.trap t)) : perform s ops len f = .next (s.openChunk.trapped ops t) := by
  unfold perform settle
  dsimp only
  rw [h]
  rfl

theorem performOut_trap {s : State} {ops : List Opnd} {len : Nat} {f : State → Res} {t : TrapReq}
    (h : f s.openChunk = .error (.trap t)) : performOut s ops len f = .next (s.openChunk.trapped ops t) := by
  unfold performOut settle
  dsimp only
  rw [h]
  rfl

/-! ## What retirement adds to an effect -/

/-- The executing context's entry alone has changed, with no more instructions counted. -/
structure Inside (s t : State) : Prop where
  own : Own s t
  unc : t.me.uncommitted = s.me.uncommitted

theorem Inside.refl (s : State) : Inside s s := ⟨own_refl s, rfl⟩
theorem Inside.trans {s t u : State} (h : Inside s t) (k : Inside t u) : Inside s u := ⟨own_trans h.own k.own, k.unc.trans h.unc⟩
theorem Quiet.inside {s t : State} (h : Quiet s t) : Inside s t := ⟨h.own, h.unc⟩

/-- Retirement, seen from before the instruction. -/
theorem retired_of {s u : State} (h : Inside s u) (hpc : u.me.p.pc = s.me.p.pc) (len : Nat) :
    Retired s (u.retire len) u.me.p len := by
  obtain ⟨o, p, -, n⟩ := retireTo_spec u (u.me.p.pc + BitVec.ofNat 48 len)
  refine ⟨own_trans h.own o, ?_, n.trans (by rw [h.unc])⟩
  rw [← hpc]
  exact p

/-- What retirement, and leaving rotation after it, leave to see. -/
theorem retire_same (u : State) (len : Nat) :
    SameG u (u.retire len) ∧ SameH u (u.retire len) ∧ SameMem u (u.retire len) ∧ SameFx u (u.retire len) := by
  obtain ⟨o, -, k, -⟩ := retireTo_spec u (u.me.p.pc + BitVec.ofNat 48 len)
  exact same_of_look o k

theorem retire_p (u : State) (len : Nat) :
    (u.retire len).me.p = { u.me.p.clearRestart with pc := u.me.p.pc + BitVec.ofNat 48 len } :=
  (retireTo_spec u _).2.1

theorem retired_quiet {s t u : State} {q : Priv} {len : Nat} (h : Retired s t q len) (k : Quiet t u) : Retired s u q len :=
  ⟨own_trans h.1 k.own, k.p.trans h.2.1, k.unc.trans h.2.2⟩

/-! ## A scalar written -/

/-- `v` written to scalar `d` and `f` ORed into `FLAGS`, before retirement. -/
structure ScalarPut (s t : State) (d : SReg) (v : Word) (f : BitVec 5) : Prop where
  inside : Inside s t
  p : t.me.p = { s.me.p with regs := t.me.p.regs, flags := s.me.p.flags ||| f }
  val : ∀ r, t.val r = if r = d ∧ r ≠ .s 0 then v else s.val r
  h : SameH s t
  mem : SameMem s t
  fx : SameFx s t

theorem Quiet.scalarPut {s t u : State} {d : SReg} {v : Word} {f : BitVec 5} (h : Quiet s t) (k : ScalarPut t u d v f) :
    ScalarPut s u d v f := by
  obtain ⟨-, h2, h3, h4⟩ := h.same
  refine ⟨h.inside.trans k.inside, ?_, fun r => ?_, h2.trans k.h, h3.trans k.mem, h4.trans k.fx⟩
  · rw [← h.p]; exact k.p
  · rw [← h.val r]; exact k.val r

theorem SameLook.setG {s : State} {n : Nat} {v : Word} (x : Chunk) (hx : x = { s.chunk with gs := aput s.chunk.gs n v }) :
    (∀ m, (s.setChunk x).me.look (fun k => afind? k.hs m) = s.me.look (fun k => afind? k.hs m)) ∧
    (∀ m, (s.setChunk x).me.look (fun k => afind? k.writes m) = s.me.look (fun k => afind? k.writes m)) ∧
    (∀ m, (s.setChunk x).me.look (fun k => afind? k.spm m) = s.me.look (fun k => afind? k.spm m)) ∧
    (s.setChunk x).me.look (·.svctgt) = s.me.look (·.svctgt) ∧ (s.setChunk x).me.fxOf = s.me.fxOf := by
  subst hx
  exact ⟨fun _ => look_setChunk s _ _ rfl rfl, fun _ => look_setChunk s _ _ rfl rfl, fun _ => look_setChunk s _ _ rfl rfl,
    look_setChunk s _ _ rfl rfl, fxOf_setChunk s _ rfl⟩

theorem val_s {s t : State} {n : Fin 32} (h : t.me.p.regs = s.me.p.regs) : t.val (.s n) = s.val (.s n) := by
  show (if n = 0 then 0 else t.me.p.regs[n]) = if n = 0 then 0 else s.me.p.regs[n]
  rw [h]

theorem scalarPut_s (s : State) (n : Fin 32) (v : Word) : ScalarPut s (s.putS (.s n) v) (.s n) v 0 := by
  unfold State.putS
  dsimp only
  split
  · rename_i h
    subst h
    refine ⟨Inside.refl s, by simp, fun r => ?_, fun _ => rfl, ⟨fun _ => rfl, fun _ => rfl⟩, rfl, rfl⟩
    split <;> simp_all
  · rename_i h
    obtain ⟨h1, h2, h3, h4⟩ := same_of_look (own_setP s _) (sameLook_setP s { s.me.p with regs := s.me.p.regs.set n v })
    refine ⟨⟨own_setP s _, by rw [State.me_setP]; rfl⟩, by rw [State.me_setP]; simp, fun r => ?_, h2, h3, h4⟩
    cases r with
    | g m => rw [if_neg (by simp)]; exact h1 m
    | s m =>
      show (if m = 0 then 0 else (s.setP _).me.p.regs[m]) = _
      rw [State.me_setP]
      by_cases hm : m = 0
      · subst hm
        rw [if_pos rfl, if_neg (by simp)]
        rfl
      · rw [if_neg hm]
        by_cases hmn : m = n
        · subst hmn
          rw [if_pos ⟨rfl, by simpa using hm⟩]
          simp
        · rw [if_neg (by simp [hmn])]
          show _ = (if m = 0 then 0 else s.me.p.regs[m])
          rw [if_neg hm]
          have : n.val ≠ m.val := fun e => hmn (Fin.ext e.symm)
          simp [this]

theorem scalarPut_g (s : State) (n : Fin 32) (v : Word) : ScalarPut s (s.putS (.g n) v) (.g n) v 0 := by
  let x := { s.chunk with gs := aput s.chunk.gs n.val v }
  show ScalarPut s (s.setChunk x) (.g n) v 0
  obtain ⟨hh, hw, hs, hv, hf⟩ := SameLook.setG (s := s) (n := n.val) (v := v) x rfl
  have o := own_setChunk s x
  refine ⟨⟨o, unc_setChunk s x rfl⟩, by rw [State.me_setChunk]; simp, fun r => ?_, fun m => ?_, ⟨fun a => ?_, fun b => ?_⟩, ?_, ?_⟩
  · cases r with
    | s m => rw [if_neg (by simp)]; exact val_s (by rw [State.me_setChunk])
    | g m =>
      show ((s.setChunk x).ownG? s.cur m).getD (s.core (coreOf s.cur)).g[m] = _
      rw [ownG_look]
      show ((s.setChunk x).me.look _).getD _ = _
      rw [State.me_setChunk]
      by_cases hmn : m = n
      · subst hmn
        rw [if_pos ⟨rfl, by simp⟩]
        unfold Ctx.look
        simp [x, afind_aput_same]
      · rw [if_neg (by simp [hmn])]
        show _ = (s.ownG? s.cur m).getD (s.core (coreOf s.cur)).g[m]
        rw [ownG_look]
        have : afind? x.gs m.val = afind? s.chunk.gs m.val := afind_aput_ne _ _ _ _ (fun e => hmn (Fin.ext e))
        congr 1
        exact look_chunk_eq s.me x _ (this.trans (bind_chunk s (fun k => afind? k.gs m.val) rfl))
  · show ((s.setChunk x).ownH? s.cur m).getD _ = (s.ownH? s.cur m).getD _
    rw [ownH_look, ownH_look]
    exact congrArg (fun y => Option.getD y _) (hh m)
  · show (State.own? _ a).getD _ = (State.own? _ a).getD _
    rw [own_look, own_look]
    exact congrArg (fun y => Option.getD y _) (hw a)
  · rw [spByte_look, spByte_look]
    exact congrArg (fun y => Option.getD y _) (hs b)
  · rw [laterFx_fxOf, laterFx_fxOf]; exact hf
  · rw [svctgt_look, svctgt_look]
    exact congrArg (fun y => Option.getD y _) hv

/-- Writing a scalar. -/
theorem scalarPut (s : State) (d : SReg) (v : Word) : ScalarPut s (s.putS d v) d v 0 := by
  cases d with
  | s n => exact scalarPut_s s n v
  | g n => exact scalarPut_g s n v

/-- Private registers other than scalars and tiles change. -/
theorem inside_setP (s : State) (p : Priv) : Inside s (s.setP p) := ⟨own_setP s p, by rw [State.me_setP]; rfl⟩

theorem setP_same (s : State) (p : Priv) (hr : p.regs = s.me.p.regs) (ht : p.tiles = s.me.p.tiles) :
    SameG s (s.setP p) ∧ SameH s (s.setP p) ∧ SameMem s (s.setP p) ∧ SameFx s (s.setP p) ∧ (∀ r, (s.setP p).val r = s.val r) ∧
    (∀ r, (s.setP p).tile r = s.tile r) := by
  obtain ⟨h1, h2, h3, h4⟩ := same_of_look (own_setP s p) (sameLook_setP s p)
  refine ⟨h1, h2, h3, h4, fun r => ?_, fun r => ?_⟩
  · cases r with
    | s n => exact val_s (by rw [State.me_setP]; exact hr)
    | g n => exact h1 n
  · cases r with
    | t n =>
      show (s.setP p).me.p.tiles[n] = s.me.p.tiles[n]
      rw [State.me_setP]
      show p.tiles[n] = _
      rw [ht]
    | h n => exact h2 n

/-- ORing flags after the reads of an instruction, then writing its scalar. -/
theorem scalarPut_flags (s : State) (d : SReg) (v : Word) (f : Flags) : ScalarPut s ((s.orFlags f).putS d v) d v f := by
  obtain ⟨h1, h2, h3, h4, h5, h6⟩ := setP_same s { s.me.p with flags := s.me.p.flags ||| f } rfl rfl
  have k := scalarPut (s.orFlags f) d v
  refine ⟨(inside_setP s _).trans k.inside, ?_, fun r => ?_, h2.trans k.h, h3.trans k.mem, h4.trans k.fx⟩
  · have := k.p
    rw [this]
    have e : (s.orFlags f).me.p = { s.me.p with flags := s.me.p.flags ||| f } := by unfold State.orFlags; rw [State.me_setP]
    rw [e]
    simp
  · rw [k.val r]
    split
    · rfl
    · exact h5 r

/-- A scalar instruction has retired. -/
theorem ScalarPut.retire {s u : State} {d : SReg} {v : Word} {f : BitVec 5} (h : ScalarPut s u d v f) (len : Nat) :
    ScalarDone s (u.retire len) d v f len := by
  obtain ⟨h1, h2, h3, h4⟩ := retire_same u len
  have hr : (u.retire len).me.p.regs = u.me.p.regs := by rw [retire_p]; rfl
  refine ⟨?_, fun r => ?_, h.h.trans h2, h.mem.trans h3, h.fx.trans h4⟩
  · have := retired_of h.inside (by rw [h.p]) len
    rw [hr, ← h.p]
    exact this
  · rw [← h.val r]
    cases r with
    | s n => exact val_s hr
    | g n => exact h1 n

theorem done_out {s t : State} (why : OutWhy) {d : SReg} {v : Word} {f : BitVec 5} {len : Nat} (h : ScalarDone s t d v f len) :
    ScalarDone s (t.outFor why) d v f len := by
  have q := quiet_outFor t why
  obtain ⟨h1, h2, h3, h4⟩ := q.same
  refine ⟨?_, fun r => (q.val r).trans (h.2.1 r), h.2.2.1.trans h2, h.2.2.2.1.trans h3, h.2.2.2.2.trans h4⟩
  have := retired_quiet h.1 q
  rw [q.p]
  exact this

/-- The reads an instruction enters into its opened chunk show nothing. -/
theorem quiet_open_note (s : State) (rs : List SReg) : Quiet s (s.openChunk.noteS rs) :=
  (quiet_openChunk s).trans (quiet_noteS s.openChunk rs)

end Sys2Proof.Machine
end

