-- ==== Sys2Proof/Laws/React.lean ====
section
/-! SUPPORT. What follows an event (`react`), and what a squash does: everything that either may change. -/

namespace Sys2Proof.Machine

/-- A context that waking and squashing leave alone: a quiescent one, or one that `P` excepts and that no power token wakes. -/
def LeftAlone (P : Prop) (x : Ctx) : Prop := P ∧ x.status ≠ .out .token ∨ Quiescent x

/-- Everything that waking and squashing may change, where no heap line is written; contexts of `P` are left alone. -/
structure Woken (P : Nat → Prop) (s t : State) : Prop where
  rest : t = { s with ctxs := t.ctxs, cores := t.cores, clusters := t.clusters, ticket := t.ticket, ticketQueue := t.ticketQueue }
  ctx : ∀ c, LeftAlone (P c) (s.ctx c) → t.ctx c = s.ctx c
  core : ∀ k, t.core k = { s.core k with sq := (t.core k).sq }
  cluster : ∀ k, t.cluster k =
    { s.cluster k with queue := (t.cluster k).queue, parked := (t.cluster k).parked, tokenq := (t.cluster k).tokenq }

namespace Woken

variable {P : Nat → Prop}

theorem refl (s : State) : Woken P s s := ⟨rfl, fun _ _ => rfl, fun _ => rfl, fun _ => rfl⟩

theorem trans {s t u : State} (h : Woken P s t) (k : Woken P t u) : Woken P s u := by
  refine ⟨?_, fun c hc => ?_, fun n => ?_, fun n => ?_⟩
  · rw [k.rest, h.rest]
  · rw [k.ctx c (by rw [h.ctx c hc]; exact hc), h.ctx c hc]
  · rw [k.core n, h.core n]
  · rw [k.cluster n, h.cluster n]

theorem foldl {α : Type} (f : State → α → State) (hf : ∀ s a, Woken P s (f s a)) (l : List α) (s : State) : Woken P s (l.foldl f s) := by
  induction l generalizing s with
  | nil => exact refl s
  | cons a l ih => exact (hf s a).trans (ih _)

/-- One context that is not left alone changes. -/
theorem setCtx (s : State) (c : Nat) (x : Ctx) (h : ¬LeftAlone (P c) (s.ctx c)) : Woken P s (s.setCtx c x) := by
  refine ⟨rfl, fun d hd => ?_, fun _ => rfl, fun _ => rfl⟩
  by_cases e : d = c
  · subst e; exact absurd hd h
  · exact State.ctx_setCtx_ne s c d x e

theorem setCore (s : State) (n : Nat) (x : Core) (h : x = { s.core n with sq := x.sq }) : Woken P s (s.setCore n x) := by
  refine ⟨rfl, fun _ _ => rfl, fun k => ?_, fun _ => rfl⟩
  by_cases e : k = n
  · subst e; rw [State.core_setCore]; exact h
  · rw [State.core_setCore_ne s n k x e]

theorem setCluster (s : State) (n : Nat) (x : Cluster) (h : x = { s.cluster n with queue := x.queue, parked := x.parked, tokenq := x.tokenq }) :
    Woken P s (s.setCluster n x) := by
  refine ⟨rfl, fun _ _ => rfl, fun _ => rfl, fun k => ?_⟩
  by_cases e : k = n
  · subst e; rw [State.cluster_setCluster]; exact h
  · rw [State.cluster_setCluster_ne s n k x e]

end Woken

section
variable {P : Nat → Prop}

theorem not_left {P : Prop} {x : Ctx} (hp : ¬P) (h : ¬Quiescent x) : ¬LeftAlone P x :=
  fun q => q.elim (fun y => hp y.1) h

theorem woken_wakeToken (s : State) (k : Nat) : Woken P s (s.wakeToken k) := by
  unfold State.wakeToken
  split
  · split
    · rename_i h
      exact Woken.setCtx s _ _ (fun q => q.elim (fun y => y.2 h) (fun y => y.2.2.2.1 h))
    · exact Woken.refl s
  · exact Woken.refl s

theorem woken_leaveTokenq (s : State) (c : Nat) : Woken P s (s.leaveTokenq c) := by
  unfold State.leaveTokenq
  dsimp only
  split
  · exact (Woken.setCluster s _ _ rfl).trans (woken_wakeToken _ _)
  · exact Woken.refl s

theorem woken_ticket (s : State) (t : Option Nat) (q : List Nat) : Woken P s { s with ticket := t, ticketQueue := q } :=
  ⟨rfl, fun _ _ => rfl, fun _ => rfl, fun _ => rfl⟩

/-- Waking for a power token keeps every field of a context but its status. -/
theorem ctx_leaveTokenq (s : State) (c d : Nat) : ((s.leaveTokenq c).ctx d) = { s.ctx d with status := ((s.leaveTokenq c).ctx d).status } := by
  unfold State.leaveTokenq State.wakeToken
  dsimp only
  split
  · split
    · split
      · rename_i x _ _ _ _
        by_cases e : d = x
        · subst e; rw [State.ctx_setCtx]; rfl
        · rw [State.ctx_setCtx_ne _ _ _ _ e]; rfl
      · rfl
    · rfl
  · rfl

/-- A context that is excepted from nothing and holds a chunk, or waits, is still not left alone after a power token has moved on. -/
theorem not_left_token {s : State} {c d : Nat} {P : Prop} (hp : ¬P)
    (h : (s.ctx d).chunk.isSome ∨ (s.ctx d).pending.isSome ∨ (s.ctx d).status = .blocked) : ¬LeftAlone P ((s.leaveTokenq c).ctx d) := by
  refine not_left hp (fun q => ?_)
  have e := ctx_leaveTokenq s c d
  rcases h with h | h | h
  · have := q.1; rw [e] at this; simp only at this; rw [this] at h; simp at h
  · have := q.2.1; rw [e] at this; simp only at this; rw [this] at h; simp at h
  · have k := (woken_leaveTokenq (P := fun _ => True) s c).ctx d (.inl ⟨trivial, by rw [h]; simp⟩)
    rw [k] at q
    exact q.2.2.1 h

theorem woken_idleCtx (s : State) (c : Nat) (hp : ¬P c)
    (h : (s.ctx c).chunk.isSome ∨ (s.ctx c).pending.isSome ∨ (s.ctx c).status = .blocked) : Woken P s (s.idleCtx c) := by
  unfold State.idleCtx State.dropTicket
  dsimp only
  exact ((woken_leaveTokenq s c).trans (Woken.setCtx _ c _ (not_left_token hp h))).trans (woken_ticket _ _ _)

theorem woken_enqueue (s : State) (k : Nat) (r : Stored) : Woken P s (s.enqueue k r) := Woken.setCluster s _ _ rfl

/-- A squash of a context that holds a chunk. -/
theorem woken_squash (s : State) (c : Nat) (both : Bool) (cause : Nat) (hp : ¬P c) (h : (s.ctx c).chunk.isSome ∨ (s.ctx c).pending.isSome) :
    Woken P s (s.squash c both cause) := by
  have key (x : Ctx) (y : Core) (st : Bool) (q : List Nat) (hy : y = { s.core (coreOf c) with sq := y.sq }) :
      Woken P s (if st then { ((s.leaveTokenq c).setCtx c x).setCore (coreOf c) y with ticketQueue := q }
        else ((s.leaveTokenq c).setCtx c x).setCore (coreOf c) y) := by
    have h1 := (woken_leaveTokenq s c).trans (Woken.setCtx (P := P) (s.leaveTokenq c) c x (not_left_token hp (h.imp id .inl)))
    have hk : ((s.leaveTokenq c).setCtx c x).core (coreOf c) = s.core (coreOf c) := by
      have := (woken_leaveTokenq (P := P) s c).rest
      show aget {} (s.leaveTokenq c).cores _ = aget {} s.cores _
      unfold State.leaveTokenq State.wakeToken
      dsimp only
      split
      · split
        · split <;> rfl
        · rfl
      · rfl
    have h2 := h1.trans (Woken.setCore _ (coreOf c) y (by rw [hk]; exact hy))
    split
    · exact h2.trans ⟨rfl, fun _ _ => rfl, fun _ => rfl, fun _ => rfl⟩
    · exact h2
  exact key _ _ _ _ (by unfold Core.countSq; dsimp only; split <;> split <;> rfl)

theorem woken_squashHits (s : State) (except : Nat) (hit : Loc → Bool) (cause : Nat → Nat) (hp : ∀ c, P c → c = except) : Woken P s (s.squashHits except hit cause) := by
  refine Woken.foldl _ (fun s c => ?_) _ s
  dsimp only
  have some_of (k : Option Chunk) (h : (match k with | some k => k.reads.any hit | none => false) = true) : k.isSome := by
    cases k with
    | none => cases h
    | some _ => rfl
  split
  · exact Woken.refl s
  · rename_i hne
    have np : ¬P c := fun q => hne (hp c q)
    split
    · rename_i h
      exact woken_squash s c true _ np (.inr (some_of _ h))
    · split
      · rename_i h
        exact woken_squash s c false _ np (.inl (some_of _ h))
      · exact Woken.refl s

theorem woken_wakeCtx (s : State) (clk c : Nat) (hp : ¬P c) : Woken P s (s.wakeCtx clk c) := by
  unfold State.wakeCtx
  dsimp only
  split
  · rename_i hb _
    have nq : ¬LeftAlone (P c) (s.ctx c) := not_left hp (fun q => q.2.2.1 hb)
    split
    · exact Woken.refl s
    · split
      · split
        · exact (woken_enqueue s _ _).trans (woken_idleCtx _ c hp (.inr (.inr hb)))
        · exact Woken.setCtx s c _ nq
        · exact Woken.setCtx s c _ nq
      · exact Woken.refl s
  · exact Woken.refl s

theorem woken_blockSender (s : State) (c : Nat) (hp : ¬P c) : Woken P s (s.blockSender c) := by
  unfold State.blockSender
  dsimp only
  split
  · rename_i h
    have nq : ¬LeftAlone (P c) (s.ctx c) := not_left hp (fun q => by
      rw [Bool.and_eq_true, decide_eq_true_eq, decide_eq_true_eq] at h
      exact q.2.2.2.2 h)
    split
    · exact Woken.setCtx s c _ nq
    · split
      · exact Woken.refl s
      · exact Woken.setCtx s c _ nq
  · exact Woken.refl s

theorem woken_wakeParked (s : State) (clk src k : Nat) : Woken P s (s.wakeParked clk src k) := by
  unfold State.wakeParked
  dsimp only
  exact (Woken.setCluster s k _ rfl).trans (Woken.foldl _ (fun s r => woken_enqueue s _ _) _ _)

end

theorem flushHeaps_eq (s : State) (h : NoHeap s) : s.flushHeaps = s := by
  have key (l : List Nat) : l.foldl (fun s k => if (s.core k).heap.isEmpty then s else s.flushHeap k) s = s := by
    induction l with
    | nil => rfl
    | cons a l ih =>
      rw [List.foldl_cons, if_pos (by rw [h a]; rfl)]
      exact ih
  exact key _

/-- A fold whose step keeps something keeps it. -/
theorem foldl_keeps {α β : Type} (g : State → β) (f : State → α → State) (hf : ∀ s a, g (f s a) = g s) (l : List α) (s : State) :
    g (l.foldl f s) = g s := by
  induction l generalizing s with
  | nil => rfl
  | cons a l ih => exact (ih _).trans (hf s a)

theorem touchLine_rest (s : State) (l : List (Nat × Byte)) (n : Nat) :
    s.touchLine l n = { s with pods := (s.touchLine l n).pods, mem := (s.touchLine l n).mem, poison := (s.touchLine l n).poison,
                               clean := (s.touchLine l n).clean, ivals := (s.touchLine l n).ivals } := by
  have h1 : s.logUndo n = { s with ivals := (s.logUndo n).ivals } := by
    unfold State.logUndo
    split <;> rfl
  have h2 (u : State) : u.absorb n = { u with mem := (u.absorb n).mem, pods := (u.absorb n).pods } := by
    unfold State.absorb
    split <;> rfl
  unfold State.touchLine
  dsimp only
  rw [h2, h1]

/-- What a commit of bytes may change. -/
theorem commitBytes_rest (s : State) (l : List (Nat × Byte)) :
    s.commitBytes l = { s with pods := (s.commitBytes l).pods, mem := (s.commitBytes l).mem, poison := (s.commitBytes l).poison,
                               clean := (s.commitBytes l).clean, ivals := (s.commitBytes l).ivals, hostMem := (s.commitBytes l).hostMem } := by
  have key (bs : List (Nat × Byte)) (ns : List Nat) (u : State) :
      ns.foldl (fun s n => s.touchLine bs n) u =
        { u with pods := (ns.foldl (fun s n => s.touchLine bs n) u).pods, mem := (ns.foldl (fun s n => s.touchLine bs n) u).mem,
                 poison := (ns.foldl (fun s n => s.touchLine bs n) u).poison, clean := (ns.foldl (fun s n => s.touchLine bs n) u).clean,
                 ivals := (ns.foldl (fun s n => s.touchLine bs n) u).ivals } := by
    induction ns generalizing u with
    | nil => rfl
    | cons n ns ih =>
      rw [List.foldl_cons, ih, touchLine_rest]
  unfold State.commitBytes
  dsimp only
  rw [key]

theorem flushHeaps_ctx (s : State) (c : Nat) : (s.flushHeaps).ctx c = s.ctx c := by
  have hf (s : State) (core : Nat) : (s.flushHeap core).ctxs = s.ctxs := by
    unfold State.flushHeap
    refine foldl_keeps State.ctxs _ (fun s m => ?_) _ s
    split
    · rfl
    · dsimp only
      split
      · rw [commitBytes_rest]
        rfl
      · rfl
  have : (s.flushHeaps).ctxs = s.ctxs := by
    unfold State.flushHeaps
    refine foldl_keeps State.ctxs _ (fun s k => ?_) _ s
    split
    · rfl
    · exact hf s k
  show aget _ (s.flushHeaps).ctxs c = aget _ s.ctxs c
  rw [this]

/-- The wake-ups that follow an event, up to its pick-ups. -/
theorem woken_wakes (s : State) (clk src : Nat) :
    Woken (fun _ => False) s (((s.clusters.map (·.1)).foldl (fun s k => if (s.cluster k).parked.isEmpty then s else s.wakeParked clk src k) s).ctxs.map (·.1) |>.foldl
      (fun s c => s.wakeCtx clk c)
      ((s.clusters.map (·.1)).foldl (fun s k => if (s.cluster k).parked.isEmpty then s else s.wakeParked clk src k) s)) := by
  refine Woken.trans ?_ (Woken.foldl _ (fun s c => woken_wakeCtx s clk c id) _ _)
  refine Woken.foldl _ (fun s k => ?_) _ s
  split
  · exact Woken.refl s
  · exact woken_wakeParked s clk src k

/-- What follows the pick-ups of an event. -/
theorem woken_last (s0 s : State) (src : Nat) :
    Woken (fun _ => False) s (let u := (s.ctxs.map (·.1)).foldl State.blockSender s
      if u.ctxs.all (fun x => (match x.2.chunk, x.2.pending with | none, none => true | _, _ => false)) then u
      else u.squashHits src (changed s0 u) exactCause) := by
  have h := Woken.foldl State.blockSender (fun s c => woken_blockSender (P := fun _ => False) s c id) (s.ctxs.map (·.1)) s
  dsimp only
  split
  · exact h
  · exact h.trans (woken_squashHits _ _ _ _ (fun _ h => h.elim))

/-- `react` is its pick-ups between what wakes before them and what follows them. -/
theorem react_parts (s s0 : State) (clk src : Nat) :
    ∃ (u : State) (b : Bool), Woken (fun _ => False) s.flushHeaps u ∧ Woken (fun _ => False) (u.settlePickups b clk src) (s.react s0 clk src) :=
  ⟨_, _, woken_wakes s.flushHeaps clk src, woken_last s0 _ src⟩

/-- Without deterministic work no event picks anything up. -/
theorem settlePickups_eq (s : State) (b : Bool) (clk src : Nat) (h : ∀ p, (s.pod p).detWork = false) : s.settlePickups b clk src = s := by
  have hd (p n : Nat) : s.detPickups p n = s := by
    unfold State.detPickups
    dsimp only
    rw [h p]
    rfl
  have key (l : List Nat) : l.foldl (fun s p => s.detPickups p (s.podClock p)) s = s := by
    induction l with
    | nil => rfl
    | cons a l ih => rw [List.foldl_cons, hd]; exact ih
  have hc : s.commitPickups clk src = s := by
    unfold State.commitPickups
    split
    · exact hd _ _
    · rfl
  unfold State.settlePickups
  simp only [hc, key, ite_self]

/-- A pick-up starts a context that was IDLE; every other one is as it was. -/
theorem pickupAt_ctx {s t : State} {core clk c : Nat} (h : s.pickupAt core clk = some t) (hc : (s.ctx c).status ≠ .idle) :
    t.ctx c = s.ctx c ∧ t.cur = s.cur := by
  have hp (u : State) (d : Nat) (r : Record) (n : Nat) (e : c ≠ d) : (u.pickup d r n).ctx c = u.ctx c ∧ (u.pickup d r n).cur = u.cur := by
    unfold State.pickup
    split
    · exact ⟨rfl, rfl⟩
    · split
      · exact ⟨rfl, rfl⟩
      · dsimp only
        split <;> exact ⟨State.ctx_setCtx_ne _ _ _ _ e, rfl⟩
  have hq (p k m : Nat) (x : Nat × QItem × Record) : (s.dequeue p k m x).ctx c = s.ctx c ∧ (s.dequeue p k m x).cur = s.cur := by
    unfold State.dequeue
    dsimp only
    split
    · exact ⟨rfl, rfl⟩
    · split
      · exact ⟨rfl, rfl⟩
      · split <;> exact ⟨rfl, rfl⟩
  unfold State.pickupAt at h
  dsimp only at h
  split at h
  · cases h
  · split at h
    · cases h
    · split at h
      · cases h
      · rename_i d hd
        split at h
        · cases h
        · cases h
          have ne : c ≠ d := by
            rintro rfl
            have := List.find?_some hd
            unfold State.mayTake at this
            simp [hc] at this
          exact ⟨(hp _ d _ _ ne).1.trans (hq ..).1, (hp _ d _ _ ne).2.trans (hq ..).2⟩

theorem pickupsAt_ctx (f : Nat) (s : State) (core clk c : Nat) (hc : (s.ctx c).status ≠ .idle) :
    (s.pickupsAt core clk f).ctx c = s.ctx c ∧ (s.pickupsAt core clk f).cur = s.cur := by
  induction f generalizing s with
  | zero => exact ⟨rfl, rfl⟩
  | succ f ih =>
    unfold State.pickupsAt
    split
    · exact ⟨rfl, rfl⟩
    · rename_i t ht
      obtain ⟨e1, e2⟩ := pickupAt_ctx ht hc
      obtain ⟨i1, i2⟩ := ih t (by rw [e1]; exact hc)
      exact ⟨i1.trans e1, i2.trans e2⟩

/-- The pick-ups of an event leave alone every context that was not IDLE. -/
theorem settlePickups_ctx (s : State) (b : Bool) (clk src c : Nat) (hc : (s.ctx c).status ≠ .idle) :
    (s.settlePickups b clk src).ctx c = s.ctx c ∧ (s.settlePickups b clk src).cur = s.cur := by
  have fold {α : Type} (f : State → α → State) (hf : ∀ s a, (s.ctx c).status ≠ .idle → (f s a).ctx c = s.ctx c ∧ (f s a).cur = s.cur)
      (l : List α) (s : State) (hc : (s.ctx c).status ≠ .idle) : (l.foldl f s).ctx c = s.ctx c ∧ (l.foldl f s).cur = s.cur := by
    induction l generalizing s with
    | nil => exact ⟨rfl, rfl⟩
    | cons a l ih =>
      obtain ⟨e1, e2⟩ := hf s a hc
      obtain ⟨i1, i2⟩ := ih (f s a) (by rw [e1]; exact hc)
      exact ⟨i1.trans e1, i2.trans e2⟩
  have det (s : State) (p n : Nat) (hc : (s.ctx c).status ≠ .idle) :
      (s.detPickups p n).ctx c = s.ctx c ∧ (s.detPickups p n).cur = s.cur := by
    unfold State.detPickups
    dsimp only
    split
    · exact fold _ (fun s k h => pickupsAt_ctx 14 s k n c h) _ s hc
    · exact ⟨rfl, rfl⟩
  have all (s : State) (hc : (s.ctx c).status ≠ .idle) :
      (if b then (s.pods.map (·.1)).foldl (fun s p => s.detPickups p (s.podClock p)) s else s).ctx c = s.ctx c ∧
      (if b then (s.pods.map (·.1)).foldl (fun s p => s.detPickups p (s.podClock p)) s else s).cur = s.cur := by
    split
    · exact fold _ (fun s p h => det s p _ h) _ s hc
    · exact ⟨rfl, rfl⟩
  have one : (s.commitPickups clk src).ctx c = s.ctx c ∧ (s.commitPickups clk src).cur = s.cur := by
    unfold State.commitPickups
    split
    · exact det s _ clk hc
    · exact ⟨rfl, rfl⟩
  obtain ⟨a1, a2⟩ := all (s.commitPickups clk src) (by rw [one.1]; exact hc)
  exact ⟨a1.trans one.1, a2.trans one.2⟩

theorem flushHeaps_cur (s : State) : (s.flushHeaps).cur = s.cur := by
  have hf (s : State) (core : Nat) : (s.flushHeap core).cur = s.cur := by
    unfold State.flushHeap
    refine foldl_keeps State.cur _ (fun s m => ?_) _ s
    split
    · rfl
    · dsimp only
      split
      · rw [commitBytes_rest]
        rfl
      · rfl
  unfold State.flushHeaps
  refine foldl_keeps State.cur _ (fun s k => ?_) _ s
  split
  · rfl
  · exact hf s k

/-- What follows an event leaves a context alone that is not IDLE, holds no chunk and waits for nothing. -/
theorem react_ctx (s s0 : State) (clk src c : Nat) (h : Quiescent (s.ctx c)) (hi : (s.ctx c).status ≠ .idle) :
    (s.react s0 clk src).ctx c = s.ctx c ∧ (s.react s0 clk src).cur = s.cur := by
  obtain ⟨u, b, h1, h2⟩ := react_parts s s0 clk src
  have hf := flushHeaps_ctx s c
  have e1 := h1.ctx c (.inr (by rw [hf]; exact h))
  rw [hf] at e1
  obtain ⟨e2, e3⟩ := settlePickups_ctx u b clk src c (by rw [e1]; exact hi)
  refine ⟨(h2.ctx c (.inr (by rw [e2, e1]; exact h))).trans (e2.trans e1), ?_⟩
  rw [h2.rest]
  show (u.settlePickups b clk src).cur = _
  rw [e3, h1.rest]
  exact flushHeaps_cur s

/-- What follows an event of a state that moves nothing of itself. -/
theorem woken_react (s s0 : State) (clk src : Nat) (h : Still s) : Woken (fun _ => False) s (s.react s0 clk src) := by
  obtain ⟨u, b, h1, h2⟩ := react_parts s s0 clk src
  rw [flushHeaps_eq s h.1] at h1
  rw [settlePickups_eq u b clk src (fun p => by rw [h1.rest]; exact h.2 p)] at h2
  exact h1.trans h2

end Sys2Proof.Machine
end

