-- ==== Sys2Proof/Laws/Results.lean ====
section
/-! SUPPORT. From the operation an instruction's meaning calls to what it completes with. -/

namespace Sys2Proof.Machine

theorem sets_perform {s : State} {i : Instr} {ops : List Opnd} {len : Nat} {f : State → Res} {u : State} {d : SReg} {v : Word}
    {fl : BitVec 5} (he : exec i s = perform s ops len f) (hf : f s.openChunk = .ok u) (h : ScalarPut s u d v fl) :
    Sets i s d v fl len := ⟨_, he.trans (perform_ok hf), h.retire len⟩

theorem sets_performOut {s : State} {i : Instr} {ops : List Opnd} {len : Nat} {f : State → Res} {u : State} {d : SReg} {v : Word}
    {fl : BitVec 5} (he : exec i s = performOut s ops len f) (hf : f s.openChunk = .ok u) (h : ScalarPut s u d v fl) :
    Sets i s d v fl len := ⟨_, he.trans (performOut_ok hf), done_out _ (h.retire len)⟩

/-- Writing a scalar after steps that show nothing. -/
theorem quiet_put {s u : State} (q : Quiet s u) (d : SReg) (v : Word) : ScalarPut s (u.putS d v) d v 0 :=
  q.scalarPut (scalarPut u d v)

theorem computes2_alu {mk : SReg → SReg → SReg → Instr} {f g : Word → Word → Word}
    (he : ∀ s d a b, exec (mk d a b) s = alu d a b g s) (hfg : ∀ a b, g a b = f a b) : Computes2 mk f := by
  intro s d a b
  have q := quiet_openChunk s
  refine sets_perform (he s d a b) rfl ?_
  rw [hfg, q.val, q.val]
  exact quiet_put (quiet_open_note s _) d _

theorem computes2_aluOut {mk : SReg → SReg → SReg → Instr} {f g : Word → Word → Word}
    (he : ∀ s d a b, exec (mk d a b) s = aluOut d a b g s) (hfg : ∀ a b, g a b = f a b) : Computes2 mk f := by
  intro s d a b
  have q := quiet_openChunk s
  refine sets_performOut (he s d a b) rfl ?_
  rw [hfg, q.val, q.val]
  exact quiet_put (quiet_open_note s _) d _

theorem computes1_unary {mk : SReg → SReg → Instr} {f g : Word → Word}
    (he : ∀ s d a, exec (mk d a) s = unary d a g s) (hfg : ∀ a, g a = f a) : Computes1 mk f := by
  intro s d a
  have q := quiet_openChunk s
  refine sets_perform (he s d a) rfl ?_
  rw [hfg, q.val]
  exact quiet_put (quiet_open_note s _) d _

theorem quiet_pfxSat {s u : State} (q : Quiet s u) : u.pfxSat = s.pfxSat := by
  unfold State.pfxSat State.pfx?
  rw [q.p]

theorem satWord_eq (s : State) (r : Int) : satWord s.pfxSat r = saturated s r := by
  unfold satWord saturated
  cases s.pfxSat
  · simp
  · simp [SAT]

/-- A saturating operation (04 R84). -/
theorem satRes_ok (s : State) (d : SReg) (reads : List SReg) (r : State → Int) (x : Int) (hx : r s.openChunk = x) :
    ∃ u, satRes d reads r s.openChunk = .ok u ∧ ScalarPut s u d (saturated s x).1 (saturated s x).2 := by
  refine ⟨_, rfl, ?_⟩
  rw [hx, quiet_pfxSat (quiet_openChunk s), satWord_eq]
  exact (quiet_open_note s reads).scalarPut (scalarPut_flags _ d _ _)

/-! ## Transfers -/

/-- The executing context continues at `pc`. -/
theorem jump_of {s u : State} (q : Quiet s u) (pc : BitVec 48) : JumpDone s (u.retireTo pc) pc := by
  obtain ⟨o, p, k, n⟩ := retireTo_spec u pc
  obtain ⟨g1, g2, g3, g4⟩ := q.same
  obtain ⟨h1, h2, h3, h4⟩ := same_of_look o k
  refine ⟨own_trans q.own o, ?_, n.trans (by rw [q.unc]), g1.trans h1, g2.trans h2, g3.trans h3, g4.trans h4⟩
  rw [p, q.p]

theorem checkTarget_ok {t : Word} (h4 : t.toNat % 4 = 0) (h48 : t.toNat < 2 ^ 48) : checkTarget t = .ok (t.truncate 48) := by
  unfold checkTarget
  rw [if_neg (by omega), if_neg (by unfold localOk; simp only [decide_eq_true h48]; simp)]

/-- A transfer that a gang follows shows nothing more. -/
theorem quiet_gangStep (s : State) (g : GangStep) : Quiet s (s.gangStep g) :=
  ⟨own_setChunk s _, by rw [State.gangStep, State.me_setChunk], sameLook_setChunk s _ rfl rfl rfl rfl rfl rfl, unc_setChunk s _ rfl⟩

/-- An instruction that gives its next `PC` itself retires there. -/
theorem performTo_ok {s u : State} {ops : List Opnd} {f : State → Except Stop (State × BitVec 48 × Bool)} {pc : BitVec 48}
    (h : f s.openChunk = .ok (u, pc, false)) : ∃ w, Quiet u w ∧ performTo s ops f = .next (w.retireTo pc) := by
  refine ⟨if u.ganged then u.gangStep (.go pc) else u, ?_, ?_⟩
  · split
    · exact quiet_gangStep u _
    · exact Quiet.refl u
  · unfold performTo
    dsimp only
    rw [h]
    rfl

end Sys2Proof.Machine
end

