-- ==== Sys2Proof/Laws/Single.lean ====
section
/-! SUPPORT. What the commit of a boundary instruction does: the single-operation chunk takes its place, installs, and what follows it
leaves the executing context alone. -/

namespace Sys2Proof.Machine

theorem sameRest_trans {s t u : State} (h : SameRest s t) (k : SameRest t u) : SameRest s u := by
  unfold SameRest at *
  rw [k, h]

theorem Woken.sameRest {P : Nat → Prop} {s t : State} (h : Woken P s t) : SameRest s t := by
  unfold SameRest
  rw [h.rest]

theorem Woken.setBoth {P : Nat → Prop} {s t : State} (h : Woken P s t) (c : Nat) (x : Ctx) (hc : LeftAlone (P c) (s.ctx c)) :
    Woken P (s.setCtx c x) (t.setCtx c x) := by
  refine ⟨?_, fun d hd => ?_, h.core, h.cluster⟩
  · have := h.rest
    show ({ t with ctxs := aput t.ctxs c x } : State) = _
    rw [this]
    rfl
  · by_cases e : d = c
    · subst e; rw [State.ctx_setCtx, State.ctx_setCtx]
    · rw [State.ctx_setCtx_ne _ _ _ _ e, State.ctx_setCtx_ne _ _ _ _ e]
      rw [State.ctx_setCtx_ne _ _ _ _ e] at hd
      exact h.ctx d hd

/-- Nothing but the records of pods changes. -/
structure LogOnly (s t : State) : Prop where
  rest : t = { s with pods := t.pods }
  pod : ∀ q, t.pod q = { s.pod q with log := (t.pod q).log, owed := (t.pod q).owed }

theorem LogOnly.refl (s : State) : LogOnly s s := ⟨rfl, fun _ => rfl⟩

theorem LogOnly.trans {s t u : State} (h : LogOnly s t) (k : LogOnly t u) : LogOnly s u :=
  ⟨by rw [k.rest, h.rest], fun q => by rw [k.pod q, h.pod q]⟩

theorem LogOnly.replay {s t : State} (h : LogOnly s t) (p : Nat) : (t.pod p).replay = (s.pod p).replay := by rw [h.pod p]

theorem logOnly_setPod (s : State) (p : Nat) (l o : List Logged) : LogOnly s (s.setPod p { s.pod p with log := l, owed := o }) := by
  refine ⟨rfl, fun q => ?_⟩
  by_cases e : q = p
  · subst e; rw [State.pod_setPod]
  · rw [State.pod_setPod_ne _ _ _ _ e]

theorem logOnly_logFor (s : State) (p : Option Nat) (x : Logged) : LogOnly s (s.logFor p x) := by
  unfold State.logFor
  split
  · split
    · exact logOnly_setPod s _ _ _
    · exact LogOnly.refl s
  · exact LogOnly.refl s

/-- Outside a replay the records that a re-run uses up are those that one has left. -/
theorem mapRecords_live (p : Pod) (f : List Logged → List Logged) (h : p.replay = none) : p.mapRecords f = { p with owed := f p.owed } := by
  unfold Pod.mapRecords
  split
  · rename_i e
    rw [h] at e
    cases e
  · rfl

theorem logOnly_logVals (s : State) (p c : Nat) (k : Chunk) (h : (s.pod p).replay = none) : LogOnly s (s.logVals (some p) c k) := by
  unfold State.logVals
  dsimp only
  split
  · rw [mapRecords_live _ _ h]
    exact logOnly_setPod s p _ _
  · rename_i e
    rw [h] at e
    cases e
  · exact LogOnly.refl s

theorem logOnly_logEvent (s : State) (p : Nat) (det : Bool) (x : Logged) (h : (s.pod p).replay = none) : LogOnly s (s.logEvent p det x) := by
  unfold State.logEvent
  rw [h]
  split
  · exact LogOnly.refl s
  · exact logOnly_setPod s _ _ _

/-- The record of a commit outside replay. -/
theorem logCommit_spec (s : State) (c : Nat) (k : Chunk) (h : ∀ p, s.podOf c = some p → (s.pod p).replay = none) :
    s.logCommit c k = { s with pods := (s.logCommit c k).pods } ∧
    ∀ q, (s.logCommit c k).pod q = { s.pod q with log := ((s.logCommit c k).pod q).log, owed := ((s.logCommit c k).pod q).owed } := by
  suffices key : LogOnly s (s.logCommit c k) from ⟨key.rest, key.pod⟩
  unfold State.logCommit
  split
  · rename_i p hp
    have h1 := logOnly_logEvent s p k.det (.commit ((s.ctx c).chunkid.toNat % 2 ^ 16) (k.level c) c) (h p hp)
    have h2 := logOnly_logVals _ p c k ((h1.replay p).trans (h p hp))
    have fold (l : List Logged) (u : State) : LogOnly u (l.foldl (fun s x => s.logFor (some p) x) u) := by
      induction l generalizing u with
      | nil => exact LogOnly.refl u
      | cons x l ih => exact (logOnly_logFor u _ x).trans (ih _)
    dsimp only
    split
    · exact h1.trans h2
    · exact (h1.trans h2).trans (fold _ _)
  · exact LogOnly.refl s

theorem commitBytes_nil (s : State) : s.commitBytes [] = s := rfl

/-! ## A boundary instruction whose turn has come -/

theorem open_eq {s : State} (h : s.me.chunk = none) : s.openChunk = s.setChunk (s.newChunk s.cur) := by
  unfold State.openChunk
  rw [h]

theorem aput_aput {α : Type} (l : List (Nat × α)) (n : Nat) (v : α) : aput (aput l n v) n v = aput l n v := by
  induction l with
  | nil => simp [aput]
  | cons x l ih =>
    obtain ⟨k, w⟩ := x
    show aput (if n < k then _ else if n = k then _ else _) n v = if n < k then _ else if n = k then _ else _
    split
    · simp [aput]
    · split
      · simp [aput]
      · rename_i h1 h2; simp [aput, h1, h2, ih]

theorem chunk_setChunk (s : State) (k : Chunk) : (s.setChunk k).chunk = k := by
  unfold State.chunk State.chunkOf
  show (((s.setChunk k).ctx s.cur).chunk).getD _ = k
  have : (s.setChunk k).ctx s.cur = (s.setChunk k).me := rfl
  rw [this, State.me_setChunk]
  rfl

theorem grantable_turn {s : State} (ht : Turn s) (k : Chunk) (hk : k.det = false) (hits : List Nat) :
    s.openChunk.grantable s.cur k hits = true := by
  obtain ⟨h1, -, -, -, h5, h6, h7⟩ := ht
  have hd : (k.dies s.cur).all (fun d => (s.die d).relock.isNone) = true := by
    rw [List.all_eq_true]
    intro d _
    rw [h6 d]
    rfl
  rw [open_eq h1]
  unfold State.grantable
  show (match s.podOf s.cur with | none => true | some pid => _) = true
  cases hp : s.podOf s.cur with
  | none => rfl
  | some pid =>
    have hr : (s.setChunk (s.newChunk s.cur)).replayAllows pid 0 s.cur = true := by
      unfold State.replayAllows
      show (match (s.pod pid).replay with | none => true | some l => _) = true
      rw [h7 pid hp]
    show ((!k.det || _) && (match s.ticket with | some h => _ | none => true) && (k.dies s.cur).all (fun d => (s.die d).relock.isNone) && _) = true
    rw [hk, h5, hd, hr]
    simp

/-- A chunk just opened has read nothing to leave out. -/
theorem dropFetch_open {s : State} (h : s.me.chunk = none) : s.openChunk.dropFetch = s.openChunk := by
  rw [open_eq h]
  unfold State.dropFetch
  rw [chunk_setChunk]
  show (s.setChunk (s.newChunk s.cur)).setMe { (s.setChunk (s.newChunk s.cur)).me with chunk := some (s.newChunk s.cur) } = _
  rw [State.me_setChunk]
  show ({ s with ctxs := aput (aput s.ctxs s.cur _) s.cur _ } : State) = _
  rw [aput_aput]
  rfl

/-- A boundary instruction whose turn has come, and whose effect succeeds, commits at once. -/
theorem single_ok {s u v : State} {ops : List Opnd} {pre f : State → Res} {fin : State → Nat → State} {prep : Stop → State → State}
    (ht : Turn s) (hp : pre s.openChunk = .ok v) (hf : f s.openChunk = .ok u) (hd : u.chunk.det = false) :
    single s ops pre f fin prep = .next ((u.retireSingle (u.me.p.pc + 8)).commitSingle s.openChunk fin) := by
  have hc : s.openChunk.cur = s.cur := by rw [open_eq ht.1]; rfl
  have he : (!s.openChunk.chunk.isEmpty) = false := by
    rw [open_eq ht.1, chunk_setChunk]
    rfl
  have hn : s.openChunk.me.pending.isSome = false := by
    rw [open_eq ht.1, State.me_setChunk]
    show s.me.pending.isSome = false
    rw [ht.2.1]
    rfl
  unfold single
  dsimp only
  rw [hp]
  dsimp only
  rw [if_neg (by rw [he]; simp), if_neg (by rw [hn]; simp), dropFetch_open ht.1, hf]
  dsimp only
  have hg := grantable_turn ht { u.chunk with count := 1 } hd (Config.falseHits s.openChunk.moment)
  dsimp only at hg
  have hh : s.openChunk.harms ((u.retireSingle (u.me.p.pc + 8)).commitSingle s.openChunk fin) = false := by
    unfold State.harms
    rw [show s.openChunk.ticket = none by rw [open_eq ht.1]; exact ht.2.2.2.2.1]
  rw [hc, hg, hh]
  simp only [Bool.not_true, Bool.false_and, Bool.false_eq_true, if_false]

/-! ## The commit -/

/-- A pod with no launch that waits has nothing to do at a commit. -/
theorem afterCommit_eq (s : State) (pid clk c : Nat) (h : ∀ x ∈ (s.pod pid).launches, x.2.eligible = true ∧ x.2.det = false) :
    s.afterCommit pid clk c = s := by
  have h1 : (s.pod pid).doomed = none := by
    unfold Pod.doomed
    rw [Option.map_eq_none_iff, List.find?_eq_none]
    intro x hx
    simp [(h x hx).1]
  have h2 (n : Nat) : s.cancelDoomed pid n = s := by
    cases n with
    | zero => rfl
    | succ n => unfold State.cancelDoomed; rw [h1]
  have h3 : (s.pod pid).launches.filter (fun x => !x.2.eligible && x.2.deps.all (s.pod pid).depMet) = [] := by
    rw [List.filter_eq_nil_iff]
    intro x hx
    simp [(h x hx).1]
  unfold State.afterCommit State.settleDeps
  dsimp only
  rw [h2, h3, List.foldl_nil]

theorem holdSender_eq (s : State) (c : Nat) (k : Chunk) (h : k.fx = []) : s.holdSender c k = s := by
  unfold State.holdSender
  rw [h]
  rfl

/-- The state after a chunk's own writes and counts, before anything follows them. -/
def State.installed (s : State) (c : Nat) (k : Chunk) : State :=
  ((((s.logCommit c k).commitBytes k.writes).commitSpm (clusterOf c) k.spm).installShared c k).countCommit c k (s.recsAfter c k)

/-- A chunk without effects squashes and, its context in no gang, does nothing more. -/
theorem woken_install (s : State) (c : Nat) (k : Chunk) (hits : List Nat) (h : k.fx = []) (hg : k.gangs = [])
    (hn : ((s.installed c k).ctx c).gang = none) (ht : ((s.installed c k).ctx c).status ≠ .out .token) :
    Woken (· = c) (s.installed c k) (s.install c k hits) := by
  let reads (k : Option Chunk) : Bool := match k with
    | some k => k.reads.any (fun x => match x with | .line _ | .fetch _ | .table _ => true | _ => false)
    | none => false
  have some_of (k : Option Chunk) (h : reads k = true) : k.isSome := by
    cases k with
    | none => cases h
    | some _ => rfl
  have fold (l : List Nat) (hl : ∀ d ∈ l, d ≠ c) (u : State) :
      Woken (· = c) u (l.foldl (fun s d => if reads (s.ctx d).pending then s.squash d true 2 else
        if reads (s.ctx d).chunk then s.squash d false 2 else s) u) := by
    induction l generalizing u with
    | nil => exact Woken.refl u
    | cons d l ih =>
      rw [List.foldl_cons]
      refine Woken.trans ?_ (ih (fun x hx => hl x (List.mem_cons_of_mem _ hx)) _)
      have hd := hl d (List.mem_cons_self ..)
      split
      · rename_i e
        exact woken_squash u d true 2 hd (.inr (some_of _ e))
      · split
        · rename_i e
          exact woken_squash u d false 2 hd (.inl (some_of _ e))
        · exact Woken.refl u
  have h1 : Woken (· = c) (s.installed c k) ((s.installed c k).squashHits c (s.wrote c k) (s.sqCause c k)) :=
    woken_squashHits _ _ _ _ (fun _ e => e)
  have gangs (u : State) (hu : Woken (· = c) (s.installed c k) u) : u.installGangs c k = u := by
    unfold State.installGangs
    dsimp only
    rw [hg, List.foldl_nil, hu.ctx c (.inl ⟨rfl, ht⟩), hn]
  let v := (s.installed c k).squashHits c (s.wrote c k) (s.sqCause c k)
  let u := if k.level c = 2 then (hits.filter (fun d => dieOf d ≠ dieOf c && v.ticket ≠ some d)).foldl (fun s d =>
    if reads (s.ctx d).pending then s.squash d true 2 else if reads (s.ctx d).chunk then s.squash d false 2 else s) v else v
  have hu : Woken (· = c) (s.installed c k) u := by
    show Woken _ _ (if _ then _ else _)
    split
    · refine h1.trans (fold _ (fun d hd e => ?_) v)
      rw [List.mem_filter] at hd
      subst e
      simp at hd
    · exact h1
  have e : s.install c k hits = (u.installGangs c k) := by
    unfold State.install
    dsimp only
    rw [h, List.foldl_nil]
    rfl
  rw [e, gangs u hu]
  exact hu

/-- The commit of a boundary instruction that defers no effect: `w` is the state in which what it does to its unit then happens. -/
theorem commitSingle_base (v s0 : State) (fin : State → Nat → State) (h : v.chunk.fx = []) (hg : v.chunk.gangs = [])
    (hn : ((v.installed v.cur { v.chunk with ended := some .boundary }).ctx v.cur).gang = none)
    (ht : ((v.installed v.cur { v.chunk with ended := some .boundary }).ctx v.cur).status ≠ .out .token) :
    ∃ w, Woken (· = v.cur)
        ((v.installed v.cur { v.chunk with ended := some .boundary }).setCtx v.cur
          { (v.installed v.cur { v.chunk with ended := some .boundary }).ctx v.cur with chunk := none, wait := none }) w ∧
      v.commitSingle s0 fin =
        ((fin w (v.me.clock + v.chunk.count)).afterCommit ((v.podOf v.cur).getD 0) (v.me.clock + v.chunk.count) v.cur).react s0
          (v.me.clock + v.chunk.count) v.cur := by
  have h1 := woken_install v v.cur { v.chunk with ended := some .boundary } (Config.falseHits v.moment) h hg hn ht
  have hx := h1.ctx v.cur (.inl ⟨rfl, ht⟩)
  have h2 := h1.setBoth v.cur { (v.install v.cur { v.chunk with ended := some .boundary } (Config.falseHits v.moment)).ctx v.cur with
    chunk := none, wait := none } (.inl ⟨rfl, ht⟩)
  have e (W : State) (hW : W = (v.install v.cur { v.chunk with ended := some .boundary } (Config.falseHits v.moment)).setCtx v.cur
      { (v.install v.cur { v.chunk with ended := some .boundary } (Config.falseHits v.moment)).ctx v.cur with chunk := none, wait := none }) :
      v.commitSingle s0 fin = (((fin W (v.me.clock + v.chunk.count)).holdSender v.cur { v.chunk with ended := some .boundary }).afterCommit
        ((v.podOf v.cur).getD 0) (v.me.clock + v.chunk.count) v.cur).react s0 (v.me.clock + v.chunk.count) v.cur := by
    rw [hW]
    rfl
  refine ⟨_, ?_, (e _ rfl).trans (by rw [holdSender_eq _ _ { v.chunk with ended := some .boundary } h])⟩
  rw [← hx]
  exact h2

/-- The shared scalars of a core after the pending ones of a chunk. -/
def putAll (g : Vector Word 32) (l : List (Nat × Word)) : Vector Word 32 := l.foldl (fun g y => g.setIfInBounds y.1 y.2) g

/-- What an effect inside a boundary instruction has left that writes no memory, no shared tile and no service target, and defers
nothing. -/
structure Plain (u : State) : Prop where
  opened : u.me.chunk.isSome = true
  fx : u.chunk.fx = []
  gangs : u.chunk.gangs = []
  writes : u.chunk.writes = []
  hs : u.chunk.hs = []
  svc : u.chunk.svctgt = none
  count : u.chunk.count = 0
  det : u.chunk.det = false
  pending : u.me.pending = none
  status : u.me.status = .runnable
  ticket : u.ticket = none
  replay : ∀ p, u.podOf u.cur = some p → (u.pod p).replay = none
  settled : Settled u

/-- The state after such an effect has committed. -/
structure SingleDone (u t : State) : Prop where
  me : t.me = { u.me with p := { u.me.p.clearRestart with pc := u.me.p.pc + 8 }, chunk := none, wait := none,
                          chunkid := u.me.chunkid + 1, clock := u.me.clock + 1, squashes := 0, parityRuns := 0,
                          begun := t.me.begun, hcount := t.me.hcount, hlines := t.me.hlines,
                          recs := t.me.recs, kept := t.me.kept }
  rest : SameRest u t
  others : ∀ c, c ≠ u.cur → Quiescent (u.ctx c) → t.ctx c = u.ctx c
  core : ∀ k, t.core k = { u.core k with g := if k = coreOf u.cur then putAll (u.core k).g u.chunk.gs else (u.core k).g,
                                         sq := (t.core k).sq, activity := (t.core k).activity, handling := (t.core k).handling }
  cluster : ∀ k, t.cluster k = { (u.commitSpm (clusterOf u.cur) u.chunk.spm).cluster k with
    queue := (t.cluster k).queue, parked := (t.cluster k).parked, tokenq := (t.cluster k).tokenq }
  pod : ∀ p, t.pod p = { u.pod p with log := (t.pod p).log, owed := (t.pod p).owed }

/-- A context after the commit of its chunk `k`, its times and its handler's counts as in `y`. -/
def counted (x y : Ctx) (k : Chunk) : Ctx :=
  { x with chunkid := x.chunkid + 1, clock := x.clock + k.count, squashes := 0, parityRuns := 0, begun := y.begun, hcount := y.hcount,
           hlines := y.hlines, recs := y.recs, kept := y.kept }

/-- What the commit of such an effect installs. -/
theorem installed_plain (v : State) (c : Nat) (k : Chunk) (hw : k.writes = []) (hh : k.hs = []) (hs : k.svctgt = none)
    (hr : ∀ p, v.podOf c = some p → (v.pod p).replay = none) :
    let b := v.installed c k
    b.ctx c = counted (v.ctx c) (b.ctx c) k ∧
    b = { v with ctxs := b.ctxs, cores := b.cores, clusters := b.clusters, pods := b.pods, ticket := b.ticket } ∧
    (∀ d, d ≠ c → b.ctx d = v.ctx d) ∧
    (∀ n, b.core n = { v.core n with g := if n = coreOf c then putAll (v.core n).g k.gs else (v.core n).g, activity := (b.core n).activity, handling := (b.core n).handling }) ∧
    (∀ n, b.cluster n = (v.commitSpm (clusterOf c) k.spm).cluster n) ∧
    (∀ p, b.pod p = { v.pod p with log := (b.pod p).log, owed := (b.pod p).owed }) := by
  obtain ⟨l1, l2⟩ := logCommit_spec v c k hr
  dsimp only
  generalize hl : v.logCommit c k = w at l1 l2
  have hb : v.installed c k = ((w.commitSpm (clusterOf c) k.spm).installShared c k).countCommit c k (v.recsAfter c k) := by
    unfold State.installed
    rw [hl, hw, commitBytes_nil]
  have hsp : w.commitSpm (clusterOf c) k.spm = { v.commitSpm (clusterOf c) k.spm with pods := w.pods } := by
    rw [l1]
    unfold State.commitSpm
    split <;> rfl
  have hv : v.commitSpm (clusterOf c) k.spm = { v with clusters := (v.commitSpm (clusterOf c) k.spm).clusters } := by
    unfold State.commitSpm
    split <;> rfl
  generalize hq : v.commitSpm (clusterOf c) k.spm = q at hsp hv
  let x : Core := { v.core (coreOf c) with g := putAll (v.core (coreOf c)).g k.gs, activity := (v.core (coreOf c)).activity + 1 }
  have hi : (w.commitSpm (clusterOf c) k.spm).installShared c k = ({ q with pods := w.pods } : State).setCore (coreOf c) x := by
    rw [hsp]
    have hc : ({ q with pods := w.pods } : State).core (coreOf c) = v.core (coreOf c) := by rw [hv]; rfl
    unfold State.installShared
    rw [hs, hh, hc]
    rfl
  rw [hi] at hb
  have hct : ({ q with pods := w.pods } : State).setCore (coreOf c) x = { v with clusters := q.clusters, pods := w.pods, cores := aput v.cores (coreOf c) x } := by
    rw [hv]
    rfl
  rw [hct] at hb
  have fin (tk : Option Nat) (cs : List (Nat × Core)) (y : Ctx)
      (hcs : ∀ n, aget {} cs n = { v.core n with g := if n = coreOf c then putAll (v.core n).g k.gs else (v.core n).g, activity := (aget {} cs n).activity, handling := (aget {} cs n).handling })
      (hy : y = counted (v.ctx c) y k)
      (hb : v.installed c k = { ({ v with clusters := q.clusters, pods := w.pods, cores := cs } : State).setCtx c y with ticket := tk }) :
      (v.installed c k).ctx c = counted (v.ctx c) ((v.installed c k).ctx c) k ∧
      v.installed c k = { v with ctxs := (v.installed c k).ctxs, cores := (v.installed c k).cores, clusters := (v.installed c k).clusters,
                                 pods := (v.installed c k).pods, ticket := (v.installed c k).ticket } ∧
      (∀ d, d ≠ c → (v.installed c k).ctx d = v.ctx d) ∧
      (∀ n, (v.installed c k).core n = { v.core n with g := if n = coreOf c then putAll (v.core n).g k.gs else (v.core n).g, activity := ((v.installed c k).core n).activity, handling := ((v.installed c k).core n).handling }) ∧
      (∀ n, (v.installed c k).cluster n = q.cluster n) ∧ (∀ p, (v.installed c k).pod p = { v.pod p with log := ((v.installed c k).pod p).log, owed := ((v.installed c k).pod p).owed }) := by
    rw [hb]
    have h1 : (({ ({ v with clusters := q.clusters, pods := w.pods, cores := cs } : State).setCtx c y with ticket := tk } : State)).ctx c = y :=
      aget_aput_same _ _ _ _
    exact ⟨by rw [h1]; exact hy, rfl, fun d hd => aget_aput_ne _ _ _ _ _ hd, hcs, fun _ => rfl, fun p => l2 p⟩
  have same (l : List (Nat × Core)) (y : Core) (hy : y = { v.core (coreOf c) with g := putAll (v.core (coreOf c)).g k.gs, activity := y.activity, handling := y.handling })
      (hl : ∀ n, n ≠ coreOf c → aget {} l n = v.core n) (n : Nat) :
      aget {} (aput l (coreOf c) y) n = { v.core n with g := if n = coreOf c then putAll (v.core n).g k.gs else (v.core n).g, activity := (aget {} (aput l (coreOf c) y) n).activity, handling := (aget {} (aput l (coreOf c) y) n).handling } := by
    by_cases e : n = coreOf c
    · rw [if_pos e]
      subst e
      rw [aget_aput_same]
      exact hy
    · rw [if_neg e, aget_aput_ne _ _ _ _ _ e, hl n e]
  have h1 := same v.cores x rfl (fun _ _ => rfl)
  have h2 := same (aput v.cores (coreOf c) x) { x with handling := none } rfl (fun n hn => aget_aput_ne _ _ _ _ _ hn)
  have hx : aget {} (aput v.cores (coreOf c) x) (coreOf c) = x := aget_aput_same _ _ _ _
  unfold State.countCommit at hb
  dsimp only at hb
  split at hb
  · have hb2 := hb
    rw [show ({ v with clusters := q.clusters, pods := w.pods, cores := aput v.cores (coreOf c) x } : State).core (coreOf c) = x from hx] at hb2
    split at hb2
    · exact fin none _ _ h2 rfl hb2
    · exact fin v.ticket _ _ h2 rfl hb2
  · split at hb
    · exact fin none _ _ h1 rfl hb
    · exact fin v.ticket _ _ h1 rfl hb

/-- What a boundary instruction commits in, after its effect `u`. -/
theorem retireSingle_spec (u : State) (h : Plain u) (pc : BitVec 48) :
    let v := u.retireSingle pc
    v.me = { u.me with p := { u.me.p.clearRestart with pc := pc }, chunk := some { u.chunk with count := 1 } } ∧
    v = { u with ctxs := v.ctxs } ∧ (∀ c, c ≠ u.cur → v.ctx c = u.ctx c) ∧ v.chunk = { u.chunk with count := 1 } := by
  have hk : (u.setP { u.me.p.clearRestart with pc := pc }).chunk = u.chunk := by
    cases hc : u.me.chunk with
    | none => have := h.opened; rw [hc] at this; cases this
    | some k =>
      unfold State.chunk State.chunkOf
      show (((u.setP _).me).chunk).getD _ = (u.me.chunk).getD _
      rw [State.me_setP, hc]
      rfl
  have e : u.retireSingle pc = (u.setP { u.me.p.clearRestart with pc := pc }).setChunk { u.chunk with count := 1 } := by
    unfold State.retireSingle
    dsimp only
    rw [hk, h.count]
  dsimp only
  rw [e]
  refine ⟨by rw [State.me_setChunk, State.me_setP], rfl, fun c hc => ?_, chunk_setChunk _ _⟩
  exact (State.ctx_setMe_ne (u.setP _) _ c hc).trans (State.ctx_setMe_ne u _ c hc)

/-- The commit of a boundary instruction with a plain effect. -/
theorem single_done (u s0 : State) (h : Plain u) :
    SingleDone u ((u.retireSingle (u.me.p.pc + 8)).commitSingle s0 (fun s _ => s)) := by
  obtain ⟨r1, r2, r3, r4⟩ := retireSingle_spec u h (u.me.p.pc + 8)
  generalize hv : u.retireSingle (u.me.p.pc + 8) = v at r1 r2 r3 r4
  have hcur : v.cur = u.cur := by rw [r2]
  have hfx : v.chunk.fx = [] := by rw [r4]; exact h.fx
  have hrep : ∀ p, v.podOf v.cur = some p → (v.pod p).replay = none := by rw [r2]; exact h.replay
  obtain ⟨b1, b2, b3, b4, b5, b6⟩ := installed_plain v v.cur { v.chunk with ended := some .boundary } (by rw [r4]; exact h.writes)
    (by rw [r4]; exact h.hs) (by rw [r4]; exact h.svc) hrep
  have hvm : v.ctx v.cur = v.me := rfl
  have hst : (v.ctx v.cur).status = .runnable := by rw [hvm, r1]; exact h.status
  obtain ⟨w, hw, he⟩ := commitSingle_base v s0 (fun s _ => s) hfx (by rw [r4]; exact h.gangs)
    (by rw [b1, hvm, r1]; exact h.settled.1) (by rw [b1]; show (v.ctx v.cur).status ≠ _; rw [hst]; simp)
  generalize hb : v.installed v.cur { v.chunk with ended := some .boundary } = b at hw b1 b2 b3 b4 b5 b6
  have hwc : w.ctx v.cur = { b.ctx v.cur with chunk := none, wait := none } := by
    have ns : ((b.setCtx v.cur { b.ctx v.cur with chunk := none, wait := none }).ctx v.cur).status ≠ .out .token := by
      rw [State.ctx_setCtx, b1]; show (v.ctx v.cur).status ≠ _; rw [hst]; simp
    rw [hw.ctx v.cur (.inl ⟨rfl, ns⟩), State.ctx_setCtx]
  have hpod (p : Nat) : w.pod p = { u.pod p with log := (w.pod p).log, owed := (w.pod p).owed } := by
    have e1 : w.pod p = b.pod p := by rw [hw.rest]; rfl
    have e2 : v.pod p = u.pod p := by rw [r2]; rfl
    rw [e1, b6 p, e2]
  have hcore (n : Nat) : w.core n = { u.core n with g := if n = coreOf u.cur then putAll (u.core n).g u.chunk.gs else (u.core n).g, sq := (w.core n).sq, activity := (w.core n).activity, handling := (w.core n).handling } := by
    have e1 := hw.core n
    have e3 : (b.setCtx v.cur { b.ctx v.cur with chunk := none, wait := none }).core n = b.core n := rfl
    have e2 : v.core n = u.core n := by rw [r2]; rfl
    rw [e3, b4 n, e2, hcur, r4] at e1
    rw [e1]
  have hpodOf : (v.podOf v.cur).getD 0 = (u.podOf u.cur).getD 0 := by rw [r2]; rfl
  have hset : ∀ x ∈ (w.pod ((v.podOf v.cur).getD 0)).launches, x.2.eligible = true ∧ x.2.det = false := by
    rw [hpodOf, hpod]
    exact h.settled.2.2.1
  have hnh : Still w := ⟨fun k => by rw [hcore k]; exact h.settled.2.2.2.1 k, fun p => by rw [hpod p]; exact h.settled.2.2.2.2 p⟩
  rw [afterCommit_eq _ _ _ _ hset] at he
  have hq : Quiescent (w.ctx v.cur) := by
    rw [hwc, b1, hvm, r1]
    refine ⟨rfl, h.pending, ?_, ?_, fun q => h.settled.2.1 q.1⟩
    · show u.me.status ≠ _; rw [h.status]; simp
    · show u.me.status ≠ _; rw [h.status]; simp
  have hr := woken_react w s0 (v.me.clock + v.chunk.count) v.cur hnh
  rw [← he] at hr
  generalize v.commitSingle s0 (fun s _ => s) = t at hr
  have hcnt : v.chunk.count = 1 := by rw [r4]
  have hme : t.me = w.ctx v.cur := by
    show t.ctx t.cur = _
    have : t.cur = v.cur := by rw [hr.rest, hw.rest]; show b.cur = _; rw [b2]
    rw [this]
    exact hr.ctx v.cur (.inr hq)
  refine ⟨?_, ?_, fun c hc hx => ?_, fun k => ?_, fun k => ?_, fun p => ?_⟩
  · rw [hme, hwc, b1, hvm, r1, r4]
    rfl
  · have h1 : SameRest u v := by unfold SameRest; rw [r2]
    have h2 : SameRest v b := by unfold SameRest; rw [b2]
    have h3 : SameRest b (b.setCtx v.cur { b.ctx v.cur with chunk := none, wait := none }) := rfl
    exact sameRest_trans h1 (sameRest_trans h2 (sameRest_trans h3 (sameRest_trans hw.sameRest hr.sameRest)))
  · have e1 : (b.setCtx v.cur { b.ctx v.cur with chunk := none, wait := none }).ctx c = u.ctx c := by
      rw [State.ctx_setCtx_ne _ _ _ _ (by rw [hcur]; exact hc), b3 c (by rw [hcur]; exact hc), r3 c hc]
    have e2 : w.ctx c = u.ctx c := by rw [hw.ctx c (.inr (by rw [e1]; exact hx)), e1]
    rw [hr.ctx c (.inr (by rw [e2]; exact hx)), e2]
  · have := hr.core k
    rw [hcore k] at this
    rw [this]
  · have e1 := hr.cluster k
    have e2 := hw.cluster k
    have e3 : (b.setCtx v.cur { b.ctx v.cur with chunk := none, wait := none }).cluster k = (u.commitSpm (clusterOf u.cur) u.chunk.spm).cluster k := by
      show b.cluster k = _
      rw [b5 k, hcur, r4, r2]
      unfold State.commitSpm
      split <;> rfl
    rw [e3] at e2
    rw [e2] at e1
    exact e1
  · have e1 : t.pod p = w.pod p := by rw [hr.rest]; rfl
    rw [e1]
    exact hpod p

end Sys2Proof.Machine
end

