-- ==== Sys2Proof/Laws/Traps.lean ====
section
/-! SUPPORT. Taking a trap: what the executing context holds afterwards, and where its message goes. -/

namespace Sys2Proof.Machine

theorem ctx_deliver (s : State) (core : Nat) (m : InMsg) (c : Nat) : (s.deliver core m).ctx c = s.ctx c := by
  unfold State.deliver
  dsimp only
  split <;> rfl

/-- The trapped context itself. -/
theorem trapEntry_me (s : State) (m : Trap) (trunc : Bool) (h : m.row = none) :
    let t := s.trapEntry s.cur m trunc
    t.cur = s.cur ∧ t.me.p = s.me.p ∧ t.me.status = .trapped ∧ t.me.trap = some m ∧ t.me.chunk = s.me.chunk ∧ t.me.pending = s.me.pending := by
  have hc := ctx_leaveTokenq s s.cur s.cur
  have hcur : (s.leaveTokenq s.cur).cur = s.cur := by rw [(woken_leaveTokenq (P := fun _ => False) s s.cur).rest]
  generalize hu : s.leaveTokenq s.cur = u at hc hcur
  have key (x : Ctx) (t : State)
      (ht : t = (match (u.setCtx s.cur x).podOf s.cur with
        | none => u.setCtx s.cur x
        | some pid =>
          if ((u.setCtx s.cur x).pod pid).svctgt = s.cur then
            ((u.setCtx s.cur x).logError 1 (some pid) ((u.setCtx s.cur x).pod pid).vf ((m.words s.cur trunc).take 6)).raiseVector ((u.setCtx s.cur x).pod pid).vf 0
          else
            (u.setCtx s.cur x).deliver (coreOf ((u.setCtx s.cur x).pod pid).svctgt)
              { kind := .trap, consumer := ((u.setCtx s.cur x).pod pid).svctgt, words := m.words s.cur trunc })) :
      t.cur = s.cur ∧ t.me = x := by
    have h1 : (u.setCtx s.cur x).me = x := by
      show (u.setCtx s.cur x).ctx u.cur = x
      rw [hcur, State.ctx_setCtx]
    rw [ht]
    cases (u.setCtx s.cur x).podOf s.cur with
    | none => exact ⟨hcur, h1⟩
    | some pid =>
      dsimp only
      split
      · have e (v : State) (k n : Nat) : (v.raiseVector k n).me = v.me ∧ (v.raiseVector k n).cur = v.cur := by
          unfold State.raiseVector
          split <;> exact ⟨rfl, rfl⟩
        exact ⟨(e _ _ _).2.trans hcur, (e _ _ _).1.trans h1⟩
      · have e (v : State) (k : Nat) (y : InMsg) : (v.deliver k y).cur = v.cur := by
          unfold State.deliver
          dsimp only
          split <;> rfl
        refine ⟨(e _ _ _).trans hcur, ?_⟩
        unfold State.me
        rw [e, ctx_deliver]
        exact h1
  have fin : ∃ x : Ctx, s.trapEntry s.cur m trunc = (match (u.setCtx s.cur x).podOf s.cur with
        | none => u.setCtx s.cur x
        | some pid =>
          if ((u.setCtx s.cur x).pod pid).svctgt = s.cur then
            ((u.setCtx s.cur x).logError 1 (some pid) ((u.setCtx s.cur x).pod pid).vf ((m.words s.cur trunc).take 6)).raiseVector ((u.setCtx s.cur x).pod pid).vf 0
          else
            (u.setCtx s.cur x).deliver (coreOf ((u.setCtx s.cur x).pod pid).svctgt)
              { kind := .trap, consumer := ((u.setCtx s.cur x).pod pid).svctgt, words := m.words s.cur trunc }) ∧
      x.p = (u.ctx s.cur).p ∧ x.status = .trapped ∧ x.trap = some m ∧ x.chunk = (u.ctx s.cur).chunk ∧ x.pending = (u.ctx s.cur).pending := by
    unfold State.trapEntry
    rw [h, hu]
    exact ⟨_, rfl, rfl, rfl, rfl, rfl, rfl⟩
  obtain ⟨x, hx, h1, h2, h3, h4, h5⟩ := fin
  obtain ⟨k1, k2⟩ := key x _ hx
  dsimp only
  rw [hc] at h1 h4 h5
  rw [k2]
  exact ⟨k1, h1, h2, h3, h4, h5⟩

/-- Recording what an empty chunk has taken leaves contexts alone. -/
theorem logVals_rest (s : State) (p : Option Nat) (c : Nat) (k : Chunk) : s.logVals p c k = { s with pods := (s.logVals p c k).pods } := by
  unfold State.logVals
  dsimp only
  split
  · rfl
  · split <;> rfl

/-- Leaving the waiters for a power token changes contexts and clusters alone. -/
theorem leaveTokenq_rest (s : State) (c : Nat) :
    s.leaveTokenq c = { s with ctxs := (s.leaveTokenq c).ctxs, clusters := (s.leaveTokenq c).clusters } := by
  unfold State.leaveTokenq State.wakeToken
  dsimp only
  split
  · split
    · split <;> rfl
    · rfl
  · rfl

/-- Waking the first waiter, in two states whose clusters agree and whose contexts do but for one that does not wait. -/
theorem wakeToken_like {v w : State} {n k : Nat} (hk : v.clusters = w.clusters) (hx : ∀ c, c ≠ n → v.ctx c = w.ctx c)
    (hq : n ∉ (w.cluster k).tokenq) :
    (v.wakeToken k).clusters = (w.wakeToken k).clusters ∧ ∀ c, c ≠ n → (v.wakeToken k).ctx c = (w.wakeToken k).ctx c := by
  have e : v.cluster k = w.cluster k := by unfold State.cluster; rw [hk]
  unfold State.wakeToken
  rw [e]
  split
  · rename_i x l _ hl
    have ne : x ≠ n := fun h => hq (by rw [hl, h]; exact List.mem_cons_self ..)
    rw [hx x ne]
    split
    · refine ⟨hk, fun c hc => ?_⟩
      by_cases ec : c = x
      · subst ec
        rw [State.ctx_setCtx, State.ctx_setCtx]
      · rw [State.ctx_setCtx_ne _ _ _ _ ec, State.ctx_setCtx_ne _ _ _ _ ec]
        exact hx c hc
    · exact ⟨hk, hx⟩
  · exact ⟨hk, hx⟩

/-- What the executing context has in its own chunk plays no part in that. -/
theorem leaveTokenq_own {s u : State} (h : Own s u) :
    (u.leaveTokenq s.cur).clusters = (s.leaveTokenq s.cur).clusters ∧ ∀ c, c ≠ s.cur → (u.leaveTokenq s.cur).ctx c = (s.leaveTokenq s.cur).ctx c := by
  have hk : u.clusters = s.clusters := by rw [h.1]
  have e : u.cluster (clusterOf s.cur) = s.cluster (clusterOf s.cur) := by unfold State.cluster; rw [hk]
  unfold State.leaveTokenq
  dsimp only
  rw [e]
  split
  · refine wakeToken_like ?_ (fun c hc => h.2.1 c hc) ?_
    · unfold State.setCluster
      rw [hk]
    · rw [State.cluster_setCluster]
      simp
  · exact ⟨hk, h.2.1⟩

/-- A trap without a restart row. -/
theorem trapped_spec (s : State) (ops : List Opnd) (r : TrapReq) (h : r.row = none) :
    TrapTaken s (s.trapOf ops r) (s.trapped ops r) := by
  have hm : (s.trapOf ops r).row = none := h
  unfold TrapTaken
  by_cases hb : Bare s = true
  · rw [if_pos hb]
    have hb' : (s.chunk.isEmpty && !s.chunk.det && s.me.pending.isNone) = true := hb
    have hp : s.me.pending = none := by
      simp only [Bool.and_eq_true, Option.isNone_iff_eq_none] at hb'
      exact hb'.2
    obtain ⟨u, hu, hum, hcur⟩ : ∃ u : State, s.takeTrap ops r = u.trapEntry s.cur (s.trapOf ops r) false ∧
        (∃ r k, u.me = { s.me with chunk := none, squashes := 0, recs := r, kept := k }) ∧ u.cur = s.cur := by
      unfold State.takeTrap
      dsimp only
      rw [if_pos hb']
      refine ⟨_, rfl, ?_, ?_⟩
      · rw [State.me_setMe]
        exact ⟨_, _, rfl⟩
      · show (State.logVals _ _ _ _).cur = _
        rw [logVals_rest]
    obtain ⟨r0, k0, hum⟩ := hum
    obtain ⟨e2, e1, e3, e4, e5, e6⟩ := trapEntry_me u (s.trapOf ops r) false hm
    rw [hcur, ← hu] at e1 e2 e3 e4 e5 e6
    rw [hum] at e1 e5 e6
    have ht : s.trapped ops r = (s.takeTrap ops r).react s 0 Config.contexts := by
      unfold State.trapped
      dsimp only
      rw [if_pos e3]
    have hme2 : (s.takeTrap ops r).ctx s.cur = (s.takeTrap ops r).me := by unfold State.me; rw [e2]
    have hq : Quiescent ((s.takeTrap ops r).ctx s.cur) := by
      rw [hme2]
      exact ⟨e5, e6.trans hp, by rw [e3]; simp, by rw [e3]; simp, fun q => by rw [e3] at q; cases q.2⟩
    obtain ⟨k1, k2⟩ := react_ctx (s.takeTrap ops r) s 0 Config.contexts s.cur hq (by rw [hme2, e3]; simp)
    rw [← ht] at k1 k2
    have hme : (s.trapped ops r).me = (s.takeTrap ops r).me := by
      unfold State.me
      rw [k2, e2]
      exact k1
    rw [hme]
    exact ⟨e1, k2.trans e2, e3, e4, e5⟩
  · rw [if_neg hb]
    have hb' : ¬(s.chunk.isEmpty && !s.chunk.det && s.me.pending.isNone) = true := hb
    let w : State := { s with ticket := if s.ticket = some s.cur then none else s.ticket }
    let x : Ctx := { s.me with p := s.me.p, tokenWait := false, chunk := some { s.chunk with ended := some (.trap (s.trapOf ops r)), excl := false }, status := .out .commit,
                               squashes := if s.chunk.excl then 0 else s.me.squashes }
    have hw : w.leaveTokenq s.cur = { s.leaveTokenq s.cur with ticket := w.ticket } := by
      unfold State.leaveTokenq State.wakeToken State.cluster State.setCluster State.setCtx State.ctx
      dsimp only [w]
      split
      · split
        · split <;> rfl
        · rfl
      · rfl
    have hu : s.takeTrap ops r = (w.leaveTokenq s.cur).setMe x := by
      unfold State.takeTrap
      dsimp only
      rw [if_neg hb', h]
    have hum : (s.takeTrap ops r).me = x := by rw [hu, State.me_setMe]
    have ht : s.trapped ops r = s.takeTrap ops r := by
      unfold State.trapped
      dsimp only
      rw [if_neg (by rw [hum]; simp [x])]
    rw [ht, hum]
    have hcur : (w.leaveTokenq s.cur).cur = s.cur := by rw [leaveTokenq_rest]
    refine ⟨rfl, by rw [hu]; exact hcur, rfl, fun c hc => ?_, ?_, _, rfl, rfl⟩
    · rw [hu, State.ctx_setMe_ne _ _ _ (by rw [hcur]; exact hc), hw]
      rfl
    · rw [hu, hw]
      rfl

/-- As seen from before the chunk was opened. -/
theorem trapped_open (s : State) (ops : List Opnd) (r : TrapReq) (h : r.row = none) :
    TrapTaken s (s.openChunk.trapOf ops r) (s.openChunk.trapped ops r) := by
  have q := quiet_openChunk s
  have k := trapped_spec s.openChunk ops r h
  have hc : s.openChunk.chunk = s.chunk := by
    unfold State.openChunk
    cases hc : s.me.chunk with
    | some y => rfl
    | none =>
      show (s.setChunk _).chunk = s.chunk
      unfold State.chunk State.chunkOf
      have : (s.setChunk (s.newChunk s.cur)).ctx (s.setChunk (s.newChunk s.cur)).cur = (s.setChunk (s.newChunk s.cur)).me := rfl
      rw [this, State.me_setChunk]
      unfold State.me at hc
      rw [hc]
      rfl
  have hp : s.openChunk.me.pending = s.me.pending := by rw [q.own.2.2]; unfold State.openChunk; split
                                                        · rfl
                                                        · rw [State.me_setChunk]
  have hb : Bare s.openChunk = Bare s := by
    unfold Bare
    rw [hc, hp]
  unfold TrapTaken at k ⊢
  rw [hb, q.p] at k
  refine ⟨k.1, k.2.1.trans (own_cur q.own), ?_⟩
  have h2 := k.2.2
  split
  · rename_i e
    rw [if_pos e] at h2
    exact h2
  · rename_i e
    rw [if_neg e] at h2
    obtain ⟨hk, hx⟩ := leaveTokenq_own q.own
    have hcur := own_cur q.own
    refine ⟨h2.1, fun c hc => ?_, ?_, h2.2.2.2⟩
    · rw [h2.2.1 c (by rw [hcur]; exact hc), hcur, hx c hc]
    · have e := h2.2.2.1
      generalize s.openChunk.trapped ops r = t at e ⊢
      rw [e, hcur, leaveTokenq_rest, leaveTokenq_rest s, hk, q.own.1]

theorem quiet_opWord {s u : State} (q : Quiet s u) (x : Opnd) : u.opWord x = s.opWord x := by
  cases x with
  | none => rfl
  | s r => exact q.val r
  | t r => show ((u.tile r).shape.zeroExtend 64) = _; rw [q.tile]; rfl
  | k r => show maskShape (u.mask r) = maskShape (s.mask r); unfold State.mask; rw [q.p]
  | raw n => rfl

/-- The message of a trap raised in the opened chunk. -/
theorem trapOf_open (s : State) (ops : List Opnd) (r : TrapReq) (h : r.row = none) :
    s.openChunk.trapOf ops r =
      trapMsg s r.code (r.w1.getD (zext s.me.p.pc)) r.w2 (r.own.getD (ops.map s.opWord)) r.atFetch := by
  have q := quiet_openChunk s
  have ho : ops.map s.openChunk.opWord = ops.map s.opWord := List.map_congr_left (fun x _ => quiet_opWord q x)
  unfold State.trapOf trapMsg
  dsimp only
  rw [ho, q.p, h]

/-- An instruction that settles with a trap in its opened chunk. -/
theorem traps_of {i : Instr} {s : State} {ops : List Opnd} {r : TrapReq} {m : Trap} (h : r.row = none)
    (he : exec i s = .next (s.openChunk.trapped ops r))
    (hm : trapMsg s r.code (r.w1.getD (zext s.me.p.pc)) r.w2 (r.own.getD (ops.map s.opWord)) r.atFetch = m) : Traps i s m := by
  refine ⟨_, he, ?_⟩
  rw [← hm, ← trapOf_open s ops r h]
  exact trapped_open s ops r h

theorem performTo_trap {s : State} {ops : List Opnd} {f : State → Except Stop (State × BitVec 48 × Bool)} {t : TrapReq}
    (h : f s.openChunk = .error (.trap t)) : performTo s ops f = .next (s.openChunk.trapped ops t) := by
  unfold performTo settle
  dsimp only
  rw [h]

end Sys2Proof.Machine
end

