-- ==== Sys2Proof/Tests/Slice0.lean ====
section
/-! SUPPORT. Tests of the model: ill-formed terms are refused, words of the spec decode to what the spec says they are, worked results of
the spec come out, and for every statement with hypotheses a concrete state meets them (`witness_<statement>`). -/

namespace Sys2Proof.Tests

open Sys2Proof Sys2Proof.Machine

-- The kernel evaluates these one after another: proofs that wait for each other in parallel would each hold a thread.
set_option Elab.async false

/-! ## Ill-formed terms -/

/-- One ill-formed term for each check of `Instr.wf` (06 R139, R145, 07 R157, R158, R161, 10 R222, 95). -/
theorem test_wf_refuses : ∀ i ∈ [Instr.tcvt (.scalar (.s 1)) (.tile (.t 0)) true, .tredSum (.scalar (.s 1)) (.t 0) .row,
    .tredMax (.scalar (.s 1)) (.t 0) .col, .tredMin (.scalar (.s 1)) (.t 0) .row,
    .mma (.t 0) (.t 1) (.t 2) ⟨.i64, .i64, false⟩, .mmaZ (.t 0) (.t 1) (.t 2) ⟨.e4m3, .bf16, false⟩,
    .mmaSa (.t 0) (.s 1) (.t 2) ⟨.e2m1, .e2m1, true⟩ 4 ⟨0, 0⟩, .mmaSb (.t 0) (.t 1) (.s 2) ⟨.i32, .i8, false⟩ 15 ⟨0, 0⟩,
    .mmaSb (.t 0) (.t 1) (.s 31) ⟨.e4m3, .e4m3, true⟩ 63 ⟨0, 0⟩, .mmaSs (.t 0) (.s 31) (.s 2) ⟨.e4m3, .e4m3, true⟩ 63 ⟨0, 0⟩ ⟨0, 0⟩,
    .mmaSs (.t 0) (.s 2) (.s 4) ⟨.bf16, .bf16, false⟩ 15 ⟨1, 0⟩ ⟨0, 0⟩,
    .cpyQ (.s 1) (.s 2) (.s 3) ⟨true, false, 0, 0, 0, false, false, 0⟩ 0,
    .cpyFm (.s 1) (.s 2) (.s 3) ⟨false, true, 0, 0, 0, false, false, 0⟩ 0 0, .chunkCommit 16384 ⟨[], false⟩, .commitTicket 128,
    .operationCompletion 16384, .waitLimit 16384, .pickup 1024, .aging 128, .workStealing 0 128, .workStealing 128 0, .messageArrival 1024,
    .inboxDrain 1024, .heapReplay 1024, .courierHandlerStart 1024, .remoteAgentPerform 1024, .portProbe 16384, .tokenArrival 128, .burstEnd 128,
    .powerArbiterPeriod ⟨[], 0⟩, .relockEnd 4, .engineCommandStart 128 0, .engineCommandStart 0 16, .cbufSlotClaim 0 16, .engineLineEvent 0 16,
    .engineCommandComplete 128 0, .followOnStart 0 16, .followOnInstall 128 0, .preemptCore 1024 [], .coreRestore 1024, .dieSaved 0 4,
    .hbmRetrain 8 true, .scrubPass 8, .thermalShutdown 4 0], i.wf = false := by decide

/-! ## Words of the spec decode to what the spec says they are -/

/-- The two words of a 64-bit instruction as the manual prints it. -/
def pair (x : Nat) : List Nat := [x % 2 ^ 32, x / 2 ^ 32]

/-- A 64-bit instruction from its fields (02 R45, R46): LEN 1, OP at bit 2, FN at 10, D at 16, A at 22, B at 28, IMM30 at 34. -/
def fields (op fn d a b imm : Nat) : List Nat := pair (1 + op * 2 ^ 2 + fn * 2 ^ 10 + d * 2 ^ 16 + a * 2 ^ 22 + b * 2 ^ 28 + imm * 2 ^ 34)

/-- The words of the service loop (04, after R107). -/
theorem test_decode_service :
    decode (pair 0x0000000000010099) = .ok (.svcRecv (.s 1)) ∧
    decode (pair 0x000007000042000D) = .ok (.ext (.s 2) (.s 1) 0 7 false) ∧
    decode (pair 0x00000D200043000D) = .ok (.ext (.s 3) (.s 1) 8 13 false) ∧
    decode (pair 0xFFFFFFDC00840009) = .ok (.addi (.s 4) (.s 2) (BitVec.ofInt 30 (-9))) ∧
    decode (pair 0x0000002801000085) = .ok (.bz (.s 4) 10) ∧
    decode (pair 0x0000000C00C00499) = .ok (.svcReply (.s 3) (.s 0) .kill) ∧
    decode (pair 0xFFFFFFC000000089) = .ok (.br (BitVec.ofInt 30 (-16))) ∧
    decode (pair 0x0000410C00C50899) = .ok (.svcRd (.s 5) (.s 3) 1 0x043) ∧
    decode (pair 0x0000410C50C00C99) = .ok (.svcWr (.s 3) (.s 5) 1 0x043) ∧
    decode (pair 0x0000000400C00499) = .ok (.svcReply (.s 3) (.s 0) .skip) := by
  refine ⟨rfl, rfl, rfl, rfl, rfl, rfl, rfl, rfl, rfl, rfl⟩

/-- Words of `rows` (08), of the ring and its reader (14), and of the stencil (17). -/
theorem test_decode_programs :
    decode (pair 0x0400084000010101) = .ok (.tcfg (.t 1) (.imm 0 false 0x08 1 16)) ∧
    decode (pair 0x0000001030400905) = .ok (.trowPut (.t 0) (.t 1) (.s 3) 0) ∧
    decode [0x0000001C] = .ok .pad ∧
    decode (pair 0xFFFFFFD860C00481) = .ok (.bNe (.s 3) (.s 6) (BitVec.ofInt 30 (-10))) ∧
    decode (pair 0x0000001030010D05) = .ok (.tcolGet (.t 1) (.t 0) (.s 3) 0) ∧
    decode (pair 0x0000000001410105) = .ok (.tmov (.t 1) (.t 5)) ∧
    decode (pair 0x0000000000000FC5) = .ok .exit ∧
    decode (pair 0x0000000401000BC5) = .ok (.hop (.s 4) true) ∧
    decode (pair 0x0000010C01800491) = .ok (.mts (.s 6) 0x043) ∧
    decode (pair 0x0000000404400315) = .ok (.waitMem (.s 17) (.s 0) .ne 0) ∧
    decode (pair 0x00000005D4C0030D) = .ok (.fePut (.s 19) (.s 29) true 0) ∧
    decode (pair 0x0000018400030091) = .ok (.mfs (.s 3) 0x061) ∧
    decode (pair 0x0000000001C0008D) = .ok (.loop (.s 7) 0) ∧
    decode (pair 0x0480201000000101) = .ok (.tcfg (.t 0) (.imm 0 false 0x09 4 4)) ∧
    decode (pair 0x0000000010000181) = .ok (.tadd (.t 0) (.tile (.t 0)) (.tile (.t 1))) ∧
    decode (pair 0x0000001060000181) = .ok (.tadd (.t 0) (.tile (.t 0)) (.scalar (.s 6))) ∧
    decode (pair 0x0000000060470301) = .ok (.amoAdd (.s 7) (.s 1) (.s 6) 0) ∧
    decode (pair 0x00000000000013C5) = .ok .commit ∧
    decode (pair 0x0000000860400315) = .ok (.waitMem (.s 1) (.s 6) .geu 0) := by
  refine ⟨rfl, rfl, rfl, rfl, rfl, rfl, rfl, rfl, rfl, rfl, rfl, rfl, rfl, rfl, rfl, rfl, rfl, rfl, rfl⟩

/-- The worked encodings of 07 and 13, and the 96-bit and 128-bit words of 11. -/
theorem test_decode_tables :
    decode (pair 0x000017BC20400201) = .ok (.mma (.t 0) (.t 1) (.t 2) ⟨.e2m1, .e2m1, true⟩) ∧
    decode (pair 0x2007F5AC80E00A01) = .ok (.mmaSb (.h 0) (.t 3) (.s 8) ⟨.e4m3, .e4m3, true⟩ 63 ⟨0, 2⟩) ∧
    decode (pair 0x00000000010503C1) = .ok (.launch (.s 5) (.s 4)) ∧
    decode (pair 0x00000000000003C5) = .ok .yield ∧
    decode (pair 0x0000004000C007C5) = .ok (.park (.s 3) false 2) ∧
    decode (pair 0x0000000000C00BC5) = .ok (.hop (.s 3) false) ∧
    decode (pair 0x00000014718003CD) = .ok (.send (.s 6) (.s 7) 5) ∧
    decode (pair 0x00000000024207CD) = .ok (.recv (.s 2) (.s 9) 0) ∧
    decode (pair 0x0000001C000003D5) = .ok (.cancelLaunch (.s 0) 7) ∧
    decode (pair 0x00000000010313D5) = .ok (.cntRead (.s 3) (.s 4)) ∧
    decode (pair 0x00000000020203D9) = .ok (.hmq (.s 2) (.s 8)) ∧
    decode [0xA00B0383, 0x00000044, 0x00000000, 0x00000000] = .ok (.cpyQCfg (.s 11) (.s 0) (.s 10) 0 1) ∧
    decode [0x008D0383, 0x00300E04, 0x00001000, 0x00000000] = .ok (.cpyQ (.s 13) (.s 2) (.s 0) ⟨true, true, 0, 0, 3, true, false, 1⟩ 0x1000) ∧
    decode [0xC0CE0783, 0x00100E04, 0x00001000, 0x00001080] =
      .ok (.cpyFm (.s 14) (.s 3) (.s 12) ⟨false, true, 0, 0, 3, true, false, 1⟩ 0x1000 0x1080) ∧
    decode [0x11430522, 0x00000001, 0x00000006] = .ok (.tst (.t 3) (.s 5) (.s 17) (.s 6) 0 false) := by
  refine ⟨rfl, rfl, rfl, rfl, rfl, rfl, rfl, rfl, rfl, rfl, rfl, rfl, rfl, rfl, rfl⟩

/-- The families without a worked example, from the fields that their rules give (04 R93–R100, 06 R145, R146, 10 R202–R229, 13 R268–R275). -/
theorem test_decode_fields :
    decode (fields 0x20 4 0 1 34 7) = .ok (.bLtu (.s 1) (.g 2) 7) ∧
    decode (fields 0x25 0 0 0 0 5) = .ok (.trap 5) ∧
    decode (fields 0x44 0 7 1 2 0x6) = .ok (.kedge 7 (.s 1) (.s 2)) ∧
    decode (fields 0x64 1 3 2 0 0x20) = .ok (.tredMax (.tile (.t 3)) (.t 2) .all) ∧
    decode (fields 0x62 6 33 2 0 0) = .ok (.tneg (.h 1) (.tile (.t 2))) ∧
    decode (fields 0xA0 5 1 2 0 0x3FFFFFFF) = .ok (.ldWu (.s 1) (.s 2) (BitVec.ofInt 30 (-1))) ∧
    decode (fields 0xA1 2 0 2 3 8) = .ok (.stW (.s 2) (.s 3) 8) ∧
    decode (fields 0xA4 0 1 2 0 16) = .ok (.rld (.s 1) (.s 2) 16) ∧
    decode (fields 0xA6 1 0 2 0 64) = .ok (.pfL2 (.s 2) 64) ∧
    decode (fields 0xA7 0 1 2 0 31) = .ok (.cbufTake (.s 1) (.s 2) 31) ∧
    decode (fields 0xC2 2 0 2 3 (2 + 4 * 4)) = .ok (.redMin (.s 2) (.s 3) .i32 4) ∧
    decode (fields 0xE3 1 5 0 0 (3 + 16)) = .ok (.tlRead (.s 5) 3 1) ∧
    decode (fields 0xF2 1 5 6 0 0) = .ok (.ctxStop (.s 5) (.s 6)) ∧
    decode (fields 0xF4 0 0 6 0 0xFFFF) = .ok (.gangForm (.s 6) 0xFFFF) ∧
    decode [3 + 0xE1 * 4 + 1 * 2 ^ 16 + 2 * 2 ^ 22 + 3 * 2 ^ 28, (2 + 1 * 2 ^ 4) * 4, 7 + 8 * 2 ^ 16, 9] = .ok (.routeQ (.s 1) (.s 2) (.s 3) 2 1 7 8 9) ∧
    decode [3 + 0xE2 * 4 + 1 * 2 ^ 16 + 2 * 2 ^ 22 + 3 * 2 ^ 28, (2 + 1 * 2 ^ 4 + 1 * 2 ^ 6 + 5 * 2 ^ 7) * 4, 7, 9] =
      .ok (.collQ (.s 1) (.s 2) (.s 3) 2 .redscatter true 5 7 9) := by
  refine ⟨rfl, rfl, rfl, rfl, rfl, rfl, rfl, rfl, rfl, rfl, rfl, rfl, rfl, rfl, rfl, rfl⟩
/-! ## A small state, on which the hypotheses of the statements are met

Pod 0 of virtual device 1 is resident on cluster 0, with one gibibyte page that maps virtual addresses below 2 MiB to themselves. -/

/-- A page table: its first entry points to a table at 4096, whose first entry is a readable, writable and executable leaf (15 R303). -/
def tables : Memory := [(0, 0x03), (1, 0x10), (0x1000, 0x1D)]

def somePolicy : Policy :=
  { tenant := 7, podMax := 2, clMax := 4, fence := false, reportOk := true, fullOk := false, detReq := false, powShare := 10, groups := [],
    sliceMin := 1, sliceMax := 9, quotaMin := 2, quotaMax := 8, memGib := 4, peers := 0, digest := [] }

def someVf : Vf := { policy := some somePolicy, gen := 1, grant := 1, root1 := some 0, stage2 := [(0, 0)] }
def somePod : Pod := { vf := 1, clusters := [0], state := .active, resident := true }

/-- The small state, whose executing context is `c`, as `x`. -/
def small (c : Nat) (x : Ctx) : State :=
  { State.reset with
    bring := 6, ready := true, chip := some 0, mem := tables, clean := [0], vfs := [(1, someVf)], pods := [(32, somePod)], ctxs := [(c, x)], cur := c }

def running (p : Priv) : Ctx := { p := p, status := .runnable }

/-- Private registers with values in `s1`, `s2`, … -/
def regs (l : List Word) (p : Priv := {}) : Priv :=
  { p with regs := Vector.ofFn (fun i => if i.val = 0 then 0 else l.getD (i.val - 1) 0) }

/-- A unit with those registers. -/
def unit1 (l : List Word) (p : Priv := {}) : State := small 1 (running (regs l p))

theorem aget_all {α : Type} {P : α → Prop} {d : α} {l : List (Nat × α)} (hd : P d) (hl : ∀ x ∈ l, P x.2) (k : Nat) : P (aget d l k) := by
  induction l with
  | nil => exact hd
  | cons a r ih =>
    unfold aget
    split
    · exact hl a (by simp)
    · exact ih (fun x hx => hl x (by simp [hx]))

theorem still_of {s : State} (h : (∀ x ∈ s.cores, x.2.heap = []) ∧ ∀ x ∈ s.pods, x.2.detWork = false) : Still s :=
  ⟨fun k => aget_all (P := fun x : Core => x.heap = []) rfl h.1 k, fun k => aget_all (P := fun x : Pod => x.detWork = false) rfl h.2 k⟩

theorem calm_of {s : State} (h : ((∀ x ∈ s.cores, x.2.heap = []) ∧ ∀ x ∈ s.pods, x.2.detWork = false) ∧ s.ticket = none) : Calm s :=
  ⟨still_of h.1, h.2⟩

theorem stills_of {s : State} (h : ((∀ x ∈ s.cores, x.2.heap = []) ∧ ∀ x ∈ s.pods, x.2.detWork = false) ∧ ∀ x ∈ s.pods, x.2.saved = none) : Stills s :=
  ⟨still_of h.1, fun p hp m hm => by rw [h.2 p hp] at hm; cases hm⟩

/-- The first instruction of a chunk that no handler runs has room for any lines. -/
theorem room_of {s : State} {n : Nat} (h : s.me.handler = false ∧ s.chunk.count = 0) : Room s n := by
  unfold Room
  rw [h.1]
  exact .inl h.2

theorem dies_quiet {s : State} (h : s.dies = Vector.replicate 4 {}) (d : Nat) : (s.die d).relock = none := by
  unfold State.die
  rw [h]
  rcases Nat.lt_or_ge d 4 with hd | hd
  · have : d = 0 ∨ d = 1 ∨ d = 2 ∨ d = 3 := by omega
    rcases this with rfl | rfl | rfl | rfl <;> rfl
  · simp [Vector.getD, hd]

theorem turn_of {s : State} (p : Nat) (h1 : s.me.chunk = none) (h2 : s.me.pending = none) (h3 : s.me.status = .runnable)
    (h4 : s.chunk.det = false) (h5 : s.ticket = none) (h6 : s.dies = Vector.replicate 4 {}) (h7 : s.podOf s.cur = some p)
    (h8 : (s.pod p).replay = none) : Turn s := by
  refine ⟨h1, h2, h3, h4, h5, dies_quiet h6, fun q hq => ?_⟩
  rw [h7] at hq
  cases hq
  exact h8

theorem noPrefix {s : State} (h : s.pfxMask? = none) (r c : Nat) : MaskReady s r c := by
  intro k hk
  rw [h] at hk
  cases hk

theorem turn_settled {s : State} (h : s.podOf s.cur = some 32 ∧ s.me.chunk = none ∧ s.me.pending = none ∧ s.me.status = .runnable ∧
    s.chunk.det = false ∧ s.ticket = none ∧ s.dies = Vector.replicate 4 {} ∧ (s.pod 32).replay = none ∧ s.me.gang = none ∧ s.me.sending ≠ .wait ∧
    (∀ x ∈ (s.pod 32).launches, x.2.eligible = true ∧ x.2.det = false) ∧ (∀ x ∈ s.cores, x.2.heap = []) ∧ ∀ x ∈ s.pods, x.2.detWork = false) :
    Turn s ∧ Settled s := by
  obtain ⟨h1, h2, h3, h4, h5, h6, h7, h8, h9, h10, h11, h12⟩ := h
  refine ⟨turn_of 32 h2 h3 h4 h5 h6 h7 h1 h8, h9, h10, ?_, still_of h12⟩
  rw [h1]
  exact h11

/-! ## 04 -/

theorem witness_BranchesTransferOrFallThrough :
    let s := unit1 [5, 5, 0xFFFFFFFFFFFFFFFF, 0xFFFFFFFFFFFC] { pc := 0x1000 }
    let good (t : Word) : Prop := t.toNat % 4 = 0 ∧ t.toNat < 2 ^ 48
    s.val (.s 1) = s.val (.s 2) ∧ s.val (.s 1) ≠ s.val (.s 3) ∧ (s.val (.s 3)).toInt < (s.val (.s 1)).toInt ∧ (s.val (.s 1)).toInt ≤ (s.val (.s 2)).toInt ∧
    (s.val (.s 1)).toNat < (s.val (.s 3)).toNat ∧ s.val (.s 0) = 0 ∧
    good (s.me.p.pc.zeroExtend 64 + (BitVec.ofInt 30 (-0x400)).signExtend 64 * 4) ∧ good (s.val (.s 4)) := by decide +kernel

theorem witness_RefusedTargetsTrap :
    let s := unit1 [5, 5, 6, 0xFFFFFFFFFFFFFFFE, 0x1000000000000] { pc := 0xFFFFFFFFFFFC, retdepth := 1, rets := [2] }
    let u := unit1 [] { pc := 2 }
    (u.me.p.pc.zeroExtend 64 + (0 : BitVec 30).signExtend 64 * 4 : Word).toNat % 4 ≠ 0 ∧
    (s.me.p.pc.zeroExtend 64 + (1 : BitVec 30).signExtend 64 * 4 : Word).toNat % 4 = 0 ∧
    2 ^ 48 ≤ (s.me.p.pc.zeroExtend 64 + (1 : BitVec 30).signExtend 64 * 4 : Word).toNat ∧
    (s.val (.s 4)).toNat % 4 ≠ 0 ∧ (s.val (.s 5)).toNat % 4 = 0 ∧ 2 ^ 48 ≤ (s.val (.s 5)).toNat ∧
    s.val (.s 1) = s.val (.s 2) ∧ s.val (.s 1) ≠ s.val (.s 3) ∧ s.val (.s 0) = 0 ∧ s.val (.s 1) ≠ 0 ∧ s.me.p.retdepth < 1024 ∧
    s.me.p.rets = 2 :: [] ∧ s.me.p.retdepth ≠ 0 ∧ (2 : BitVec 48).toNat % 4 ≠ 0 := by decide +kernel

theorem witness_LoopCountsDown :
    let s := unit1 [1] { pc := 0x1000 }
    let tgt : Word := s.me.p.pc.zeroExtend 64 + (0 : BitVec 30).signExtend 64 * 4
    s.val (.s 0) = 0 ∧ s.val (.s 1) ≠ 0 ∧ tgt.toNat % 4 = 0 ∧ tgt.toNat < 2 ^ 48 := by decide +kernel

theorem witness_CallPushesReturnAddress :
    let full := unit1 [0x2000] { retdepth := 1024 }
    let s := unit1 [0x2000] { retdepth := 1023, rets := List.replicate 15 4, rsbase := 0x4000 }
    let u := unit1 [0x2000] { retdepth := 1023, rets := List.replicate 16 4, rsbase := 0x4000 }
    let x := u.me.p.rsbase + BitVec.ofNat 64 (8 * (u.me.p.retdepth - 16))
    1024 ≤ full.me.p.retdepth ∧
    (s.me.p.retdepth < 1024 ∧ (s.val (.s 1)).toNat % 4 = 0 ∧ (s.val (.s 1)).toNat < 2 ^ 48 ∧ s.me.p.rets.length < 16) ∧
    (u.me.p.retdepth < 1024 ∧ u.me.p.rets.length = 16 ∧ u.chunk.count = 0 ∧ u.me.handler = false ∧ x.toNat % 8 = 0 ∧
      (translate u.seen u.myVf x .write).toOption = some (.mem 0x5F78, [.line 64, .line 0])) := by decide +kernel

theorem witness_RetPopsReturnAddress :
    let s := unit1 [] { retdepth := 1, rets := [0x2000] }
    let u := unit1 [] { retdepth := 1, rsbase := 0x1000 }
    let x := u.me.p.rsbase + BitVec.ofNat 64 (8 * (u.me.p.retdepth - 1))
    (unit1 []).me.p.retdepth = 0 ∧
    (s.me.p.retdepth ≠ 0 ∧ s.me.p.rets = 0x2000 :: [] ∧ (0x2000 : BitVec 48).toNat % 4 = 0) ∧
    (u.me.p.retdepth ≠ 0 ∧ u.me.p.rets = [] ∧ x.toNat % 8 = 0 ∧ (translate u.seen u.myVf x .read).toOption = some (.mem 0x1000, [.line 64, .line 0]) ∧
      u.poisonIn 0x1000 8 = none) ∧
    (let v := unit1 [] { retdepth := 1, rsbase := 0x2000 }
     leNat (v.bytesAt 0x2000 8) % 4 = 0 ∧ leNat (v.bytesAt 0x2000 8) < 2 ^ 48) := by decide +kernel

/-- A unit at 8192 with those words of code there. -/
def coded (ws : List Nat) : State :=
  { unit1 [] { pc := 0x2000, codelim := 0x3000 } with mem := Memory.writeBytes tables 0x2000 (ws.flatMap (leBytes 4)) }

theorem witness_PadsPrefixesAndFetchFaults :
    let q : Pfx := { rsv := 0, sat := true, xv := false, x := 0, mz := false, mask := 0, rm := 7, fmt := 0 }
    (32 : Nat) < 2 ^ 32 ∧ (32 : Nat) % 32 = 0 ∧ (60 : Nat) % 32 = 28 ∧
    (coded [q.word, 0x21030001, 2]).openChunk.prefixed = some (.add (.s 3) (.s 4) (.g 2)) ∧ (Instr.add (.s 3) (.s 4) (.g 2)).accepts q = true ∧
    (coded [q.word, 0x00000B11, 0]).openChunk.prefixed = some .fencePod ∧ Instr.fencePod.accepts q = false ∧
    (coded [q.word, 0x00000B11, 0]).openChunk.decoded 1 = some .fencePod ∧ (coded [q.word, 0x20]).openChunk.decoded 1 = none ∧
    (coded [0x21030001, 2]).openChunk.decoded 0 = some (.add (.s 3) (.s 4) (.g 2)) ∧ (coded [0x20]).openChunk.decoded 0 = none := by decide +kernel

theorem witness_SpecialRegisterReads :
    let s := unit1 []
    let d := small 1 { running {} with chunk := some { start := {}, det := true } }
    s.me.pending = none ∧ d.modeOf d.cur = true ∧ s.modeOf s.cur = false ∧
    (5 : BitVec 10).toNat ∉ [0x000, 0x001, 0x002, 0x003, 0x004, 0x010, 0x011, 0x012] ++ (List.range 32).map (· + 0x20) ++
        [0x040, 0x041, 0x042, 0x043, 0x050, 0x051, 0x060, 0x061, 0x062, 0x063, 0x064, 0x070, 0x071, 0x072, 0x078, 0x079, 0x080] := by decide +kernel

theorem witness_SpecialRegisterWrites :
    let s := unit1 [0x15, 0x1F, 7, 0x3F00]
    let v := small 0 (running (regs [0x08, 0x800]))
    (Fmt.ofCode ((s.val (.s 1)).toNat % 32)).isSome = false ∧ Fmt.ofCode ((v.val (.s 1)).toNat % 32) = some .fp32 ∧
    Rm.ofCode ((s.val (.s 1)).toNat % 8) = some .sr ∧ (s.val (.s 2)).toNat % 8 = 7 ∧ s.cur % 16 ≠ 0 ∧ v.cur % 16 = 0 ∧
    v.svctgtOk (v.val (.s 1)) = false ∧ v.svctgtOk (v.val (.s 2)) = false ∧ v.svctgtOk (v.val (.s 0)) = true ∧ (5 : Nat) ∉ srNumbers ∧
    0x080 ∈ srNumbers := by decide +kernel

theorem witness_ShapeRegisterWrites :
    let s := unit1 [0x81002010, 0x81000010, 0x01002010]
    let w (r : SReg) : BitVec 32 := (s.val r).truncate 32
    s.cur % 16 ≠ 15 ∧ ((w (.s 1)).getLsbD 31 = true ∧ shapeOk (w (.s 1)) = true) ∧ ((w (.s 2)).getLsbD 31 = true ∧ shapeOk (w (.s 2)) = false) ∧
    (w (.s 3)).getLsbD 31 = false ∧ (small 15 (running {})).cur % 16 = 15 := by decide +kernel

/-- The supervisor of core 0, which holds unit 1 in the status `st`. -/
def serving (st : Status) (l : List Word) : State :=
  let s := small 0 (running (regs l))
  { s with ctxs := s.ctxs ++ [(1, { status := st, holder := some 0, trap := some ⟨9, 0, 0, none, none, [], false⟩ })] }

/-- The supervisor of core 0 with those deferred effects in its chunk, which holds a trapped unit 1. -/
def servingFx (l : List Word) (fx : List Fx) : State :=
  let s := serving .trapped l
  { s with ctxs := aput s.ctxs 0 { s.ctx 0 with chunk := some { start := (s.ctx 0).p, fx := fx } } }

theorem witness_ServiceReadsHeldContext :
    let held (s : State) (a : SReg) (c : Nat) : Prop :=
      ((s.val a).toNat = c ∧ c < 16384 ∧ s.podOf c = s.podOf s.cur) ∧ (s.ctx c).holder = some s.cur
    let s := serving .trapped [1, 2]
    let u := serving .runnable [1]
    let w := servingFx [1] [.svcReg 1 3 9]
    let z := servingFx [1] [.svcReg 1 3 9, .svcSr 1 0x043 8]
    s.cur % 16 = 0 ∧ held s (.s 1) 1 ∧ s.laterFx = [] ∧ (s.ctx 1).status = .trapped ∧ (s.ctx 1).pending = none ∧ s.me.pending = none ∧
    s.modeOf 1 = false ∧ held u (.s 1) 1 ∧ u.laterFx = [] ∧ (u.ctx 1).status ≠ .trapped ∧
    (held w (.s 1) 1 ∧ w.laterFx = [] ++ [.svcReg 1 (3 : Fin 32) 9]) ∧ (held z (.s 1) 1 ∧ z.laterFx = [.svcReg 1 3 9] ++ [.svcSr 1 0x043 8]) ∧
    (63 : BitVec 10).toNat < 64 ∧ 64 ≤ (64 : BitVec 10).toNat ∧ (5 : BitVec 10).toNat ∉ srNumbers ∧ (0x041 : BitVec 10).toNat ∈ srNumbers ∧
    (unit1 []).cur % 16 ≠ 0 ∧ (7 : BitVec 10).toNat < 8 ∧ 8 ≤ (8 : BitVec 10).toNat ∧ (s.ctx (s.val (.s 2)).toNat).holder ≠ some s.cur := by
  decide +kernel

theorem witness_ServiceWritesAreDeferred :
    let s := serving .trapped [1, 2, 0x81000010, 0x81002010, 0x08, 0x1F]
    let w (r : SReg) : BitVec 32 := (s.val r).truncate 32
    s.cur % 16 = 0 ∧ ((s.val (.s 1)).toNat = 1 ∧ 1 < 16384 ∧ s.podOf 1 = s.podOf s.cur) ∧ (s.ctx 1).holder = some s.cur ∧ s.laterFx = [] ∧
    (unit1 []).cur % 16 ≠ 0 ∧ (s.ctx (s.val (.s 2)).toNat).holder ≠ some s.cur ∧ (5 : BitVec 10).toNat ∉ srNumbers ∧ 32 ≤ (32 : BitVec 10).toNat ∧
    ((w (.s 1)).getLsbD 31 = false ∧ (w (.s 4)).getLsbD 31 = true ∧ shapeOk (w (.s 4)) = true) ∧
    ((w (.s 3)).getLsbD 31 = true ∧ shapeOk (w (.s 3)) = false) ∧ Fmt.ofCode ((s.val (.s 5)).toNat % 32) = some .fp32 ∧
    Fmt.ofCode ((s.val (.s 6)).toNat % 32) = none ∧ (s.val (.s 6)).toNat % 8 = 7 ∧ (s.val (.s 5)).toNat % 8 ≠ 7 ∧
    Rm.ofCode ((s.val (.s 5)).toNat % 8) = some .rne ∧ (s.ctx 1).status = .trapped := by decide +kernel

theorem witness_RepliesReleaseTheTrappedContext :
    let s := { serving .trapped [] with ctxs := [(1, { p := { pc := 0x2000 }, status := .trapped, trap := some ⟨9, 0, 0, none, none, [], false⟩ })],
                                         mem := Memory.writeBytes tables 0x2000 (leBytes 4 0x21030001) }
    let u := { serving .trapped [] with ctxs := [(1, { p := { pc := 2 }, status := .trapped, trap := some ⟨1, 0, 0, none, none, [], true⟩ })] }
    ((s.ctx 1).status = .trapped ∧ (s.ctx 1).trap = some ⟨9, 0, 0, none, none, [], false⟩ ∧ (s.cores.find? (fun k => k.2.holds 1)) = none ∧
      s.wordAt 1 ((s.ctx 1).p.pc.zeroExtend 64) = some 0x21030001 ∧ isPfxWord 0x21030001 = false) ∧
    ((u.ctx 1).status = .trapped ∧ (u.ctx 1).trap = some ⟨1, 0, 0, none, none, [], true⟩ ∧ (u.cores.find? (fun k => k.2.holds 1)) = none) ∧
    (4 : Word).toNat % 4 = 0 ∧ (4 : Word).toNat < 2 ^ 48 ∧ (6 : Word).toNat % 4 ≠ 0 ∧
    (let v := small 0 { status := .trapped, trap := some ⟨1, 0, 0, none, none, [], false⟩ }
     (v.ctx 0).status = .trapped ∧ (v.ctx 0).trap = some ⟨1, 0, 0, none, none, [], false⟩ ∧ 0 % 16 = 0) := by decide +kernel

theorem witness_TrapMessageReachesServiceTarget :
    let s := unit1 []
    let m : Trap := ⟨9, 0, 0, none, none, [], false⟩
    s.podOf 1 = some 32 ∧ m.row = none ∧ (s.pod 32).svctgt = 0 ∧ (0 : Nat) ≠ 1 ∧ (s.core 0).heap = [] ∧ (s.core 0).port = [] ∧
    (s.core 0).draining = 0 ∧ (s.core 0).entries < 64 ∧ (s.die 0).relock = none ∧ (s.pod 32).vf ≠ 0 ∧ (small 0 (running {})).podOf 0 = some 32 ∧ m.code < 256 := by decide +kernel

/-- A trap message of unit 1 for the supervisor of core 0. -/
def someTrapMsg : InMsg := { kind := .trap, consumer := 0, words := [0x109, 0, 0, 0, 0, 0, 0, 0] }

theorem quiescent_of {x : Ctx} (h : x.chunk = none ∧ x.pending = none ∧ x.status ≠ .blocked ∧ x.status ≠ .out .token ∧
    ¬(x.sending = .wait ∧ x.status = .runnable)) : Quiescent x := h

theorem witness_SvcRecvTakesTheOldestTrap :
    let s := { serving .trapped [] with cores := [(0, { inbox := [someTrapMsg] })] }
    (Turn s ∧ Settled s) ∧ s.cur % 16 = 0 ∧ (s.core (s.cur / 16)).inbox.find? (fun x => x.kind = .trap && x.consumer = s.cur) = some someTrapMsg ∧
    (someTrapMsg.words.getD 0 0).toNat / 256 % 2 ^ 14 = 1 ∧ Quiescent (s.ctx 1) ∧ (unit1 []).cur % 16 ≠ 0 := by
  refine ⟨turn_settled ?_, ?_, ?_, ?_, quiescent_of ?_, ?_⟩ <;> decide +kernel

/-! ## 06 and 07 -/

/-- A unit with those tiles and masks, those registers, and that prefix before it. -/
def tiled (ts : List Tile) (ms : List Mask := []) (l : List Word := []) (q : Option Pfx := none) : State :=
  unit1 l { tiles := Vector.ofFn (fun i => ts.getD i.val {}), masks := Vector.ofFn (fun i => ms[i.val]?),
            tstat := match q with | some q => { pp := true, pfx := BitVec.ofNat 32 q.word } | none => {} }

/-- A tile of zeros. -/
def zeroTile (f : Fmt) (r c : Nat) (scaled : Bool := false) : Tile :=
  { shape := mkShape f r c scaled 0, elems := List.replicate (r * c) 0, side := if scaled then List.replicate (r * c / 32) 0 else [] }

/-- The prefix that names `k0`. -/
def underK0 : Pfx := { rsv := 0, sat := false, xv := false, x := 0, mz := false, mask := 8, rm := 7, fmt := 0 }

theorem ready_of {s : State} {l : List TReg} (h : l.all (fun r => (s.tile r).valid && !(s.tile r).unfilled) = true) : TilesReady s l := by
  intro r hr
  have := List.all_eq_true.mp h r hr
  simpa using this

theorem mask_of {s : State} {k : KReg} {m : Mask} {r c : Nat} (h : s.pfxMask? = some k) (hm : s.mask k = some m) (hr : m.rows = r)
    (hc : m.cols = c) : MaskReady s r c := by
  intro j hj
  rw [h] at hj
  cases hj
  exact ⟨m, hm, hr, hc⟩

theorem witness_TileConfiguration :
    (shapeOk (0x80000000 ||| BitVec.ofNat 32 (8 * 2 ^ 21) ||| BitVec.ofNat 32 (64 * 2 ^ 9) ||| 4) = true ∧
      shapeOk (0x80000000 ||| BitVec.ofNat 32 (8 * 2 ^ 21) ||| BitVec.ofNat 32 (64 * 2 ^ 9) ||| 5) = false) ∧
    (let s := tiled [zeroTile .fp32 2 4]; TilesReady s [.t 0] ∧ MaskReady s 2 4 ∧ (s.tile (.t 0)).scaled = false) ∧
    (let s := tiled [zeroTile .e4m3 2 32 true]; TilesReady s [.t 0] ∧ MaskReady s 2 32 ∧ s.pfxMask? = none) ∧
    (let s := tiled [zeroTile .fp32 2 4] [⟨2, 4, 5⟩] [] (some underK0); TilesReady s [.t 0] ∧ MaskReady s 2 4) := by
  refine ⟨by decide +kernel, ⟨ready_of ?_, noPrefix ?_ 2 4, ?_⟩, ⟨ready_of ?_, noPrefix ?_ 2 32, ?_⟩, ready_of ?_, mask_of (k := 0) (m := ⟨2, 4, 5⟩) ?_ ?_ rfl rfl⟩ <;>
    decide +kernel

theorem witness_TileMoves :
    let ready (s : State) : Prop := TilesReady s [.t 0, .t 1] ∧ (s.tile (.t 0)).fmt = (s.tile (.t 1)).fmt ∧
      (s.tile (.t 0)).scaled = (s.tile (.t 1)).scaled ∧ s.confMask.toOption = some ()
    let same := tiled [zeroTile .bf16 2 4, zeroTile .bf16 2 4] [⟨2, 4, 5⟩] [] (some underK0)
    let row := tiled [zeroTile .bf16 1 4, zeroTile .bf16 3 4] [] [1]
    let put := tiled [zeroTile .bf16 3 4, zeroTile .bf16 1 4] [] [1]
    let col := tiled [zeroTile .bf16 1 3, zeroTile .bf16 3 4] [] [2]
    let cput := tiled [zeroTile .bf16 3 4, zeroTile .bf16 1 3] [] [2]
    let tr := tiled [zeroTile .bf16 4 3, zeroTile .bf16 3 4]
    let b := tiled [zeroTile .bf16 3 4, zeroTile .bf16 3 1]
    (ready same ∧ MaskReady same 2 4) ∧ (ready row ∧ (row.val (.s 1) + (1 : BitVec 9).zeroExtend 64).toNat < (row.tile (.t 1)).rows) ∧
    (ready put ∧ (put.val (.s 1) + (1 : BitVec 9).zeroExtend 64).toNat < (put.tile (.t 0)).rows) ∧
    (ready col ∧ (col.val (.s 1) + (1 : BitVec 9).zeroExtend 64).toNat < (col.tile (.t 1)).cols) ∧
    (ready cput ∧ (cput.val (.s 1) + (1 : BitVec 9).zeroExtend 64).toNat < (cput.tile (.t 0)).cols) ∧ ready tr ∧ (ready b ∧ MaskReady b 3 4) := by
  refine ⟨⟨⟨ready_of ?_, ?_⟩, mask_of (k := 0) (m := ⟨2, 4, 5⟩) ?_ ?_ rfl rfl⟩, ⟨⟨ready_of ?_, ?_⟩, ?_⟩, ⟨⟨ready_of ?_, ?_⟩, ?_⟩, ⟨⟨ready_of ?_, ?_⟩, ?_⟩,
    ⟨⟨ready_of ?_, ?_⟩, ?_⟩, ⟨ready_of ?_, ?_⟩, ⟨ready_of ?_, ?_⟩, noPrefix ?_ 3 4⟩ <;> decide +kernel

theorem witness_ScalesAndSelection :
    (let s := tiled [zeroTile .u8 2 2, zeroTile .e4m3 2 64 true]; TilesReady s [.t 0, .t 1] ∧ (s.tile (.t 1)).scaled = true ∧ (s.tile (.t 0)).fmt = .u8 ∧
      (s.tile (.t 0)).cols = (s.tile (.t 1)).cols / 32) ∧
    (let s := tiled [zeroTile .e4m3 2 64 true, zeroTile .u8 2 2]; TilesReady s [.t 0, .t 1] ∧ (s.tile (.t 0)).scaled = true ∧ (s.tile (.t 1)).fmt = .u8) ∧
    (let s := tiled [zeroTile .bf16 2 4, zeroTile .bf16 2 4, zeroTile .bf16 1 4] [⟨2, 4, 5⟩]
     TilesReady s (.t 0 :: tilesOf [.tile (.t 1), .tile (.t 2)]) ∧ s.mask 0 = some ⟨2, 4, 5⟩ ∧ (s.tile (.t 0)).scaled = false ∧
      (s.src (.tile (.t 1))).fmt = .bf16 ∧ (s.src (.tile (.t 1))).scaled = false ∧ (s.src (.tile (.t 1))).fits 2 4 = true ∧
      (s.src (.tile (.t 2))).fmt = .bf16 ∧ (s.src (.tile (.t 2))).fits 2 4 = true ∧ s.mask 1 = none) := by
  refine ⟨⟨ready_of ?_, ?_⟩, ⟨ready_of ?_, ?_⟩, ⟨ready_of ?_, ?_⟩⟩ <;> decide +kernel

theorem witness_MaskInstructions :
    let s := tiled [] [⟨2, 4, 5⟩, ⟨2, 4, 6⟩, ⟨4, 2, 6⟩] [0x00400010, 0x00200010, 0x100400010, 0x00410010, 0x10, 0x01010010]
    let rows (r : SReg) : Nat := (s.val r).toNat / 2 ^ 16 % 2 ^ 16
    ((s.val (.s 1)).toNat < 2 ^ 32 ∧ (s.val (.s 2)).toNat < 2 ^ 32 ∧ rows (.s 1) = 64 ∧ rows (.s 2) = 32) ∧
    2 ^ 32 ≤ (s.val (.s 3)).toNat ∧ 64 < rows (.s 4) ∧ rows (.s 5) = 0 ∧ 256 < rows (.s 6) ∧ 2048 < rows (.s 1) * rows (.s 1) ∧
    s.mask 0 = some ⟨2, 4, 5⟩ ∧ s.mask 1 = some ⟨2, 4, 6⟩ ∧ s.mask 2 = some ⟨4, 2, 6⟩ ∧ s.mask 3 = none := by decide +kernel

theorem witness_TileArithmetic :
    let usable (s : State) (l : List TS) : Prop := TilesReady s (.t 0 :: tilesOf l) ∧ MaskReady s (s.tile (.t 0)).rows (s.tile (.t 0)).cols ∧
      (s.tile (.t 0)).scaled = false ∧ (s.tile (.t 0)).fmt ≠ .cb4 ∧ ∀ y ∈ l, (s.src y).fits (s.tile (.t 0)).rows (s.tile (.t 0)).cols = true
    let f := tiled [zeroTile .fp32 2 4, zeroTile .bf16 2 4] [⟨2, 4, 5⟩] [7] (some underK0)
    let n := tiled [zeroTile .i8 2 4, zeroTile .i8 2 4]
    (usable f [.tile (.t 1), .scalar (.s 1)] ∧ (f.tile (.t 0)).fmt.isInt = false) ∧ usable f [.tile (.t 1), .tile (.t 0), .scalar (.s 1)] ∧
    (usable n [.tile (.t 1), .tile (.t 0)] ∧ (n.tile (.t 0)).fmt.isInt = true ∧ (n.src (.tile (.t 1))).isInt = true ∧ (n.src (.tile (.t 0))).isInt = true) ∧
    usable n [.tile (.t 1), .tile (.t 0), .tile (.t 1)] := by
  refine ⟨⟨⟨ready_of ?_, mask_of (k := 0) (m := ⟨2, 4, 5⟩) ?_ ?_ ?_ ?_, ?_⟩, ?_⟩, ⟨ready_of ?_, mask_of (k := 0) (m := ⟨2, 4, 5⟩) ?_ ?_ ?_ ?_, ?_⟩,
    ⟨⟨ready_of ?_, noPrefix ?_ _ _, ?_⟩, ?_⟩, ⟨ready_of ?_, noPrefix ?_ _ _, ?_⟩⟩ <;> decide +kernel

theorem witness_TileUnaryFunctions :
    (let s := tiled [zeroTile .fp32 2 4, zeroTile .e4m3 2 4]; TilesReady s (.t 0 :: tilesOf [.tile (.t 1)]) ∧ MaskReady s 2 4 ∧
      (s.tile (.t 0)).scaled = false ∧ (s.tile (.t 0)).fmt ≠ .cb4 ∧ (s.tile (.t 0)).fmt.isInt = false ∧ (s.src (.tile (.t 1))).fits 2 4 = true) ∧
    (let s := tiled [zeroTile .i16 2 4, zeroTile .i8 2 4, zeroTile .fp32 2 4]; TilesReady s (.t 0 :: tilesOf [.tile (.t 1)]) ∧ MaskReady s 2 4 ∧
      (s.tile (.t 0)).scaled = false ∧ (s.tile (.t 0)).fmt ≠ .cb4 ∧ (s.tile (.t 0)).fmt.isInt = true ∧ (s.src (.tile (.t 1))).isInt = true ∧
      (s.src (.tile (.t 1))).fits 2 4 = true ∧ (s.tile (.t 0)).valid = true ∧ (∀ r ∈ tilesOf [.tile (.t 2)], (s.tile r).valid = true) ∧
      s.confMask.toOption = some () ∧ (s.src (.tile (.t 2))).isInt = false ∧ (s.tile (.t 3)).valid = false) := by
  refine ⟨⟨ready_of ?_, noPrefix ?_ _ _, ?_⟩, ⟨ready_of ?_, noPrefix ?_ _ _, ?_⟩⟩ <;> decide +kernel

theorem witness_TileComparisons :
    (let s := tiled [zeroTile .fp32 2 4, zeroTile .fp32 1 4]; TilesReady s (tilesOf [.tile (.t 0), .tile (.t 1)]) ∧ MaskReady s 2 4 ∧
      (s.src (.tile (.t 1))).fits 2 4 = true ∧ (s.pfxMask?.isSome && !s.pfxMz) = false) ∧
    (let s := tiled [zeroTile .fp32 2 4, zeroTile .fp32 1 4] [⟨2, 4, 5⟩] [] (some underK0)
     TilesReady s (tilesOf [.tile (.t 0), .tile (.t 1)]) ∧ MaskReady s 2 4 ∧ (s.pfxMask?.isSome && !s.pfxMz) = true ∧ s.mask 0 = some ⟨2, 4, 5⟩) := by
  refine ⟨⟨ready_of ?_, noPrefix ?_ _ _, ?_⟩, ⟨ready_of ?_, mask_of (k := 0) (m := ⟨2, 4, 5⟩) ?_ ?_ rfl rfl, ?_⟩⟩ <;> decide +kernel

theorem witness_TileConversion :
    (let s := tiled [zeroTile .fp32 2 4, zeroTile .i8 2 4]; TilesReady s (.t 0 :: tilesOf [.tile (.t 1)]) ∧ MaskReady s 2 4 ∧ s.pfxFmt? = none ∧
      (s.tile (.t 0)).fmt ≠ .cb4 ∧ (s.src (.tile (.t 1))).fits 2 4 = true ∧ (s.tile (.t 0)).scaled = false ∧ (s.tile (.t 2)).valid = false) ∧
    (let s := tiled [zeroTile .e2m1 2 32 true, zeroTile .fp32 2 32]; TilesReady s (.t 0 :: tilesOf [.tile (.t 1)]) ∧ MaskReady s 2 32 ∧
      s.pfxFmt? = none ∧ (s.tile (.t 0)).fmt ≠ .cb4 ∧ (s.src (.tile (.t 1))).fits 2 32 = true ∧ (s.tile (.t 0)).scaled = true) ∧
    (let s := tiled [{}, zeroTile .fp32 2 4] [] [] (some { underK0 with mask := 0, fmt := 0x09 }); TilesReady s (tilesOf [.tile (.t 1)]) ∧ MaskReady s 2 4 ∧
      s.pfxFmt? = some .bf16 ∧ s.cur % 16 ≠ 15 ∧ shapeOk (mkShape .bf16 2 4 false 0) = true) ∧
    (let s := tiled [{}, zeroTile .fp32 2 32] [⟨2, 32, 5⟩] [] (some { underK0 with fmt := 0x0B }); TilesReady s (tilesOf [.tile (.t 1)]) ∧
      MaskReady s 2 32 ∧ (∃ f, s.pfxFmt? = some f ∧ f ≠ .cb4 ∧ shapeOk (mkShape f 2 32 true 0) = true) ∧ s.enabled 0 0 = true ∧ s.enabled 0 1 = false ∧
      (List.range 32).all (fun j => !s.enabled 1 j) = true) ∧
    (let s := tiled [zeroTile .fp32 1 1, zeroTile .fp32 1 2]; TilesReady s (tilesOf [.tile (.t 0)]) ∧ MaskReady s 1 1 ∧ s.pfxFmt? = none ∧
      (s.src (.tile (.t 0))).rows = 1 ∧ (s.src (.tile (.t 0))).cols = 1 ∧ (s.src (.tile (.t 1))).cols ≠ 1 ∧
      (∀ r ∈ tilesOf [.tile (.t 1)], (s.tile r).valid = true) ∧ s.confMask.toOption = some ()) := by
  refine ⟨⟨ready_of ?_, noPrefix ?_ _ _, ?_⟩, ⟨ready_of ?_, noPrefix ?_ _ _, ?_⟩, ⟨ready_of ?_, noPrefix ?_ _ _, ?_⟩,
    ⟨ready_of ?_, mask_of (k := 0) (m := ⟨2, 32, 5⟩) ?_ ?_ ?_ ?_, ⟨.e4m3, ?_⟩, ?_⟩, ⟨ready_of ?_, noPrefix ?_ _ _, ?_⟩⟩ <;> decide +kernel

theorem witness_TileReductions :
    (let s := tiled [zeroTile .fp32 2 1, zeroTile .bf16 2 4]; TilesReady s [.t 0, .t 1] ∧ MaskReady s 2 4 ∧ (s.tile (.t 0)).scaled = false ∧
      (s.tile (.t 0)).rows = (redShape .row (s.srcTile (.t 1)).rows (s.srcTile (.t 1)).cols).1 ∧
      (s.tile (.t 0)).cols = (redShape .row (s.srcTile (.t 1)).rows (s.srcTile (.t 1)).cols).2) ∧
    (let s := tiled [zeroTile .i32 1 4, zeroTile .i8 2 4]; TilesReady s [.t 0, .t 1] ∧ MaskReady s 2 4 ∧ (s.srcTile (.t 1)).isInt = true ∧ s.pfxMask? = none ∧
      (s.tile (.t 0)).rows = (redShape .col (s.srcTile (.t 1)).rows (s.srcTile (.t 1)).cols).1 ∧
      (s.tile (.t 0)).cols = (redShape .col (s.srcTile (.t 1)).rows (s.srcTile (.t 1)).cols).2) := by
  refine ⟨⟨ready_of ?_, noPrefix ?_ _ _, ?_⟩, ⟨ready_of ?_, noPrefix ?_ _ _, ?_⟩⟩ <;> decide +kernel

theorem witness_UnconfiguredAndUnfilledTiles :
    let s := tiled [{}, { zeroTile .fp32 2 4 with unfilled := true }]
    (s.tile (.t 0)).valid = false ∧ (s.tile (.t 1)).valid = true ∧ (s.tile (.t 1)).unfilled = true := by decide +kernel

/-- A die with `n` ring tokens, and cluster 0 with a token or none. -/
def withTokens (s : State) (n : Nat) (held : Bool) : State :=
  { s with dies := s.dies.set 0 { ringtok := n }, clusters := [(0, { token := held })] }

theorem witness_MatrixMultiplyAccumulates :
    let s := tiled [zeroTile .fp32 16 16, zeroTile .bf16 16 32, zeroTile .bf16 16 32]
    let u := tiled [zeroTile .fp32 16 16, zeroTile .e2m1 16 64 true] [] [0, 0]
    TilesReady s [.t 0, .t 1, .t 2] ∧ MaskReady s 16 16 ∧ (s.tile (.t 0)).fmt = accFmt .bf16 ∧ s.mmaFits (.tile (.t 1)) .bf16 false 32 = true ∧
    s.mmaFits (.tile (.t 2)) .bf16 false 32 = true ∧ kRule .bf16 .bf16 32 = true ∧
    TilesReady u [.t 0, .t 1] ∧ MaskReady u 16 16 ∧ u.mmaFits (.tile (.t 1)) .e2m1 true 64 = true ∧ u.mmaFits (.sp (.s 1) ⟨0, 0⟩) .e2m1 true 64 = true ∧
    kRule .e2m1 .e2m1 64 = true ∧
    (∀ x ∈ [withTokens s 32 true, withTokens s 31 true, withTokens s 31 false], (x.cluster 0).tokenq = [] ∧ (x.cluster 0).burst = none ∧ x.me.tokenWait = false) := by
  refine ⟨ready_of ?_, noPrefix ?_ _ _, ?_, ?_, ?_, ?_, ready_of ?_, noPrefix ?_ _ _, ?_⟩ <;> decide +kernel

/-! ## 06 and 10: memory -/

theorem ok_of {ε α : Type} {x : Except ε α} {a : α} (h : x.toOption = some a) : x = .ok a := by
  cases x with
  | error e => cases h
  | ok b => cases h; rfl

theorem error_of {α : Type} {x : Except XErr α} {e : XErr} (h : (match x with | .error y => decide (y = e) | .ok _ => false) = true) : x = .error e := by
  cases x with
  | error y => simpa using h
  | ok b => cases h

/-- A range that lies in one page of the small state, whose addresses translate to themselves. -/
theorem maps_of {s : State} {acc : Access} {va : Word} {n : Nat} {ls : List Loc} (h : pieces (n / 65536 + 2) va n = [(va, n)])
    (t : (translate s.seen s.myVf va acc).toOption = some (.mem va.toNat, ls)) : Maps s acc va n BitVec.toNat := by
  intro p hp
  rw [h] at hp
  cases List.mem_singleton.mp hp
  exact ⟨.mem va.toNat, ls, ok_of t, (fun v h => by cases h), rfl⟩

theorem sound_of {s : State} {va : Word} {n : Nat} (h : pieces (n / 65536 + 2) va n = [(va, n)]) (t : s.poisonIn va.toNat n = none) :
    Sound s BitVec.toNat va n := by
  intro p hp
  rw [h] at hp
  cases List.mem_singleton.mp hp
  exact t

/-- A tile of one row at 0x8000, masked or not, and at a misaligned address; restarted at its last row. -/
theorem witness_TileLoads :
    let s := tiled [zeroTile .fp32 1 4] [] [0x8000, 64, 0x8002]
    let m := tiled [zeroTile .fp32 2 4] [⟨2, 4, 5⟩] [0x8000, 64] (some underK0)
    let r : State := { unit1 [0x8000, 64] { tiles := Vector.replicate 8 (zeroTile .fp32 2 4), tstat := { rv := true, rrow := 1 } } with cur := 1 }
    (TilesReady s [.t 0] ∧ MaskReady s 1 4 ∧ s.me.p.tstat.rv = false ∧ (s.val (.s 1) + (0 : BitVec 30).signExtend 64).toNat % 4 = 0 ∧
      (s.val (.s 2)).toNat % 4 = 0 ∧ s.rowSegs (s.tile (.t 0)) (rowAddr 0x8000 64) (sideAddr 0 (s.tile (.t 0))) 0 = [(0x8000, 16)] ∧
      Maps s .read 0x8000 16 BitVec.toNat ∧ Sound s BitVec.toNat 0x8000 16 ∧ (s.val (.s 3)).toNat % 4 ≠ 0) ∧
    (TilesReady m [.t 0] ∧ MaskReady m 2 4 ∧ m.pfxMask?.isSome = true ∧ (m.tile (.t 0)).scaled = false ∧ 8 ≤ (m.tile (.t 0)).fmt.width) ∧
    (TilesReady r [.t 0] ∧ MaskReady r 2 4 ∧ r.me.p.tstat.rv = true ∧ r.me.p.tstat.rrow.toNat < (r.tile (.t 0)).rows) ∧
    (let u := unit1 [0x8000, 0x8010]
     (u.val (.s 1)).toNat % 32 = 0 ∧ Maps u .read 0x8000 32 BitVec.toNat ∧ Sound u BitVec.toNat 0x8000 32 ∧ (u.val (.s 2)).toNat % 32 ≠ 0) := by
  refine ⟨⟨ready_of ?_, noPrefix ?_ _ _, ?_, ?_, ?_, ?_, maps_of (ls := [.line 64, .line 0]) ?_ ?_, sound_of ?_ ?_, ?_⟩,
    ⟨ready_of ?_, mask_of (k := 0) (m := ⟨2, 4, 5⟩) ?_ ?_ rfl rfl, ?_⟩, ⟨ready_of ?_, noPrefix ?_ _ _, ?_⟩,
    ⟨?_, maps_of (ls := [.line 64, .line 0]) ?_ ?_, sound_of ?_ ?_, ?_⟩⟩ <;> decide +kernel

theorem witness_TileStores :
    let s := tiled [zeroTile .fp32 1 4] [] [0x8000, 64]
    TilesReady s [.t 0] ∧ MaskReady s 1 4 ∧ (s.me.p.tstat.rv = false ∧ 0 < (s.tile (.t 0)).rows) ∧ Room s 16 ∧ Room s 512 ∧
    s.rowSegs (s.tile (.t 0)) (rowAddr 0x8000 64) (sideAddr 0 (s.tile (.t 0))) 0 = [(0x8000, 16)] ∧ Maps s .write 0x8000 16 BitVec.toNat := by
  refine ⟨ready_of ?_, noPrefix ?_ _ _, ?_, room_of ?_, room_of ?_, ?_, maps_of (ls := [.line 64, .line 0]) ?_ ?_⟩ <;> decide +kernel

/-- Aligned and misaligned addresses, one above the page, one in a page without the right, one in a poisoned line. -/
theorem witness_LoadsReadMemory :
    let s := { unit1 [0x8000, 0x8007, 0x1000000000000, 0x7FFF] with poison := [0x200] }
    let ro := { unit1 [0x8000] with mem := [(0, 0x03), (1, 0x10), (0x1000, 0x11)] }
    (s.val (.s 2)).toNat % 8 ≠ 0 ∧ translate s.seen s.myVf (s.val (.s 3)) .read = .error .xlate ∧ (s.val (.s 3)).toNat % 8 = 0 ∧
    (translate ro.seen ro.myVf (ro.val (.s 1)) .read = .error .perm ∧ (ro.val (.s 1)).toNat % 8 = 0) ∧
    (translate s.seen s.myVf (s.val (.s 1)) .read = .ok (.mem 0x8000, [.line 64, .line 0]) ∧ s.poisonIn 0x8000 8 = some 0x200) ∧
    (translate s.seen s.myVf (s.val (.s 4)) .read = .ok (.mem 0x7FFF, [.line 64, .line 0]) ∧ s.poisonIn 0x7FFF 1 = none) := by
  refine ⟨?_, error_of ?_, ?_, ⟨error_of ?_, ?_⟩, ⟨ok_of ?_, ?_⟩, ⟨ok_of ?_, ?_⟩⟩ <;> decide +kernel

/-- A chunk that has begun has room as its mode and its handler say; in free mode no L1 set, whichever lines it takes, is fuller than the
six lines that one core may hold in it (09 R179). -/
theorem witness_ScratchpadAndBitAccesses : Room (unit1 []) 8 ∧ Room (unit1 []) 9 ∧
    (let s := small 1 { running {} with chunk := some { start := {}, count := 5 } }; Room s 6 ∧ ¬ Room s 513) ∧
    (let s := small 1 { running {} with chunk := some { start := {}, count := 5, det := true } }; Room s 64 ∧ ¬ Room s 65) ∧
    (let s := small 15 { running {} with handler := true }; Room s 64 ∧ ¬ Room s 65) := by
  refine ⟨room_of ?_, room_of ?_, ⟨.inr ⟨?_, fun j => Nat.le_refl 6⟩, fun h => ?_⟩, ?_⟩
  · decide +kernel
  · decide +kernel
  · decide +kernel
  · rcases h with h | h
    · exact absurd h (by decide +kernel)
    · exact absurd h.1 (by decide +kernel)
  · refine ⟨⟨.inr ?_, fun h => ?_⟩, ?_, fun h => ?_⟩
    · show _ ≤ 64
      decide +kernel
    · rcases h with h | h
      · exact absurd h (by decide +kernel)
      · exact absurd (show _ + 65 ≤ 64 from h) (by omega)
    · show _ ≤ 64
      decide +kernel
    · exact absurd (show _ + 65 ≤ 64 from h) (by omega)

theorem witness_StoresAndAtomics :
    let s := unit1 [0x8000, 0x8004, 0x8001]
    let ro := { unit1 [0x8000] with mem := [(0, 0x03), (1, 0x10), (0x1000, 0x15)] }
    (s.val (.s 2)).toNat % 8 ≠ 0 ∧ (s.val (.s 3)).toNat % 2 ≠ 0 ∧ (translate ro.seen ro.myVf (ro.val (.s 1)) .write = .error .perm ∧ (ro.val (.s 1)).toNat % 8 = 0) ∧
    (translate s.seen s.myVf (s.val (.s 1)) .write = .ok (.mem 0x8000, [.line 64, .line 0]) ∧ (s.val (.s 1)).toNat % 8 = 0 ∧
      translate s.seen s.myVf (s.val (.s 1)) .read = .ok (.mem 0x8000, [.line 64, .line 0]) ∧ s.poisonIn 0x8000 8 = none ∧ Room s 8) := by
  refine ⟨?_, ?_, ⟨error_of ?_, ?_⟩, ok_of ?_, ?_, ok_of ?_, ?_, room_of ?_⟩ <;> decide +kernel

theorem witness_ReductionInstructions :
    let s := { unit1 [0x8000, 0x8002] with pods := [(32, { somePod with ranges := [⟨0, 65536, 0, .fp32⟩] })] }
    (s.val (.s 2)).toNat % 4 ≠ 0 ∧ (translate s.seen s.myVf (s.val (.s 1)) .read = .ok (.mem 0x8000, [.line 64, .line 0]) ∧
      translate s.seen s.myVf (s.val (.s 1)) .write = .ok (.mem 0x8000, [.line 64, .line 0]) ∧ s.foldsInto 0x8000 0x8000 .fp32 0 = true) ∧
    s.foldsInto 0x8000 0x8000 .fp32 1 = false ∧ s.foldsInto 0x10000 0x10000 .fp32 0 = false ∧ s.poisonIn 0x8000 4 = none ∧ Room s 4 := by
  refine ⟨?_, ⟨ok_of ?_, ok_of ?_, ?_⟩, ?_, ?_, ?_, room_of ?_⟩ <;> decide +kernel

theorem witness_RemoteOperations :
    let s := unit1 [0x8040000000000000, 0, 0x8000080000000000, 0x8040000000000004, 0x8000100000000000]
    let r := { s with ctxs := [(1, { s.me with request := some ⟨3, 0, 0, false⟩ })] }
    let v := { s with ctxs := [(1, { s.me with answer := some (.value 9) })] }
    let w := { s with ctxs := [(1, { s.me with answer := some (.refused 2) })] }
    let g := s.val (.s 1)
    (2 ^ 63 ≤ g.toNat ∧ (globOf g).chip < 192 ∧ g.toNat % 8 = 0 ∧ s.globPerm s.myPod (globOf g) = true ∧ (globOf g).off < 2 ^ 21) ∧
    ((s.val (.s 2)).toNat < 2 ^ 63 ∧ s.me.answer = none ∧ s.me.request = none) ∧ ((s.val (.s 4)).toNat % 8 ≠ 0 ∧ (globOf (s.val (.s 4))).chip < 192) ∧
    s.globPerm s.myPod (globOf 0x8008000000000000) = false ∧ v.me.answer = some (.value 9) ∧ w.me.answer = some (.refused 2) ∧
    s.replayAnswer s.cur = none ∧ (r.me.answer = none ∧ r.replayAnswer r.cur = none ∧ r.me.request = some ⟨3, 0, 0, false⟩) ∧ (globOf g).chip = s.chipNum := by decide +kernel

/-- The word at offset 8 of the small state's scratchpad, empty or full. -/
def feState (full : Bool) (c : Nat := 1) : State :=
  { small c (running (regs [8])) with clusters := [(0, { spm := [(8, 7)], full := if full then [1] else [] })] }

theorem witness_FullEmptyWords :
    (Turn (feState true) ∧ Settled (feState true)) ∧ (Turn (feState false) ∧ Settled (feState false)) ∧
    (feState true).fePlace false 8 = .ok (.here 0 8) ∧ (feState true).fePlace true 0x8040000000000008 = .ok (.here 0 8) ∧
    ((feState true).cluster 0).full.contains (8 / 8) = true ∧ ((feState false).cluster 0).full.contains (8 / 8) = false ∧
    (feState true).cur % 16 ≠ 15 ∧ (feState true 15).cur % 16 = 15 ∧ ((feState true 15).cluster 0).full.contains (8 / 8) = true := by
  refine ⟨turn_settled ?_, turn_settled ?_, rfl, rfl, ?_⟩ <;> decide +kernel

/-! ## 10 and 13: waits, fences, scheduling -/

theorem witness_WaitsBuffersAndTimelines :
    let s := { unit1 [0x8000, 4] with
      mem := tables ++ [(0x8000, 4)], cores := [(0, { inbox := [{ kind := .ordinary, consumer := 1, hdr := 5, words := List.replicate 8 1 }] })],
      clusters := [(0, { cbufs := [(3, ⟨0x100, 0x40, 2, 1, [], [0], []⟩), (4, ⟨0x200, 0x40, 2, 0, [], [], []⟩)],
                         engines := [(1, { count := 2 }), (2, { count := 4, err := true, errcode := 1, errseq := 2 })] })] }
    let e := unit1 []
    (Turn s ∧ Settled s) ∧ translate s.seen s.myVf 0x8000 .read = .ok (.mem 0x8000, [.line 64, .line 0]) ∧
    (s.poisonIn 0x8000 8 = none ∧ ccHolds .geu (BitVec.ofNat 64 (leNat (s.bytesAt 0x8000 8))) (s.val (.s 2)) = true ∧
      ccHolds .ltu (BitVec.ofNat 64 (leNat (s.bytesAt 0x8000 8))) (s.val (.s 2)) = false ∧ s.cur % 16 ≠ 15) ∧
    ((s.cluster 0).cbuf? 3 = some ⟨0x100, 0x40, 2, 1, [], [0], []⟩ ∧ (s.cluster 0).cbuf? 4 = some ⟨0x200, 0x40, 2, 0, [], [], []⟩ ∧
      (s.cluster 0).cbuf? 5 = none) ∧
    (((s.cluster 0).engine 1).err = false ∧ ((s.cluster 0).engine 1).count = 2 ∧ ((s.cluster 0).engine 2).err = true ∧ ((s.cluster 0).engine 2).errseq ≤ 2) ∧
    ((s.core 0).first .ordinary 1).isSome = true ∧ (e.core 0).first .ordinary 1 = none ∧ s.chunk.det = false := by
  refine ⟨turn_settled ?_, ok_of ?_, ?_⟩ <;> decide +kernel

theorem witness_FencesAndCommit :
    let s := unit1 []
    let r := unit1 [] { refusals := (Vector.replicate 5 {}).set 4 ⟨0x8000000000000000, 1, 1⟩ }
    let w := { s with ctxs := [(1, { s.me with acks := [3] })] }
    let v := { s with ctxs := [(1, { s.me with posted := [(3, 1)], p := { s.me.p with bankmask := 8 } })] }
    let busy := small 1 { running {} with chunk := some { start := {}, count := 5 } }
    (Turn s ∧ Settled s) ∧ (Turn r ∧ Settled r) ∧ (Turn w ∧ Settled w) ∧ (Turn v ∧ Settled v) ∧ busy.chunk.isEmpty = false ∧
    (s.satisfied s.cur (.fence 4) = true ∧ s.me.probeChips = [] ∧ s.me.p.refused 4 = none) ∧
    (r.satisfied r.cur (.fence 4) = true ∧ r.me.p.refused 4 = some (0x8000000000000000, 1) ∧ r.me.p.refused 3 = none) ∧
    w.satisfied w.cur (.fence 4) = false ∧ (v.me.request = none ∧ v.me.probeChips = [3]) := by
  refine ⟨turn_settled ?_, turn_settled ?_, turn_settled ?_, turn_settled ?_, ?_⟩ <;> decide +kernel

/-- A launch of two units on cluster 0. -/
def someLaunch : Launch :=
  { entry := 0x100000, efmt := .fp32, rmode := .rne, seed := 0, s := [], presets := [], cb := Vector.replicate 16 0, prio := 0, det := false, fuse := false,
    units := 3, clusters := [0], lcnt := 5, gcnt := 0, pcnt := 0, jcnt := 0, codelim := 0x110000, splog := 6, deps := [], eligible := true }

/-- A ready record of that launch, in an entry that is not reserved. -/
def someRecord : Stored := { cont := ⟨0, 0, 8, 0x2000, 0, 0, []⟩, core := 0, level := 0, since := 0, clock := 0, src := 0, reserved := false }

/-- A descriptor in memory at 0x8000: its entry is the code section at 0x100000, in FP32 under RNE, with one unit of 64 bytes on cluster 0. -/
def descState : State :=
  { unit1 [0x8000, 0x8001] with
    mem := tables ++ [(0x8002, 0x10), (0x8006, 0x08), (0x8008, 1), (0x800C, 6), (0x800D, 5), (0x8010, 1)],
    pods := [(32, { somePod with image := some ⟨[⟨1, 0x100000, 0x110000, 0⟩], [], [], []⟩ })] }

theorem witness_LaunchSuspendAndExit :
    let s := descState
    let bad := unit1 [0x8000]
    let bs (u : State) := ((keysOf BitVec.toNat 0x8000 128).map u.byte)
    let l := { unit1 [0x8000, 0, 1] { launchid := 0 } with pods := [(32, { somePod with launches := [(0, someLaunch)] })] }
    let sup := small 0 (running {})
    let cour := small 15 (running {})
    let full := { l with pods := [(32, { somePod with clusters := [0, 1], launches := [(0, { someLaunch with clusters := [0, 1] })] })],
                         clusters := [(1, { queue := List.replicate 2048 (.cont someRecord) })] }
    (Turn s ∧ Settled s) ∧ (Turn bad ∧ Settled bad) ∧ (Turn l ∧ Settled l) ∧ (Turn sup ∧ Settled sup) ∧ (Turn cour ∧ Settled cour) ∧
    (Turn full ∧ Settled full) ∧ Maps s .read 0x8000 128 BitVec.toNat ∧ Sound s BitVec.toNat 0x8000 128 ∧ blockWord (bs s) 0x78 = 0 ∧
    (match s.checkLaunch s.myPodId (bs s) (some (List.replicate 192 0)) with
      | .error _ => false | .ok x => !x.det && x.deps.isEmpty && decide (x.units = 1)) = true ∧
    (s.me.launching = none ∧ bad.me.launching = none) ∧
    (match bad.checkLaunch bad.myPodId (bs bad) (some (List.replicate 192 0)) with | .error n => decide (n = -2) | .ok _ => false) = true ∧
    (l.me.p.retdepth = 0 ∧ l.cur % 16 ≠ 0 ∧ l.cur % 16 ≠ 15 ∧ translate l.seen l.myVf 0x8000 .read = .ok (.mem 0x8000, [.line 64, .line 0])) ∧
    ((match full.hopTarget (.s 0) true, full.hopTarget (.s 0) false with | .ok x, .ok y => decide (x.1 = 0) && decide (y.1 = 0) | _, _ => false) = true ∧
      (match full.hopTarget (.s 3) true with | .ok x => decide (x.1 = 1) && !(full.cluster 1).storeFree | _ => false) = true) ∧
    (l.podOf l.cur = some 32 ∧ l.launchOf l.cur = some someLaunch ∧ (someLaunch.exit l.me.p.unitid.toNat).over = false) ∧
    ((s.val (.s 2)).toNat % 128 ≠ 0 ∧ (unit1 [] { retdepth := 1 }).me.p.retdepth ≠ 0 ∧ sup.cur % 16 = 0 ∧ cour.cur % 16 = 15) := by
  refine ⟨turn_settled ?_, turn_settled ?_, turn_settled ?_, turn_settled ?_, turn_settled ?_, turn_settled ?_, maps_of (ls := [.line 64, .line 0]) ?_ ?_,
    sound_of ?_ ?_, ?_, ?_, ?_, ?_, ⟨?_, ?_, ?_, ok_of ?_⟩, ?_⟩
  all_goals decide +kernel

theorem witness_PodQueriesCancelsAndMessages :
    let s := unit1 [0x8000, 0x1000000000000, 2, 0x70]
    let v := { s with vfs := [(1, { someVf with windows := [(0, ⟨0x8000, 0x1000, 0, true, true, 2, 0⟩)] })] }
    let g (c : Nat) := small c { running {} with gang := some { first := 1, last := 3, tag := 7 } }
    (translate s.seen s.myVf (s.val (.s 1)) .query = .ok (.mem 0x8000, [.line 64, .line 0]) ∧ translate v.seen v.myVf (v.val (.s 1)) .query = .ok (.mmio 0x8000, [.line 64, .line 0]) ∧
      translate s.seen s.myVf (s.val (.s 2)) .query = .error .xlate) ∧
    (s.me.pending = none ∧ s.cur % 16 ≠ 15 ∧ (s.val (.s 3)).toNat = 2 ∧ s.myPod.clusters.contains (2 / 128) = true ∧
      s.myPod.clusters.contains (128 / 128) = false ∧ (small 15 (running {})).cur % 16 = 15) ∧
    ((s.val (.s 4)).toNat < 128 ∧ (s.val (.s 4)).toNat / 8 % 2 = 0 ∧ (s.val (.s 4)).toNat % 8 < (s.val (.s 4)).toNat / 16 % 8 ∧ s.myCore % 8 = 0 ∧
      (s.val (.s 4)).toNat % 8 = 0 ∧ 128 ≤ (s.val (.s 1)).toNat) ∧
    (((g 17).ctx 17).gang = some { first := 1, last := 3, tag := 7 } ∧ (17 / 128 * 8 + 1) * 16 + 17 % 16 = 17) ∧
    (((g 33).ctx 33).gang = some { first := 1, last := 3, tag := 7 } ∧ (33 / 128 * 8 + 1) * 16 + 33 % 16 ≠ 33 ∧ (g 33).attached 33 = false) := by
  refine ⟨⟨ok_of ?_, ok_of ?_, error_of ?_⟩, ?_⟩ <;> decide +kernel

theorem witness_EngineCommandsAreQueued :
    let s := unit1 []
    let u := { s with clusters := [(0, { engines := [(2, { tail := 31 }), (3, { tail := 32 })] })] }
    u.tailSeen 2 - (u.engine u.myCluster 2).count < 32 ∧ 32 ≤ u.tailSeen 3 - (u.engine u.myCluster 3).count ∧ s.chunk.det = false := by decide +kernel

/-- The supervisor of core 0, and context 1 of its core in the status `st` with `p`. -/
def superState (st : Status) (p : Priv := {}) : State :=
  let s := small 0 (running (regs [1, 0x8000, 14, 15, 0x8010]))
  { s with ctxs := s.ctxs ++ [(1, { p := p, status := st })],
           mem := tables ++ [(0x8000, 0x10), (0x8006, 8)],
           pods := [(32, { somePod with launches := [(0, someLaunch)] })] }

theorem witness_ContextControl :
    let s := superState .idle
    let free (s : State) : Prop := (s.ctx 1).status = .idle ∧ (s.ctx 1).trap = none ∧ (s.ctx 1).holder = none ∧ (s.ctx 1).pending = none
    let kept := { s with ctxs := aput s.ctxs 1 { s.ctx 1 with holder := some 0 } }
    let q := { s with clusters := [(0, { queue := [.cont someRecord] })] }
    let z := superState (.stopped .exited) { retdepth := 1 }
    let f := { superState (.stopped .byStop) with clusters := [(0, { queue := List.replicate 2048 (.cont someRecord) })] }
    (s.cur % 16 = 0 ∧ 1 ≤ (s.val (.s 1)).toNat ∧ (s.val (.s 3)).toNat ≤ 14 ∧ 14 < (s.val (.s 4)).toNat ∧ s.laterFx = [] ∧ s.me.pending = none ∧ (unit1 []).cur % 16 ≠ 0) ∧
    ((s.val (.s 2)).toNat % 64 = 0 ∧ (s.val (.s 5)).toNat % 64 ≠ 0 ∧ Maps s .read 0x8000 64 BitVec.toNat ∧ Sound s BitVec.toNat 0x8000 64 ∧
      s.recordOk (recordOf ((keysOf BitVec.toNat 0x8000 64).map s.byte)) = true ∧
      (unit1 []).recordOk (recordOf ((keysOf BitVec.toNat 0x8000 64).map s.byte)) = false) ∧
    (free s ∧ ¬free kept ∧ kept.laterFx = [] ∧ (s.choosePlaced s.myPodId s.myCluster (s.myCore % 8) s.me.clock).isNone = true ∧ free q ∧
      (q.choosePlaced q.myPodId q.myCluster (q.myCore % 8) q.me.clock).isSome = true) ∧
    (((superState .runnable).ctx 1).status = .runnable ∧ ((superState (.out .commit)).ctx 1).status = .out .commit ∧
      ((superState .trapped).ctx 1).status = .trapped) ∧
    ((z.ctx 1).status = .stopped .exited ∧ (z.ctx 1).p.retdepth ≠ 0) ∧
    ((f.ctx 1).status = .stopped .byStop ∧ (f.ctx 1).p.retdepth = 0 ∧ (f.ctx 1).p.tstat.pp = false ∧ (f.ctx 1).p.tstat.rv = false ∧
      (f.cluster f.myCluster).storeFree = false ∧ ((superState (.stopped .byStop)).cluster 0).storeFree = true) ∧
    (Maps s .write 0x8000 64 BitVec.toNat ∧ Room s 64) := by
  refine ⟨?_, ⟨?_, ?_, maps_of (ls := [.line 64, .line 0]) ?_ ?_, sound_of ?_ ?_, ?_, ?_⟩, ?_, ?_, ?_, ?_, maps_of (ls := [.line 64, .line 0]) ?_ ?_, room_of ?_⟩ <;>
    decide +kernel

theorem witness_CommitsInstallAndSquash :
    let k : Chunk := { start := {}, count := 3, writes := [(0x8000, 5)], spm := [(9, 1)], gs := [(4, 2)], hs := [(0, {})], ended := some .boundary }
    let x : Ctx := { status := .out .commit, chunk := some k }
    let s := { small 1 x with ctxs := [(1, x), (2, { status := .runnable, chunk := some { start := {}, reads := [.line 0x200] } })] }
    let b := { s with ticket := some 3, ctxs := s.ctxs ++ [(3, { status := .runnable, chunk := some { start := {}, reads := [.line 0x200] } })] }
    let w := { small 1 { status := .out .ticket } with ticketQueue := [1] }
    ((s.ctx 1).pending = none ∧ (s.ctx 1).chunk = some k ∧ k.ended = some .boundary ∧ (s.ctx 1).status = .out .commit ∧ k.isEmpty = false ∧ k.fx = [] ∧
      k.svctgt = none ∧ (s.ctx 1).sending ≠ .wait ∧
      (∀ y ∈ (s.pod ((s.podOf 1).getD 0)).launches, y.2.eligible = true ∧ y.2.det = false) ∧ (∀ l ∈ writeLines k.writes, s.partialsOf l = []) ∧
      s.grantable 1 k [] = true ∧ s.ticket = none ∧ b.grantable 1 k [] = false) ∧
    (Still s ∧ Still b) ∧
    ((s.ctx 2).status = .runnable ∧ (s.ctx 2).pending = none ∧ Loc.line 0x200 ∈ [Loc.line 0x200] ∧ 0x200 ∈ writeLines k.writes) ∧
    (w.ticket = none ∧ w.ticketQueue = 1 :: [] ∧ (w.ctx 1).status = .out .ticket ∧ (w.ctx 1).pending = none ∧ (w.ctx 1).chunk = none) := by
  refine ⟨?_, ⟨still_of ?_, still_of ?_⟩, ?_⟩ <;> decide +kernel

def cyclesAt (n : Nat) : Vector Die 4 := (Vector.replicate 4 ({} : Die)).set 0 { cycles := n }

theorem witness_OperationsWaitsAndProbesEnd :
    let wait (on : Wait) (l : Word) (p : Bool) : Waiting := { on := on, w2 := 9, ops := [], start := 0, clock := 0, limit := l, probed := p }
    let s := small 1 { status := .out .operation }
    let b (l : Word) (p : Bool) := { small 1 { status := .blocked, wait := some (wait (.cbuf 3) l p) } with refTime := 4000, clusters := [(0, { cbufs := [(3, ⟨0, 64, 1, 0, [], [], []⟩)] })] }
    let r (t : Nat) := { b 0 true with refTime := t, pods := [(32, { somePod with probe := some (4000, List.replicate 9 0) })] }
    let open_ := { b 0 true with cores := [(0, { port := [someTrapMsg] })] }
    ((s.ctx 1).status = .out .operation ∧ Calm s ∧ ((small 1 { status := .out .refill }).ctx 1).status = .out .refill) ∧
    (((b 3999 false).ctx 1).wait = some (wait (.cbuf 3) 3999 false) ∧ ((b 3999 false).ctx 1).status = .blocked ∧ ((b 3999 false).ctx 1).chunk = none ∧
      ((b 3999 false).ctx 1).pending = none ∧ (b 3999 false).podOf 1 = some 32 ∧ (b 3999 false).ticket = none ∧
      ((b 3999 false).core 0).stopped = false ∧ 0 + (3999 : Word).toNat < (b 3999 false).refTime) ∧
    ((s.ctx 1).status ≠ .blocked ∧ (b 4000 false).refTime ≤ 0 + (4000 : Word).toNat) ∧
    (((b 0 false).ctx 1).wait = some (wait (.cbuf 3) 0 false) ∧ 0 + 4000 ≤ (b 0 false).refTime) ∧
    ((r 6000).pod (podKey 1 0)).resident = true ∧ (r 6000).probeStands (podKey 1 0) = true ∧ (r 6000).closedCycle (podKey 1 0) = true ∧
    (r 6000).ticket = none ∧
    ((b 0 true).pod 32).probe = none ∧ (b 0 true).closedCycle 32 = true ∧ open_.probeStands 32 = true ∧ open_.closedCycle 32 = false ∧
    ((r 6000).pod 32).probe = some (4000, (r 6000).activities 32) ∧ 4000 + 2000 ≤ (r 6000).refTime ∧
    (((r 6000).agents 32).filter (fun d => match ((r 6000).ctx d).wait with | some w => w.on ≠ .svcRecv | none => false)).max? = some 1 := by
  refine ⟨⟨?_, calm_of ?_, ?_⟩, ?_⟩ <;> decide +kernel

theorem witness_MessagesAndWorkMove :
    let st : Start := ⟨0, 0, 0, 0, 0⟩
    let p := { small 2 {} with clusters := [(0, { queue := [.start st] })], pods := [(32, { somePod with launches := [(0, { someLaunch with units := 40 })] })], dies := cyclesAt 65537 }
    let l1 := { someLaunch with clusters := [0, 1], stolen := [(0, 1), (2, 1)] }
    let v := { small 2 {} with pods := [(32, { somePod with clusters := [0, 1], launches := [(0, l1)] })], dies := cyclesAt 4096 }
    let c := { small 15 {} with cores := [(0, { port := [someTrapMsg], inbox := List.replicate 63 someTrapMsg, courier := some ⟨0x200000, 0x210000, 0x200000⟩ })] }
    let w := { c with cores := [(0, { port := [someTrapMsg], inbox := List.replicate 64 someTrapMsg })] }
    let d := { c with cores := [(0, { inbox := List.replicate 64 someTrapMsg, draining := 48 })] }
    let h := { c with cores := [(0, { inbox := List.replicate 63 someTrapMsg, heap := [someTrapMsg] })] }
    let am : InMsg := { kind := .active, consumer := 15, words := List.replicate 8 0 }
    let a := { c with ctxs := [(15, { status := .idle })], cores := [(0, { inbox := [am], courier := some ⟨0x200000, 0x210000, 0x200000⟩ })] }
    let o : RemoteOp := { srcChip := 0, srcCtx := 1, vf := 1, addr := 0x8040000000000008, kind := .rst 5 }
    let r := { c with cores := [(0, { agent := [o] })] }
    ((p.pickupNow 0).isSome = true ∧ p.ticket = none ∧ (match p.pickupNow 0 with
      | some u => u.cores.all (fun x => x.2.heap.isEmpty) && u.pods.all (fun x => !x.2.detWork) | none => false) = true) ∧
    ((p.cluster 0).queue = [.start st] ∧ p.podAt 0 = some 32 ∧ afind? (p.pod 32).launches st.slot = some { someLaunch with units := 40 } ∧
      someLaunch.det = false ∧ st.since + 65536 < p.dieCycles 0) ∧
    (v.stealable 0 1).isSome = true ∧ (v.pod 32).relCluster? 0 = some 0 ∧ afind? (v.pod 32).launches 0 = some l1 ∧
    (Calm c ∧ (c.core 0).port = someTrapMsg :: [] ∧ c.dieStill 0 = false ∧ (c.core 0).draining = 0 ∧ (c.core 0).entries < 64) ∧
    ((w.core 0).port = someTrapMsg :: [] ∧ 64 ≤ (w.core 0).entries ∧ (w.core 0).heap.length + (w.core 0).draining < 1024 ∧ w.ticket = none) ∧
    ((d.core 0).draining ≠ 0 ∧ (d.core 0).inbox[64 - 48]? = some someTrapMsg ∧ (d.core 0).inbox.length = 64 ∧ d.ticket = none) ∧
    ((h.core 0).heap = someTrapMsg :: [] ∧ (h.core 0).draining = 0 ∧ (h.core 0).entries < 64 ∧ (∀ n ∈ (h.core 0).heap, h.consumerWaits n = false) ∧
      (h.heapLine 0 0).isSome = true) ∧
    ((a.core 0).first .active 15 = some am ∧ (a.ctx 15).status = .idle ∧ (a.ctx 15).pending = none ∧ (a.ctx 15).chunk = none ∧
      (a.ctx 15).sending ≠ .wait ∧ (a.core 0).stopped = false) ∧
    ((r.core 0).agent = o :: [] ∧ r.podAt (0 / 8) = some 32 ∧ (r.pod 32).full = false ∧ (r.pod 32).replay = none ∧ r.ticket = none ∧ r.dieStill 0 = false) ∧
    r.remoteTarget 0 1 0 o.addr true = .ok (.spm 0 8) := by
  refine ⟨?_, ?_, ?_, ?_, ?_, ⟨calm_of ?_, ?_⟩, ?_, ?_, ?_, ?_, ?_, ok_of ?_⟩ <;> decide +kernel

/-! ## 15 to 18 -/

theorem witness_TokensClocksAndPowerSteps :
    let c : Ctx := { status := .out .token }
    let s (q : List Nat) := { small 1 c with dies := (Vector.replicate 4 ({} : Die)).set 0 { ringtok := 1, tokens := [0] }, clusters := [(0, { tokenq := q })] }
    let b := { small 1 c with dies := (Vector.replicate 4 ({} : Die)).set 0 { ringtok := 31, cycles := 512 }, clusters := [(0, { token := true, burst := some 0 })] }
    let r (t : Nat) := { small 1 c with refTime := t, dies := (Vector.replicate 4 ({} : Die)).set 0 { relock := some 0 } }
    let p := { small 1 c with refTime := 100000 }
    let w := { small 1 { status := .out .operation, mma := true } with clusters := [(0, { token := true, burst := some 0 })] }
    (((s [1]).die (0 / 32)).tokens.contains (0 % 32) = true ∧ ((s [1]).cluster 0).token = false ∧ ((s [1]).cluster 0).tokenq = 1 :: [] ∧
      ((s [1]).ctx 1).status = .out .token ∧ ((s []).cluster 0).tokenq = [] ∧ ((s []).cluster 0).engines = [] ∧ (b.die 0).tokens.contains 0 = false) ∧
    ((b.cluster 0).token = true ∧ (b.die 0).ringtok ≠ 32 ∧ (b.cluster 0).burst = some 0 ∧ 0 + 512 ≤ (b.die 0).cycles) ∧
    ((∀ t0, (w.cluster 0).burst = some t0 → (w.die 0).cycles < t0 + 512) ∧ w.matrixBusy 0 = true ∧ (s [1]).tokenWork 0 = true) ∧
    (((r 1500).die 0).relock = some 0 ∧ 0 + 1500 ≤ (r 1500).refTime ∧ 18 * (1500 - 0) ≤ 5 * 5400 + 2 ∧ 5 * 5400 ≤ 18 * (1500 - 0) + 2 ∧
      (r 1499).refTime < 0 + 1500) ∧ Calm (r 1500) ∧
    (p.powered = true ∧ 6 ≤ p.bring ∧ p.arbiterAt ≤ p.refTime ∧ (p.die 3).relock = none ∧ p.dieSwitching 3 = false ∧ (r 0).dieSwitching 0 = false ∧
      ((r 0).die 0).relock ≠ none) := by
  refine ⟨?_, ?_, ⟨fun t0 ht => ?_, ?_, ?_⟩, ?_, calm_of ?_, ?_⟩
  case refine_3 => cases ht; decide +kernel
  all_goals decide +kernel

theorem witness_BringUpPowerAndI3c :
    let s := { State.reset with bring := 4 }
    let i := { s with i3c := { addr := some 9 } }
    s.powered = true ∧ s.bring = 4 ∧ s.chip = none ∧ (191 : BitVec 8).toNat ≤ 191 ∧ 191 < (192 : BitVec 8).toNat ∧ s.failStep = 0 ∧ s.i3c.addr = none ∧
    i.i3c.addr = some 9 ∧ 800 ≤ (0x20 : Byte).toNat + 256 * (0x03 : Byte).toNat ∧ 1100 ≤ (1100 : BitVec 16).toInt ∧ (1099 : BitVec 16).toInt < 1100 ∧
    (99 : BitVec 16).toNat < 100 ∧ 100 ≤ (100 : BitVec 16).toNat := by decide +kernel

/-- A command of engine context 2 of cluster 0. -/
def someCmd (k : CmdKind) : Cmd :=
  { seq := 1, kind := k, ctx := 1, slot := 0, spbase := 0, spsize := 0x200000, cb := Vector.replicate 16 0, bank := 0xFFFFFFFFFFFFFFFF, det := false }

def someCopy : CmdKind := .copy ⟨false, false, 0, 0, 2, true, false, 2⟩ 0x8000 0x100 [⟨4, 4, 1, 1⟩] true none
def slotCopy : CmdKind := .copy ⟨false, true, 3, 0, 2, true, false, 2⟩ 0x8000 0 [⟨4, 4, 1, 1⟩] true none

/-- Cluster 0 with that engine context and a circular buffer of one slot. -/
def engState (e : Engine) (c : CBuf := ⟨0x400, 64, 1, 0, [], [], []⟩) : State :=
  { small 1 {} with clusters := [(0, { engines := [(2, e)], cbufs := [(3, c)], token := true })], dies := (Vector.replicate 4 ({} : Die)).set 0 { ringtok := 32 } }

def someFollowOn : FollowOn := { pairs := [0, 0, 0, 0], mimm := 0, core := 0, hidx := 0, flg := 0, erows := 0, ecols := 0, rsvZero := true }

theorem witness_EngineEvents :
    let s := engState { store := [someCmd someCopy] }
    let err := engState { store := [someCmd someCopy], err := true }
    let job (d : LineAt) : Run := { cmd := someCmd someCopy, jobs := [⟨d, [(0, .lit 5)]⟩] }
    let u := engState { run := some (job (.spm 0x100)) }
    let m := engState { run := some (job (.mem 0x8000)) }
    let w : Run := { cmd := someCmd slotCopy, waitSlot := true }
    let claim := engState { run := some w }
    let busy := engState { run := some w } ⟨0x400, 64, 1, 0, [], [0], []⟩
    let fin : Run := { cmd := someCmd someCopy }
    let done := engState { run := some fin }
    let sfin : Run := { cmd := someCmd slotCopy, slot := some 0 }
    let f : Run := { cmd := someCmd (.copy ⟨false, false, 0, 0, 2, true, false, 2⟩ 0x8000 0x100 [⟨4, 4, 1, 1⟩] true (some someFollowOn)) }
    let clr := engState { store := [someCmd .clear] }
    let copied := engState { run := some { cmd := someCmd someCopy, jobs := copyJobs (someCmd someCopy) ⟨false, false, 0, 0, 2, true, false, 2⟩ 0x8000 0x100 none [⟨4, 4, 1, 1⟩] } }
    let jobs := copyJobs (someCmd slotCopy) ⟨false, true, 3, 0, 2, true, false, 2⟩ 0x8000 0 (some (0x400 + 0 * 64)) [⟨4, 4, 1, 1⟩]
    let claimed := (claim.setCluster 0 ((claim.cluster 0).setCbuf 3 ⟨0x400, 64, 1, 0, [0], [], []⟩)).setEngine 0 2
      { opens := [(3, 0)], run := some { w with slot := some 0, waitSlot := false, jobs := jobs } }
    let on := engState { run := some { f with foOn := true } }
    let tile := zeroTile .fp32 16 16
    Calm s ∧ (s.engineRuns 0 = true ∧ s.podAt 0 = some 32 ∧ (s.pod 32).full = false ∧ (s.pod 32).replay = none) ∧
    ((s.engine 0 2).run = none ∧ (s.engine 0 2).store = someCmd someCopy :: [] ∧ (someCmd someCopy).aborted = false ∧ (s.engine 0 2).err = false ∧
      (err.engine 0 2).err = true ∧ someCopy ≠ .clear ∧ (∀ c, ([] : List Cmd).head? = some c → c.kind = .clear) ∧
      (clr.engine 0 2).store = someCmd .clear :: [] ∧ (clr.engine 0 2).opens = [] ∧ dimsOk [⟨4, 4, 1, 1⟩] true = true ∧
      copyBounds ⟨false, false, 0, 0, 2, true, false, 2⟩ 0x8000 0x100 none [⟨4, 4, 1, 1⟩] = none) ∧
    ((∀ j ∈ copyJobs (someCmd someCopy) ⟨false, false, 0, 0, 2, true, false, 2⟩ 0x8000 0x100 none [⟨4, 4, 1, 1⟩], s.unbanked (someCmd someCopy) j.dest = none) ∧
      copied.afterEngine 0 2 = copied) ∧
    ((claim.cluster 0).cbuf? 3 = some ⟨0x400, 64, 1, 0, [], [], []⟩ ∧ (⟨0x400, 64, 1, 0, [], [], []⟩ : CBuf).next = some 0 ∧
      (⟨0x400, 64, 1, 0, [], [0], []⟩ : CBuf).next = none ∧ (busy.cluster 0).cbuf? 3 = some ⟨0x400, 64, 1, 0, [], [0], []⟩ ∧
      copyBounds ⟨false, true, 3, 0, 2, true, false, 2⟩ 0x8000 0 (some (0x400 + 0 * 64, 64)) [⟨4, 4, 1, 1⟩] = none ∧
      (∀ j ∈ jobs, claim.unbanked w.cmd j.dest = none) ∧ claimed.afterEngine 0 2 = claimed) ∧
    (u.turnOf 0 2 = true ∧ (u.jobBytes 0 (job (.spm 0x100)) [(0, .lit 5)]).toOption = some [(0, 5)]) ∧
    ((m.engXlate 0 (job (.mem 0x8000)).cmd (someCopy.elemOf 0x8000) .write).toOption = some (.mem 0x8000) ∧ m.partialsOf (0x8000 / 64) = [] ∧
      m.stalls 0 0x8000 = false ∧ 0x8000 < 2 ^ 39) ∧
    (fin.finished = true ∧ (done.engine 0 2).held = [] ∧ (done.engine 0 2).store = [] ∧ sfin.finished = true ∧ sfin.slot = some 0) ∧
    (f.followOn = some someFollowOn ∧ f.jobs = [] ∧ f.waitSlot = false ∧ f.foDone = false ∧ f.foOn = false ∧ foOk someFollowOn {} = false ∧
      foOk { someFollowOn with mimm := 264 } tile = true ∧ (on.engine 0 2).run = some { f with foOn := true } ∧ s.tokenFree 0 16 = true) := by
  refine ⟨calm_of ?_, ?_, ?_, ?_, ?_, ?_, ?_, ?_, ?_⟩ <;> decide +kernel

theorem witness_LinkEvents :
    let l : LinkHdr := ⟨0, 3, 0, 0, 0, 0⟩
    let o : OpHdr := { srcCtx := 1, tgtCore := 0, rid := 7, tenant := 0, interval := 0, seq := 0, addr := 0x8000080000000000 }
    let s := unit1 []
    let r (f : Bool) := small 1 { running {} with request := some ⟨7, 3, 0, f⟩ }
    let u := small 1 { running {} with unacked := [(7, 0x8000080000000000)] }
    let c := { s with clusters := [(0, { engines := [(2, { run := some { cmd := someCmd (.coll .allreduce false 0 4 9 0 0) } })] })],
                      vfs := [(1, { someVf with policy := some { somePolicy with groups := [9] } })] }
    let t := { r false with refTime := 200000 }
    let f := { s with ports := [(0, { failed := true })] }
    let q := { r false with ports := [(0, { retry := [(0, 3, .rld o)] })] }
    let m : CollMsg := ⟨0, 0, 0, 9, .allreduce, false, 0, 0, 0, []⟩
    let coll : Engine := { store := [someCmd (.coll .allreduce false 0 4 9 0 0)] }
    let out : PodImage := { clusters := [(0, { engines := [(2, coll)] })] }
    let full := { s with colls := List.replicate 256 m, pods := [(32, { somePod with saved := some out })] }
    ((3 : BitVec 8).toNat ≠ s.chipNum ∧ l.dst.toNat = s.chipNum ∧ Still s ∧ o.seq = 0) ∧
    (((∀ y ∈ (r false).ctxs, ∀ w ∈ ((r false).ctx y.1).unacked, w.1 ≠ 7) ∧ ∀ p ∈ (r false).pods, p.2.saved = none) ∧
      full.collFull m = true ∧ s.collFull m = false ∧ m.seq = 0) ∧
    ({ s with marks := [((3, 1, 0, 0), 4)] }.marks.find? (fun y => y.1 = (l.src.toNat, 1, 0, 0)) = some ((3, 1, 0, 0), 4) ∧ (4 : BitVec 32).toNat ≤ 4) ∧
    (s.runOfRid 7 = none ∧ s.runOfPost 7 = none ∧ ((r false).ctx 1).request = some ⟨7, 3, 0, false⟩ ∧ ((r true).ctx 1).request = some ⟨7, 3, 0, true⟩) ∧
    ((u.ctx 1).request = none ∧ (u.ctx 1).unacked.filter (fun y => y.1 = 7) = [(7, 0x8000080000000000)] ∧ Quiescent (u.ctx 1)) ∧
    (s.echoes = [] ∧ s.performed = [] ∧ reached 0 0 = true ∧ reached 0 (2 ^ 32 - 1) = true ∧ reached 0 1 = false ∧ ∀ p ∈ s.pods, p.2.full = false) ∧
    (c.pods = [(32, somePod)] ∧ somePod.clusters = [0] ∧ (c.groupVfs 0 3).contains 1 = true ∧ (c.cluster 0).engines.length = 1 ∧
      (someCmd (.coll .allreduce false 0 4 9 0 0)).isColl 9 0 = true ∧ (c.engine 0 2).err = false) ∧
    ((t.ctxs.find? (fun y => match y.2.request with | some q => q.rid = 7 | none => false)).isSome = true ∧ 3 ≠ t.chipNum ∧ t.replayAnswer 1 = none ∧ 0 + 200000 ≤ t.refTime ∧ Calm t) ∧
    ((f.port 0).failed = true ∧ (s.port 0).failed = false ∧ (s.port 0).retry = [] ∧ (q.port 0).retry = [(0, 3, .rld o)]) := by
  refine ⟨⟨?_, ?_, still_of ?_, ?_⟩, ?_, ?_, ?_, ⟨?_, ?_, quiescent_of ?_⟩, ?_, ?_, ⟨?_, ?_, ?_, ?_, calm_of ?_⟩, ?_⟩ <;> decide +kernel

theorem witness_MemoryFaultsAndErrors :
    let s := small 0 { status := .out (.stage2 0x200000) }
    let g := small 0 { status := .out (.stage2 0x40000000) }
    let k := small 1 { status := .runnable, chunk := some { start := {} } }
    Calm s ∧ ((s.ctx 0).status = .out (.stage2 0x200000) ∧ 0x200000 < (s.vf (s.vfOf 0)).grant * 2 ^ 30 ∧
      afind? (s.vf (s.vfOf 0)).stage2 (0x200000 / 0x200000) = none ∧ { s with reserveAt := 190464 }.unitFree 1 = true ∧
      { s with reserveAt := 190464 }.unitFree 0 = false) ∧
    ((g.vf (g.vfOf 0)).grant * 2 ^ 30 ≤ 0x40000000 ∧ (g.ctx 0).chunk = none ∧ (g.ctx 0).pending = none) ∧
    (1 * 65536 < Config.physBytes ∧ s.clean.contains 1 = false ∧ s.clean.contains (0x8000 / 65536) = true ∧ s.fullOwner 0x8000 = false ∧
      s.ready = true ∧ aget 0 s.scrubs 7 ≤ s.refTime) ∧
    ((aget [] s.history (homeStack 0x8000)).length < 4096 ∧ (∀ r ∈ aget [] s.history (homeStack 0x8000), r.row ≠ Config.rowOf 0x8000) ∧
      ∃ r ∈ aget [] { s with history := [(homeStack 0x8000, [⟨Config.rowOf 0x8000, 1, 0, 0⟩])] }.history (homeStack 0x8000), r.row = Config.rowOf 0x8000) ∧
    ((k.ctx 1).chunk = some { start := {} } ∧ (k.ctx 1).pending = none ∧ (k.ctx 1).status ≠ .blocked) ∧ (s.podAt (0 / 8) = some 32 ∧ (s.pod 32).resident = true ∧ (s.pod 32).full = false) := by
  refine ⟨calm_of ?_, ?_, ?_, ?_, ⟨?_, ?_, ⟨⟨Config.rowOf 0x8000, 1, 0, 0⟩, List.mem_singleton.mpr rfl, rfl⟩⟩, ?_, ?_⟩ <;> decide +kernel

theorem witness_PreemptionAndCheckpoints :
    let s := small 1 {}
    let g : Group := { clusters := [0], resident := some 32, ticking := some 0, hold := 50000, incoming := some 33 }
    let pods := [(32, { somePod with slice := 100 }), (33, { somePod with idx := 1, resident := false, slice := 100 })]
    let d := { s with groups := [(0, g)], pods := pods, refTime := 50000 }
    let two := { d with groups := [(0, { g with clusters := [0, 32] })] }
    let due := { s with groups := [(0, { g with ticking := none })], pods := pods, refTime := 1000000 }
    let alone := { due with pods := [(32, { somePod with slice := 100 })] }
    let i := { s with refTime := 10000000 }
    let hand := { small 15 { status := .runnable, handler := true } with cores := [(0, { handling := some someTrapMsg })] }
    let coll := { s with pods := [(32, { somePod with replay := some [.coll ⟨0, 0, 0, 9, .allreduce, false, 0, 0, 0, []⟩] })] }
    Calm d ∧ (d.ctxs.all (fun x => x.2.chunk.isNone && x.2.pending.isNone) = true) ∧
    ((hand.core 0).handling = some someTrapMsg ∧ (hand.ctx 15).handler = true ∧ (hand.ctx 15).hcount = 0 ∧ (hand.ctx 15).status = .runnable ∧
      (hand.ctxs.all (fun x => x.1 = 15 || !x.2.handler) = true) ∧ (s.core 0).handling = none ∧ (s.ctx 1).sending ≠ .wait) ∧
    (coll.pod (podKey 1 0)).replay = some (.coll ⟨0, 0, 0, 9, .allreduce, false, 0, 0, 0, []⟩ :: []) ∧ ((s.core 0).stopped = false ∧
      ({ s with cores := [(0, { stopped := true })] }.core 0).stopped = true ∧ s.groupAt (0 / 8) = none) ∧
    (due.tickDue 0 = true ∧ due.switches 0 = true ∧ alone.tickDue 0 = true ∧ alone.switches 0 = false ∧ s.tickDue 0 = false) ∧
    ((d.group 0).ticking = some 0 ∧ d.retraining = [] ∧ (d.group 0).dies.contains 0 = true ∧ (d.group 0).saved.contains 0 = false ∧
      d.refTime ≤ 0 + (d.group 0).hold ∧ (∃ e ∈ (two.group 0).dies, e ≠ 0 ∧ e ∉ (two.group 0).saved) ∧ (∀ e ∈ (d.group 0).dies, e = 0 ∨ e ∈ (d.group 0).saved) ∧
      (d.group 0).resident = some 32 ∧ (d.group 0).incoming = some 33 ∧ (d.pod 32).pausing = none ∧ (d.pod 33).state = .active ∧ (d.pod 33).group = 0 ∧
      (d.pod 33).saved = none) ∧
    ((d.group 0).forced = false ∧ 0 + (d.group 0).hold ≤ d.refTime ∧ (d.group 0).misses < 2 ∧
      2 ≤ ({ d with groups := [(0, { g with misses := 2 })] }.group 0).misses) ∧
    (({ s with retraining := [7] } : State).retraining = [7] ∧ ∀ q ∈ s.groups, q.2.ticking = none) ∧
    (i.ready = true ∧ i.ivals.opened + 10000000 ≤ i.refTime ∧ i.ivals.filling = none ∧ (∀ n : Fin 4, (i.die n).relock = none) ∧ ∀ p ∈ i.pods, p.2.replay = none) ∧
    ({ i with ivals := { i.ivals with filling := some ⟨1, [], [], [], [], []⟩ } }.ivals.filling = some ⟨1, [], [], [], [], []⟩ ∧
      ({ s with pods := [(32, { somePod with replay := some [] })] }.pod (podKey 1 0)).replay = some [] ∧ (s.pod 32).interval = none) := by
  refine ⟨calm_of ?_, ?_, ?_, ?_, ?_, ?_, ?_, ?_, ?_, ?_, ?_⟩ <;> decide +kernel

/-- The bytes of a command entry (15 R286), not in CLEAR. -/
def entryBytes (opc : Nat) (h0 : Nat) (a0 a1 blk len : Nat) : List Byte :=
  leBytes 8 opc ++ leBytes 8 h0 ++ leBytes 8 0 ++ leBytes 8 a0 ++ leBytes 8 a1 ++ leBytes 8 0 ++ leBytes 8 blk ++ leBytes 8 len

/-- A command key. -/
def someKey : List Byte := List.replicate 32 0

/-- A tenant block of that command: SEQ 1, a nonce of zeros, and `plain` sealed under the key of zeros with the entry's first 48 bytes and SEQ
authenticated (15 R288). -/
def sealedBlock (e plain : List Byte) : List Byte :=
  leBytes 8 1 ++ List.replicate 24 0 ++ gcmSeal someKey (List.replicate 12 0) (e.take 48 ++ leBytes 8 1) plain

/-- The small state, its virtual device with handle 17 and a command key of zeros, its pod `p` with handle 34, and that command in queue 0, with
what its block at 0x4000 holds. -/
def hostState (e : List Byte) (p : Pod) (block : List Byte := []) (f : Vf := someVf) : State :=
  { small 1 {} with
    vfs := [(1, { f with handle := 17, cmdKey := some someKey })], pods := [(32, { p with handle := 34 })],
    queues := [(0, { cbase := 0x1000, cpbase := 0x2000, en := true, tail := 1 })],
    hostMem := Memory.writeBytes (Memory.writeBytes [] 0x1000 e) 0x4000 block }

/-- A command with a sealed block, which the Husk opens to `plain`. -/
def sealedState (opc : Nat) (h0 : Nat) (a0 a1 : Nat) (plain : List Byte) (p : Pod) (f : Vf := someVf) : State :=
  let e := entryBytes opc h0 a0 a1 0x4000 (plain.length + 48)
  hostState e p (sealedBlock e plain) f

def takenAt0 (s : State) : Taken := { e := s.nextEntry 0, fn := queueFn 0 }

/-- What the Husk reads from the block of the command in queue 0. -/
def opened (s : State) (len : Option Nat) : Option (List Byte) := (((takenAt0 s).block (s.takeEntry 0) 1 len).toOption).map (·.1)

/-- The entry is the same whatever the block holds. -/
theorem entry_of (e : List Byte) (p : Pod) (block : List Byte) (f : Vf) : (hostState e p block f).nextEntry 0 = (hostState e p [] f).nextEntry 0 := by
  show entryOf _ = entryOf _
  exact congrArg entryOf (Memory.readBytes_writeBytes_below block _ 0x4000 0x1000 64 (by decide))

/-- A sealed block opens to what it was sealed from. -/
theorem opened_of {e block plain : List Byte} {p : Pod} {f : Vf} {len : Option Nat} (h : let c := takenAt0 (hostState e p [] f)
    (c.e.blk = 0x4000 ∧ c.e.len = block.length ∧ c.e.clear = false ∧ c.e.len = len.getD (c.e.len - 48) + 48) ∧ zeros block 20 12 = true ∧
      field block 0 8 = 1 ∧ f.seq = 0 ∧ c.unseal someKey block = some plain) : opened (hostState e p block f) len = some plain := by
  obtain ⟨⟨h1, h2, h3, h4⟩, h5, h6, h7, h8⟩ := h
  have ht : takenAt0 (hostState e p block f) = takenAt0 (hostState e p [] f) := by
    unfold takenAt0
    rw [entry_of]
  have hr : ((hostState e p block f).takeEntry 0).hostMem.readBytes 0x4000 block.length = block := Memory.readBytes_writeBytes block _ 0x4000
  have hk : ((hostState e p block f).takeEntry 0).vf 1 = { f with handle := 17, cmdKey := some someKey } := rfl
  have hl : 48 ≤ block.length := by
    rw [← h2, h4]
    omega
  unfold opened Taken.block
  rw [ht, h1, h2, hr, hk, if_neg (by decide), h3]
  rw [h2] at h4
  simp only [Bool.false_eq_true, if_false, Option.bind_some, h5, h6, h7, h8, ← h4, ne_eq, not_true_eq_false, decide_false, Bool.not_true, Bool.or_self,
    Nat.not_succ_le_zero]
  rfl

/-- The block of `ALLOC_POD` with heap and root at 0 and no range, and a policy's first fields (15 R289). -/
def policyBlock : List Byte :=
  leBytes 4 0x4C505947 ++ leBytes 2 1 ++ leBytes 2 0 ++ leBytes 16 7 ++ [2, 4, 0, 3, 0, 10, 0, 0] ++ leBytes 4 100 ++ leBytes 4 1000 ++ leBytes 2 2 ++ leBytes 2 8 ++
  leBytes 4 4

/-- An image with one supervisor role in a code section and one placement of it on core 0 as service target (03 R75–R78), with `digest`. -/
def imageWith (digest : List Byte) : List Byte :=
  leBytes 4 0x49535947 ++ leBytes 2 1 ++ leBytes 2 3 ++ leBytes 8 272 ++ leBytes 8 128 ++ leBytes 8 0 ++ digest ++ List.replicate 48 0 ++
  leBytes 4 1 ++ leBytes 4 0 ++ leBytes 8 224 ++ leBytes 8 32 ++ leBytes 8 0 ++
  leBytes 4 2 ++ leBytes 4 0 ++ leBytes 8 264 ++ leBytes 8 8 ++ leBytes 8 0x100000 ++
  leBytes 4 5 ++ leBytes 4 0 ++ leBytes 8 256 ++ leBytes 8 8 ++ leBytes 8 0 ++
  [0, 1, 0, 0, 0, 0, 0, 0] ++ leBytes 8 0x100000 ++ leBytes 8 0x100008 ++ leBytes 8 0x100000 ++
  leBytes 8 (0 + 1 * 2 ^ 8 + 2 ^ 31) ++ leBytes 8 0

/-- FIPS 180-4's example of SHA-384, and test case 14 of the specification of GCM (log 106). -/
theorem test_crypto :
    beNat (sha384 [0x61, 0x62, 0x63]) =
      0xcb00753f45a35e8bb5a03d699ac65007272c32ab0eded1631a8b605a43ff5bed8086072ba1e7cc2358baeca134c825a7 ∧
    beNat (gcmSeal (List.replicate 32 0) (List.replicate 12 0) [] (List.replicate 16 0)) =
      0xcea7403d4d606b6e074ec5d3baf39d18d0d1c8a799996bf0265b98b5d48ab919 := by decide +kernel

theorem witness_HostQueues :
    let s (opc : Nat) := hostState (entryBytes opc 34 0 0 0 0) somePod
    (∀ n ∈ [1, 2, 3, 4, 5, 6, 7, 8, 9, 10, 11, 12, 13, 14, 15, 16, 17, 18, 19], (s n).mayTakeCmd 0 n = true ∧ ((s n).nextEntry 0).rsvZero = true ∧
      ((s n).nextEntry 0).clear = false) ∧ (s 1).mayTakeCmd 0 2 = false ∧ Stills (s 1) ∧ (s 1).ticket = none ∧
    ((hostState (leBytes 8 (2 ^ 9 + 2)) somePod).mayTakeCmd 0 2 = true ∧ ((hostState (leBytes 8 (2 ^ 9 + 2)) somePod).nextEntry 0).rsvZero = false) ∧
    (∀ n ∈ [2, 7], ({ e := (s n).nextEntry 0, fn := queueFn 0 } : Taken).pod ((s n).takeEntry 0) = some 32) ∧
    ({ e := (hostState (entryBytes 4 17 0 0 0 0) somePod).nextEntry 0, fn := queueFn 0 } : Taken).vf (hostState (entryBytes 4 17 0 0 0 0) somePod) = some 1 ∧
    (0 < 2064 ∧ 2063 < 2064 ∧ (State.reset.queue 2063).en = false ∧ ((s 1).queue 0).en = true) := by
  refine ⟨?_, ?_, stills_of ?_, ?_, ?_, ?_, ?_, ?_⟩ <;> decide +kernel

/-- The same commands are taken whatever the block holds. -/
theorem takes_of {e block : List Byte} {p : Pod} {f : Vf} {n : Nat} (h : (hostState e p [] f).mayTakeCmd 0 n = true) :
    (hostState e p block f).mayTakeCmd 0 n = true := by
  unfold State.mayTakeCmd at h ⊢
  rw [entry_of]
  exact h

/-- A block of `ALLOC_POD`. -/
theorem witness_HostCommands_alloc :
    let plain := List.replicate 288 0
    let alloc := sealedState 1 17 2 0 plain somePod
    opened alloc (some 288) = some plain ∧ alloc.mayTakeCmd 0 1 = true := by
  refine ⟨opened_of ?_, takes_of ?_⟩ <;> decide +kernel

/-- A block of `MAP_WINDOW`. -/
theorem witness_HostCommands_window :
    let peers : Vf := { someVf with policy := some { somePolicy with peers := 1 } }
    let plain := leBytes 8 0x10000 ++ leBytes 8 0x10000 ++ leBytes 8 0 ++ leBytes 8 (3 * 4)
    let win := sealedState 11 17 0 0 plain somePod peers
    opened win (some 32) = some plain ∧ win.mayTakeCmd 0 11 = true ∧ (windowOf plain).map (·.kind) = some 0 ∧
    (windowOf plain).map peers.windowFits = some true ∧ peers.policy.map (·.peers) = some 1 ∧
    (List.range 16).find? (fun i => (afind? peers.windows i).isNone) = some 0 := by
  refine ⟨opened_of ?_, takes_of ?_, ?_, ?_, ?_, ?_⟩ <;> decide +kernel

/-- A block of `LAUNCH`, and its descriptor. -/
theorem witness_HostCommands_launch :
    let p : Pod := { descState.myPod with resident := true }
    let e := entryBytes 6 34 0 0 0x4000 56
    let launch := { hostState e p with mem := descState.mem }
    opened (hostState e p (sealedBlock e (leBytes 8 0x8000))) (some 8) = some (leBytes 8 0x8000) ∧ launch.mayTakeCmd 0 6 = true ∧
    (takenAt0 launch).pod launch = some 32 ∧ (launch.huskRead 1 true 0x8000 128).isSome = true ∧
    (match launch.huskRead 1 true 0x8000 128 with
      | some d => blockWord d 0x78 = 0 && (match launch.checkLaunch 32 d (some (List.replicate 192 0)) with
          | .ok l => !l.det && l.deps.isEmpty
          | .error _ => false)
      | none => false) = true := by
  refine ⟨opened_of ?_, ?_, ?_, ?_, ?_⟩ <;> decide +kernel

/-- A block of `LOAD_IMAGE`, and the image in it. -/
theorem witness_HostCommands_image :
    let image := imageWith (imageDigest (imageWith (List.replicate 48 0)))
    let p : Pod := { somePod with state := .empty }
    let load := sealedState 5 34 0 0 image p
    (opened load none = some image ∧ load.mayTakeCmd 0 5 = true) ∧
    (imageOf image 1).map (fun x => x.1.places) = some [⟨0, 1, 0, 0, true⟩] ∧
    ((imageOf image 1).map (fun x => ((hostState [] p).mapUnits 1 (x.2.flatMap Sect.units) [5]).isSome)) = some true := by
  refine ⟨⟨opened_of ?_, takes_of ?_⟩, ?_, ?_⟩ <;> decide +kernel

theorem witness_HostCommands :
    let bind := { hostState (entryBytes 3 0 2 4 0x6000 9056) somePod with
      hostMem := Memory.writeBytes (Memory.writeBytes (Memory.writeBytes [] 0x1000 (entryBytes 3 0 2 4 0x6000 9056)) 0x6000 policyBlock) 0x7070 [4] }
    let alloc := hostState [] somePod
    let out := { hostState (entryBytes 8 34 2 0 0x6000 64) { somePod with state := .evicted, blob := [1] } with groups := [] }
    let u := out.takeEntry 0
    (((bind.vf 2).policy = none ∧ 1 ≤ (bind.nextEntry 0).a0 ∧ (bind.nextEntry 0).len = 9056 ∧ (bind.nextEntry 0).blk ≠ 0) ∧
      ((policyOf (bind.hostMem.readBytes 0x6000 9056) bind.chipNum).map (·.memGib)) = some 4 ∧ (bind.nextEntry 0).a1 ≤ 4) ∧
    (allocBlock (List.replicate 288 0) = some ⟨[], 0, 0⟩ ∧ clusterMap 2 0 = [1] ∧ alloc.mapGroup [1] = some 0 ∧ (alloc.vf 1).root1 = some 0 ∧
      alloc.saveUnits + 1 ≤ 512 ∧ alloc.pods.length < 512 ∧
      (List.range 24).find? (fun i => (alloc.pods.filter (fun y => y.2.vf = 1)).all (fun y => y.2.idx ≠ i)) = some 1) ∧
    (out.mayTakeCmd 0 8 = true ∧ (out.pod 32).state = .evicted ∧ (u.newPlace 32 (takenAt0 out)).isSome = true ∧
      out.hostMem.readBytes 0x6000 64 ≠ (out.pod 32).blob) ∧
    (∀ x ∈ [PodState.empty, .active, .paused, .evicted], (hostState [] { somePod with state := x }).pod 32 = { somePod with state := x, handle := 34 }) ∧
    (somePolicy.quotaMin ≤ 2 ∧ 2 ≤ somePolicy.quotaMax ∧ 1 < somePolicy.quotaMin ∧ somePolicy.quotaMax < 9 ∧ somePolicy.sliceMin ≤ 1 ∧ 1 ≤ somePolicy.sliceMax ∧
      0 < somePolicy.sliceMin ∧ somePolicy.powShare < 11 ∧ somePolicy.reportOk = true ∧ somePolicy.fullOk = false) ∧
    ({ small 1 {} with vfs := [(1, { someVf with windows := [(3, ⟨0, 0x10000, 0, true, true, 0, 77⟩)] })] }.winByHandle 77 = some (1, 3)) := by
  refine ⟨?_, ?_, ?_, ?_, ?_, ?_⟩ <;> decide +kernel

theorem witness_SecurityProtocols :
    let s := small 0 { status := .out (.ats 5) }
    let h := { s with vfs := [(1, { someVf with pri := [5], windows := [(0, ⟨0, 0x10000, 0x50000, true, true, 1, 0⟩)], tdi := .run })] }
    let all : Spdm := { version := true, caps := true, algs := true, session := true, finished := true }
    let cut := { h with dies := (Vector.replicate 4 ({} : Die)).set 0 { relock := some 0 } }
    let p := { s with spdm := [(1, all)] }
    (State.reset.bring = 0 ∧ s.powered = true ∧ 1 ≤ s.bring ∧ (512 : Nat) ≤ 512) ∧
    ((aget ({} : Spdm) s.spdm 1).version = false ∧ (aget ({} : Spdm) p.spdm 1).version = true ∧ (aget ({} : Spdm) p.spdm 1).caps = true ∧ (aget ({} : Spdm) p.spdm 1).algs = true ∧
      (aget ({} : Spdm) p.spdm 1).session = true ∧ (aget ({} : Spdm) p.spdm 1).finished = true ∧ (p.vf 1).policy ≠ none) ∧
    Calm h ∧ (Stills s ∧ Stills h) ∧ (h.mayCut = true ∧ cut.mayCut = false) ∧ ((h.vf 1).tdi = .run ∧ (s.vf 1).tdi ≠ .run ∧ (2 : BitVec 8) ≠ (h.vf 1).gen ∧ (1 : BitVec 8) = (h.vf 1).gen ∧ (h.vf 1).hostPage 5 = true ∧
      (h.vf 1).pri.contains 5 = true ∧ (h.vf 1).pri.length < 512 ∧ (List.replicate 512 0).length = 512 ∧ (s.vf 1).pri.contains 5 = false) ∧
    ((h.ctx 0).status = .out (.ats 5) ∧ h.vfOf 0 = 1 ∧ (h.ctx 0).chunk = none ∧ (h.ctx 0).pending = none ∧ (h.ctx 0).sending ≠ .wait ∧ h.waitPage 1 5 = [0] ∧ h.cores = [] ∧ h.clusters = []) := by
  refine ⟨?_, ?_, calm_of ?_, ⟨stills_of ?_, stills_of ?_⟩, ?_, ?_, ?_⟩ <;> decide +kernel

/-- A cycle of core 0 issues the unit’s `add` (02 R61, 12 R236); a relock withholds it, an empty core issues nothing, and a pc past the code does
not fetch. -/
theorem witness_StepRunsTheDecodedInstruction :
    let s := { coded [0x21030001, 2] with agenda := [.issueCore 0], bring := 0 }
    let u := { s.tick with agenda := [] }
    let w := u.setCore 0 { u.core 0 with cycle := 1 }
    let v := w.startIssue 1
    let e := { small 15 {} with agenda := [.issueCore 0], bring := 0 }
    let q := { small 15 { status := .runnable } with cores := [(0, { inbox := [someTrapMsg], draining := 1 })] }
    (u.die 0).relock = none ∧ w.choose 0 = some 1 ∧ w.drains 1 = false ∧ w.recordedCut 1 = none ∧ q.choose 0 = some 15 ∧ q.drains 15 = true ∧ v.me.p.pc.toNat < v.me.p.codelim.toNat ∧
    (match v.xlateFetch 0x2000 with
      | .ok (.mem pa, x) => decide (pa = 0x2000) && fetchLen (x.codeWord pa) (x.codeWord (pa + 4)) = 8 && x.pfx?.isNone && !x.handlerFull &&
          (match decode (x.codeWords pa) with | .ok i => i.acceptsNone | .error _ => false)
      | _ => false) = true ∧
    ({ e.tick with agenda := [] } : State).choose 0 = none ∧
    (let r := { unit1 [] { pc := 0x3000, codelim := 0x3000 } with agenda := [.issueCore 0] }
     r.me.p.codelim.toNat ≤ r.me.p.pc.toNat) := by decide +kernel

theorem witness_DecodeEncodeAgree : (Instr.add (.s 1) (.s 2) (.g 3)).wf = true ∧ (Instr.add (.s 1) (.s 2) (.g 3)).isEvent = false := by decide

theorem witness_StepKeepsMemories :
    let s := { State.reset with mem := tables, agenda := [.event (.chipnumWrite 3)] }
    Kept s ∧ ∃ t, step s = .next t :=
  ⟨⟨by decide, by decide⟩, _, rfl⟩

/-! ## Further clauses of these statements -/

/-- A unit with those registers in a state whose window makes 0x8000 a device page (15 R295), and a busy chunk if asked for. -/
def deviceState (l : List Word) (busy : Bool := false) : State :=
  { small 1 { running (regs l) with chunk := if busy then some { start := regs l, count := 5 } else none } with
    vfs := [(1, { someVf with windows := [(0, ⟨0x8000, 0x1000, 0, true, true, 2, 0⟩)] })] }

theorem witness_RefusedTargetsTrap_more :
    let s := unit1 [5, 5, 0xFFFFFFFFFFFFFFFF] { pc := 0xFFFFFFFFFFFC }
    let v (n : Nat) := { unit1 [] { retdepth := n, rsbase := 0x2000 } with mem := tables ++ [(0x2000, 2), (0x200E, 1)] }
    ((s.val (.s 3)).toInt < (s.val (.s 1)).toInt ∧ (s.val (.s 1)).toInt ≤ (s.val (.s 2)).toInt ∧ (s.val (.s 1)).toNat < (s.val (.s 3)).toNat ∧
      (s.val (.s 1)).toNat ≤ (s.val (.s 2)).toNat) ∧
    (∀ n ∈ [1, 2], (v n).me.p.rets = [] ∧ (v n).me.p.retdepth ≠ 0 ∧ (0x2000 + BitVec.ofNat 64 (8 * (n - 1)) : Word).toNat % 8 = 0 ∧
      (translate (v n).seen (v n).myVf (0x2000 + BitVec.ofNat 64 (8 * (n - 1))) .read).toOption =
        some (.mem (0x2000 + 8 * (n - 1)), [.line 64, .line 0]) ∧ (v n).poisonIn (0x2000 + 8 * (n - 1)) 8 = none) ∧
    leNat ((v 1).bytesAt 0x2000 8) % 4 ≠ 0 ∧ leNat ((v 2).bytesAt 0x2008 8) % 4 = 0 ∧ 2 ^ 48 ≤ leNat ((v 2).bytesAt 0x2008 8) := by decide +kernel

theorem witness_CallPushesReturnAddress_more :
    let u (b : Word) := unit1 [0x2000] { retdepth := 16, rets := List.replicate 16 4, rsbase := b }
    let ro := { u 0x4000 with mem := [(0, 0x03), (1, 0x10), (0x1000, 0x11)] }
    let bad := { u 0x4000 with poison := [64] }
    (∀ s ∈ [u 0x1000000000000, ro, bad], s.me.p.retdepth < 1024 ∧ s.me.p.rets.length = 16 ∧
      (s.me.p.rsbase + BitVec.ofNat 64 (8 * (s.me.p.retdepth - 16))).toNat % 8 = 0) ∧
    translate (u 0x1000000000000).seen (u 0x1000000000000).myVf 0x1000000000000 .write = .error .xlate ∧
    translate ro.seen ro.myVf 0x4000 .write = .error .perm ∧ translate bad.seen bad.myVf 0x4000 .write = .error (.poison 64) := by
  refine ⟨?_, error_of ?_, error_of ?_, error_of ?_⟩ <;> decide +kernel

theorem witness_RepliesReleaseTheTrappedContext_more :
    let x : Ctx := { p := { pc := 0x2000, launchid := 0 }, status := .trapped, trap := some ⟨9, 0, 0, none, none, [], false⟩ }
    let s := { serving .trapped [] with ctxs := [(1, x)], mem := Memory.writeBytes tables 0x2000 (leBytes 4 0x335E4 ++ leBytes 4 0x21030001),
                                         pods := [(32, { somePod with launches := [(0, { someLaunch with lcnt := 5 })] })] }
    ((s.ctx 1).status = .trapped ∧ (s.ctx 1).trap = some ⟨9, 0, 0, none, none, [], false⟩ ∧ (s.cores.find? (fun k => k.2.holds 1)) = none) ∧
    (s.wordAt 1 ((s.ctx 1).p.pc.zeroExtend 64) = some 0x335E4 ∧ isPfxWord 0x335E4 = true ∧
      s.wordAt 1 (((s.ctx 1).p.pc + 4).zeroExtend 64) = some 0x21030001) ∧
    ((0x1000000000000 : Word).toNat % 4 = 0 ∧ 2 ^ 48 ≤ (0x1000000000000 : Word).toNat) ∧
    (1 % 16 ≠ 0 ∧ 1 % 16 ≠ 15 ∧ s.podOf 1 = some 32 ∧ (s.launchOf 1).map (·.det) = some false ∧ (s.launchOf 1).map (·.counters.contains 5) = some true) := by
  decide +kernel

theorem witness_SvcRecvTakesTheOldestTrap_more :
    let s := serving .trapped []
    (Turn s ∧ Settled s) ∧ s.cur % 16 = 0 ∧ (s.core (s.cur / 16)).inbox.find? (fun x => x.kind = .trap && x.consumer = s.cur) = none := by
  refine ⟨turn_settled ?_, ?_⟩ <;> decide +kernel

/-- Tiles that differ in shape, a scaled one, one in CB4, an integer one, and a mask of a shape that none of them has. -/
theorem witness_TileShapeRefusals :
    let all (s : State) (l : List TReg) : Prop := (∀ r ∈ l, (s.tile r).valid = true) ∧ s.confMask.toOption = some ()
    let m := tiled [zeroTile .bf16 3 4, zeroTile .bf16 2 5]
    let sc := tiled [zeroTile .e4m3 2 32 true, zeroTile .fp32 2 32]
    let cb := tiled [zeroTile .cb4 2 32, zeroTile .fp32 2 32]
    let n := tiled [zeroTile .i8 2 4, zeroTile .fp32 2 4]
    let k := tiled [zeroTile .fp32 2 4, zeroTile .fp32 2 4] [⟨1, 1, 1⟩] [] (some underK0)
    (∀ s ∈ [m, sc, cb, n, k], all s [.t 0, .t 1]) ∧
    ((m.tile (.t 0)).rows ≠ (m.tile (.t 1)).rows ∧ (m.tile (.t 0)).rows ≠ 1 ∧ (m.tile (.t 1)).rows ≠ 1 ∧ (m.tile (.t 0)).cols ≠ (m.tile (.t 1)).rows ∧
      (m.tile (.t 0)).rows ≠ (m.tile (.t 1)).cols ∧ (m.src (.tile (.t 1))).fits 3 4 = false) ∧
    ((sc.tile (.t 0)).scaled = true ∧ (cb.tile (.t 0)).fmt = .cb4 ∧ (n.tile (.t 0)).fmt.isInt = true ∧ (n.src (.tile (.t 1))).isInt = false ∧
      (n.srcTile (.t 1)).isInt = false ∧ (n.tile (.t 0)).rows ≠ (redShape .row 2 4).1 + 1) ∧
    (k.pfxMask? = some 0 ∧ k.mask 0 = some ⟨1, 1, 1⟩) := by decide +kernel

/-- Row 1 of a tile load lies in a page without a mapping, without the right, or in a poisoned line. -/
theorem witness_TileLoads_more :
    let t (m : Memory) := { tiled [zeroTile .fp32 2 4] [] [0xFFC0, 64] with mem := m }
    let leaf (b : Byte) : Memory := [(0, 0x03), (1, 0x10), (0x1000, 0x03), (0x1001, 0x20), (0x2000, 0x03), (0x2001, 0x30), (0x3000, 0x1D)] ++
      (if b = 0 then [] else [(0x3008, b), (0x300A, 1)])
    let s := t (leaf 0)
    let q := t (leaf 0x11)
    let p := { t (leaf 0x1D) with poison := [0x400] }
    (TilesReady s [.t 0] ∧ MaskReady s 2 4 ∧ (s.val (.s 1)).toNat % 4 = 0 ∧ (s.val (.s 2)).toNat % 4 = 0) ∧
    (s.rowSegs (s.tile (.t 0)) (rowAddr 0xFFC0 64) (sideAddr 0 (s.tile (.t 0))) 1 = [(0x10000, 16)] ∧
      s.rowSegs (s.tile (.t 0)) (rowAddr 0xFFC0 64) (sideAddr 0 (s.tile (.t 0))) 0 = [(0xFFC0, 16)] ∧ 0x10000 % 65536 + 16 ≤ 65536) ∧
    (Maps s .read 0xFFC0 16 BitVec.toNat ∧ Sound s BitVec.toNat 0xFFC0 16) ∧ translate s.seen s.myVf 0x10000 .read = .error .xlate ∧
    translate q.seen q.myVf 0x10000 .read = .error .perm ∧
    (translate p.seen p.myVf 0x10000 .read = .ok (.mem 0x10000, [.line 192, .line 128, .line 64, .line 0]) ∧ p.poisonIn 0x10000 16 = some 0x400) := by
  refine ⟨⟨ready_of ?_, noPrefix ?_ _ _, ?_⟩, ?_, ⟨maps_of (ls := [.line 192, .line 128, .line 64, .line 0]) ?_ ?_, sound_of ?_ ?_⟩, error_of ?_, error_of ?_, ok_of ?_, ?_⟩ <;>
    decide +kernel

theorem witness_DevicePages :
    let s := deviceState [0x8000, 7]
    (translate s.seen s.myVf (s.val (.s 1)) .read = .ok (.mmio 0x8000, [.line 64, .line 0]) ∧
      translate s.seen s.myVf (s.val (.s 1)) .write = .ok (.mmio 0x8000, [.line 64, .line 0]) ∧ (s.val (.s 1)).toNat % 8 = 0) ∧
    (Turn s ∧ Settled s) ∧ s.replayAnswer s.cur = none ∧ s.podOf s.cur = some 32 ∧ (deviceState [0x8000] true).chunk.isEmpty = false ∧
    (2 ≤ (s.val (.s 2)).toNat % 2 ^ 32 ∧ (s.val (.s 2)).toNat % 2 ^ 32 ≤ 7 ∧ (s.pod 32).vf ≠ 0) := by
  refine ⟨⟨ok_of ?_, ok_of ?_, ?_⟩, turn_settled ?_, ?_⟩ <;> decide +kernel

/-- A request at another chip, with which the policy lets the device exchange: none sent yet, answered, refused, of a poisoned line, kept. -/
theorem witness_RequestsAtAnotherChip :
    let at_ (c : Nat) (f : Ctx → Ctx) : State := { small c (f (running (regs [0x81C0000000000008]))) with
      vfs := [(1, { someVf with policy := some { somePolicy with peers := 8 } })] }
    let s := at_ 1 id
    let k := at_ 15 id
    let v := at_ 1 (fun x => { x with answer := some (.value 9) })
    let w := at_ 1 (fun x => { x with answer := some (.refused 2) })
    let p := at_ 1 (fun x => { x with answer := some (.poisoned 5) })
    let z := at_ 1 (fun x => { x with kept := [.value 9] })
    ([s, v, w, p, z].all (fun s => 2 ^ 63 ≤ (s.val (.s 1)).toNat ∧ (globOf (s.val (.s 1))).chip < 192 ∧ (s.val (.s 1)).toNat % 8 = 0 ∧
      s.globPerm s.myPod (globOf (s.val (.s 1))) = true ∧ (globOf (s.val (.s 1))).off < 2 ^ 21 ∧ s.podOf s.cur = some 32) = true) ∧
    ((s.fePlace true (s.val (.s 1))).toOption = some (.away ⟨3, true, 0, 8⟩) ∧ (k.fePlace true (k.val (.s 1))).toOption = some (.away ⟨3, true, 0, 8⟩)) ∧
    ((Turn s ∧ Settled s) ∧ (Turn k ∧ Settled k) ∧ (Turn v ∧ Settled v) ∧ (Turn w ∧ Settled w)) ∧
    ([s, k].all (fun s => s.me.answer = none ∧ s.replayAnswer s.cur = none ∧ s.me.request = none) = true) ∧ (s.cur % 16 ≠ 15 ∧ k.cur % 16 = 15) ∧
    ([v, w, p].all (fun s => s.me.kept = [] ∧ s.me.kept.length ≤ s.me.taken) = true) ∧ v.me.answer = some (.value 9) ∧ w.me.answer = some (.refused 2) ∧
    p.me.answer = some (.poisoned 5) ∧ (z.me.taken < z.me.kept.length ∧ z.me.kept[z.me.taken]? = some (.value 9)) := by
  refine ⟨?_, ?_, ⟨turn_settled ?_, turn_settled ?_, turn_settled ?_, turn_settled ?_⟩, ?_⟩ <;> decide +kernel

/-- A courier that would wait, and a unit of a deterministic launch whose turn has come. -/
theorem witness_WaitsBuffersAndTimelines_more :
    let put (s : State) : State := { s with
      mem := tables ++ [(0x8000, 4)],
      clusters := [(0, { cbufs := [(3, ⟨0x100, 0x40, 2, 1, [], [0], []⟩), (4, ⟨0x200, 0x40, 2, 0, [], [], []⟩)], engines := [(1, { count := 2 })] })] }
    let k := put (small 15 (running (regs [0x8000, 3])))
    let d := { put (unit1 [0x8000, 3] { launchid := 0 }) with pods := [(32, { somePod with launches := [(0, { someLaunch with det := true })] })] }
    (Turn k ∧ Settled k) ∧ (DetTurn d ∧ DetSettled d) ∧
    (∀ s ∈ [k, d], translate s.seen s.myVf 0x8000 .read = .ok (.mem 0x8000, [.line 64, .line 0])) ∧
    (∀ s ∈ [k, d], s.poisonIn 0x8000 8 = none ∧ ccHolds .geu (BitVec.ofNat 64 (leNat (s.bytesAt 0x8000 8))) (s.val (.s 2)) = true ∧
      ccHolds .ltu (BitVec.ofNat 64 (leNat (s.bytesAt 0x8000 8))) (s.val (.s 2)) = false ∧
      (s.cluster 0).cbuf? 4 = some ⟨0x200, 0x40, 2, 0, [], [], []⟩ ∧ ((s.cluster 0).engine 1).err = false ∧ ((s.cluster 0).engine 1).held = [] ∧
      ((s.cluster 0).engine 1).count < (s.val (.s 2)).toNat % 2 ^ 56 ∧ (s.val (.s 0)).toNat % 2 ^ 56 ≤ ((s.cluster 0).engine 1).count ∧
      (s.core 0).first .ordinary s.cur = none) ∧ k.cur % 16 = 15 ∧ d.cur % 16 ≠ 15 := by
  refine ⟨turn_settled ?_, ⟨⟨?_, ?_, ?_, ?_, ?_, fun n => ?_, fun p hp => ?_⟩, ?_, ?_, ?_, ?_, fun n => ?_⟩, fun s hs => ok_of ?_, ?_⟩
  case refine_7 => exact dies_quiet rfl n
  case refine_8 => cases hp; decide +kernel
  case refine_12 => exact fun n => aget_all (P := fun x : Core => x.heap = []) rfl (by decide +kernel) n
  case refine_13 => exact aget_all (P := fun x : Cluster => x.queue = [] ∧ x.parked = []) ⟨rfl, rfl⟩ (by decide +kernel) n
  case refine_14 =>
    simp only [List.mem_cons, List.not_mem_nil, or_false] at hs
    rcases hs with rfl | rfl <;> decide +kernel
  all_goals decide +kernel

/-- A deterministic wait whose limit key is free, and one that another context's key precedes. -/
theorem witness_OperationsWaitsAndProbesEnd_more :
    let w : Waiting := { on := .cbuf 3, w2 := 9, ops := [], start := 0, clock := 0, limit := 100, det := true }
    let u (n : Nat) : Ctx := { running { launchid := 0 } with clock := n }
    let s (n : Nat) : State := { small 1 {} with
      ctxs := [(1, { status := .blocked, wait := some w, p := { launchid := 0 } }), (2, u n)], pods := [(32, { somePod with launches := [(0, { someLaunch with det := true })] })],
      clusters := [(0, { cbufs := [(3, ⟨0, 64, 1, 0, [], [], []⟩)] })] }
    (∀ n ∈ [50, 200], ((s n).ctx 1).status = .blocked ∧ ((s n).ctx 1).wait = some w ∧ ((s n).ctx 1).chunk = none ∧ ((s n).ctx 1).pending = none ∧
      (s n).podOf 1 = some 32 ∧ (s n).ticket = none ∧ ((s n).core 0).stopped = false ∧ ((s n).die 0).relock = none ∧ (s n).satisfied 1 w.on = false ∧
      (s n).detRunning 32 = true) ∧ (s 50).keyFree 32 (0 + 100) 1 = false ∧ (s 200).keyFree 32 (0 + 100) 1 = true := by decide +kernel

/-- A copy whose next line stands in two source lines, of which it reads the first. -/
theorem witness_EngineEvents_reads :
    let r : Run := { cmd := someCmd someCopy, jobs := [⟨.spm 0x100, [(0, .sp 0x3F), (1, .sp 0x40)]⟩] }
    let s := engState { run := some r }
    let y := s.setEngine 0 2 { run := some { r with part := [(0, 0)] } }
    let u := y.setCluster 0 { y.cluster 0 with activity := (y.cluster 0).activity + 1 }
    Calm s ∧ r.toRead [(0, .sp 0x3F), (1, .sp 0x40)] = [(0, .sp 0x3F)] ∧ s.hostLines 0 r [(0, .sp 0x3F)] = [] ∧
    (s.jobBytes 0 r [(0, .sp 0x3F)]).toOption = some [(0, 0)] ∧ u.afterEngine 0 2 = u := by
  refine ⟨calm_of ?_, ?_⟩ <;> decide +kernel

/-- The next link sequence, another one, pods that record nothing, and a host that reaches the registers or does not. -/
theorem witness_LinksAndRegisters :
    let s := unit1 []
    ((0 : BitVec 12).toNat = (s.port 0).rxSeq ∧ (1 : BitVec 12).toNat ≠ (s.port 0).rxSeq ∧ (∀ p ∈ s.pods, p.2.full = false ∧ p.2.asked = []) ∧
      (∀ p, s.podOf 1 = some p → ∀ z ∈ (s.pod p).records, z.answers 1 = false)) ∧
    ((s.powered = true ∧ s.faultCode ≠ 3) ∧ ({ s with faultCode := 3 } : State).faultCode = 3 ∧ (0x10 : Nat) < 2064 ∧ (s.queue 16).en = false ∧
      ({ s with queues := [(16, { en := true })] } : State).queue 16 = { en := true }) := by
  refine ⟨⟨?_, ?_, ?_, fun p hp => ?_⟩, ?_⟩
  case refine_4 => cases hp; decide +kernel
  all_goals decide +kernel

/-! ## The worked results of the spec, one step each -/

/-- What `f` sees after `i` in state `s`. -/
def after {α : Type} (i : Instr) (s : State) (f : State → α) : Option α :=
  match exec i s with
  | .next t => some (f t)
  | _ => none

/-- 04, after R84. -/
theorem test_scalar_results :
    let s := unit1 [7, 0xFFFFFFFFFFFFFFFE, 0x8000000000000000, 0xFFFFFFFFFFFFFFFF, 0x7FFFFFFFFFFFFFFF, 1, 5]
    let r (i : Instr) := after i s (fun t => t.val (.s 9))
    r (.div (.s 9) (.s 1) (.s 2)) = some 0xFFFFFFFFFFFFFFFD ∧ r (.rem (.s 9) (.s 1) (.s 2)) = some 1 ∧
    r (.div (.s 9) (.s 7) (.s 0)) = some 0xFFFFFFFFFFFFFFFF ∧ r (.rem (.s 9) (.s 7) (.s 0)) = some 5 ∧
    r (.div (.s 9) (.s 3) (.s 4)) = some 0x8000000000000000 ∧ r (.rem (.s 9) (.s 3) (.s 4)) = some 0 ∧
    r (.mulh (.s 9) (.s 4) (.s 4)) = some 0 ∧ r (.mulhu (.s 9) (.s 4) (.s 4)) = some 0xFFFFFFFFFFFFFFFE ∧
    r (.add (.s 9) (.s 5) (.s 6)) = some 0x8000000000000000 := by decide +kernel

/-- 04, after R84: the same sum under a prefix with SAT. -/
theorem test_saturating_add :
    after (.add (.s 9) (.s 1) (.s 2)) (unit1 [0x7FFFFFFFFFFFFFFF, 1] { tstat := { pp := true, pfx := BitVec.ofNat 32 { underK0 with sat := true, mask := 0 }.word } })
      (fun t => (t.val (.s 9), t.me.p.flags)) = some (0x7FFFFFFFFFFFFFFF, 0b10000) := by decide +kernel

/-- 06, after R146: I8 sums that saturate under a mask, and that wrap without a prefix. -/
theorem test_int_add :
    let b (l : List Int) := l.map (fun x => (x % 256).toNat)
    let t0 := { zeroTile .i8 2 4 with elems := b [100, -100, 5, 127, 1, 2, 3, 4] }
    let t1 := { zeroTile .i8 1 4 with elems := b [50, -50, -10, 1] }
    let i : Instr := .tadd (.t 2) (.tile (.t 0)) (.tile (.t 1))
    after i (tiled [t0, t1, zeroTile .i8 2 4] [⟨2, 4, 15⟩] [] (some { underK0 with sat := true })) (fun t => ((t.tile (.t 2)).elems, t.me.p.flags)) =
      some (b [127, -128, -5, 127, 0, 0, 0, 0], 0b10000) ∧
    after i (tiled [t0, t1, zeroTile .i8 2 4]) (fun t => ((t.tile (.t 2)).elems, t.me.p.flags)) = some (b [-106, 106, -5, -128, 51, -48, -7, 5], 0) := by
  decide +kernel

/-- 05, after R127: an FP32 add under RDN and under RNE. -/
theorem test_float_add :
    let t0 := { zeroTile .fp32 2 2 with elems := [0x3F800000, 0x00800000, 0x7F400000, 0x7FC00000] }
    let t1 := { zeroTile .fp32 2 2 with elems := [0xBF800000, 0x80400000, 0x7F400000, 0x7F800000] }
    let r (q : Rm) := after (.tadd (.t 2) (.tile (.t 0)) (.tile (.t 1)))
      (unit1 [] { rmode := q, tiles := Vector.ofFn (fun i => [t0, t1, zeroTile .fp32 2 2].getD i.val {}) }) (fun t => ((t.tile (.t 2)).elems, t.me.p.flags))
    r .rdn = some ([0x80000000, 0x00400000, 0x7F7FFFFF, 0x7FC00000], 0b01010 ||| 0b00010) ∧
    r .rne = some ([0x00000000, 0x00400000, 0x7F800000, 0x7FC00000], 0b01010) := by decide +kernel

/-- 06, after R145: the exact sum rounds once. -/
theorem test_reduction :
    after (.tredSum (.tile (.t 1)) (.t 0) .row) (tiled [{ zeroTile .fp32 1 4 with elems := [0x4B800000, 0x3F800000, 0x3F800000, 0x3F800000] }, zeroTile .fp32 1 1])
      (fun t => ((t.tile (.t 1)).elems, t.me.p.flags)) = some ([0x4B800002], 0b01000) := by decide +kernel

/-- 05, after R126: a conversion into scaled E2M1. -/
theorem test_scaled_conversion :
    after (.tcvt (.tile (.t 1)) (.tile (.t 0)) false)
      (tiled [{ zeroTile .fp32 1 32 with elems := [0x41200000, 0x40400000, 0x3F400000, 0x3E800000, 0xC0E00000] ++ List.replicate 27 0 }, zeroTile .e2m1 1 32 true])
      (fun t => ((t.tile (.t 1)).elems.take 6, (t.tile (.t 1)).side, t.me.p.flags)) = some ([0x6, 0x3, 0x1, 0x0, 0xE, 0x0], [0x80], 0b01100) := by decide +kernel

/-- 07, after R174: one rounding of the accumulator per block. -/
theorem test_mma_blocks :
    let row (a b : Nat) := (a :: List.replicate 31 0) ++ (b :: List.replicate 31 0) ++ List.replicate 960 0
    let t1 := { zeroTile .e2m1 16 64 true with elems := row 1 1, side := [0x7F, 0x80] ++ List.replicate 30 0x7F }
    let t2 := { zeroTile .e2m1 16 64 true with elems := row 4 2, side := List.replicate 32 0x7F }
    let t0 := { zeroTile .fp32 16 16 with elems := 0x4B800000 :: List.replicate 255 0 }
    after (.mma (.t 0) (.t 1) (.t 2) ⟨.e2m1, .e2m1, true⟩) (withTokens (tiled [t0, t1, t2] [⟨16, 16, 1⟩] [] (some underK0)) 32 true)
      (fun t => ((t.tile (.t 0)).enc 0 0, t.me.p.flags)) = some (0x4B800000, 0b01000) := by decide +kernel

/-- 08: column 15 of a 16 × 16 tile whose element (i, j) is 16i + j. -/
theorem test_column :
    after (.tcolGet (.t 1) (.t 0) (.s 1) 0) (tiled [{ zeroTile .fp32 16 16 with elems := List.range 256 }, zeroTile .fp32 1 16] [] [15])
      (fun t => (t.tile (.t 1)).elems) = some ((List.range 16).map (fun r => 16 * r + 15)) := by decide +kernel

/-- 06, after R151: the message of a `tld` whose row 8 lies in a page that stage 1 does not map (here in context 1, whose chunk is empty). -/
theorem test_partial_load_message :
    let s := { tiled [{}, zeroTile .fp32 16 16] [] [0xFE00, 64] with mem := [(0, 0x03), (1, 0x10), (0x1000, 0x03), (0x1001, 0x20), (0x2000, 0x03), (0x2001, 0x30), (0x3000, 0x1D)] }
    after (.tld (.t 1) (.s 1) (.s 2) (.s 0) 0 false) s (fun t => (t.me.trap.map (fun m => m.words 1 false), t.me.status)) =
      some (some [0x800106, 0, 0x10000, 0x108, 0xE1002010, 0xFE00, 64, 0], .trapped) := by decide +kernel

/-- 10, after R228: the bytes that the routing example writes at b. -/
theorem test_route :
    let spm := Memory.writeBytes [] 0x1000 ([1, 0, 1, 2, 1, 0, 2, 0xFFFF].flatMap (leBytes 2))
    let cmd : Cmd := { seq := 1, kind := .route 0x1000 0x2000 2 4 3 2, ctx := 1, slot := 0, spbase := 0, spsize := 0x200000, cb := Vector.replicate 16 0, bank := 0xFFFFFFFFFFFFFFFF, det := false }
    let s := { small 1 {} with clusters := [(0, { spm := spm, engines := [(2, { store := [cmd] })] })] }
    after (.engineCommandStart 0 2) s (fun t => match (t.engine 0 2).run with
      | some r => r.jobs.flatMap (fun j => match j.dest with
          | .spm o => j.bytes.map (fun b => (o + b.1, match b.2 with | .lit v => v | _ => 0))
          | _ => [])
      | none => []) =
      some ((List.range 44).map (0x2000 + ·) |>.zip ([2, 2, 2, 0x10000, 0x10002, 0, 1, 0x10001, 3, 1, 2].flatMap (leBytes 4))) := by decide +kernel

end Sys2Proof.Tests
end

section
/-! The words of instructions (02 R44–R63): the encoder's words decode to what they were made from, and the worked encodings of the spec. -/

namespace Sys2Proof.Proofs.Formats
open Sys2Proof.Laws

/-- The round trip of the words, for every instruction: each constructor's own lemma, and nothing to show of an event. -/
theorem decode_encode (i : Instr) : Enc.Statement i := by
  cases i with
  | stop => exact Enc.stop
  | pad => exact Enc.pad
  | elementPrefix p => exact Enc.elementPrefix p
  | add d a b => exact Enc.add d a b
  | sub d a b => exact Enc.sub d a b
  | mul d a b => exact Enc.mul d a b
  | mulh d a b => exact Enc.mulh d a b
  | mulhu d a b => exact Enc.mulhu d a b
  | div d a b => exact Enc.div d a b
  | divu d a b => exact Enc.divu d a b
  | rem d a b => exact Enc.rem d a b
  | remu d a b => exact Enc.remu d a b
  | and d a b => exact Enc.and d a b
  | or d a b => exact Enc.or d a b
  | xor d a b => exact Enc.xor d a b
  | andn d a b => exact Enc.andn d a b
  | shl d a b => exact Enc.shl d a b
  | shr d a b => exact Enc.shr d a b
  | sar d a b => exact Enc.sar d a b
  | rotl d a b => exact Enc.rotl d a b
  | min d a b => exact Enc.min d a b
  | max d a b => exact Enc.max d a b
  | minu d a b => exact Enc.minu d a b
  | maxu d a b => exact Enc.maxu d a b
  | clz d a => exact Enc.clz d a
  | ctz d a => exact Enc.ctz d a
  | popc d a => exact Enc.popc d a
  | mov d a => exact Enc.mov d a
  | addi d a imm => exact Enc.addi d a imm
  | andi d a imm => exact Enc.andi d a imm
  | ori d a imm => exact Enc.ori d a imm
  | xori d a imm => exact Enc.xori d a imm
  | shli d a sh => exact Enc.shli d a sh
  | ext d a pos wm1 sx => exact Enc.ext d a pos wm1 sx
  | ins d a pos wm1 => exact Enc.ins d a pos wm1
  | cmpEq d a b => exact Enc.cmpEq d a b
  | cmpNe d a b => exact Enc.cmpNe d a b
  | cmpLt d a b => exact Enc.cmpLt d a b
  | cmpLtu d a b => exact Enc.cmpLtu d a b
  | cmpLe d a b => exact Enc.cmpLe d a b
  | cmpLeu d a b => exact Enc.cmpLeu d a b
  | li d imm => exact Enc.li d imm
  | addr d a b sh off => exact Enc.addr d a b sh off
  | sel d a b x => exact Enc.sel d a b x
  | bEq a b off => exact Enc.bEq a b off
  | bNe a b off => exact Enc.bNe a b off
  | bLt a b off => exact Enc.bLt a b off
  | bGe a b off => exact Enc.bGe a b off
  | bLtu a b off => exact Enc.bLtu a b off
  | bGeu a b off => exact Enc.bGeu a b off
  | bz a off => exact Enc.bz a off
  | bnz a off => exact Enc.bnz a off
  | br off => exact Enc.br off
  | call off => exact Enc.call off
  | jmp a => exact Enc.jmp a
  | calli a => exact Enc.calli a
  | ret => exact Enc.ret
  | nop => exact Enc.nop
  | loop a off => exact Enc.loop a off
  | mfs d sr => exact Enc.mfs d sr
  | mts a sr => exact Enc.mts a sr
  | trap imm => exact Enc.trap imm
  | svcRecv d => exact Enc.svcRecv d
  | svcReply a b reply => exact Enc.svcReply a b reply
  | svcRd d a space n => exact Enc.svcRd d a space n
  | svcWr a b space n => exact Enc.svcWr a b space n
  | tcfg d c => exact Enc.tcfg d c
  | tzero d => exact Enc.tzero d
  | tfill d a => exact Enc.tfill d a
  | tmov d a => exact Enc.tmov d a
  | trowGet d a b idx => exact Enc.trowGet d a b idx
  | trowPut d a b idx => exact Enc.trowPut d a b idx
  | tcolGet d a b idx => exact Enc.tcolGet d a b idx
  | tcolPut d a b idx => exact Enc.tcolPut d a b idx
  | ttrans d a => exact Enc.ttrans d a
  | tbcast d a => exact Enc.tbcast d a
  | tcvt d a sc => exact Enc.tcvt d a sc
  | tsclGet d a => exact Enc.tsclGet d a
  | tsclPut d a => exact Enc.tsclPut d a
  | kedge d a b => exact Enc.kedge d a b
  | kand d a b => exact Enc.kand d a b
  | kor d a b => exact Enc.kor d a b
  | knot d a => exact Enc.knot d a
  | kxor d a b => exact Enc.kxor d a b
  | kcnt d a => exact Enc.kcnt d a
  | tld d a b x off nt => exact Enc.tld d a b x off nt
  | tst d a b x off nt => exact Enc.tst d a b x off nt
  | tldm d a b x off => exact Enc.tldm d a b x off
  | tstm d a b x off => exact Enc.tstm d a b x off
  | tcbLd n a off => exact Enc.tcbLd n a off
  | tadd d a b => exact Enc.tadd d a b
  | tsub d a b => exact Enc.tsub d a b
  | tmul d a b => exact Enc.tmul d a b
  | tdiv d a b => exact Enc.tdiv d a b
  | tmax d a b => exact Enc.tmax d a b
  | tmin d a b => exact Enc.tmin d a b
  | tfma d a b x => exact Enc.tfma d a b x
  | tsel d a b k => exact Enc.tsel d a b k
  | tsqrt d a => exact Enc.tsqrt d a
  | trsqrt d a => exact Enc.trsqrt d a
  | trcp d a => exact Enc.trcp d a
  | texp2 d a => exact Enc.texp2 d a
  | tlog2 d a => exact Enc.tlog2 d a
  | tabs d a => exact Enc.tabs d a
  | tneg d a => exact Enc.tneg d a
  | tcmpEq d a b => exact Enc.tcmpEq d a b
  | tcmpNe d a b => exact Enc.tcmpNe d a b
  | tcmpLt d a b => exact Enc.tcmpLt d a b
  | tcmpLe d a b => exact Enc.tcmpLe d a b
  | tcmpGt d a b => exact Enc.tcmpGt d a b
  | tcmpGe d a b => exact Enc.tcmpGe d a b
  | tredSum d a axis => exact Enc.tredSum d a axis
  | tredMax d a axis => exact Enc.tredMax d a axis
  | tredMin d a axis => exact Enc.tredMin d a axis
  | mma d a b f => exact Enc.mma d a b f
  | mmaSa d a b f km1 pa => exact Enc.mmaSa d a b f km1 pa
  | mmaSb d a b f km1 pb => exact Enc.mmaSb d a b f km1 pb
  | mmaSs d a b f km1 pa pb => exact Enc.mmaSs d a b f km1 pa pb
  | mmaZ d a b f => exact Enc.mmaZ d a b f
  | ldB d a off => exact Enc.ldB d a off
  | ldBu d a off => exact Enc.ldBu d a off
  | ldH d a off => exact Enc.ldH d a off
  | ldHu d a off => exact Enc.ldHu d a off
  | ldW d a off => exact Enc.ldW d a off
  | ldWu d a off => exact Enc.ldWu d a off
  | ldD d a off => exact Enc.ldD d a off
  | stB a b off => exact Enc.stB a b off
  | stH a b off => exact Enc.stH a b off
  | stW a b off => exact Enc.stW a b off
  | stD a b off => exact Enc.stD a b off
  | sld d a sz sx off => exact Enc.sld d a sz sx off
  | sst a b sz off => exact Enc.sst a b sz off
  | ldbit d a wm1 sx boff => exact Enc.ldbit d a wm1 sx boff
  | stbit a b wm1 boff => exact Enc.stbit a b wm1 boff
  | rld d a off => exact Enc.rld d a off
  | rst a b off => exact Enc.rst a b off
  | amSend a b x y hid => exact Enc.amSend a b x y hid
  | pfL1 a off => exact Enc.pfL1 a off
  | pfL2 a off => exact Enc.pfL2 a off
  | cbufTake d a m => exact Enc.cbufTake d a m
  | cbufGive a m => exact Enc.cbufGive a m
  | amoAdd d a b off => exact Enc.amoAdd d a b off
  | amoAnd d a b off => exact Enc.amoAnd d a b off
  | amoOr d a b off => exact Enc.amoOr d a b off
  | amoXor d a b off => exact Enc.amoXor d a b off
  | amoMin d a b off => exact Enc.amoMin d a b off
  | amoMax d a b off => exact Enc.amoMax d a b off
  | amoSwap d a b off => exact Enc.amoSwap d a b off
  | amoCas d a b x off => exact Enc.amoCas d a b x off
  | redAdd a b rf off => exact Enc.redAdd a b rf off
  | redMax a b rf off => exact Enc.redMax a b rf off
  | redMin a b rf off => exact Enc.redMin a b rf off
  | fePut a b g woff => exact Enc.fePut a b g woff
  | feTake d a g woff => exact Enc.feTake d a g woff
  | fePeek d a g ps woff => exact Enc.fePeek d a g ps woff
  | fenceCore => exact Enc.fenceCore
  | fenceCluster => exact Enc.fenceCluster
  | fencePod => exact Enc.fencePod
  | fencePackage => exact Enc.fencePackage
  | fenceSystem => exact Enc.fenceSystem
  | waitMem a b cc woff => exact Enc.waitMem a b cc woff
  | cpyQ d a b f shp => exact Enc.cpyQ d a b f shp
  | cpyQCfg d a b cbn e => exact Enc.cpyQCfg d a b cbn e
  | cpyQClear d e => exact Enc.cpyQClear d e
  | cpyFm d a b f shp fo => exact Enc.cpyFm d a b f shp fo
  | routeQ d a b e km1 t em1 c => exact Enc.routeQ d a b e km1 t em1 c
  | collQ d a b e ck bf16 g n cid => exact Enc.collQ d a b e ck bf16 g n cid
  | tlWait a e => exact Enc.tlWait a e
  | tlRead d e sl => exact Enc.tlRead d e sl
  | launch d a => exact Enc.launch d a
  | yield => exact Enc.yield
  | park a z woff => exact Enc.park a z woff
  | hop a dir => exact Enc.hop a dir
  | exit => exact Enc.exit
  | commit => exact Enc.commit
  | ctxStartRecord d a b => exact Enc.ctxStartRecord d a b
  | ctxStartNext d a => exact Enc.ctxStartNext d a
  | ctxStartMode d b => exact Enc.ctxStartMode d b
  | ctxStartResume d a => exact Enc.ctxStartResume d a
  | ctxStop d a => exact Enc.ctxStop d a
  | ctxReap d a b rq => exact Enc.ctxReap d a b rq
  | send a b tag => exact Enc.send a b tag
  | recv d a off => exact Enc.recv d a off
  | gangForm a tag => exact Enc.gangForm a tag
  | gangJoin tag => exact Enc.gangJoin tag
  | gangLeave => exact Enc.gangLeave
  | cancelLaunch a c => exact Enc.cancelLaunch a c
  | cancelGraph a c => exact Enc.cancelGraph a c
  | cancelPhase a c => exact Enc.cancelPhase a c
  | cancelJob a c => exact Enc.cancelJob a c
  | cntRead d a => exact Enc.cntRead d a
  | hmq d a => exact Enc.hmq d a
  | _ => exact Enc.event _ rfl

/-- The header of every form says 1, 2 or 3 words above the first (02 R45, R46). -/
theorem raw_len (i : Instr) : i.raw.all (fun r => 1 ≤ r.len && r.len ≤ 3) = true := by cases i <;> rfl

/-- LEN of the first word of some fields is their `len`. -/
theorem lenWords_words (r : Raw) (h : r.len < 4) : lenWords (r.words.headD 0) = r.len + 1 := by
  unfold lenWords Raw.words
  rw [List.cons_append, List.cons_append, List.cons_append, List.headD_cons, len_words _ _ _ _ _ _ h]

theorem length_words (r : Raw) (h1 : 1 ≤ r.len) (h3 : r.len ≤ 3) : r.words.length = r.len + 1 := by
  unfold Raw.words
  rw [List.length_append, List.length_append, apply_ite List.length, apply_ite List.length]
  simp only [List.length_cons, List.length_nil]
  split <;> split <;> omega

/-- A PFX word stands alone (02 R54). -/
theorem lenWords_pfx (p : Pfx) : lenWords p.word = 1 := by
  have h : bits p.word 0 2 = 0 := by
    simp only [Pfx.word, bits, Nat.reducePow]; omega
  rw [lenWords, h]

/-- LEN of the first word counts the words of an encoding (02 R45). -/
theorem length_encode (i : Instr) : i.isEvent = false → (encode i).length = lenWords ((encode i).headD 0) := by
  unfold Instr.isEvent encode
  split
  next => exact fun _ => rfl
  next => exact fun _ => rfl
  next p => rw [List.headD_cons, lenWords_pfx]; exact fun _ => rfl
  next =>
    have hl := raw_len i
    cases hr : i.raw with
    | none => exact fun h => nomatch h
    | some r =>
      simp only [hr, Option.all_some, Bool.and_eq_true, decide_eq_true_eq] at hl
      obtain ⟨h1, h3⟩ := hl
      exact fun _ => (length_words r h1 h3).trans (lenWords_words r (by omega)).symm

/-- Settles O57, by the round trip of each constructor and the length that the header says. -/
theorem decodeEncodeAgree : Obligations.DecodeEncodeAgree := fun i hw he =>
  ⟨decode_encode i hw he, congrArg (4 * ·) (length_encode i he)⟩

/-- Settles O56: the words that the spec writes out for one instruction each (02 after R61,
06 R134 and R148, 10, 11) decode by computation, and the ILLEGAL words to none. -/
theorem decodeWords : Obligations.DecodeWords := by
  refine ⟨rfl, rfl, rfl, rfl, rfl, rfl, rfl, rfl, rfl, rfl, rfl, rfl, rfl, rfl, ⟨_, rfl, rfl⟩, ?_⟩
  simp only [List.forall_mem_cons, List.not_mem_nil, false_implies, implies_true, and_true]
  exact ⟨⟨_, rfl⟩, ⟨_, rfl⟩, ⟨_, rfl⟩, ⟨_, rfl⟩, ⟨_, rfl⟩⟩

end Sys2Proof.Proofs.Formats
end

section
/-! A step (02 R58–R61, R65, 12 R236): what is due, what a core issues, and what fetch answers. -/

namespace Sys2Proof.Proofs.Formats

open Sys2Proof.Machine

/-- The walk of a fetch enters reads and changes no register (09 R181). -/
theorem xlateFetch_p {s x : State} {va : Word} {t : Target} (h : s.xlateFetch va = .ok (t, x)) : x.me.p = s.me.p := by
  unfold State.xlateFetch at h
  split at h
  next => cases h
  next => cases h; exact (quiet_note s _).p

/-- `i` may be executed in the state `x` in which it has been fetched: what PFX and the handler's limit allow (02 R58, R59, 12 R254). -/
def FetchLegal (x : State) (i : Instr) : Prop :=
  i = .stop ∨ (x.pfx? = none ∧ ∃ p, i = .elementPrefix p) ∨ (x.handlerFull = false ∧ ((x.pfx? = none ∧ i.acceptsNone = true) ∨
    ∃ q, x.pfx? = some q ∧ i.accepts q = true ∧ i ≠ .pad ∧ ∀ p, i ≠ .elementPrefix p))

theorem fetch_runoff {s : State} (h : s.me.p.codelim.toNat ≤ s.me.p.pc.toNat) : s.fetch = .fault .runoff := by
  unfold State.fetch
  exact if_pos h

/-- Fetch answers the instruction at a `PC` that translates to memory, if it lies in its block and below CODELIM and is legal there (02 R60,
R61). A PFX word at the end of a block does not fit there with its instruction, so ALIGN is not met. -/
theorem fetch_instr {s x : State} {pa : Nat} {i : Instr} (hpc : s.me.p.pc.toNat < s.me.p.codelim.toNat)
    (hx : s.xlateFetch (s.me.p.pc.zeroExtend 64) = .ok (.mem pa, x))
    (hblk : s.me.p.pc.toNat % 32 + fetchLen (x.codeWord pa) (x.codeWord (pa + 4)) ≤ 32)
    (hlim : s.me.p.pc.toNat + fetchLen (x.codeWord pa) (x.codeWord (pa + 4)) ≤ s.me.p.codelim.toNat)
    (hd : decode (x.codeWords pa) = .ok i) (hlegal : FetchLegal x i) : s.fetch = .instr i x := by
  have halign : ¬ (isPfxWord (x.codeWord pa) && decide (s.me.p.pc.toNat % 32 = 28)) = true := by
    intro h
    simp only [Bool.and_eq_true, decide_eq_true_eq] at h
    obtain ⟨hp, h28⟩ := h
    rw [fetchLen, if_pos hp, lenWords] at hblk
    omega
  unfold State.fetch
  dsimp only
  rw [if_neg (by omega), show s.xlateFetch (zext s.me.p.pc) = _ from hx]
  dsimp only
  rw [if_neg halign, if_neg (by omega), xlateFetch_p hx, if_neg (by omega), hd]
  dsimp only
  rcases hlegal with rfl | ⟨hp, p, rfl⟩ | ⟨hf, ⟨hp, ha⟩ | ⟨q, hp, ha, hpad, hpfx⟩⟩
  · rfl
  · rw [hp]
  · rw [hp]
    split
    next => rfl
    next => rfl
    next h => cases h
    next h => cases h
    next => exact if_neg (by rw [hf]; exact Bool.false_ne_true)
    next => exact if_pos (by rw [ha, hf]; rfl)
    next h => cases h
  · rw [hp]
    split
    next => rfl
    next h => cases h
    next => exact absurd rfl hpad
    next => exact absurd rfl (hpfx _)
    next h => cases h
    next h => cases h
    next h => cases h; exact if_pos (by rw [ha, hf]; rfl)

/-! ## What a step comes to (log 2) -/

theorem now_of_agenda {s : State} {d : Due} {rest : List Due} (h : s.agenda = d :: rest) :
    s.now = State.due { s.tick with agenda := rest } d := by
  unfold State.now
  rw [h]

theorem step_of_run {s t : State} {i : Instr} (h : s.now = .run i t) : step s = exec i t := by
  unfold step
  rw [h]

theorem step_of_rest {s t : State} (h : s.now = .rest (.next t)) : step s = .next t := by
  unfold step
  rw [h]

/-- A core whose die relocks does nothing in the cycle (01 R42). -/
theorem coreCycle_relock {s : State} {k : Nat} (h : (s.die (dieOf (k * 16))).relock ≠ none) : s.coreCycle k = .rest (.next s) :=
  if_pos (Option.isSome_iff_ne_none.mpr h)

/-- A core whose die runs counts the cycle, then drains its inbox or issues what it chooses (12 R236, R255). -/
theorem coreCycle_runs {s w : State} {k : Nat} (h : (s.die (dieOf (k * 16))).relock = none)
    (hw : w = s.setCore k { s.core k with cycle := (s.core k).cycle + 1 }) :
    (w.choose k = none → s.coreCycle k = .rest (.next w)) ∧
    ∀ c, w.choose k = some c → (w.drains c = true → s.coreCycle k = .run (.inboxDrain k) (w.markIssue c)) ∧
      (w.drains c = false → s.coreCycle k = w.issue c) := by
  have hrun : ¬ (s.die (dieOf (k * 16))).relock.isSome = true := by rw [h]; exact Bool.false_ne_true
  subst hw
  unfold State.coreCycle
  rw [if_neg hrun]
  dsimp only
  refine ⟨fun hn => by rw [hn], fun c hc => ?_⟩
  rw [hc]
  exact ⟨fun hd => if_pos hd, fun hd => if_neg (by rw [hd]; exact Bool.false_ne_true)⟩

/-- Where the end trace of a replay cuts nothing off, a context issues what fetch answers. -/
theorem issue_of_fault {s : State} {c : Nat} {f : FetchFault} (h : s.recordedCut c = none) (hf : (s.startIssue c).fetch = .fault f) :
    s.issue c = .run (.fetchFault f) (s.startIssue c) := by
  unfold State.issue
  rw [h, hf]

theorem issue_of_instr {s x : State} {c : Nat} {i : Instr} (h : s.recordedCut c = none) (hf : (s.startIssue c).fetch = .instr i x) :
    s.issue c = .run i x := by
  unfold State.issue
  rw [h, hf]

/-- Settles O58, from what a cycle of a core comes to and what fetch answers at the `PC`. -/
theorem stepRunsTheDecodedInstruction : Obligations.StepRunsTheDecodedInstruction := by
  intro s rest u
  refine ⟨fun i h => step_of_run (now_of_agenda h), fun k h hr => step_of_rest ((now_of_agenda h).trans (coreCycle_relock hr)), ?_⟩
  intro k h hr w
  have hnow : s.now = u.coreCycle k := now_of_agenda h
  obtain ⟨hidle, hchosen⟩ := coreCycle_runs hr (w := w) rfl
  refine ⟨fun hn => step_of_rest (hnow.trans (hidle hn)), fun c hc hd => step_of_run (hnow.trans ((hchosen c hc).1 hd)), ?_⟩
  intro c hc hd hcut v pc
  have hissue : s.now = w.issue c := hnow.trans ((hchosen c hc).2 hd)
  refine ⟨fun hlim => step_of_run (hissue.trans (issue_of_fault hcut (fetch_runoff hlim))), ?_⟩
  intro pa x i hpc hx n hblk hlim hdec hlegal
  exact step_of_run (hissue.trans (issue_of_instr hcut (fetch_instr hpc hx hblk hlim hdec hlegal)))

end Sys2Proof.Proofs.Formats
end

section
/-! Boundary instructions (09 R178) in free mode: the chunk before them, their turn, and the fences (10 R207–R209, 15 R309). -/

namespace Sys2Proof.Proofs.Formats

open Sys2Proof.Machine

/-! ## Before its turn a boundary instruction ends the open chunk -/

/-- Giving a latched PFX back changes the registers and the chunk of the executing context alone (02 R59). -/
theorem own_unpair (s : State) : Own s s.unpair := by
  unfold State.unpair
  split
  · exact own_trans (own_setP s _) (own_setChunk _ _)
  · exact own_refl s

theorem unpair_of_unpaired {s : State} (h : s.chunk.paired = false) : s.unpair = s := by
  unfold State.unpair
  rw [h]
  rfl

theorem chunk_of_none {s : State} (h : s.me.chunk = none) : s.chunk = s.newChunk s.cur := by
  unfold State.chunk State.chunkOf
  rw [show (s.ctx s.cur).chunk = none from h]
  rfl

/-- A chunk that holds something is open. -/
theorem openChunk_of_nonempty {s : State} (h : s.chunk.isEmpty = false) : s.openChunk = s := by
  unfold State.openChunk
  split
  next => rfl
  next hc =>
    rw [chunk_of_none hc] at h
    cases h

/-- A boundary instruction whose checks pass ends a chunk that holds something (09 R178). -/
theorem single_endsFirst {s v : State} {i : Instr} {ops : List Opnd} {pre f : State → Res} {fin : State → Nat → State}
    {prep : Stop → State → State} (he : exec i s = single s ops pre f fin prep) (hp : pre s.openChunk = .ok v)
    (h : s.chunk.isEmpty = false) : EndsFirst i s := by
  refine ⟨s.endChunk .boundary, ?_, ?_⟩
  · rw [he]
    unfold single
    dsimp only
    rw [hp, openChunk_of_nonempty h]
    exact if_pos (by rw [h]; rfl)
  · let x : Ctx := { s.unpair.me with chunk := some { s.unpair.chunk with ended := some .boundary }, status := .out .commit }
    show Own s (s.unpair.setMe x) ∧ (s.unpair.setMe x).me.p = _ ∧ (s.unpair.setMe x).me.status = _ ∧ ∃ k, (s.unpair.setMe x).me.chunk = some k ∧ _
    rw [State.me_setMe]
    exact ⟨own_trans (own_unpair s) (own_setMe _ x rfl), rfl, rfl, _, rfl, rfl⟩

/-! ## At its turn: the effect in the chunk just opened -/

/-- `u` is `s` where the executing context has opened its single-operation chunk and changed at most its registers, its request and the
acknowledgements that it waits for. -/
structure Within (s u : State) : Prop where
  rest : u = { s with ctxs := u.ctxs }
  others : ∀ c, c ≠ s.cur → u.ctx c = s.ctx c
  me : ∃ p, u.me = { s.me with p := u.me.p, request := u.me.request, acks := u.me.acks, chunk := some { s.newChunk s.cur with start := p } }

theorem within_openChunk {s : State} (h : s.me.chunk = none) : Within s s.openChunk := by
  rw [open_eq h]
  refine ⟨rfl, fun c hc => State.ctx_setMe_ne s _ c hc, s.me.p, ?_⟩
  rw [State.me_setChunk]
  rfl

namespace Within

variable {s u : State}

theorem cur (h : Within s u) : u.cur = s.cur := by rw [h.rest]

/-- A further change of the executing context's entry in those fields. -/
theorem setMe (h : Within s u) (x : Ctx)
    (hx : ∃ p, x = { s.me with p := x.p, request := x.request, acks := x.acks, chunk := some { s.newChunk s.cur with start := p } }) :
    Within s (u.setMe x) := by
  refine ⟨?_, fun c hc => ?_, by rw [State.me_setMe]; exact hx⟩
  · show ({ u with ctxs := _ } : State) = _
    rw [h.rest]
    rfl
  · rw [State.ctx_setMe_ne _ _ _ (by rw [h.cur]; exact hc), h.others c hc]

theorem setP (h : Within s u) (p : Priv) : Within s (u.setP p) := by
  obtain ⟨q, hq⟩ := h.me
  refine h.setMe _ ⟨q, ?_⟩
  rw [hq]

theorem mapPriv (h : Within s u) (f : Priv → Priv) (hp : s.me.pending = none) : Within s (u.setMe (u.me.mapPriv f)) := by
  obtain ⟨q, hq⟩ := h.me
  refine h.setMe _ ⟨f q, ?_⟩
  rw [hq]
  unfold Ctx.mapPriv
  dsimp only
  rw [hp]
  rfl

theorem fenceDone (h : Within s u) (hp : s.me.pending = none) (sc : Nat) : Within s (u.fenceDone sc) := by
  obtain ⟨q, hq⟩ := h.me
  refine (h.setMe _ ⟨q, ?_⟩).mapPriv _ hp
  rw [hq]

theorem chunk (h : Within s u) : ∃ p, u.chunk = { s.newChunk s.cur with start := p } := by
  obtain ⟨p, hp⟩ := h.me
  refine ⟨p, ?_⟩
  unfold State.chunk State.chunkOf
  rw [show u.ctx u.cur = u.me from rfl, hp]
  rfl

theorem pending (h : Within s u) : u.me.pending = s.me.pending := by
  obtain ⟨p, hp⟩ := h.me
  rw [hp]

theorem status (h : Within s u) : u.me.status = s.me.status := by
  obtain ⟨p, hp⟩ := h.me
  rw [hp]

theorem ticket (h : Within s u) : u.ticket = s.ticket := by rw [h.rest]

theorem isEmpty (h : Within s u) : u.chunk.isEmpty = true := by
  obtain ⟨p, hp⟩ := h.chunk
  rw [hp]
  rfl

/-- Its chunk has the mode that the context has. -/
theorem det (h : Within s u) (ht : Turn s) : u.chunk.det = false := by
  obtain ⟨p, hp⟩ := h.chunk
  obtain ⟨hc, -, -, hd, -⟩ := ht
  rw [chunk_of_none hc] at hd
  rw [hp]
  exact hd

/-- Nothing has to commit before a trap. -/
theorem bare (h : Within s u) (ht : Turn s) : Bare u = true := by
  have ⟨_, hn, _⟩ := ht
  unfold Bare
  rw [h.isEmpty, h.det ht, h.pending, hn]
  rfl

theorem settled (h : Within s u) (hs : Settled s) : Settled u := by
  obtain ⟨q, hq⟩ := h.me
  obtain ⟨hg, hw, hl, hn, hd⟩ := hs
  refine ⟨by rw [hq]; exact hg, by rw [hq]; exact hw, ?_, ?_, ?_⟩
  · rw [h.rest]; exact hl
  · rw [h.rest]; exact hn
  · rw [h.rest]; exact hd

theorem plain (h : Within s u) (ht : Turn s) (hs : Settled s) : Plain u := by
  have hdet := h.det ht
  have hset := h.settled hs
  obtain ⟨p, hp⟩ := h.chunk
  obtain ⟨q, hq⟩ := h.me
  obtain ⟨-, hn, hr, -, htk, -, hrep⟩ := ht
  exact {
    opened := by rw [hq]; rfl
    fx := by rw [hp]; rfl
    gangs := by rw [hp]; rfl
    writes := by rw [hp]; rfl
    hs := by rw [hp]; rfl
    svc := by rw [hp]; rfl
    count := by rw [hp]; rfl
    det := hdet
    pending := h.pending.trans hn
    status := h.status.trans hr
    ticket := h.ticket.trans htk
    replay := by rw [h.rest]; exact hrep
    settled := hset }

/-- What such an effect has done once its chunk has committed. -/
theorem ran {t : State} (h : Within s u) (hn : s.me.pending = none) (hr : s.me.status = .runnable) (hpc : u.me.p.pc = s.me.p.pc)
    (hd : SingleDone u t) : Ran s t u.me.p := by
  obtain ⟨p, hp⟩ := h.chunk
  obtain ⟨q, hq⟩ := h.me
  have hcur := h.cur
  have hrest : SameRest s t := by
    refine sameRest_trans (t := u) ?_ hd.rest
    unfold SameRest
    rw [h.rest]
  refine ⟨⟨by rw [hrest], ?_, ?_, ?_, ?_, ?_, ?_, ?_⟩, hrest, fun k => ?_, fun k => ?_, fun n => ?_, fun c hc hx => ?_⟩
  · rw [hd.me, ← hpc]
  · rw [hd.me]
  · rw [hd.me]; exact h.pending.trans hn
  · rw [hd.me]
  · rw [hd.me]; exact h.status.trans hr
  · rw [hd.me, hq]
  · rw [hd.me, hq]
  · rw [hd.core k, show u.core k = s.core k by rw [h.rest]; rfl]
  · rw [hd.cluster k, show (u.commitSpm (clusterOf u.cur) u.chunk.spm).cluster k = s.cluster k by rw [hp, h.rest]; rfl]
  · rw [hd.pod n, show u.pod n = s.pod n by rw [h.rest]; rfl]
  · have e := h.others c hc
    rw [hd.others c (by rw [hcur]; exact hc) (by rw [e]; exact hx), e]

/-- The scalars after the commit of an effect that wrote none. -/
theorem val {t : State} (h : Within s u) (ht : Turn s) (hregs : u.me.p.regs = s.me.p.regs) (hd : SingleDone u t) (r : SReg) :
    t.val r = s.val r := by
  obtain ⟨hc, hn, -⟩ := ht
  have hcur : t.cur = s.cur := by rw [hd.rest, h.rest]
  cases r with
  | s n =>
    show (if n = 0 then 0 else t.me.p.regs[n]) = if n = 0 then 0 else s.me.p.regs[n]
    rw [hd.me, ← hregs]
    rfl
  | g n =>
    obtain ⟨p, hp⟩ := h.chunk
    have own (w : State) (h1 : w.me.chunk = none) (h2 : w.me.pending = none) : w.ownG? w.cur n.val = none := by
      rw [ownG_look]
      unfold Ctx.look
      rw [show (w.ctx w.cur).chunk = none from h1, show (w.ctx w.cur).pending = none from h2]
      rfl
    have hg : (t.core (coreOf s.cur)).g = (s.core (coreOf s.cur)).g := by
      rw [hd.core, if_pos (by rw [h.cur]), hp, show u.core (coreOf s.cur) = s.core (coreOf s.cur) by rw [h.rest]; rfl]
      rfl
    show (t.ownG? t.cur n.val).getD (t.core (coreOf t.cur)).g[n] = (s.ownG? s.cur n.val).getD (s.core (coreOf s.cur)).g[n]
    rw [own t (by rw [hd.me]) (by rw [hd.me]; exact h.pending.trans hn), own s hc hn, hcur, hg]

end Within

/-- A boundary instruction at its turn whose effect changes no register file completes. -/
theorem gives_ran {s u v : State} {i : Instr} {ops : List Opnd} {pre f : State → Res} {prep : Stop → State → State} {q : Priv}
    (he : exec i s = single s ops pre f (fun s _ => s) prep) (ht : Turn s) (hs : Settled s) (hp : pre s.openChunk = .ok v)
    (hf : f s.openChunk = .ok u) (hu : Within s u) (hq : u.me.p = q) (hpc : q.pc = s.me.p.pc) (hregs : q.regs = s.me.p.regs) :
    Gives i s (fun t => (∀ r, t.val r = s.val r) ∧ Ran s t q) := by
  subst hq
  have ⟨_, hn, hr, _⟩ := ht
  have hd := single_done u s.openChunk (hu.plain ht hs)
  exact ⟨_, he.trans (single_ok ht hp hf (hu.det ht)), hu.val ht hregs hd, hu.ran hn hr hpc hd⟩

/-- A boundary instruction at its turn that cannot complete settles as it says, with no commit between. -/
theorem single_stops {s v : State} {ops : List Opnd} {pre f : State → Res} {fin : State → Nat → State} {prep : Stop → State → State} {e : Stop}
    (ht : Turn s) (hp : pre s.openChunk = .ok v) (hf : f s.openChunk = .error e) :
    single s ops pre f fin prep = settle (prep e s.openChunk) ops (.error e) := by
  have ⟨hc, hn, _, _, htk, _⟩ := ht
  have hw := within_openChunk hc
  have hg := grantable_turn ht { s.openChunk.chunk with count := 1 } (hw.det ht) (Config.falseHits s.openChunk.moment)
  have hh : s.openChunk.harms (prep e s.openChunk) = false := by
    unfold State.harms
    rw [hw.ticket, htk]
  unfold single
  dsimp only
  rw [hp]
  dsimp only
  rw [hw.isEmpty, hw.pending, hn, dropFetch_open hc, hf]
  dsimp only at hg ⊢
  rw [hw.cur, hg, hh]
  rfl

/-! ## Fences (10 R207–R209, 15 R309) -/

/-- The scope in which a fence acts (15 R309). -/
def fenceScope (s : State) (scope : Nat) : Nat := if s.clamped scope then 2 else scope

/-- Nothing holds a fence of scope `sc` up: its probes are out, or it needs none, and no operation of the scope is under way. -/
def FenceReady (s : State) (sc : Nat) : Prop :=
  (sc = 4 → s.me.request = none → s.me.probeChips = []) ∧ s.satisfied s.cur (.fence sc) = true

theorem me_open {s : State} (h : s.me.chunk = none) : s.openChunk.me = { s.me with chunk := some (s.newChunk s.cur) } := by
  rw [open_eq h, State.me_setChunk]

theorem clamped_open {s : State} (h : s.me.chunk = none) (scope : Nat) : s.openChunk.clamped scope = s.clamped scope := by
  rw [open_eq h]
  rfl

/-- What a fence waits for is the same once its chunk is open. -/
theorem satisfied_open {s : State} (h : s.me.chunk = none) (sc : Nat) :
    s.openChunk.satisfied s.openChunk.cur (.fence sc) = s.satisfied s.cur (.fence sc) := by
  have hme := me_open h
  rw [open_eq h] at hme ⊢
  show ((s.setChunk (s.newChunk s.cur)).me.acks.isEmpty && s.agentsClear s.cur sc) = (s.me.acks.isEmpty && s.agentsClear s.cur sc)
  rw [hme]

/-- The test that a fence makes in its opened chunk. -/
theorem fence_waits {s : State} (h : s.me.chunk = none) (sc : Nat) :
    (!(decide (sc ≠ 4) || s.openChunk.me.request.isSome || s.openChunk.me.probeChips.isEmpty) ||
      !s.openChunk.satisfied s.openChunk.cur (.fence sc)) = true ↔ ¬ FenceReady s sc := by
  rw [satisfied_open h, me_open h]
  show (!(decide (sc ≠ 4) || s.me.request.isSome || s.me.probeChips.isEmpty) || !s.satisfied s.cur (.fence sc)) = true ↔ _
  have hprobe : (decide (sc ≠ 4) || s.me.request.isSome || s.me.probeChips.isEmpty) = true ↔
      (sc = 4 → s.me.request = none → s.me.probeChips = []) := by
    rw [Bool.or_eq_true, Bool.or_eq_true, decide_eq_true_eq, Option.isSome_iff_ne_none, List.isEmpty_iff]
    refine ⟨fun h h4 hr => ?_, fun h => ?_⟩
    · rcases h with (h | h) | h
      · exact absurd h4 h
      · exact absurd hr h
      · exact h
    · by_cases h4 : sc = 4
      · by_cases hr : s.me.request = none
        · exact .inr (h h4 hr)
        · exact .inl (.inr hr)
      · exact .inl (.inl h4)
  rw [FenceReady, ← hprobe, ← Bool.and_eq_true, Bool.not_eq_true, ← Bool.not_and, Bool.not_eq_true']

theorem fenceRes_blocks {s : State} {scope : Nat} (h : s.me.chunk = none) (hr : ¬ FenceReady s (fenceScope s scope)) :
    fenceRes scope s.openChunk = .error (.block (.fence (fenceScope s scope)) 0) := by
  unfold fenceRes
  dsimp only
  rw [clamped_open h]
  exact if_pos ((fence_waits h _).mpr hr)

theorem fenceRes_refused {s : State} {scope n : Nat} {g : Word} (h : s.me.chunk = none) (hr : FenceReady s (fenceScope s scope))
    (hp : s.me.p.refused (fenceScope s scope) = some (g, n)) :
    fenceRes scope s.openChunk = .error (.trap { code := Code.remote, w2 := g, own := some [word n, 0, 0, 0] }) := by
  have hp' : s.openChunk.me.p.refused (fenceScope s scope) = some (g, n) := by rw [me_open h]; exact hp
  unfold fenceRes
  dsimp only
  rw [clamped_open h]
  refine (if_neg (fun hw => (fence_waits h _).mp hw hr)).trans ?_
  rw [show s.openChunk.me.p.refused (if s.clamped scope then 2 else scope) = _ from hp']

/-- The state in which a fence that completes retires. -/
def fenceEnd (s : State) (scope : Nat) : State :=
  let t := s.openChunk.fenceDone (fenceScope s scope)
  if s.clamped scope then t.setP { t.me.p with tstat := { t.me.p.tstat with clamp := true } } else t

theorem fenceRes_done {s : State} {scope : Nat} (h : s.me.chunk = none) (hr : FenceReady s (fenceScope s scope))
    (hp : s.me.p.refused (fenceScope s scope) = none) : fenceRes scope s.openChunk = .ok (fenceEnd s scope) := by
  have hp' : s.openChunk.me.p.refused (fenceScope s scope) = none := by rw [me_open h]; exact hp
  unfold fenceRes
  dsimp only
  rw [clamped_open h]
  refine (if_neg (fun hw => (fence_waits h _).mp hw hr)).trans ?_
  rw [show s.openChunk.me.p.refused (if s.clamped scope then 2 else scope) = _ from hp']
  rfl

theorem fenceDone_p (s : State) (sc : Nat) : (s.fenceDone sc).me.p = { s.me.p with bankmask := s.me.p.bankmask &&& ~~~(scopeBits sc) } := by
  unfold State.fenceDone
  dsimp only
  rw [State.me_setMe, State.me_setMe]
  rfl

theorem fenceEnd_p (s : State) (scope : Nat) :
    (fenceEnd s scope).me.p = { s.me.p with
      bankmask := s.me.p.bankmask &&& ~~~(scopeBits (fenceScope s scope))
      tstat := if s.clamped scope then { s.me.p.tstat with clamp := true } else s.me.p.tstat } := by
  have hp : s.openChunk.me.p = s.me.p := (quiet_openChunk s).p
  unfold fenceEnd
  dsimp only
  split
  · rw [State.me_setP, fenceDone_p, hp]
  · rw [fenceDone_p, hp]

theorem within_fenceEnd {s : State} (h : s.me.chunk = none) (hp : s.me.pending = none) (scope : Nat) : Within s (fenceEnd s scope) := by
  have hw := (within_openChunk h).fenceDone hp (fenceScope s scope)
  unfold fenceEnd
  dsimp only
  split
  · exact hw.setP _
  · exact hw

/-- The state in which a fence that reports refusals takes its trap: they are gone from the record (10 R207). -/
def fenceTold (s : State) (scope : Nat) : State :=
  let sc := fenceScope s scope
  let t := (s.openChunk.fenceDone sc).setMe ((s.openChunk.fenceDone sc).me.mapPriv (fun p => p.clearRefused sc))
  if t.clamped scope then t.setMe (t.me.mapPriv (fun p => { p with tstat := { p.tstat with clamp := true } })) else t

theorem fenceTold_p (s : State) (scope : Nat) : ∃ b, (fenceTold s scope).me.p =
    { s.me.p.clearRefused (fenceScope s scope) with
      bankmask := s.me.p.bankmask &&& ~~~(scopeBits (fenceScope s scope)), tstat := { s.me.p.tstat with clamp := b } } := by
  have hp : s.openChunk.me.p = s.me.p := (quiet_openChunk s).p
  have hd := fenceDone_p s.openChunk (fenceScope s scope)
  rw [hp] at hd
  have ht : ((s.openChunk.fenceDone (fenceScope s scope)).me.mapPriv (fun p => p.clearRefused (fenceScope s scope))).p =
      { s.me.p.clearRefused (fenceScope s scope) with bankmask := s.me.p.bankmask &&& ~~~(scopeBits (fenceScope s scope)) } := by
    show (s.openChunk.fenceDone (fenceScope s scope)).me.p.clearRefused (fenceScope s scope) = _
    rw [hd]
    rfl
  unfold fenceTold
  dsimp only
  split
  · refine ⟨true, ?_⟩
    rw [State.me_setMe, State.me_setMe]
    unfold Ctx.mapPriv at ht ⊢
    dsimp only at ht ⊢
    rw [ht]
    rfl
  · refine ⟨s.me.p.tstat.clamp, ?_⟩
    rw [State.me_setMe, ht]
    rfl

theorem within_fenceTold {s : State} (h : s.me.chunk = none) (hp : s.me.pending = none) (scope : Nat) : Within s (fenceTold s scope) := by
  have hw := ((within_openChunk h).fenceDone hp (fenceScope s scope)).mapPriv (fun p => p.clearRefused (fenceScope s scope)) hp
  unfold fenceTold
  dsimp only
  split
  · exact hw.mapPriv _ hp
  · exact hw

/-- The state in which a fence that is held up blocks: a system fence sends its probes once (10 R209). -/
def fenceHeld (s : State) (scope : Nat) : State :=
  if fenceScope s scope = 4 && s.openChunk.me.request.isNone then s.openChunk.sendProbes else s.openChunk

/-- The probes of a fence go out on links; its context keeps its registers. -/
theorem sendProbes_p (u : State) : u.sendProbes.me.p = u.me.p := by
  unfold State.sendProbes
  dsimp only
  refine (congrArg Ctx.p (foldl_keeps State.me _ (fun v chip => ?_) _ _)).trans ?_
  · rfl
  · show ((u.newRid.2.setCtx u.cur _).ctx u.cur).p = u.me.p
    rw [State.ctx_setCtx]
    rfl

theorem fenceHeld_p (s : State) (scope : Nat) : (fenceHeld s scope).me.p = s.me.p := by
  have hp : s.openChunk.me.p = s.me.p := (quiet_openChunk s).p
  unfold fenceHeld
  split
  · rw [sendProbes_p, hp]
  · exact hp

/-- What blocking leaves of the executing context (12 R235). -/
theorem blockOn_spec (u : State) (on : Wait) (w2 : Word) (ops : List Opnd) :
    let t := u.blockOn on w2 ops
    t.me.status = .blocked ∧ t.me.p = u.me.p ∧ t.me.chunk = none ∧ ∃ x, t.me.wait = some x ∧ x.on = on ∧ x.w2 = w2 := by
  unfold State.blockOn
  dsimp only
  rw [State.me_setMe]
  refine ⟨rfl, rfl, rfl, _, rfl, ?_⟩
  split <;> exact ⟨rfl, rfl⟩

section
variable {s : State} {i : Instr} {scope : Nat}

/-- A fence that nothing holds up and that has nothing to report completes, and clears the bank bits of its scope (10 R208, R209). -/
theorem fence_completes (he : exec i s = fence scope s) (ht : Turn s) (hs : Settled s) (hr : FenceReady s (fenceScope s scope))
    (hp : s.me.p.refused (fenceScope s scope) = none) :
    Gives i s (fun t => (∀ r, t.val r = s.val r) ∧ Ran s t { s.me.p with
      bankmask := s.me.p.bankmask &&& ~~~(scopeBits (fenceScope s scope))
      tstat := if s.clamped scope then { s.me.p.tstat with clamp := true } else s.me.p.tstat }) :=
  gives_ran he ht hs rfl (fenceRes_done ht.1 hr hp) (within_fenceEnd ht.1 ht.2.1 scope) (fenceEnd_p s scope) rfl rfl

/-- A fence that nothing holds up reports the refusals of its scope, and clears their records (10 R207). -/
theorem fence_reports {g : Word} {n : Nat} (he : exec i s = fence scope s) (ht : Turn s) (hr : FenceReady s (fenceScope s scope))
    (hp : s.me.p.refused (fenceScope s scope) = some (g, n)) :
    Gives i s (fun t => t.me.status = .trapped ∧
      t.me.trap = some (trapMsg s 0x0D (s.me.p.pc.zeroExtend 64) g [BitVec.ofNat 64 n, 0, 0, 0]) ∧ t.me.p.pc = s.me.p.pc ∧
      ∀ k : Fin 5, t.me.p.refusals[k] = if k.val ≤ fenceScope s scope then {} else s.me.p.refusals[k]) := by
  let r : TrapReq := { code := Code.remote, w2 := g, own := some [word n, 0, 0, 0] }
  have hx : exec i s = .next ((fenceTold s scope).trapped [] r) := by
    rw [he]
    unfold fence
    rw [single_stops ht rfl (fenceRes_refused ht.1 hr hp)]
    dsimp only
    rw [clamped_open ht.1]
    rfl
  obtain ⟨b, hpriv⟩ := fenceTold_p s scope
  obtain ⟨hsame, -, htaken⟩ := trapped_spec (fenceTold s scope) [] r rfl
  rw [if_pos ((within_fenceTold ht.1 ht.2.1 scope).bare ht)] at htaken
  obtain ⟨hstatus, htrap, -⟩ := htaken
  refine ⟨_, hx, hstatus, ?_, ?_, fun k => ?_⟩
  · rw [htrap]
    unfold State.trapOf trapMsg
    dsimp only
    rw [hpriv]
    rfl
  · rw [hsame, hpriv]
    rfl
  · rw [hsame, hpriv]
    exact Vector.getElem_ofFn k.isLt

/-- A fence that something holds up blocks, and a system fence with probes to send sends them (10 R209). -/
theorem fence_blocks (he : exec i s = fence scope s) (ht : Turn s) (hr : ¬ FenceReady s (fenceScope s scope)) :
    Blocks i s (.fence (fenceScope s scope)) 0 := by
  have hx : exec i s = .next ((fenceHeld s scope).blockOn (.fence (fenceScope s scope)) 0 []) := by
    rw [he]
    unfold fence
    rw [single_stops ht rfl (fenceRes_blocks ht.1 hr)]
    dsimp only
    rw [clamped_open ht.1]
    rfl
  obtain ⟨hstatus, hp, hchunk, hwait⟩ := blockOn_spec (fenceHeld s scope) (.fence (fenceScope s scope)) 0 []
  exact ⟨_, hx, hstatus, hp.trans (fenceHeld_p s scope), hchunk, hwait⟩

end

theorem commit_single (s : State) : exec .commit s = single s [] (fun s => .ok s) (fun s => .ok s) := exec_commit s

/-- Settles O40: before its turn a boundary instruction ends the open chunk, and at its turn a fence completes, reports or blocks. -/
theorem fencesAndCommit : Obligations.FencesAndCommit := by
  intro s i scope hi sc bits
  have he : exec i s = fence scope s := by
    simp only [List.mem_cons, Prod.mk.injEq, List.not_mem_nil, or_false] at hi
    rcases hi with ⟨rfl, rfl⟩ | ⟨rfl, rfl⟩ | ⟨rfl, rfl⟩ | ⟨rfl, rfl⟩ | ⟨rfl, rfl⟩ <;> rfl
  refine ⟨fun hn => ⟨single_endsFirst he rfl hn, single_endsFirst (commit_single s) rfl hn⟩, unpair_of_unpaired, ?_, ?_, ?_⟩
  · intro ht hs
    obtain ⟨t, hx, hv, hran⟩ := gives_ran (commit_single s) ht hs rfl rfl (within_openChunk ht.1) (quiet_openChunk s).p rfl rfl
    exact ⟨t, hx, hran, hv⟩
  · intro ht hs hsat hprobe
    exact ⟨fence_completes he ht hs ⟨hprobe, hsat⟩, fun g n => fence_reports he ht ⟨hprobe, hsat⟩⟩
  · intro ht hw
    refine fence_blocks he ht ?_
    rintro ⟨hprobe, hsat⟩
    rcases hw with hw | ⟨h4, hreq, hchips⟩
    · rw [show s.satisfied s.cur (.fence sc) = true from hsat] at hw
      cases hw
    · exact hchips (hprobe h4 hreq)

end Sys2Proof.Proofs.Formats
end

section
/-! Acceptance of a launch (12 R243) in a pod whose cluster map names one cluster twice. The statement on `launch` is about every state, and so
for such a pod too, which no `ALLOC_POD` makes (15 R291: its map has one bit for each cluster). Each pod-relative cluster of CLUSTERS gets an
allocation of its own: the first takes the last free range of the cluster, and the second, which finds none, is placed at offset 0, over an
allocation that was there. -/

namespace Sys2Proof.Proofs.Launch

open Sys2Proof.Machine

/-- A descriptor (03 R71): ENTRY 0x100000 in FP32 under RNE, one unit with a mebibyte of scratchpad, pod-relative clusters 0 and 1. -/
def mebibyteBlock : List Byte :=
  leBytes 8 (0x100000 + 8 * 2 ^ 48) ++ leBytes 8 (1 + 20 * 2 ^ 32) ++ leBytes 8 3 ++ List.replicate 104 0

/-- The extension block of a descriptor that names none (03 R72). -/
def zeroExtension : List Byte := List.replicate 192 0

/-- A pod of two pod-relative clusters that are both cluster 0, with one role. -/
def twicePod : Pod :=
  { vf := 1, clusters := [0, 0], state := .active, resident := true, image := some ⟨[⟨1, 0x100000, 0x110000, 0⟩], [], [], []⟩ }

/-- The unit of context 1 stands at a `launch` whose descriptor the commit before it has read. The lower mebibyte of its cluster's scratchpad is
allocated and holds 7 at offset 5; the page at address 0 translates to itself. -/
def twiceState : State :=
  { State.reset with
    mem := [(0, 0x03), (1, 0x10), (0x1000, 0x1D)]
    vfs := [(1, { root1 := some 0, stage2 := [(0, 0)] })]
    pods := [(32, twicePod)]
    clusters := [(0, { spm := [(5, 7)], allocs := [(0, 0, 2 ^ 20)] })]
    ctxs := [(1, { status := .runnable, launching := some { block := mebibyteBlock, ext := some (some zeroExtension) } })]
    cur := 1 }

theorem relock_twiceState (d : Nat) : (twiceState.die d).relock = none := by
  show ((Vector.replicate 4 ({} : Die)).getD d {}).relock = none
  by_cases hd : d < 4 <;> simp [Vector.getD, hd]

theorem podOf_twiceState : twiceState.podOf twiceState.cur = some 32 := by decide

theorem turn_twiceState : Turn twiceState := by
  refine ⟨rfl, rfl, rfl, by decide, rfl, relock_twiceState, fun p hp => ?_⟩
  rw [podOf_twiceState] at hp
  cases hp
  rfl

theorem pod_twiceState (p : Nat) : twiceState.pod p = if 32 = p then twicePod else {} := rfl

theorem still_twiceState : Still twiceState := by
  refine ⟨fun _ => rfl, fun p => ?_⟩
  rw [pod_twiceState]
  split <;> rfl

theorem settled_twiceState : Settled twiceState := by
  refine ⟨rfl, by decide, fun x hx => ?_, still_twiceState⟩
  rw [podOf_twiceState] at hx
  cases hx

theorem eq_ok_of_toOption {ε α : Type} {x : Except ε α} {a : α} (h : x.toOption = some a) : x = .ok a := by
  cases x with
  | error e => cases h
  | ok b => cases h; rfl

/-- The 128 bytes at address 0 lie in one page, which translates to itself. -/
theorem maps_twiceState : Maps twiceState .read 0 128 BitVec.toNat := by
  have hp : pieces (128 / 65536 + 2) 0 128 = [(0, 128)] := by decide
  have ht : (translate twiceState.seen twiceState.myVf 0 .read).toOption = some (.mem 0, [.line 64, .line 0]) := by decide +kernel
  intro p h
  rw [hp] at h
  cases List.mem_singleton.mp h
  exact ⟨.mem 0, [.line 64, .line 0], eq_ok_of_toOption ht, nofun, rfl⟩

/-- Every check of 03 R74 passes: before the acceptance the cluster has a free mebibyte. -/
theorem checkLaunch_twiceState :
    twiceState.checkLaunch twiceState.myPodId mebibyteBlock (some zeroExtension) =
      .ok (launchOfBlocks mebibyteBlock zeroExtension 0x110000) :=
  eq_ok_of_toOption (by decide +kernel)

/-- The launch allocates the upper mebibyte, and the lower one once more: what stood there is zeroed. -/
theorem launch_twiceState {t : State} (h : exec (.launch (.s 0) (.s 0)) twiceState = .next t) :
    (t.cluster 0).allocs = [(0, 0, 2 ^ 20), (0, 2 ^ 20, 2 ^ 20), (0, 0, 2 ^ 20)] ∧ (t.cluster 0).spm.read 5 = 0 := by
  have hrun : (match exec (.launch (.s 0) (.s 0)) twiceState with
      | .next u => decide ((u.cluster 0).allocs = [(0, 0, 2 ^ 20), (0, 2 ^ 20, 2 ^ 20), (0, 0, 2 ^ 20)] ∧ (u.cluster 0).spm.read 5 = 0)
      | _ => false) = true := by decide +kernel
  rw [h] at hrun
  exact of_decide_eq_true hrun

/-- Refutes O41: the pod's cluster map is not said to be without repeats. In `twiceState` the one new allocation begins at 2^20, and offset 5 below
it changes from 7 to 0. -/
theorem not_launchSuspendAndExit : ¬ Obligations.LaunchSuspendAndExit := by
  unfold Obligations.LaunchSuspendAndExit
  intro h
  obtain ⟨hturn, -⟩ := h twiceState (.s 0) (.s 0) false false 0 BitVec.toNat
  obtain ⟨hlaunch, -⟩ := hturn turn_twiceState settled_twiceState
  obtain ⟨-, haccept⟩ := hlaunch mebibyteBlock (some zeroExtension) rfl maps_twiceState (.inl rfl)
  obtain ⟨t, hrun, -, -, -, -, -, -, hcluster⟩ := haccept _ checkLaunch_twiceState (by decide) (by decide)
  obtain ⟨hallocs, hzero⟩ := launch_twiceState hrun
  obtain ⟨-, hkept⟩ := hcluster 0
  have hsame : (t.cluster 0).spm.read 5 = (twiceState.cluster 0).spm.read 5 := by
    refine hkept 5 (fun a ha hnew => ?_)
    rw [hallocs] at ha
    have hold : (twiceState.cluster 0).allocs = [(0, 0, 2 ^ 20)] := rfl
    rw [hold] at hnew
    simp only [List.mem_cons, List.not_mem_nil, or_false] at ha hnew
    rcases ha with ha | rfl | ha
    · exact absurd ha hnew
    · exact .inl (by decide)
    · exact absurd ha hnew
  rw [hzero] at hsame
  exact absurd hsame (by decide)

end Sys2Proof.Proofs.Launch
end
